-- ==== Sys2Proof/Word.lean ====
section
/-! DEFINITION. The word types of the Pelajo 2200 and the two fixed-size families the part is built from
(four streams, two heads), with their plainest access functions. -/

namespace Sys2Proof

/-- One byte of host memory. -/
abbrev Byte := BitVec 8

/-- A 32-bit register of the window, a frame counter, a batch number, a completion value (R157, R84, R65, R144). -/
abbrev Word := BitVec 32

/-- A 64-bit host address (R160, R173, R175). -/
abbrev Address := BitVec 64

/-- A panel memory pixel: red in bits 23..16, green in 15..8, blue in 7..0 (R1). -/
abbrev Pixel := BitVec 24

/-- A record's tag (R50). -/
abbrev Tag := BitVec 16

/-- The nine cause bits (R153, R172). -/
abbrev Causes := BitVec 9

/-- A stream, 0..3 (section 5.3 of the conventions). -/
abbrev StreamId := Fin 4

/-- A head, 0..1. -/
abbrev HeadId := Fin 2

/-- A window context of one stream, 0..3. -/
abbrev ContextId := Fin 4

/-- One value for each of the four streams (or for each of the four contexts of a stream). -/
structure Four (α : Type) where
  at0 : α
  at1 : α
  at2 : α
  at3 : α
deriving DecidableEq, Repr

/-- The value of number `i`. -/
def Four.get {α : Type} (x : Four α) (i : Fin 4) : α :=
  match i with
  | 0 => x.at0
  | 1 => x.at1
  | 2 => x.at2
  | 3 => x.at3

/-- The four values with that of number `i` replaced. -/
def Four.set {α : Type} (x : Four α) (i : Fin 4) (v : α) : Four α :=
  match i with
  | 0 => { x with at0 := v }
  | 1 => { x with at1 := v }
  | 2 => { x with at2 := v }
  | 3 => { x with at3 := v }

/-- Four times the same value. -/
def Four.all {α : Type} (v : α) : Four α := ⟨v, v, v, v⟩

/-- One value for each of the two heads. -/
structure Two (α : Type) where
  at0 : α
  at1 : α
deriving DecidableEq, Repr

/-- The value of head `i`. -/
def Two.get {α : Type} (x : Two α) (i : Fin 2) : α :=
  match i with
  | 0 => x.at0
  | 1 => x.at1

/-- The two values with that of head `i` replaced. -/
def Two.set {α : Type} (x : Two α) (i : Fin 2) (v : α) : Two α :=
  match i with
  | 0 => { x with at0 := v }
  | 1 => { x with at1 := v }

/-- Both values changed by one function. -/
def Two.map {α β : Type} (f : α → β) (x : Two α) : Two β := ⟨f x.at0, f x.at1⟩

/-- Twice the same value. -/
def Two.all {α : Type} (v : α) : Two α := ⟨v, v⟩

/-- All four stream numbers, in order. -/
def allStreams : List StreamId := [0, 1, 2, 3]

/-- Both head numbers, in order. -/
def allHeads : List HeadId := [0, 1]

/-- Data held under number keys: a list of pairs, keys strictly rising (the panel's written pixels, the components
a palette read has brought in, the source pixels read ahead). -/
abbrev Sparse (α : Type) := List (Nat × α)

end Sys2Proof
end

