-- ==== Sys2Proof/Config.lean ====
section
/-! DEFINITION. What the manual fixes as a number of the part, and the free values: what it leaves open. A free value has
no body, so that nothing proved can rest on it. -/

namespace Sys2Proof

/-- The value a pixel holds after power-on reset until it is written: unknown, and not the same from pixel to pixel or
from one power-on to the next (R5). Arguments: how many power-on resets there have been, and the pixel's cell. Log 1. -/
opaque Config.powerOnPixel : Nat → Nat → Pixel

/-- Which of several tries that reach one piece of state in one event is taken first, where the manual says
"in either order" (R20, R55, R145). Argument: the model's count of such choices. Log 2. -/
opaque Config.choice : Nat → Nat

/-- Whether a job stopped at a pixel boundary while it deals with a pixel stops after that pixel or before it (R41
allows both). Argument: the model's count of choices. Log 3. -/
opaque Config.finishesPixel : Nat → Bool

/-- Whether a BANDS record that declares 3 or 4 slots and a band count outside 1..8 passes the slot count check and ends
BAD_FIELD, or fails it and ends BAD_SIZE: R52 says both. Log 7. -/
opaque Config.wideBandsPass : Bool

/-- Columns of panel memory, and lines (R1). -/
def panelSide : Nat := 2048

/-- The most jobs in the job list (R20). -/
def maxJobs : Nat := 16

/-- The most jobs of one stream in the job list (R20). -/
def maxStreamJobs : Nat := 8

/-- The most completions of class OTHER in the outbound list (R144). -/
def maxOther : Nat := 8

/-- The places of a present queue (R113). -/
def queuePlaces : Nat := 4

/-- The largest pixel count a record may carry (R25). -/
def maxCount : Nat := 4194304

/-- What a read of IDENT returns: part 2200, revision 1, four streams, two heads (R158, R172). -/
def identWord : Word := 0x02410898#32

end Sys2Proof
end

