-- ==== Sys2Proof/Syntax.lean ====
section
/-! DEFINITION. The commands of the block: one constructor per row of spec/opcode_table.json. Each is one whole,
indivisible step of the part (95_what_each_step_holds.md): a host access to the register window, an answer of the host
bus, a record taken up by its stream's Sequencer, an access served by the memory port, or an event of the scan or of the
millisecond timebase. -/

namespace Sys2Proof

/-- What the host bus answers to a read of the part. `α` is what the read returns.
* `data`: the bytes read.
* `busError`: the read ended in a bus error.
* `late`: the answer, data or bus error, to a read the part has given up in an earlier event (a RESET, an entry to
  FAULT, a FLUSH, the end of the job that issued it); such an answer is discarded when it arrives
  (R26, R49, R112, R163). -/
inductive ReadAnswer (α : Type) where
  | data (bytes : α)
  | busError
  | late
deriving DecidableEq, Repr

/-- What the host bus answers to a write of the part; `late` as for `ReadAnswer` (R43, R44, R156). -/
inductive WriteAnswer where
  | accepted
  | busError
  | late
deriving DecidableEq, Repr

/-- Which half of the Setup Table address a write replaces (R160). -/
inductive AddressHalf where
  | low
  | high
deriving DecidableEq, Repr

/-- The commands. A record command names its stream alone: the record itself stands in the stream's current-record
buffer, from which the Sequencer checks and dispatches it (R50, R178). -/
inductive Instr where
  /-- Power-on reset (R170). -/
  | powerOnReset
  /-- A write to CONTROL with command code 1 (R163, R166). -/
  | start
  /-- A write to CONTROL with command code 2 (R167). -/
  | stop
  /-- A write to CONTROL with command code 3 (R168). -/
  | reset
  /-- A write to CONTROL with command code 4 and a stream number (R62). -/
  | resume (s : StreamId)
  /-- A write to CONTROL with command code 5 and a stream number (R63). -/
  | flush (s : StreamId)
  /-- A write of a 32-bit value to POST (R46). -/
  | post (value : Word)
  /-- A write of a 32-bit value to RETIRE (R149). -/
  | retire (value : Word)
  /-- A write of a 32-bit value to CAUSE (R154). -/
  | causeWrite (value : Word)
  /-- A write of a 32-bit value to CAUSE_ENABLE (R155). -/
  | causeEnableWrite (value : Word)
  /-- A write of a 32-bit value to SETUP_LO or SETUP_HI (R160). -/
  | setupAddressWrite (half : AddressHalf) (value : Word)
  /-- A write of a 32-bit value to any other place of the 64-byte window: IDENT, STATUS, an address that names no
  register (R157), or CONTROL with a code that names no command (R161). -/
  | registerWriteOther (offset : BitVec 6) (value : Word)
  /-- The answer to the Setup Table read outstanding: 64 bytes (R163). -/
  | setupReadAnswer (answer : ReadAnswer (List Byte))
  /-- The answer to the submission slot read outstanding: 64 bytes (R49). -/
  | slotReadAnswer (answer : ReadAnswer (List Byte))
  /-- The Sequencer of stream `s` takes up its whole WINDOW record (R7). -/
  | window (s : StreamId)
  /-- The same for a TRANSFER record (R25). -/
  | transfer (s : StreamId)
  /-- The same for a FILL record (R25). -/
  | fill (s : StreamId)
  /-- The same for a READBACK record (R25). -/
  | readback (s : StreamId)
  /-- The same for a CLAIM record (R71). -/
  | claim (s : StreamId)
  /-- The same for a RELEASE record (R74). -/
  | release (s : StreamId)
  /-- The same for a BANDS record (R106). -/
  | bands (s : StreamId)
  /-- The same for a SCROLL record (R107). -/
  | scroll (s : StreamId)
  /-- The same for an OUTPUT record (R108). -/
  | output (s : StreamId)
  /-- The same for a PALETTE record (R110). -/
  | palette (s : StreamId)
  /-- The answer to the read of component `k` of the palette read in progress on head `h`: a 16-bit word, least
  significant byte at the lower address (R111). -/
  | paletteReadAnswer (h : HeadId) (k : Nat) (answer : ReadAnswer (BitVec 16))
  /-- The Sequencer of stream `s` takes up its whole PRESENT record (R114). -/
  | present (s : StreamId)
  /-- The same for a LINK record (R133). -/
  | link (s : StreamId)
  /-- The same for a LIGHT record (R138). -/
  | light (s : StreamId)
  /-- The same for a WAIT record (R66, R67). -/
  | wait (s : StreamId)
  /-- The same for a NOTE record (R68). -/
  | note (s : StreamId)
  /-- The memory port serves the engine's access (R3). -/
  | engineAccessServed
  /-- The answer to the read of source pixel `n` (counting from 1) of the running TRANSFER: the pixel's bytes, the byte
  at the lowest address in bits 7..0, bits above the format's bytes unused (R26, R27). -/
  | sourceReadAnswer (n : Nat) (answer : ReadAnswer Word)
  /-- The answer to the READBACK destination word write outstanding (R32). -/
  | readbackWordAnswer (answer : WriteAnswer)
  /-- The answer to the completion ring write outstanding (R148). -/
  | completionWriteAnswer (answer : WriteAnswer)
  /-- One line period after its last line start, head `h` starts its next line (R84). -/
  | lineStart (h : HeadId)
  /-- A mark of the millisecond timebase (R73, R130). -/
  | millisecondMark
  /-- The waiter of stream `s` on head `h`, whose remaining time has reached 0, expires (R73). -/
  | waiterExpiry (h : HeadId) (s : StreamId)
  /-- The timed link step of head `h`, whose timer has reached 0, ends (R131). -/
  | linkStepEnd (h : HeadId)
  /-- The memory port serves the next scan read of head `h` (R4, R96). -/
  | scanReadServed (h : HeadId)
deriving DecidableEq, Repr

end Sys2Proof
end

