-- ==== Sys2Proof/Machine/State.lean ====
section
/-! DEFINITION. The state of the part: every register, list, buffer, counter and mode the manual gives one of its blocks,
as plain data, and the state after power-on reset. Fields the model adds of its own say so. -/

namespace Sys2Proof.Machine

/-! ## Outcomes -/

/-- No command stops the machine: the manual gives every event an effect, its FAULT is a device state (R169), and an
event the part does not raise in a state leaves that state unchanged (log 4). So there is no way to stop, which is safe:
nothing is shut out. -/
inductive Fault where
deriving DecidableEq, Repr

/-- Why a command has no meaning. -/
inductive Refusal where
  /-- Raised by the dispatch for a command that has no meaning yet, by its mnemonic; safe. No arm raises it. -/
  | notModelled (mnemonic : String)
deriving DecidableEq, Repr

/-! ## Statuses, flags and completions (R144, R150) -/

/-- The statuses of R150. -/
inductive Status where
  | done | skipped | abandoned | cancelled | superseded
  | badKind | badSize | badField | noWindow | notOwner | claimRefused | claimTimeout | sourceError | fetchError
deriving DecidableEq, Repr

/-- The flags of R150. -/
structure Flags where
  overrun : Bool := false
  gateBypassed : Bool := false
  alreadyHeld : Bool := false
  partialEntry : Bool := false
  notScanning : Bool := false
  palette : Bool := false
deriving DecidableEq, Repr

/-- An outcome: what a completion says beside naming its record. -/
structure Outcome where
  status : Status
  valueA : Word := 0
  valueB : Word := 0
  flags : Flags := {}
deriving DecidableEq, Repr

/-- What a block keeps of a record's header for its completion: stream, tag, the two flags and the ring index of the
first slot (R19, R70, R114, R128, R137); and, the model's own (log 27), which reading of that slot it was, a number that
rises from reading to reading, and whether a job-error halt has counted the slot as posted again (R61). -/
structure RecordRef where
  stream : StreamId
  tag : Tag
  notify : Bool
  silent : Bool
  ringIndex : Nat
  reading : Nat := 0
  rewound : Bool := false
deriving DecidableEq, Repr

/-- An entry of the outbound list (R144). `origin` is the head of a COMMIT completion; it is none for class OTHER.
`reading` is that of its record. -/
structure Completion where
  stream : StreamId
  kind : Byte
  outcome : Outcome
  tag : Tag
  ringIndex : Nat
  notify : Bool
  origin : Option HeadId := none
  reading : Nat := 0
deriving DecidableEq, Repr

/-! ## Window contexts (R6) -/

/-- Which axis the cursor steps along first. -/
inductive Order where
  | rowFirst | columnFirst
deriving DecidableEq, Repr

/-- The direction of steps along an axis. -/
inductive Direction where
  | inc | dec
deriving DecidableEq, Repr

/-- A position in panel memory. -/
structure Position where
  column : Nat
  line : Nat
deriving DecidableEq, Repr

/-- The window of a SET context. -/
structure Window where
  xStart : Nat
  xEnd : Nat
  yStart : Nat
  yEnd : Nat
  order : Order
  xDir : Direction
  yDir : Direction
deriving DecidableEq, Repr

/-- A window context: UNSET, or SET with its window and its cursor, where no cursor position means ENDED. -/
inductive Context where
  | unset
  | set (window : Window) (cursor : Option Position)
deriving DecidableEq, Repr

/-! ## Pixel jobs (R19) -/

/-- The source formats of R27. -/
inductive Format where
  | r4g4b4 | r5g6b5 | r6g6b6 | r8g8b8 | x8r8g8b8 | i8
deriving DecidableEq, Repr

/-- Where a job starts in its context: mode NEW at the start corner, mode CONTINUE where the cursor stands (R13). -/
inductive Mode where
  | fresh | resumed
deriving DecidableEq, Repr

/-- The sense of a colour key (R30). -/
inductive KeySense where
  | skipMatch | writeMatch
deriving DecidableEq, Repr

/-- A key part (R30). -/
structure Key where
  key : Pixel
  mask : Pixel
  sense : KeySense
deriving DecidableEq, Repr

/-- A run part: pixels in a run, and bytes from one run to the next (R29). -/
structure Run where
  length : Nat
  stride : Nat
deriving DecidableEq, Repr

/-- A gate part (R33). -/
structure Gate where
  head : HeadId
  relative : Bool
  line : Nat
  frame : Word
deriving DecidableEq, Repr

/-- The gate state of a job. -/
inductive GateState where
  | none | closed | opened
deriving DecidableEq, Repr

/-- The record fields of a job, by kind. -/
inductive JobWork where
  | window (context : ContextId) (window : Window)
  | transfer (context : ContextId) (mode : Mode) (source : Address) (format : Format) (count : Nat)
      (run : Option Run) (key : Option Key)
  | fill (context : ContextId) (mode : Mode) (colour : Pixel) (count : Nat)
  | readback (context : ContextId) (mode : Mode) (destination : Address) (count : Nat)
deriving DecidableEq, Repr

/-- The state of a job; an ENDED job holds its outcome, and whether it is the job the engine last ran, which keeps the
engine busy until the job has left the list (R21, R23). -/
inductive JobState where
  | queued
  | running
  | ended (outcome : Outcome) (byEngine : Bool)
deriving DecidableEq, Repr

/-- A job of the job list (R19). `slots` is its record's slot count, for the halt point of R61. -/
structure Job where
  ref : RecordRef
  slots : Nat
  work : JobWork
  batch : Word
  gate : Option Gate
  gateState : GateState
  target : Option (Word × Nat)
  bypassed : Bool
  state : JobState
deriving DecidableEq, Repr

/-- A write to host memory that is outstanding: its host address and its bytes, the first for the lowest address. -/
structure HostWrite where
  address : Address
  bytes : List Byte
deriving DecidableEq, Repr

/-- What the engine is doing with the pixel it is dealing with: nothing; waiting for a source pixel; an access that
writes a pixel, or one that reads a pixel, is presented to the memory port; a READBACK word write is outstanding (R32). -/
inductive EnginePhase where
  | idle
  | source
  | write (pixel : Pixel)
  | read
  | word (write : HostWrite)
deriving DecidableEq, Repr

/-- The engine at work on the RUNNING job: pixels processed and pixels written so far (R14), its phase, and the answers
of source reads that have come in ahead of their pixel, by pixel number (R26; none stands for a bus error). -/
structure Engine where
  processed : Nat
  written : Nat
  phase : EnginePhase
  ahead : Sparse (Option Word)
deriving DecidableEq, Repr

/-- Panel memory: the pixels written since the last power-on reset, by cell number 2048 x line + column, and the number
of power-on resets so far, which names the unknown content of the others (R1, R5; the count is the model's own, log 1). -/
structure Panel where
  powerOns : Nat
  cells : Sparse Pixel
deriving DecidableEq, Repr

/-! ## Streams (R45, R50, R58) -/

/-- The fetch class of a stream. -/
inductive FetchClass where
  | normal | urgent
deriving DecidableEq, Repr

/-- The ring record of an enabled stream (R45). -/
structure Ring where
  base : Address
  size : Nat
  fetchClass : FetchClass
  post : Nat
  fetch : Nat
deriving DecidableEq, Repr

/-- Where the current record of a stream stands. -/
inductive RecordPhase where
  /-- Its declared slots have not all arrived (R51). -/
  | reading
  /-- It is whole, and its kind and slot count have passed (steps 1 and 2 of R53). -/
  | whole
  /-- Held at step 5 with a checked record (R55). -/
  | heldJobSpace
  | heldQueueFull
  | heldPaletteHazard
  /-- Dispatched, the stream waiting for its outcome (R56). -/
  | waitLease
  | waitPaletteRead
  | waitCondition
deriving DecidableEq, Repr

/-- The current record: the ring index of its first slot, the slots read so far (64 bytes each), where it stands, and
which reading of its first slot it is. -/
structure CurrentRecord where
  index : Nat
  slots : List (List Byte)
  phase : RecordPhase
  reading : Nat := 0
deriving DecidableEq, Repr

/-- A stream: its ring record (none when DISABLED), its current record, the completions its Sequencer keeps (R57, R136),
its halt point while HALTED, and its batch counter (R65). -/
structure Stream where
  ring : Option Ring
  current : Option CurrentRecord
  kept : List Completion
  halt : Option Nat
  batch : Word
deriving DecidableEq, Repr

/-- The slot read outstanding: its stream, its host address, and whether its answer is to be discarded (R49). -/
structure SlotRead where
  stream : StreamId
  address : Address
  discard : Bool
deriving DecidableEq, Repr

/-- The Fetch Unit's arbiter (R48). -/
structure FetchUnit where
  read : Option SlotRead
  urgentRun : Nat
  lastUrgent : StreamId
  lastNormal : StreamId
deriving DecidableEq, Repr

/-! ## Leases (R70) -/

/-- A waiter: its CLAIM, and its remaining time in ms, none for UNLIMITED. -/
structure Waiter where
  ref : RecordRef
  remaining : Option Nat
deriving DecidableEq, Repr

/-- A head's lease: its holder (none when FREE), and the waiters, oldest first. -/
structure Lease where
  holder : Option StreamId
  waiters : List Waiter
deriving DecidableEq, Repr

/-! ## Bands, pictures and palettes (R91, R93, R103) -/

/-- The use of a band. -/
inductive BandUse where
  | direct | indexed
deriving DecidableEq, Repr

/-- A band descriptor (R93). -/
structure Band where
  screenFirst : Nat
  lineCount : Nat
  memBase : Nat
  memExtent : Nat
  scroll : Nat
  colBase : Nat
  use : BandUse
deriving DecidableEq, Repr

/-- The output modes (R99). -/
inductive OutputMode where
  | full | depth6 | monoLuma | monoEven | monoGreen
deriving DecidableEq, Repr

/-- A band table, a background and an output mode: what a snapshot, a staging set and an active set have in common. -/
structure Picture where
  bands : List Band
  background : Pixel
  mode : OutputMode
deriving DecidableEq, Repr

/-- A palette entry (R91). -/
structure Rgb10 where
  red : BitVec 10
  green : BitVec 10
  blue : BitVec 10
deriving DecidableEq, Repr

/-- A palette of 256 entries. -/
abbrev Palette := Vector Rgb10 256

/-- The palette read in progress: its record, start index, component count and source address, and the palette buffer,
the components that have arrived, by number (R103, R111). -/
structure PaletteRead where
  ref : RecordRef
  start : Nat
  count : Nat
  source : Address
  buffer : Sparse (BitVec 10)
deriving DecidableEq, Repr

/-- The staging set of a head (R103). -/
structure Staging where
  picture : Picture
  palette : Palette
  dirty : Bool
  reading : Option PaletteRead
deriving DecidableEq, Repr

/-! ## The present queue (R113, R114, R115) -/

/-- The policy of a commit. -/
inductive Policy where
  | queue | latest
deriving DecidableEq, Repr

/-- The state of an entry that stands in the queue; an ABANDONED entry has left it. -/
inductive EntryState where
  | waiting | ready | latched | skipped
deriving DecidableEq, Repr

/-- A commit entry. -/
structure Entry where
  ref : RecordRef
  policy : Policy
  notBefore : Word
  missed : Nat
  snapshot : Picture
  pal : Bool
  batch : Word
  state : EntryState
deriving DecidableEq, Repr

/-- A present queue: its entries, oldest first; the places taken by completions of ABANDONED entries not yet written;
and the completions the unit has made and not yet placed (the model's own, log 5). -/
structure Present where
  entries : List Entry
  abandoned : Nat
  outbox : List Completion
deriving DecidableEq, Repr

/-! ## Scan Unit (R83, R84, R91, R100) -/

/-- The timing record. -/
structure Timing where
  hAct : Nat
  vAct : Nat
  vBlank : Nat
  linePeriod : Nat
  frameCause : Bool
deriving DecidableEq, Repr

/-- An output value sent to the link (R99). -/
inductive PixelOut where
  | colour (red green blue : Nat)
  | grey (level : Nat)
deriving DecidableEq, Repr

/-- A Scan Unit: timing (none while no Setup Table is in use), the two counters, the active set, the output values
sent to the link so far on the line being scanned, in ascending column order, and those sent on the last line that ended
(the model's views of the link, log 15). -/
structure Scan where
  timing : Option Timing
  line : Nat
  frame : Word
  active : Picture
  palette : Palette
  sent : List PixelOut
  shown : List PixelOut
deriving DecidableEq, Repr

/-! ## Link Controller (R128, R137) -/

/-- The link states. -/
inductive LinkState where
  | off | powering | signalling | on | darkening | quiescing | unpowering
deriving DecidableEq, Repr

/-- A wanted link state. -/
inductive LinkTarget where
  | off | on
deriving DecidableEq, Repr

/-- The three delays, in ms. -/
structure Delays where
  supply : Nat
  signal : Nat
  light : Nat
deriving DecidableEq, Repr

/-- The link record. `timer` is none when idle. -/
structure Link where
  state : LinkState
  target : LinkTarget
  timer : Option Nat
  pending : Option RecordRef
  delays : Option Delays
  held : List Completion
deriving DecidableEq, Repr

/-- The backlight record. -/
structure Light where
  level : Nat
  target : Nat
  step : Nat
  dim : Bool
  ramping : Bool
  pending : Option RecordRef
deriving DecidableEq, Repr

/-- The blocks of one head. -/
structure Head where
  lease : Lease
  staging : Staging
  present : Present
  scan : Scan
  link : Link
  light : Light
deriving DecidableEq, Repr

/-! ## Completion Writer (R144, R146) -/

/-- The completion ring record. -/
structure CompletionRing where
  base : Address
  size : Nat
  producer : Nat
  lap : Bool
  retire : Nat
deriving DecidableEq, Repr

/-- The Completion Writer. The write outstanding carries the oldest outbound entry. -/
structure Writer where
  outbound : List Completion
  ring : Option CompletionRing
  write : Option HostWrite
deriving DecidableEq, Repr

/-! ## Register Window and Setup Loader (R157 to R170) -/

/-- The six device states (R162). -/
inductive Device where
  | idle | loading | running | stopping | stopped | fault
deriving DecidableEq, Repr

/-- The setup error code (R164). -/
inductive SetupError where
  | none | tableAlign | noStream | stream0 | stream1 | stream2 | stream3 | ring | head0 | head1
deriving DecidableEq, Repr

/-- The fault origin (R169). -/
inductive FaultOrigin where
  | none | completionWrite | setupRead
deriving DecidableEq, Repr

/-- The wait reasons (R159). -/
inductive WaitReason where
  | posting | jobSpace | queueFull | lease | paletteHazard | paletteRead | waitRecord | completionSpace
deriving DecidableEq, Repr

/-- The state a stream shows (R58, R159). -/
inductive StreamCode where
  | disabled | idle | running | halted | stopped
  | waiting (reason : WaitReason)
deriving DecidableEq, Repr

/-- The Register Window. `frozen` holds the stream states shown at the entry to FAULT, which each stream keeps there
(R58). -/
structure Registers where
  device : Device
  setupError : SetupError
  faultOrigin : FaultOrigin
  cause : Causes
  causeEnable : Causes
  setupLo : Word
  setupHi : Word
  frozen : Four StreamCode
deriving DecidableEq, Repr

/-- A Setup Table load in progress: the table's address, and the quarters read so far (R163). -/
structure SetupLoad where
  address : Address
  quarters : List (List Byte)
deriving DecidableEq, Repr

/-! ## The whole part -/

/-- The state of the part. `choices` counts the free choices taken so far (the model's own, log 2), `slotReads` the slot
reads answered so far, by which readings of one slot are told apart (the model's own, log 27); `pending` holds the commands
that wait, oldest first. -/
structure State where
  regs : Registers
  loader : Option SetupLoad
  fetch : FetchUnit
  streams : Four Stream
  contexts : Four (Four Context)
  jobs : List Job
  engine : Engine
  panel : Panel
  heads : Two Head
  writer : Writer
  choices : Nat
  slotReads : Nat
  pending : List Instr
deriving DecidableEq, Repr

/-! ## Values after power-on reset -/

/-- A DISABLED stream (R69). -/
def Stream.disabled : Stream := { ring := none, current := none, kept := [], halt := none, batch := 0 }

/-- The arbiter after reset: the last granted stream of each class is taken to be stream 3 (R48). -/
def FetchUnit.atReset : FetchUnit := { read := none, urgentRun := 0, lastUrgent := 3, lastNormal := 3 }

/-- The engine with no job. -/
def Engine.free : Engine := { processed := 0, written := 0, phase := .idle, ahead := [] }

/-- The empty band table on a black background (R91). -/
def Picture.black : Picture := { bands := [], background := 0, mode := .full }

/-- A palette of zero components (R91). -/
def Palette.zero : Palette := Vector.replicate 256 { red := 0, green := 0, blue := 0 }

/-- A FREE lease with no waiter (R81). -/
def Lease.free : Lease := { holder := none, waiters := [] }

/-- An empty present queue (R127). -/
def Present.empty : Present := { entries := [], abandoned := 0, outbox := [] }

/-- A link that is OFF, its delays not loaded (R128). -/
def Link.off : Link :=
  { state := .off, target := .off, timer := none, pending := none, delays := none, held := [] }

/-- The backlight record after reset (R137). -/
def Light.dark : Light :=
  { level := 0, target := 0, step := 1, dim := false, ramping := false, pending := none }

/-- A head after power-on reset (R81, R91, R102, R103, R127, R128, R137). -/
def Head.atPowerOn : Head :=
  { lease := .free
    staging := { picture := .black, palette := .zero, dirty := false, reading := none }
    present := .empty
    scan := { timing := none, line := 0, frame := 0, active := .black, palette := .zero, sent := []
              shown := [] }
    link := .off
    light := .dark }

/-- The Completion Writer after reset (R156). -/
def Writer.empty : Writer := { outbound := [], ring := none, write := none }

/-- The Register Window after power-on reset (R170). -/
def Registers.atPowerOn : Registers :=
  { device := .idle, setupError := .none, faultOrigin := .none, cause := 0, causeEnable := 0, setupLo := 0
    setupHi := 0, frozen := .all .disabled }

/-- The part right after power-on reset, with no command waiting. -/
def State.reset : State :=
  { regs := .atPowerOn
    loader := none
    fetch := .atReset
    streams := .all .disabled
    contexts := .all (.all .unset)
    jobs := []
    engine := .free
    panel := { powerOns := 0, cells := [] }
    heads := .all .atPowerOn
    writer := .empty
    choices := 0
    slotReads := 0
    pending := [] }

end Sys2Proof.Machine
end

