-- ==== Sys2Proof/Machine/Flags.lean ====
section
/-! DEFINITION. Statuses, flags and causes: their codes and bits, what makes a status halting and a completion suppressed,
the setting and clearing of causes, and the interrupt line. -/

namespace Sys2Proof.Machine

/-- Whether a status halts its stream (R60, R150). -/
def Status.halting : Status → Bool
  | .done => false
  | .skipped => false
  | .abandoned => false
  | .cancelled => false
  | .superseded => false
  | .badKind => true
  | .badSize => true
  | .badField => true
  | .noWindow => true
  | .notOwner => true
  | .claimRefused => true
  | .claimTimeout => true
  | .sourceError => true
  | .fetchError => true

/-- The status code of a completion (R177). -/
def Status.code : Status → Byte
  | .done => 0x00
  | .skipped => 0x01
  | .abandoned => 0x02
  | .cancelled => 0x03
  | .superseded => 0x04
  | .badKind => 0x80
  | .badSize => 0x81
  | .badField => 0x82
  | .noWindow => 0x83
  | .notOwner => 0x84
  | .claimRefused => 0x85
  | .claimTimeout => 0x86
  | .sourceError => 0x87
  | .fetchError => 0x88

/-- One bit of a byte, 1 where the flag is set. -/
def bitAt (b : Bool) (n : Nat) : Byte := if b then 1#8 <<< n else 0#8

/-- The flags byte of a completion, bits 6 and 7 zero (R177). -/
def Flags.byte (f : Flags) : Byte :=
  bitAt f.overrun 0 ||| bitAt f.gateBypassed 1 ||| bitAt f.alreadyHeld 2 ||| bitAt f.partialEntry 3
    ||| bitAt f.notScanning 4 ||| bitAt f.palette 5

/-- No flag is set. -/
def Flags.none : Flags := {}

/-- The one flag a job that was cancelled or failed can carry (R34, R38, R41). -/
def Flags.bypass (b : Bool) : Flags := { gateBypassed := b }

/-- Whether an outcome of a record with this SILENT flag has no completion: DONE with no flag (R151). -/
def suppressed (silent : Bool) (o : Outcome) : Bool :=
  silent && decide (o.status = .done) && decide (o.flags = Flags.none)

/-- The completion of a record of this kind code with this outcome. -/
def completionOf (ref : RecordRef) (kind : Byte) (o : Outcome) (origin : Option HeadId) : Completion :=
  { stream := ref.stream, kind := kind, outcome := o, tag := ref.tag, ringIndex := ref.ringIndex
    notify := ref.notify, origin := origin, reading := ref.reading }

/-- What a record's outcome gives its placing block to place: one completion, or none where it is suppressed (R151). -/
def report (ref : RecordRef) (kind : Byte) (o : Outcome) (origin : Option HeadId := none) : List Completion :=
  if suppressed ref.silent o then [] else [completionOf ref kind o origin]

/-- The causes (R153). -/
inductive Cause where
  | completion | error | frame (h : HeadId) | link (h : HeadId) | postRejected | controlRefused | setup
deriving DecidableEq, Repr

/-- The bit of a cause in CAUSE and CAUSE_ENABLE (R172). -/
def Cause.bit : Cause → Nat
  | .completion => 0
  | .error => 1
  | .frame h => 2 + h.val
  | .link h => 4 + h.val
  | .postRejected => 6
  | .controlRefused => 7
  | .setup => 8

/-- The nine bits with that of one cause alone set. -/
def Cause.mask (c : Cause) : Causes := 1#9 <<< c.bit

/-- CAUSE with a cause set (R153: setting a set bit leaves it set). -/
def setCause (c : Cause) (bits : Causes) : Causes := bits ||| c.mask

/-- CAUSE after a host write: every bit that is one in the written value is cleared (R154). -/
def clearCauses (bits : Causes) (value : Word) : Causes := bits &&& ~~~(value.truncate 9)

/-- The causes a completion sets when it is written: COMPLETION and ERROR for a halting status, otherwise COMPLETION for a
record with NOTIFY (R148). -/
def writtenCauses (c : Completion) (bits : Causes) : Causes :=
  if c.outcome.status.halting then setCause .error (setCause .completion bits)
  else if c.notify then setCause .completion bits
  else bits

/-- The interrupt line: asserted while CAUSE and CAUSE_ENABLE have a set bit in common (R155). -/
def interruptLine (s : State) : Bool := decide (s.regs.cause &&& s.regs.causeEnable ≠ 0)

/-- The state with a cause set. -/
def State.raise (s : State) (c : Cause) : State := { s with regs := { s.regs with cause := setCause c s.regs.cause } }

end Sys2Proof.Machine
end

