-- ==== Sys2Proof/Machine/Operands.lean ====
section
/-! DEFINITION. The operand forms: the bytes of slots, headers, record fields and Setup Tables (R171 to R176), each kind's
fields read and checked at once (step 3 of R53), and the fields of words written to the window (R172). A record whose
fields pass is returned as typed data; none stands for BAD_FIELD. -/

namespace Sys2Proof.Machine

/-! ## Bytes -/

/-- The byte at an offset; a missing byte reads as zero. -/
def byteAt (bytes : List Byte) (offset : Nat) : Byte := bytes.getD offset 0

/-- The number a field of `size` bytes at an offset holds, least significant byte first (R171). -/
def fieldAt (bytes : List Byte) (offset : Nat) : Nat → Nat
  | 0 => 0
  | size + 1 => (byteAt bytes offset).toNat + 256 * fieldAt bytes (offset + 1) size

/-- The `size` bytes of a number, least significant byte first (R171). -/
def bytesOf (value : Nat) : Nat → List Byte
  | 0 => []
  | size + 1 => BitVec.ofNat 8 value :: bytesOf (value / 256) size

/-- A field of a record: offsets 00h..3Fh lie in its first slot and 40h..7Fh in its second (R174). -/
def recordField (slots : List (List Byte)) (offset size : Nat) : Nat :=
  if offset < 64 then fieldAt (slots.getD 0 []) offset size
  else fieldAt (slots.getD 1 []) (offset - 64) size

/-- One bit of a one-byte field. -/
def recordBit (slots : List (List Byte)) (offset bit : Nat) : Bool := (recordField slots offset 1).testBit bit

/-! ## Kinds and headers -/

/-- The record kinds. -/
inductive Kind where
  | window | transfer | fill | readback | claim | release | bands | scroll | output | palette | present | link | light
  | wait | note
deriving DecidableEq, Repr

/-- The kind code (R174). -/
def Kind.code : Kind → Byte
  | .window => 0x01
  | .transfer => 0x02
  | .fill => 0x03
  | .readback => 0x04
  | .claim => 0x10
  | .release => 0x11
  | .bands => 0x20
  | .scroll => 0x21
  | .output => 0x22
  | .palette => 0x23
  | .present => 0x24
  | .link => 0x30
  | .light => 0x31
  | .wait => 0x40
  | .note => 0x41

/-- All kinds. -/
def allKinds : List Kind :=
  [.window, .transfer, .fill, .readback, .claim, .release, .bands, .scroll, .output, .palette, .present, .link, .light,
    .wait, .note]

/-- The kind a code names; every other code names none (R174). -/
def Kind.ofCode? (code : Byte) : Option Kind := allKinds.find? (fun k => k.code == code)

/-- The kind byte of a record's header. -/
def kindByte (slots : List (List Byte)) : Byte := BitVec.ofNat 8 (recordField slots 0x00 1)

/-- The kind of a record. -/
def kindOf (slots : List (List Byte)) : Option Kind := Kind.ofCode? (kindByte slots)

/-- The declared slot count, 0..255 (R50). -/
def declaredSlots (slots : List (List Byte)) : Nat := recordField slots 0x01 1

/-- The NOTIFY flag. -/
def notifyFlag (slots : List (List Byte)) : Bool := recordBit slots 0x02 0

/-- The SILENT flag. -/
def silentFlag (slots : List (List Byte)) : Bool := recordBit slots 0x02 1

/-- The head or context byte. -/
def unitByte (slots : List (List Byte)) : Nat := recordField slots 0x03 1

/-- The tag. -/
def tagField (slots : List (List Byte)) : Tag := BitVec.ofNat 16 (recordField slots 0x04 2)

/-- What a block keeps of the header of stream `k`'s current record `c`. -/
def headerRef (k : StreamId) (c : CurrentRecord) : RecordRef :=
  { stream := k, tag := tagField c.slots, notify := notifyFlag c.slots, silent := silentFlag c.slots, ringIndex := c.index
    reading := c.reading }

/-- The head a record names, none outside 0..1. -/
def headField (slots : List (List Byte)) : Option HeadId :=
  match unitByte slots with
  | 0 => some 0
  | 1 => some 1
  | _ => none

/-- The context a record names, none outside 0..3. -/
def contextField (slots : List (List Byte)) : Option ContextId :=
  match unitByte slots with
  | 0 => some 0
  | 1 => some 1
  | 2 => some 2
  | 3 => some 3
  | _ => none

/-! ## Slot counts (R52) -/

/-- The run mark of a TRANSFER. -/
def runMark (slots : List (List Byte)) : Bool := recordBit slots 0x12 0

/-- The key mark of a TRANSFER. -/
def keyMark (slots : List (List Byte)) : Bool := recordBit slots 0x12 1

/-- The gate mark of a TRANSFER, FILL or READBACK. -/
def gateMark (slots : List (List Byte)) : Bool := recordBit slots 0x12 2

/-- The band count of a BANDS record. -/
def bandCount (slots : List (List Byte)) : Nat := recordField slots 0x10 1

/-- Whether a slot count suits a kind and its content. A BANDS record with a band count outside 1..8 passes; whether also
with 3 or 4 slots, which no kind allows, is free (log 7). -/
def slotCountSuits (k : Kind) (slots : List (List Byte)) (declared : Nat) : Bool :=
  match k with
  | .transfer => declared == (if keyMark slots || gateMark slots then 2 else 1)
  | .fill => declared == (if gateMark slots then 2 else 1)
  | .readback => declared == (if gateMark slots then 2 else 1)
  | .bands =>
    if bandCount slots < 1 || 8 < bandCount slots then decide (declared ≤ 2) || Config.wideBandsPass
    else declared == (if bandCount slots ≤ 3 then 1 else 2)
  | .window => declared == 1
  | .claim => declared == 1
  | .release => declared == 1
  | .scroll => declared == 1
  | .output => declared == 1
  | .palette => declared == 1
  | .present => declared == 1
  | .link => declared == 1
  | .light => declared == 1
  | .wait => declared == 1
  | .note => declared == 1

/-! ## Pixel job records (R7, R25, R175) -/

/-- The order a code names. -/
def orderOf (code : Nat) : Option Order :=
  match code with
  | 0 => some .rowFirst
  | 1 => some .columnFirst
  | _ => none

/-- The direction a code names. -/
def directionOf (code : Nat) : Option Direction :=
  match code with
  | 0 => some .inc
  | 1 => some .dec
  | _ => none

/-- The mode a code names. -/
def modeOf (code : Nat) : Option Mode :=
  match code with
  | 0 => some .fresh
  | 1 => some .resumed
  | _ => none

/-- The source format a code names. -/
def formatOf (code : Nat) : Option Format :=
  match code with
  | 0 => some .r4g4b4
  | 1 => some .r5g6b5
  | 2 => some .r6g6b6
  | 3 => some .r8g8b8
  | 4 => some .x8r8g8b8
  | 5 => some .i8
  | _ => none

/-- The key sense a code names. -/
def senseOf (code : Nat) : Option KeySense :=
  match code with
  | 0 => some .skipMatch
  | 1 => some .writeMatch
  | _ => none

/-- The bytes of one source pixel (R27). -/
def Format.bytes : Format → Nat
  | .r4g4b4 => 2
  | .r5g6b5 => 2
  | .r6g6b6 => 4
  | .r8g8b8 => 3
  | .x8r8g8b8 => 4
  | .i8 => 1

/-- The alignment of a source address and a stride (R27). -/
def Format.alignment : Format → Nat
  | .r4g4b4 => 2
  | .r5g6b5 => 2
  | .r6g6b6 => 4
  | .r8g8b8 => 1
  | .x8r8g8b8 => 4
  | .i8 => 1

/-- A WINDOW record's context and window (R7, R175). -/
def windowFields (slots : List (List Byte)) : Option JobWork := do
  let context ← contextField slots
  let order ← orderOf (recordField slots 0x18 1)
  let xDir ← directionOf (recordField slots 0x19 1)
  let yDir ← directionOf (recordField slots 0x1A 1)
  let w : Window :=
    { xStart := recordField slots 0x10 2, xEnd := recordField slots 0x12 2, yStart := recordField slots 0x14 2
      yEnd := recordField slots 0x16 2, order := order, xDir := xDir, yDir := yDir }
  if w.xStart ≤ w.xEnd ∧ w.xEnd < panelSide ∧ w.yStart ≤ w.yEnd ∧ w.yEnd < panelSide then
    some (.window context w)
  else none

/-- The gate part of a record, checked against the timing of the head it names (R25, R175): none where the check fails,
`some none` where the record carries no gate. -/
def gateFields (slots : List (List Byte)) (heads : Two Head) : Option (Option Gate) :=
  if gateMark slots then
    match recordField slots 0x50 1 with
    | 0 => gateFor 0
    | 1 => gateFor 1
    | _ => none
  else some none
where
  /-- The gate on head `h`, its line checked against V_ACT + V_BLANK. -/
  gateFor (h : HeadId) : Option (Option Gate) :=
    match (heads.get h).scan.timing with
    | some t =>
      if recordField slots 0x52 2 < t.vAct + t.vBlank then
        some (some { head := h, relative := recordBit slots 0x51 0, line := recordField slots 0x52 2
                     frame := BitVec.ofNat 32 (recordField slots 0x54 4) })
      else none
    | none => none

/-- The run part of a TRANSFER of a format, `some none` where it carries none (R25). -/
def runFields (slots : List (List Byte)) (format : Format) : Option (Option Run) :=
  if runMark slots then
    if 1 ≤ recordField slots 0x20 2 ∧ recordField slots 0x20 2 ≤ 2048
        ∧ recordField slots 0x24 4 % format.alignment = 0 then
      some (some { length := recordField slots 0x20 2, stride := recordField slots 0x24 4 })
    else none
  else some none

/-- The key part of a TRANSFER, `some none` where it carries none (R25). -/
def keyFields (slots : List (List Byte)) : Option (Option Key) :=
  if keyMark slots then
    match senseOf (recordField slots 0x48 1) with
    | some sense =>
      some (some { key := BitVec.ofNat 24 (recordField slots 0x40 4), mask := BitVec.ofNat 24 (recordField slots 0x44 4)
                   sense := sense })
    | none => none
  else some none

/-- A TRANSFER record's fields (R25, R175). -/
def transferFields (slots : List (List Byte)) (heads : Two Head) : Option (JobWork × Option Gate) := do
  let context ← contextField slots
  let mode ← modeOf (recordField slots 0x10 1)
  let format ← formatOf (recordField slots 0x11 1)
  let run ← runFields slots format
  let key ← keyFields slots
  let gate ← gateFields slots heads
  let count := recordField slots 0x14 4
  let source := recordField slots 0x18 8
  if 1 ≤ count ∧ count ≤ maxCount ∧ source % format.alignment = 0 then
    some (.transfer context mode (BitVec.ofNat 64 source) format count run key, gate)
  else none

/-- A FILL record's fields (R25, R175). -/
def fillFields (slots : List (List Byte)) (heads : Two Head) : Option (JobWork × Option Gate) := do
  let context ← contextField slots
  let mode ← modeOf (recordField slots 0x10 1)
  let gate ← gateFields slots heads
  let count := recordField slots 0x14 4
  if count ≤ maxCount then
    some (.fill context mode (BitVec.ofNat 24 (recordField slots 0x18 4)) count, gate)
  else none

/-- A READBACK record's fields (R25, R175). -/
def readbackFields (slots : List (List Byte)) (heads : Two Head) : Option (JobWork × Option Gate) := do
  let context ← contextField slots
  let mode ← modeOf (recordField slots 0x10 1)
  let gate ← gateFields slots heads
  let count := recordField slots 0x14 4
  let destination := recordField slots 0x18 8
  if 1 ≤ count ∧ count ≤ maxCount ∧ destination % 4 = 0 then
    some (.readback context mode (BitVec.ofNat 64 destination) count, gate)
  else none

/-- The job a pixel job record asks for, none where its fields fail the checks or its kind is no pixel job. -/
def jobFields (k : Kind) (slots : List (List Byte)) (heads : Two Head) : Option (JobWork × Option Gate) :=
  match k with
  | .window => (windowFields slots).map (fun w => (w, none))
  | .transfer => transferFields slots heads
  | .fill => fillFields slots heads
  | .readback => readbackFields slots heads
  | _ => none

/-! ## The other records (R71, R105, R107 to R109, R113, R133, R138, R176) -/

/-- The wait choice and the timeout of a CLAIM. -/
structure ClaimRecord where
  head : HeadId
  wait : Bool
  timeout : Nat
deriving DecidableEq, Repr

/-- A yes or no code. -/
def yesNoOf (code : Nat) : Option Bool :=
  match code with
  | 0 => some false
  | 1 => some true
  | _ => none

/-- A CLAIM record's fields (R71). -/
def claimFields (slots : List (List Byte)) : Option ClaimRecord := do
  let head ← headField slots
  let wait ← yesNoOf (recordField slots 0x10 1)
  some { head := head, wait := wait, timeout := recordField slots 0x12 2 }

/-- A RELEASE record's head (R74). -/
def releaseFields (slots : List (List Byte)) : Option HeadId := headField slots

/-- Where band `k` of a BANDS record lies (R176). -/
def bandOffset (k : Nat) : Nat := if k < 3 then 0x18 + 12 * k else 0x40 + 12 * (k - 3)

/-- Band `k` of a BANDS record, none where its use code names no use (R176). -/
def bandFields (slots : List (List Byte)) (k : Nat) : Option Band := do
  let o := bandOffset k
  let last := recordField slots (o + 0x0A) 2
  let use ← (match last / 16384 with
    | 0 => some BandUse.direct
    | 1 => some BandUse.indexed
    | _ => none)
  some { screenFirst := recordField slots o 2, lineCount := recordField slots (o + 2) 2
         memBase := recordField slots (o + 4) 2, memExtent := recordField slots (o + 6) 2
         scroll := recordField slots (o + 8) 2, colBase := last % 2048, use := use }

/-- The ranges of R93 and R105 for one band under a timing. -/
def Band.suits (b : Band) (t : Timing) : Bool :=
  decide (b.screenFirst < t.vAct) && decide (1 ≤ b.lineCount) && decide (b.screenFirst + b.lineCount ≤ t.vAct)
    && decide (b.memBase < panelSide) && decide (1 ≤ b.memExtent) && decide (b.memBase + b.memExtent ≤ panelSide)
    && decide (b.scroll < b.memExtent) && decide (b.colBase + t.hAct ≤ panelSide)

/-- Each band begins at or after the end of the one before it (R104, R105). -/
def bandsAscend : List Band → Bool
  | [] => true
  | [_] => true
  | a :: b :: rest => decide (a.screenFirst + a.lineCount ≤ b.screenFirst) && bandsAscend (b :: rest)

/-- The bands of a BANDS record from band `k` on, `n` of them. -/
def bandList (slots : List (List Byte)) (k : Nat) : Nat → Option (List Band)
  | 0 => some []
  | n + 1 =>
    match bandFields slots k, bandList slots (k + 1) n with
    | some b, some rest => some (b :: rest)
    | _, _ => none

/-- A BANDS record's head, bands and background, checked by R105 under the timing of the head it names. -/
def bandsFields (slots : List (List Byte)) (heads : Two Head) : Option (HeadId × List Band × Pixel) := do
  let head ← headField slots
  let timing ← (heads.get head).scan.timing
  let bands ← (if 1 ≤ bandCount slots ∧ bandCount slots ≤ 8 then bandList slots 0 (bandCount slots) else none)
  if bands.all (fun b => b.suits timing) && bandsAscend bands then
    some (head, bands, BitVec.ofNat 24 (recordField slots 0x14 4))
  else none

/-- A SCROLL record's head, band index and new scroll, checked by R107 against the staged table of that head. -/
def scrollFields (slots : List (List Byte)) (heads : Two Head) : Option (HeadId × Nat × Nat) := do
  let head ← headField slots
  let index := recordField slots 0x10 1
  let band ← (heads.get head).staging.picture.bands[index]?
  if recordField slots 0x12 2 < band.memExtent then some (head, index, recordField slots 0x12 2) else none

/-- An OUTPUT record's head and mode (R108). -/
def outputFields (slots : List (List Byte)) : Option (HeadId × OutputMode) := do
  let head ← headField slots
  let mode ← (match recordField slots 0x10 1 with
    | 0 => some OutputMode.full
    | 1 => some OutputMode.depth6
    | 2 => some OutputMode.monoLuma
    | 3 => some OutputMode.monoEven
    | 4 => some OutputMode.monoGreen
    | _ => none)
  some (head, mode)

/-- A PALETTE record's fields. -/
structure PaletteRecord where
  head : HeadId
  start : Nat
  count : Nat
  source : Address
deriving DecidableEq, Repr

/-- A PALETTE record's fields, checked by R109. -/
def paletteFields (slots : List (List Byte)) : Option PaletteRecord := do
  let head ← headField slots
  let start := recordField slots 0x10 2
  let count := recordField slots 0x12 2
  let source := recordField slots 0x18 8
  if start ≤ 255 ∧ 1 ≤ count ∧ count ≤ 768 ∧ source % 2 = 0 then
    some { head := head, start := start, count := count, source := BitVec.ofNat 64 source }
  else none

/-- A PRESENT record's fields. -/
structure PresentRecord where
  head : HeadId
  policy : Policy
  notBefore : Word
deriving DecidableEq, Repr

/-- A PRESENT record's fields, checked by R113. -/
def presentFields (slots : List (List Byte)) : Option PresentRecord := do
  let head ← headField slots
  let policy ← (match recordField slots 0x10 1 with
    | 0 => some Policy.queue
    | 1 => some Policy.latest
    | _ => none)
  some { head := head, policy := policy, notBefore := BitVec.ofNat 32 (recordField slots 0x14 4) }

/-- A LINK record's head and target, checked by R133. -/
def linkFields (slots : List (List Byte)) : Option (HeadId × LinkTarget) := do
  let head ← headField slots
  let target ← (match recordField slots 0x10 1 with
    | 0 => some LinkTarget.off
    | 1 => some LinkTarget.on
    | _ => none)
  some (head, target)

/-- A LIGHT record's fields. -/
structure LightRecord where
  head : HeadId
  target : Nat
  dim : Bool
  step : Nat
deriving DecidableEq, Repr

/-- A LIGHT record's fields, checked by R138. -/
def lightFields (slots : List (List Byte)) : Option LightRecord := do
  let head ← headField slots
  let dim ← yesNoOf (recordField slots 0x11 1)
  if recordField slots 0x12 1 = 0 then none
  else some { head := head, target := recordField slots 0x10 1, dim := dim, step := recordField slots 0x12 1 }

/-- The form of a WAIT. -/
inductive WaitForm where
  | frame (h : HeadId) (f : Word)
  | retired (h : HeadId)
  | jobs
deriving DecidableEq, Repr

/-- A WAIT record's form (section 3.9, R174, R176). -/
def waitFields (slots : List (List Byte)) : Option WaitForm :=
  match recordField slots 0x10 1 with
  | 0 => (headField slots).map (fun h => .frame h (BitVec.ofNat 32 (recordField slots 0x14 4)))
  | 1 => (headField slots).map (fun h => .retired h)
  | 2 => some .jobs
  | _ => none

/-! ## The Setup Table (R163, R164, R173) -/

/-- A field of the Setup Table; no field crosses a quarter. -/
def tableField (quarters : List (List Byte)) (offset size : Nat) : Nat :=
  fieldAt (quarters.getD (offset / 64) []) (offset % 64) size

/-- A power of two from 16 to 4096. -/
def ringSize (n : Nat) : Bool := [16, 32, 64, 128, 256, 512, 1024, 2048, 4096].contains n

/-- Stream descriptor `k` is enabled. -/
def tableEnabled (quarters : List (List Byte)) (k : StreamId) : Bool :=
  (tableField quarters (16 * k.val + 0x0B) 1).testBit 0

/-- The ring record that stream descriptor `k` gives, its indices 0; none where check 2 of R164 fails. -/
def tableRing (quarters : List (List Byte)) (k : StreamId) : Option Ring :=
  let base := tableField quarters (16 * k.val) 8
  let size := tableField quarters (16 * k.val + 0x08) 2
  match tableField quarters (16 * k.val + 0x0A) 1 with
  | 0 => ringFor base size .normal
  | 1 => ringFor base size .urgent
  | _ => none
where
  /-- The record where base and size pass. -/
  ringFor (base size : Nat) (c : FetchClass) : Option Ring :=
    if base % 64 = 0 ∧ ringSize size then
      some { base := BitVec.ofNat 64 base, size := size, fetchClass := c, post := 0, fetch := 0 }
    else none

/-- The completion ring record the table gives, at producer 0, lap 1 and retire 0 (R165); none where check 3 fails. -/
def tableCompletionRing (quarters : List (List Byte)) : Option CompletionRing :=
  let base := tableField quarters 0x40 8
  let size := tableField quarters 0x48 2
  if base % 16 = 0 ∧ ringSize size then
    some { base := BitVec.ofNat 64 base, size := size, producer := 0, lap := true, retire := 0 }
  else none

/-- The timing record that head descriptor `h` gives; none where check 4 or 5 fails. -/
def tableTiming (quarters : List (List Byte)) (h : HeadId) : Option Timing :=
  let o := 0x60 + 0x20 * h.val
  let hAct := tableField quarters o 2
  let vAct := tableField quarters (o + 2) 2
  let vBlank := tableField quarters (o + 4) 2
  let period := tableField quarters (o + 6) 2
  if 16 ≤ hAct ∧ hAct ≤ 2048 ∧ 16 ≤ vAct ∧ vAct ≤ 2048 ∧ 2 ≤ vBlank ∧ vBlank ≤ 255 ∧ 1000 ≤ period then
    some { hAct := hAct, vAct := vAct, vBlank := vBlank, linePeriod := period
           frameCause := (tableField quarters 0x50 1).testBit h.val }
  else none

/-- The delays that head descriptor `h` gives; every value is accepted (R128). -/
def tableDelays (quarters : List (List Byte)) (h : HeadId) : Delays :=
  let o := 0x60 + 0x20 * h.val
  { supply := tableField quarters (o + 8) 1, signal := tableField quarters (o + 9) 1
    light := tableField quarters (o + 10) 1 }

/-- The setup error code for a failing stream descriptor. -/
def streamError (k : StreamId) : SetupError :=
  match k with
  | 0 => .stream0
  | 1 => .stream1
  | 2 => .stream2
  | 3 => .stream3

/-- The first check of R164 that a table fails, NONE where all pass. -/
def tableError (quarters : List (List Byte)) : SetupError :=
  if !(allStreams.any (tableEnabled quarters)) then .noStream
  else
    match allStreams.find? (fun k => tableEnabled quarters k && (tableRing quarters k).isNone) with
    | some k => streamError k
    | none =>
      if (tableCompletionRing quarters).isNone then .ring
      else if (tableTiming quarters 0).isNone then .head0
      else if (tableTiming quarters 1).isNone then .head1
      else .none

/-! ## Fields of words written to the window (R172) -/

/-- The index of a word written to POST or RETIRE: bits 11..0. -/
def indexField (value : Word) : Nat := (value.extractLsb' 0 12).toNat

/-- The stream of a word written to POST: bits 17..16. -/
def postStream (value : Word) : StreamId := (value.extractLsb' 16 2).toFin

end Sys2Proof.Machine
end

