-- ==== Sys2Proof/Machine/Pixels.lean ====
section
/-! DEFINITION. Pixels on their way in and out: widening, source formats, source addresses, colour keys, the window cursor,
band mapping, palette lookup and output reduction. -/

namespace Sys2Proof.Machine

/-! ## Widening and source pixels (section 5.5, R27, R28) -/

/-- A component of `n` bits widened to `m` bits, `n ≤ m ≤ 2 n`: its bits become the most significant ones, and its own
most significant bits are repeated into the vacated low bits. -/
def widen (n m value : Nat) : Nat := value * 2 ^ (m - n) + value / 2 ^ (2 * n - m)

/-- Bits `low + width - 1 .. low` of a number. -/
def bitsOf (value low width : Nat) : Nat := value / 2 ^ low % 2 ^ width

/-- A pixel from its three 8-bit components (R1). -/
def pixelOf (red green blue : Nat) : Pixel := BitVec.ofNat 24 (red * 65536 + green * 256 + blue)

/-- The red field. -/
def redOf (p : Pixel) : Nat := bitsOf p.toNat 16 8

/-- The green field. -/
def greenOf (p : Pixel) : Nat := bitsOf p.toNat 8 8

/-- The blue field. -/
def blueOf (p : Pixel) : Nat := bitsOf p.toNat 0 8

/-- A source pixel widened to 8:8:8. The word holds the pixel's bytes, the lowest address in bits 7..0 (R27, R28). -/
def widenPixel (f : Format) (word : Word) : Pixel :=
  let w := word.toNat
  match f with
  | .r4g4b4 => pixelOf (widen 4 8 (bitsOf w 8 4)) (widen 4 8 (bitsOf w 4 4)) (widen 4 8 (bitsOf w 0 4))
  | .r5g6b5 => pixelOf (widen 5 8 (bitsOf w 11 5)) (widen 6 8 (bitsOf w 5 6)) (widen 5 8 (bitsOf w 0 5))
  | .r6g6b6 => pixelOf (widen 6 8 (bitsOf w 12 6)) (widen 6 8 (bitsOf w 6 6)) (widen 6 8 (bitsOf w 0 6))
  | .r8g8b8 => pixelOf (bitsOf w 0 8) (bitsOf w 8 8) (bitsOf w 16 8)
  | .x8r8g8b8 => pixelOf (bitsOf w 16 8) (bitsOf w 8 8) (bitsOf w 0 8)
  | .i8 => pixelOf 0 0 (bitsOf w 0 8)

/-- The host address of source pixel `n`, counting from 1 (R29); all address arithmetic is modulo 2^64. -/
def sourceAddress (source : Address) (f : Format) (run : Option Run) (n : Nat) : Address :=
  match run with
  | none => source + BitVec.ofNat 64 ((n - 1) * f.bytes)
  | some r => source + BitVec.ofNat 64 ((n - 1) / r.length * r.stride + (n - 1) % r.length * f.bytes)

/-- The host address of READBACK word `n`, counting from 1 (R32). -/
def destinationAddress (destination : Address) (n : Nat) : Address := destination + BitVec.ofNat 64 (4 * (n - 1))

/-- The word a READBACK writes for a pixel: bits 31..24 zero, red, green, blue (R32). -/
def readbackWord (p : Pixel) : Word := p.zeroExtend 32

/-- The four bytes of that word as they are written to host memory, the least significant at the lowest address (R32). -/
def readbackBytes (p : Pixel) : List Byte := bytesOf (readbackWord p).toNat 4

/-- Whether a key skips a widened pixel (R30). -/
def Key.skips (k : Key) (p : Pixel) : Bool :=
  match k.sense with
  | .skipMatch => decide (p &&& k.mask = k.key &&& k.mask)
  | .writeMatch => decide (p &&& k.mask ≠ k.key &&& k.mask)

/-- Whether a job's optional key skips a pixel. -/
def keySkips (k : Option Key) (p : Pixel) : Bool :=
  match k with
  | none => false
  | some k => k.skips p

/-! ## The cursor (R9 to R12) -/

/-- The first of two bounds in a direction. -/
def Direction.first (d : Direction) (low high : Nat) : Nat :=
  match d with
  | .inc => low
  | .dec => high

/-- The last of two bounds in a direction. -/
def Direction.last (d : Direction) (low high : Nat) : Nat :=
  match d with
  | .inc => high
  | .dec => low

/-- One step in a direction. -/
def Direction.step (d : Direction) (n : Nat) : Nat :=
  match d with
  | .inc => n + 1
  | .dec => n - 1

/-- The start column. -/
def Window.startColumn (w : Window) : Nat := w.xDir.first w.xStart w.xEnd
/-- The end column. -/
def Window.endColumn (w : Window) : Nat := w.xDir.last w.xStart w.xEnd
/-- The start line. -/
def Window.startLine (w : Window) : Nat := w.yDir.first w.yStart w.yEnd
/-- The end line. -/
def Window.endLine (w : Window) : Nat := w.yDir.last w.yStart w.yEnd

/-- The start corner (R9). -/
def Window.corner (w : Window) : Position := { column := w.startColumn, line := w.startLine }

/-- One step of the cursor in the window's order, none for ENDED (R10, R11). -/
def Window.stepFrom (w : Window) (p : Position) : Option Position :=
  match w.order with
  | .rowFirst =>
    if p.column ≠ w.endColumn then some { p with column := w.xDir.step p.column }
    else if p.line ≠ w.endLine then some { column := w.startColumn, line := w.yDir.step p.line }
    else none
  | .columnFirst =>
    if p.line ≠ w.endLine then some { p with line := w.yDir.step p.line }
    else if p.column ≠ w.endColumn then some { column := w.xDir.step p.column, line := w.startLine }
    else none

/-- How far a number is from the last bound in a direction. -/
def Direction.left (d : Direction) (low high n : Nat) : Nat :=
  match d with
  | .inc => high - n
  | .dec => n - low

/-- The positions still to be visited, the cursor's own included; 0 when ENDED (R15). -/
def Window.remaining (w : Window) : Option Position → Nat
  | none => 0
  | some p =>
    match w.order with
    | .rowFirst =>
      w.yDir.left w.yStart w.yEnd p.line * (w.xEnd - w.xStart + 1) + w.xDir.left w.xStart w.xEnd p.column + 1
    | .columnFirst =>
      w.xDir.left w.xStart w.xEnd p.column * (w.yEnd - w.yStart + 1) + w.yDir.left w.yStart w.yEnd p.line + 1

/-- A position lies inside a window. -/
def Window.holds (w : Window) (p : Position) : Bool :=
  decide (w.xStart ≤ p.column) && decide (p.column ≤ w.xEnd) && decide (w.yStart ≤ p.line) && decide (p.line ≤ w.yEnd)

/-- The bounds of a window lie in panel memory, in order (R6). -/
def Window.bounded (w : Window) : Bool :=
  decide (w.xStart ≤ w.xEnd) && decide (w.xEnd < panelSide) && decide (w.yStart ≤ w.yEnd)
    && decide (w.yEnd < panelSide)

/-- The cursor of a SET context lies inside its window or is ENDED, and the window lies in panel memory (R6, R12). -/
def Context.wf : Context → Bool
  | .unset => true
  | .set w none => w.bounded
  | .set w (some p) => w.bounded && w.holds p

/-! ## From screen to memory (R94 to R96) -/

/-- A band covers a screen line. -/
def Band.covers (b : Band) (y : Nat) : Bool :=
  decide (b.screenFirst ≤ y) && decide (y < b.screenFirst + b.lineCount)

/-- The band that covers a screen line, if any (R94). -/
def bandAt (bands : List Band) (y : Nat) : Option Band := bands.find? (fun b => b.covers y)

/-- The memory line a screen line of a band shows (R95). -/
def Band.memoryLine (b : Band) (y : Nat) : Nat := b.memBase + (y - b.screenFirst + b.scroll) % b.memExtent

/-- The memory column a screen column shows (R96). -/
def Band.memoryColumn (b : Band) (x : Nat) : Nat := (b.colBase + x) % panelSide

/-! ## From pixel to output value (R97 to R99) -/

/-- Three 10-bit components. -/
structure Components where
  red : Nat
  green : Nat
  blue : Nat
deriving DecidableEq, Repr

/-- A pixel read through a DIRECT band, and the background (R97). -/
def directComponents (p : Pixel) : Components :=
  { red := widen 8 10 (redOf p), green := widen 8 10 (greenOf p), blue := widen 8 10 (blueOf p) }

/-- The palette entry an index names. -/
def Palette.entry (palette : Palette) (index : Nat) : Rgb10 :=
  palette.toList.getD index { red := 0, green := 0, blue := 0 }

/-- A pixel read through an INDEXED band (R98). -/
def indexedComponents (palette : Palette) (p : Pixel) : Components :=
  let e := palette.entry (blueOf p)
  { red := e.red.toNat, green := e.green.toNat, blue := e.blue.toNat }

/-- Three components reduced by an output mode (R99). -/
def reduceOutput (mode : OutputMode) (c : Components) : PixelOut :=
  match mode with
  | .full => .colour c.red c.green c.blue
  | .depth6 => .colour (c.red / 16) (c.green / 16) (c.blue / 16)
  | .monoLuma => .grey ((5 * c.red + 9 * c.green + 2 * c.blue) / 16)
  | .monoEven => .grey ((c.red + c.green + c.blue) / 3)
  | .monoGreen => .grey c.green

/-- The output value of a pixel through a use (R97 to R99). -/
def outputOf (use : BandUse) (mode : OutputMode) (palette : Palette) (p : Pixel) : PixelOut :=
  match use with
  | .direct => reduceOutput mode (directComponents p)
  | .indexed => reduceOutput mode (indexedComponents palette p)

/-- A palette with component `k mod 3` of entry `k div 3` after `start` replaced: red, green, blue (R111). -/
def Palette.setComponent (palette : Palette) (start k : Nat) (value : BitVec 10) : Palette :=
  let i := start + k / 3
  let e := palette.entry i
  palette.setIfInBounds i
    (match k % 3 with
    | 0 => { e with red := value }
    | 1 => { e with green := value }
    | _ => { e with blue := value })

/-- A palette with the components of a buffer written in from entry `start` on (R111). -/
def Palette.writeComponents (palette : Palette) (start : Nat) (buffer : Sparse (BitVec 10)) : Palette :=
  buffer.foldl (fun p c => p.setComponent start c.1 c.2) palette

end Sys2Proof.Machine
end

