-- ==== Sys2Proof/Machine/Ops.lean ====
section
/-! DEFINITION. The named operations every command is built from: sparse data and panel memory, one stream, head or
context of the state, what a stream shows, ends and halts of current records, batches, readiness and latching, the
staging reload, abandonment, leases, and gates. -/

namespace Sys2Proof

/-! ## Sparse data -/

/-- The value under a key, none where the key is not listed. -/
def sparseRead {α : Type} : Sparse α → Nat → Option α
  | [], _ => none
  | (k, v) :: rest, a => if a = k then some v else sparseRead rest a

/-- The data with a key's value replaced; keys stay strictly rising. -/
def sparseWrite {α : Type} : Sparse α → Nat → α → Sparse α
  | [], a, x => [(a, x)]
  | (k, v) :: rest, a, x =>
    if a < k then (a, x) :: (k, v) :: rest
    else if a = k then (a, x) :: rest
    else (k, v) :: sparseWrite rest a x

/-- The data without a key. -/
def sparseErase {α : Type} : Sparse α → Nat → Sparse α
  | [], _ => []
  | (k, v) :: rest, a => if a = k then rest else (k, v) :: sparseErase rest a

/-- Keys strictly rise from a bound on. -/
def sparseFrom {α : Type} : Nat → Sparse α → Bool
  | _, [] => true
  | n, (k, _) :: rest => decide (n ≤ k) && sparseFrom (k + 1) rest

namespace Machine

/-! ## Panel memory (R1, R5) -/

/-- The cells of panel memory: 2048 lines of 2048 columns. -/
def panelCells : Nat := panelSide * panelSide

/-- The cell of a position. -/
def Position.cell (p : Position) : Nat := panelSide * p.line + p.column

/-- The 24 bits of a pixel as they stand: what was last written to it, or after a power-on reset its unknown content. -/
def Panel.read (m : Panel) (cell : Nat) : Pixel :=
  match sparseRead m.cells cell with
  | some p => p
  | none => Config.powerOnPixel m.powerOns cell

/-- Panel memory with a pixel written whole. Every cell the engine presents lies in the store (R1, R12); a cell outside
it would not exist, and nothing is stored. -/
def Panel.write (m : Panel) (cell : Nat) (p : Pixel) : Panel :=
  if cell < panelCells then { m with cells := sparseWrite m.cells cell p } else m

/-- The canonical form of panel memory: cells strictly rising, each in the store. An unlisted cell reads as its unknown
power-on content, which no listed pixel stands for. -/
def Panel.wf (m : Panel) : Bool := sparseFrom 0 m.cells && m.cells.all (fun c => decide (c.1 < panelCells))

/-! ## One stream, one head, one context -/

/-- Stream `k`. -/
def State.stream (s : State) (k : StreamId) : Stream := s.streams.get k

/-- The state with stream `k` replaced. -/
def State.setStream (s : State) (k : StreamId) (x : Stream) : State := { s with streams := s.streams.set k x }

/-- Head `h`. -/
def State.head (s : State) (h : HeadId) : Head := s.heads.get h

/-- The state with head `h` replaced. -/
def State.setHead (s : State) (h : HeadId) (x : Head) : State := { s with heads := s.heads.set h x }

/-- Context `c` of stream `k`. -/
def State.context (s : State) (k : StreamId) (c : ContextId) : Context := (s.contexts.get k).get c

/-- The state with context `c` of stream `k` replaced. -/
def State.setContext (s : State) (k : StreamId) (c : ContextId) (x : Context) : State :=
  { s with contexts := s.contexts.set k ((s.contexts.get k).set c x) }

/-- The device is RUNNING. -/
def State.running (s : State) : Bool := decide (s.regs.device = .running)

/-- The blocks act: the device is RUNNING, STOPPING or STOPPED, neither without a Setup Table nor frozen in FAULT. -/
def State.active (s : State) : Bool :=
  match s.regs.device with
  | .running => true
  | .stopping => true
  | .stopped => true
  | .idle => false
  | .loading => false
  | .fault => false

/-- The state with a device state. -/
def State.setDevice (s : State) (d : Device) : State := { s with regs := { s.regs with device := d } }

/-! ## What a stream shows (R58, R159) -/

/-- The posted slots of a ring: from its fetch index up to its post index, modulo its size (R45, R46). -/
def Ring.posted (r : Ring) : Nat := (r.post + r.size - r.fetch) % r.size

/-- The slots of a current record that have not been read. -/
def CurrentRecord.remaining (c : CurrentRecord) : Nat := declaredSlots c.slots - c.slots.length

/-- The reason a current record's stream waits, none while it is being read or checked. A record that has been read in part
waits POSTING until its remaining slots are all posted (R46, R51). DEDUCED (log 29): its posted slots are read meanwhile
(R47). -/
def waitReason (ring : Ring) (c : CurrentRecord) : Option WaitReason :=
  match c.phase with
  | .reading => if ring.posted < c.remaining then some .posting else none
  | .whole => none
  | .heldJobSpace => some .jobSpace
  | .heldQueueFull => some .queueFull
  | .heldPaletteHazard => some .paletteHazard
  | .waitLease => some .lease
  | .waitPaletteRead => some .paletteRead
  | .waitCondition => some .waitRecord

/-- The state a stream's holdings call for in a device state other than FAULT: the first of R58's table that holds. -/
def Stream.shows (st : Stream) (d : Device) : StreamCode :=
  match st.ring with
  | none => .disabled
  | some ring =>
    if st.halt.isSome then .halted
    else if d = .stopping ∨ d = .stopped then .stopped
    else if st.kept ≠ [] then .waiting .completionSpace
    else
      match st.current with
      | some c =>
        match waitReason ring c with
        | some r => .waiting r
        | none => .running
      | none => if ring.fetch = ring.post then .idle else .running

/-- The stream code of STATUS: in FAULT the one shown at the entry to it. -/
def State.streamCode (s : State) (k : StreamId) : StreamCode :=
  if s.regs.device = .fault then s.regs.frozen.get k else (s.stream k).shows s.regs.device

/-! ## Ends of current records (R57, R60) -/

/-- The stream HALTED at a halt point, to which its fetch index is set. -/
def Stream.haltAt (st : Stream) (point : Nat) : Stream :=
  { st with halt := some point, ring := st.ring.map (fun r => { r with fetch := point }) }

/-- An index modulo the ring size. -/
def Stream.wrap (st : Stream) (index : Nat) : Nat :=
  match st.ring with
  | some r => index % r.size
  | none => index

/-- The slots from a current record's first slot to its halt point: the declared count where it lies in 1..4, else 1
(R60). -/
def haltSlots (c : Option CurrentRecord) : Nat :=
  match c with
  | some c => if 1 ≤ declaredSlots c.slots ∧ declaredSlots c.slots ≤ 4 then declaredSlots c.slots else 1
  | none => 1

/-- The current record of stream `k` reaches its outcome: its completion, if it has one, is kept for placement, its
buffer is emptied, and a halting status halts the stream (R57, R60). -/
def State.finishAs (s : State) (k : StreamId) (ref : RecordRef) (kind : Byte) (o : Outcome) : State :=
  let st := s.stream k
  let done := { st with current := none, kept := st.kept ++ report ref kind o }
  s.setStream k
    (if o.status.halting then done.haltAt (st.wrap (ref.ringIndex + haltSlots st.current)) else done)

/-- The same, named by the header of the current record itself. -/
def State.finish (s : State) (k : StreamId) (o : Outcome) : State :=
  match (s.stream k).current with
  | some c => s.finishAs k (headerRef k c) (kindByte c.slots) o
  | none => s

/-- The state with the phase of stream `k`'s current record set. -/
def State.setPhase (s : State) (k : StreamId) (p : RecordPhase) : State :=
  let st := s.stream k
  s.setStream k { st with current := st.current.map (fun c => { c with phase := p }) }

/-- The state with the current record of stream `k` emptied, no completion made. -/
def State.dropCurrent (s : State) (k : StreamId) : State := s.setStream k { s.stream k with current := none }

/-! ## Batches and readiness (R65, R116) -/

/-- Batch `b` is not greater than batch `e`, by their distance behind the counter. -/
def notAfter (counter b e : Word) : Bool := decide ((counter - e).toNat ≤ (counter - b).toNat)

/-- A job in the list keeps an entry WAITING. -/
def Entry.blocked (e : Entry) (jobs : List Job) (streams : Four Stream) : Bool :=
  jobs.any (fun j => decide (j.ref.stream = e.ref.stream)
    && notAfter (streams.get e.ref.stream).batch j.batch e.batch)

/-- An entry after an evaluation: a WAITING entry that no job keeps so is READY. -/
def Entry.evaluated (e : Entry) (jobs : List Job) (streams : Four Stream) : Entry :=
  if e.state = .waiting ∧ e.blocked jobs streams = false then { e with state := .ready } else e

/-- An entry is unlatched: WAITING or READY. -/
def Entry.unlatched (e : Entry) : Bool :=
  match e.state with
  | .waiting => true
  | .ready => true
  | .latched => false
  | .skipped => false

/-- The queue after an evaluation of every WAITING entry. -/
def Present.evaluated (p : Present) (jobs : List Job) (streams : Four Stream) : Present :=
  { p with entries := p.entries.map (fun e => e.evaluated jobs streams) }

/-- The places taken: entries that stand, and completions of ABANDONED entries not yet written (R113). -/
def Present.places (p : Present) : Nat := p.entries.length + p.abandoned

/-- An unlatched entry with PAL stands in the queue: the palette hazard (R110). -/
def Present.hazard (p : Present) : Bool := p.entries.any (fun e => e.unlatched && e.pal)

/-! ## Scanning and gates (R33, R34, R86, R87) -/

/-- A head is scanning. -/
def Head.scanning (hd : Head) : Bool :=
  match hd.link.state with
  | .signalling => true
  | .on => true
  | .darkening => true
  | .off => false
  | .powering => false
  | .quiescing => false
  | .unpowering => false

/-- The scan position is equal to or later than a target. -/
def Scan.reached (sc : Scan) (target : Word × Nat) : Bool :=
  decide (target.1.toNat < sc.frame.toNat) || (decide (target.1 = sc.frame) && decide (target.2 ≤ sc.line))

/-- The target of a gate evaluated on a scanning head. -/
def Gate.targetOn (g : Gate) (sc : Scan) : Word × Nat := (if g.relative then sc.frame + g.frame else g.frame, g.line)

/-- The one evaluation of a CLOSED gate without a target (R33). -/
def Job.evaluateGate (j : Job) (heads : Two Head) : Job :=
  match j.gate with
  | none => j
  | some g =>
    if j.gateState = .closed ∧ j.target = none ∧ j.state = .queued then
      let hd := heads.get g.head
      if hd.scanning then
        { j with target := some (g.targetOn hd.scan)
                 gateState := if hd.scan.reached (g.targetOn hd.scan) then .opened else .closed }
      else { j with gateState := .opened, bypassed := true }
    else j

/-- The list with the gate of each stream's oldest job evaluated, where it has not been; `seen` are the streams of the
jobs before. -/
def evaluateGates (heads : Two Head) : List StreamId → List Job → List Job
  | _, [] => []
  | seen, j :: rest =>
    (if seen.contains j.ref.stream then j else j.evaluateGate heads)
      :: evaluateGates heads (j.ref.stream :: seen) rest

/-- A CLOSED gate on head `h` with a fixed target. -/
def Job.awaits (j : Job) (h : HeadId) : Bool :=
  match j.gate with
  | none => false
  | some g => decide (g.head = h) && decide (j.gateState = .closed) && j.target.isSome

/-- The target of a job's gate is reached. -/
def Job.targetReached (j : Job) (sc : Scan) : Bool :=
  match j.target with
  | some t => sc.reached t
  | none => false

/-- The list after a change of head `h`'s scan position: the gates whose targets are reached open. -/
def openGates (h : HeadId) (sc : Scan) (jobs : List Job) : List Job :=
  jobs.map (fun j => if j.awaits h && j.targetReached sc then { j with gateState := .opened } else j)

/-- The list after head `h` stops scanning: its CLOSED gates with fixed targets open with the bypassed mark. -/
def bypassGates (h : HeadId) (jobs : List Job) : List Job :=
  jobs.map (fun j => if j.awaits h then { j with gateState := .opened, bypassed := true } else j)

/-! ## Removals from the job list (R22) -/

/-- The job list has lost a job and is now `jobs`: the gates of new oldest jobs are evaluated and every present queue
evaluates its WAITING entries. DESIGN CHOICE (log 28): all entries that the removal makes READY are READY before a head
that is not scanning evaluates its queue (R121), so that a LATEST one among them passes over the older. -/
def State.jobsRemoved (s : State) (jobs : List Job) : State :=
  { s with jobs := evaluateGates s.heads [] jobs
           heads := s.heads.map (fun hd => { hd with present := hd.present.evaluated jobs s.streams }) }

/-- The list has room for a job of stream `k` (R20). -/
def roomFor (jobs : List Job) (k : StreamId) : Bool :=
  decide (jobs.length < maxJobs) && decide ((jobs.filter (fun j => decide (j.ref.stream = k))).length < maxStreamJobs)

/-! ## Latch steps (R117, R120, R121, R122) -/

/-- A latch step made at a blanking start, or one made while the head is not scanning. -/
inductive LatchKind where
  | blanking | immediate
deriving DecidableEq, Repr

/-- The entry may belong to the ready run of a step with frame counter `c`. -/
def Entry.eligible (e : Entry) (kind : LatchKind) (c : Word) : Bool :=
  decide (e.state = .ready)
    && (match kind with
        | .blanking => decide (e.notBefore = 0) || decide (e.notBefore.toNat ≤ c.toNat)
        | .immediate => true)

/-- How many entries of a ready run a step skips: the first, and each further one a LATEST entry passes over (step 3 of
R117). DESIGN CHOICE (log 31): of a run QUEUE, QUEUE, LATEST the first is latched and none skipped, as R117 stops at the
second QUEUE entry, though a sentence of R118 lets the LATEST entry take the latch and skip both. -/
def skipCount : List Entry → Nat
  | [] => 0
  | _ :: rest => (rest.takeWhile (fun e => decide (e.policy = .latest))).length

/-- The flags of a step's completions that do not depend on the palette. -/
def LatchKind.flags : LatchKind → Flags
  | .blanking => {}
  | .immediate => { notScanning := true }

/-- The completion kind code of a PRESENT. -/
def presentKind : Byte := Kind.present.code

/-- The completion, if any, of an entry a step leaves behind or latches. -/
def Entry.reportAs (e : Entry) (h : HeadId) (status : Status) (a : Word) (flags : Flags) : List Completion :=
  report e.ref presentKind { status := status, valueA := a, valueB := BitVec.ofNat 32 e.missed, flags := flags } (some h)

/-- The latched target as it stands in the queue: gone at once where its completion is suppressed (R122). -/
def Entry.keptLatched (e : Entry) (flags : Flags) : List Entry :=
  if suppressed e.ref.silent { status := .done, flags := flags } then [] else [{ e with state := .latched }]

/-- The entries before the oldest unlatched one. -/
def settledPart (es : List Entry) : List Entry := es.takeWhile (fun e => !e.unlatched)

/-- The entries from the oldest unlatched one on. -/
def openPart (es : List Entry) : List Entry := es.dropWhile (fun e => !e.unlatched)

/-- The ready run a step works on. -/
def readyRun (es : List Entry) (kind : LatchKind) (c : Word) : List Entry :=
  (openPart es).takeWhile (fun e => e.eligible kind c)

/-- The entries with the missed count of the first raised, or kept at 255. -/
def missOldest : List Entry → List Entry
  | [] => []
  | e :: rest => { e with missed := min 255 (e.missed + 1) } :: rest

/-- A latch step on head `h` (R117 with the differences of R121). -/
def Head.latchStep (hd : Head) (h : HeadId) (kind : LatchKind) : Head :=
  let c := hd.scan.frame
  let es := hd.present.entries
  let run := readyRun es kind c
  let n := skipCount run
  match run.drop n with
  | [] =>
    match kind with
    | .blanking => { hd with present := { hd.present with entries := settledPart es ++ missOldest (openPart es) } }
    | .immediate => hd
  | target :: _ =>
    let skipped := run.take n
    let copies := skipped.any (fun e => e.pal) || target.pal
    let flags := { kind.flags with palette := copies }
    { hd with
      present :=
        { hd.present with
          entries := settledPart es ++ skipped.map (fun e => { e with state := .skipped })
            ++ target.keptLatched flags ++ (openPart es).drop (n + 1)
          outbox := hd.present.outbox ++ skipped.flatMap (fun e => e.reportAs h .skipped c kind.flags)
            ++ target.reportAs h .done c flags }
      scan :=
        { hd.scan with
          active := target.snapshot
          palette := if copies then hd.staging.palette else hd.scan.palette } }

/-! ## Staging reload and abandonment (R123 to R126) -/

/-- The newest unlatched entry. -/
def newestUnlatched (es : List Entry) : Option Entry := es.reverse.find? (fun e => e.unlatched)

/-- A staging reload; `palAbandoned` says that its event abandoned an entry with PAL (R125). -/
def Head.reload (hd : Head) (palAbandoned : Bool) : Head :=
  let picture :=
    match newestUnlatched hd.present.entries with
    | some e => e.snapshot
    | none => hd.scan.active
  if hd.staging.dirty || palAbandoned then
    { hd with staging := { hd.staging with picture := picture, palette := hd.scan.palette, dirty := false } }
  else { hd with staging := { hd.staging with picture := picture } }

/-- The unlatched entries of stream `k` in a batch the counter does not put before `from?` (all batches where it is
none). -/
def Entry.condemned (e : Entry) (k : StreamId) (counter : Word) (first : Option Word) : Bool :=
  e.unlatched && decide (e.ref.stream = k)
    && (match first with
        | some f => notAfter counter f e.batch
        | none => true)

/-- The entries an abandonment takes from a head. -/
def Head.condemned (hd : Head) (k : StreamId) (counter : Word) (first : Option Word) : List Entry :=
  hd.present.entries.filter (fun e => e.condemned k counter first)

/-- A head after the abandonment of those entries, their completions given to be placed, before any reload. DESIGN CHOICE
(log 28): the completions of one head's entries abandoned in one event are placed in queue order (R122 orders only those
of a latch step). -/
def Head.abandon (hd : Head) (h : HeadId) (k : StreamId) (counter : Word) (first : Option Word) : Head :=
  let gone := hd.condemned k counter first
  { hd with
    present :=
      { entries := hd.present.entries.filter (fun e => !e.condemned k counter first)
        abandoned := hd.present.abandoned + gone.length
        outbox := hd.present.outbox ++ gone.flatMap (fun e => e.reportAs h .abandoned 0 {}) } }

/-- A head after the abandonment of R123 and, where it took an entry, one staging reload. -/
def Head.abandonAndReload (hd : Head) (h : HeadId) (k : StreamId) (counter : Word) (first : Option Word) : Head :=
  let gone := hd.condemned k counter first
  let after := hd.abandon h k counter first
  if gone.isEmpty then after else after.reload (gone.any (fun e => e.pal))

/-! ## Leases (R74, R79) -/

/-- A head without the waiter of stream `k`. -/
def Head.withdraw (hd : Head) (k : StreamId) : Head :=
  { hd with lease := { hd.lease with waiters := hd.lease.waiters.filter (fun w => decide (w.ref.stream ≠ k)) } }

/-- A head with any palette read of stream `k` abandoned: the buffer dropped, the staging palette untouched (R112). -/
def Head.abandonRead (hd : Head) (k : StreamId) : Head :=
  match hd.staging.reading with
  | some r => if r.ref.stream = k then { hd with staging := { hd.staging with reading := none } } else hd
  | none => hd

/-- The lease of head `h` is handed on as by a RELEASE of its holder: to the first waiter, whose CLAIM is DONE, or to
FREE; with the staging reload made before the new holder's outcome (R74, R75). -/
def State.handOn (s : State) (h : HeadId) (palAbandoned : Bool) : State :=
  let hd := s.head h
  match hd.lease.waiters with
  | [] => s.setHead h ({ hd with lease := { holder := none, waiters := [] } }.reload palAbandoned)
  | w :: rest =>
    (s.setHead h ({ hd with lease := { holder := some w.ref.stream, waiters := rest } }.reload palAbandoned)).finishAs
      w.ref.stream w.ref Kind.claim.code { status := .done }

/-! ## Scan lines (R87, R94, R100) -/

/-- The output value of a covered column of the line being scanned, from panel memory as it stands: the pixel the band maps
the column to, read whole, through the band's use, the palette and the output mode (R95 to R99). -/
def Scan.valueAt (sc : Scan) (b : Band) (m : Panel) (column : Nat) : PixelOut :=
  outputOf b.use sc.active.mode sc.palette
    (m.read ({ column := b.memoryColumn column, line := b.memoryLine sc.line } : Position).cell)

/-- The values of the line being scanned once its waiting scan reads have all been served: those sent, and those of the
covered columns that remain, in ascending order (R96, R100). -/
def Scan.wholeLine (sc : Scan) (m : Panel) : List PixelOut :=
  match sc.timing with
  | none => sc.sent
  | some t =>
    if sc.line < t.vAct then
      match bandAt sc.active.bands sc.line with
      | some b => sc.sent ++ (List.range' sc.sent.length (t.hAct - sc.sent.length)).map (fun x => sc.valueAt b m x)
      | none => sc.sent
    else sc.sent

/-- What a line sends at its start: nothing yet where a band covers it or it is a blanking line, else the background on
every column. -/
def Scan.lineOpening (sc : Scan) : List PixelOut :=
  match sc.timing with
  | none => []
  | some t =>
    if sc.line < t.vAct ∧ (bandAt sc.active.bands sc.line).isNone then
      List.replicate t.hAct (reduceOutput sc.active.mode (directComponents sc.active.background))
    else []

/-- The Scan Unit at the start of a line. -/
def Scan.beginLine (sc : Scan) (line : Nat) : Scan :=
  let at0 := { sc with line := line }
  { at0 with sent := at0.lineOpening }

/-! ## Free choices -/

/-- The choice among `n` tries that reach one piece of state in one event: free where there are several (log 2). -/
def State.pick (s : State) (n : Nat) : Nat × State :=
  if n ≤ 1 then (0, s) else (Config.choice s.choices % n, { s with choices := s.choices + 1 })

end Machine

end Sys2Proof
end

