-- ==== Sys2Proof/Machine/Engine.lean ====
section
/-! DEFINITION. The Job List and the Transfer Engine: adding and removing jobs, the engine's choice, the start of a job,
its pixels one at a time, and its ends: DONE, an error that halts its stream, FLUSH, and a stop at a pixel boundary. -/

namespace Sys2Proof.Machine

/-! ## Looking at jobs -/

/-- The job is QUEUED. -/
def Job.isQueued (j : Job) : Bool := decide (j.state = .queued)

/-- The job is RUNNING. -/
def Job.isRunning (j : Job) : Bool := decide (j.state = .running)

/-- The job is ENDED. -/
def Job.isEnded (j : Job) : Bool :=
  match j.state with
  | .ended _ _ => true
  | .queued => false
  | .running => false

/-- The job keeps the engine busy: it is RUNNING, or it is the ENDED job the engine last ran (R23). -/
def Job.holdsEngine (j : Job) : Bool :=
  match j.state with
  | .running => true
  | .ended _ byEngine => byEngine
  | .queued => false

/-- The kind of a job. -/
def JobWork.kind : JobWork → Kind
  | .window _ _ => .window
  | .transfer _ _ _ _ _ _ _ => .transfer
  | .fill _ _ _ _ => .fill
  | .readback _ _ _ _ => .readback

/-- The context a job works on. -/
def JobWork.context : JobWork → ContextId
  | .window c _ => c
  | .transfer c _ _ _ _ _ _ => c
  | .fill c _ _ _ => c
  | .readback c _ _ _ => c

/-- Where a job starts. -/
def JobWork.mode : JobWork → Mode
  | .window _ _ => .fresh
  | .transfer _ m _ _ _ _ _ => m
  | .fill _ m _ _ => m
  | .readback _ m _ _ => m

/-- The pixels a job asks for; none for a FILL of count 0, which runs to the end of its window, and for a WINDOW. -/
def JobWork.count? : JobWork → Option Nat
  | .window _ _ => none
  | .transfer _ _ _ _ n _ _ => some n
  | .fill _ _ _ n => if n = 0 then none else some n
  | .readback _ _ _ n => some n

/-- The engine's phase when it takes up the next pixel of a job. -/
def JobWork.nextPhase : JobWork → EnginePhase
  | .window _ _ => .idle
  | .transfer _ _ _ _ _ _ _ => .source
  | .fill _ _ colour _ => .write colour
  | .readback _ _ _ _ => .read

/-- The job's completion (R22). -/
def Job.report (j : Job) (o : Outcome) : List Completion := Machine.report j.ref j.work.kind.code o

/-- The RUNNING job. -/
def State.runningJob (s : State) : Option Job := s.jobs.find? Job.isRunning

/-- The list with the RUNNING job ENDED with an outcome. -/
def endRunningIn (jobs : List Job) (o : Outcome) : List Job :=
  jobs.map (fun j => if j.isRunning then { j with state := .ended o true } else j)

/-- The outcome of a cancelled QUEUED job (R21, R39, R41). -/
def Job.cancelledOutcome (j : Job) : Outcome := { status := .cancelled, flags := .bypass j.bypassed }

/-- The list with every QUEUED job of stream `k` ENDED CANCELLED. -/
def cancelQueued (jobs : List Job) (k : StreamId) : List Job :=
  jobs.map (fun j =>
    if j.isQueued && decide (j.ref.stream = k) then { j with state := .ended j.cancelledOutcome false } else j)

/-! ## Ends of the RUNNING job -/

/-- The RUNNING job ends with a status that halts nothing. With a suppressed completion it leaves the list at once,
otherwise it stays ENDED until its completion is placed (R22, R37). -/
def State.endJob (s : State) (o : Outcome) : State :=
  match s.runningJob with
  | none => s
  | some j =>
    if suppressed j.ref.silent o then
      { s with engine := .free }.jobsRemoved (s.jobs.filter (fun j => !j.isRunning))
    else { s with engine := .free, jobs := endRunningIn s.jobs o }

/-- A record's reference after a job-error halt of stream `k` has set its fetch index back from `fetch` to `point` in a ring
of `size` slots: marked where the slots so counted as posted again hold the record (R61; log 27). -/
def RecordRef.rewind (ref : RecordRef) (k : StreamId) (point fetch size : Nat) : RecordRef :=
  if ref.stream = k ∧ (ref.ringIndex + size - point) % size < (fetch + size - point) % size then
    { ref with rewound := true }
  else ref

/-- A head whose pending LINK and LIGHT are marked so. -/
def Head.rewind (hd : Head) (k : StreamId) (point fetch size : Nat) : Head :=
  { hd with
    link := { hd.link with pending := hd.link.pending.map (fun ref => ref.rewind k point fetch size) }
    light := { hd.light with pending := hd.light.pending.map (fun ref => ref.rewind k point fetch size) } }

/-- A head as a job-error halt of stream `k` to `point` marks it, by the ring the stream stands in. -/
def Head.rewindBy (hd : Head) (k : StreamId) (point : Nat) (ring : Option Ring) : Head :=
  match ring with
  | some r => hd.rewind k (point % r.size) r.fetch r.size
  | none => hd

/-- The Sequencer's part of a job-error halt of stream `k`: HALTED at the halt point, the current record discarded, an
outstanding slot read to be discarded, a waiting CLAIM withdrawn and a palette read abandoned (R61); a pending LINK or LIGHT
whose slot is to be read again is marked (log 27). -/
def State.haltByJob (s : State) (k : StreamId) (point : Nat) : State :=
  let st := s.stream k
  { s.setStream k ({ st with current := none }.haltAt (st.wrap point)) with
    fetch := { s.fetch with
      read := s.fetch.read.map (fun r => if r.stream = k then { r with discard := true } else r) }
    heads := s.heads.map (fun hd => ((hd.withdraw k).abandonRead k).rewindBy k point st.ring) }

/-- The commit entries of stream `k` from batch `first` on are abandoned on both heads, each head with one staging reload
where it lost an entry (R39 step 3, R123); every batch where `first` is none. -/
def State.abandonFrom (s : State) (k : StreamId) (first : Option Word) : State :=
  let counter := (s.stream k).batch
  { s with heads := { at0 := s.heads.at0.abandonAndReload 0 k counter first
                      at1 := s.heads.at1.abandonAndReload 1 k counter first } }

/-- The RUNNING job ends with a halting status. In a stream not yet HALTED the stream halts (R39); in a HALTED one the
status becomes CANCELLED (R40). In both the stream's QUEUED jobs are cancelled and its later commit entries abandoned. -/
def State.failJob (s : State) (status : Status) (written : Nat) : State :=
  match s.runningJob with
  | none => s
  | some j =>
    let k := j.ref.stream
    let halted := (s.stream k).halt.isSome
    let o : Outcome :=
      { status := if halted then .cancelled else status, valueA := BitVec.ofNat 32 written
        flags := .bypass j.bypassed }
    let ended := { s with engine := .free, jobs := cancelQueued (endRunningIn s.jobs o) k }
    let stopped := if halted then ended else ended.haltByJob k (j.ref.ringIndex + j.slots)
    stopped.abandonFrom k (some j.batch)

/-! ## One pixel at a time (R13 to R16) -/

/-- The outcome of a job whose count is processed or whose cursor is ENDED: `overrun` pixels remain (R15, R37). -/
def doneOutcome (bypassed : Bool) (written overrun : Nat) : Outcome :=
  { status := .done, valueA := BitVec.ofNat 32 written, valueB := BitVec.ofNat 32 overrun
    flags := { overrun := decide (0 < overrun), gateBypassed := bypassed } }

/-- The engine takes up the RUNNING job's next pixel, or ends the job: at its count, or at an ENDED cursor. -/
def State.nextPixel (s : State) : State :=
  match s.runningJob with
  | none => s
  | some j =>
    let done := s.engine.processed
    let atEnd :=
      match s.context j.ref.stream j.work.context with
      | .set _ (some _) => false
      | .set _ none => true
      | .unset => true
    match j.work.count? with
    | some n =>
      if n ≤ done then s.endJob (doneOutcome j.bypassed s.engine.written 0)
      else if atEnd then s.endJob (doneOutcome j.bypassed s.engine.written (n - done))
      else { s with engine := { s.engine with phase := j.work.nextPhase } }
    | none =>
      if atEnd then s.endJob (doneOutcome j.bypassed s.engine.written 0)
      else { s with engine := { s.engine with phase := j.work.nextPhase } }

/-- The cursor of the RUNNING job's context, none when ENDED or UNSET. -/
def State.cursor (s : State) : Option Position :=
  match s.runningJob with
  | none => none
  | some j =>
    match s.context j.ref.stream j.work.context with
    | .set _ p => p
    | .unset => none

/-- A context with its cursor stepped once. -/
def Context.stepped : Context → Context
  | .unset => .unset
  | .set w p => .set w (p.bind w.stepFrom)

/-- The pixel at the cursor has been processed: the counts rise and the cursor steps (R14). -/
def State.pixelDone (s : State) (wrote : Bool) : State :=
  match s.runningJob with
  | none => s
  | some j =>
    { s.setContext j.ref.stream j.work.context (s.context j.ref.stream j.work.context).stepped with
      engine := { s.engine with processed := s.engine.processed + 1
                                written := if wrote then s.engine.written + 1 else s.engine.written
                                phase := .idle } }

/-- A pixel is written at the cursor. -/
def State.writeAtCursor (s : State) (p : Pixel) : State :=
  match s.cursor with
  | some pos => { s with panel := s.panel.write pos.cell p }
  | none => s

/-- The pixel at the cursor as it stands. -/
def State.readAtCursor (s : State) : Pixel :=
  match s.cursor with
  | some pos => s.panel.read pos.cell
  | none => 0

/-- The write of the next word of a running READBACK, for the pixel at the cursor that the memory port has read; none where
no READBACK runs (R32). -/
def State.readbackWrite (s : State) : Option HostWrite :=
  match s.runningJob with
  | none => none
  | some j =>
    match j.work with
    | .readback _ _ destination _ =>
      some { address := destinationAddress destination (s.engine.processed + 1), bytes := readbackBytes s.readAtCursor }
    | .window _ _ => none
    | .transfer _ _ _ _ _ _ _ => none
    | .fill _ _ _ _ => none

/-- The context a job starts in, its cursor placed by the job's mode (R13). -/
def Context.placed (c : Context) (m : Mode) : Context :=
  match c with
  | .unset => .unset
  | .set w p =>
    match m with
    | .fresh => .set w (some w.corner)
    | .resumed => .set w p

/-- The engine carries out the start of the job it has just made RUNNING: a WINDOW job whole (R8), and of another job the
look at its context, the placing of its cursor and its first pixel (R13). -/
def State.startJob (s : State) : State :=
  match s.runningJob with
  | none => s
  | some j =>
    match j.work with
    | .window c w =>
      (s.setContext j.ref.stream c (.set w (some w.corner))).endJob (doneOutcome false 0 0)
    | work =>
      match s.context j.ref.stream work.context with
      | .unset => s.failJob .noWindow 0
      | ctx => (s.setContext j.ref.stream work.context (ctx.placed work.mode)).nextPixel

/-! ## The engine's choice (R23) -/

/-- The gate lets a job start. -/
def Job.gateOpen (j : Job) : Bool :=
  match j.gateState with
  | .none => true
  | .opened => true
  | .closed => false

/-- The list with its oldest eligible job made RUNNING, none where no job is eligible; `seen` are the streams of the jobs
before. -/
def runOldestEligible : List StreamId → List Job → Option (List Job)
  | _, [] => none
  | seen, j :: rest =>
    if j.isQueued && j.gateOpen && !seen.contains j.ref.stream then some ({ j with state := .running } :: rest)
    else (runOldestEligible (j.ref.stream :: seen) rest).map (fun r => j :: r)

/-- The free engine of a RUNNING device chooses the oldest eligible job and starts it; none where it has no choice. -/
def State.engineChoose (s : State) : Option State :=
  if s.running && !s.jobs.any Job.holdsEngine then
    match runOldestEligible [] s.jobs with
    | some jobs => some { s with jobs := jobs, engine := .free }.startJob
    | none => none
  else none

/-! ## Source pixels (R26) -/

/-- The engine deals with the answer to the read of the next source pixel: it widens and keys the pixel, then passes over
it or presents its write to the memory port; or it takes the bus error (R26, R30, R38). -/
def State.takeSource (s : State) (answer : Option Word) : State :=
  match s.runningJob with
  | none => s
  | some j =>
    match j.work with
    | .transfer _ _ _ format _ _ key =>
      match answer with
      | none => s.failJob .sourceError s.engine.written
      | some word =>
        if keySkips key (widenPixel format word) then (s.pixelDone false).nextPixel
        else { s with engine := { s.engine with phase := .write (widenPixel format word) } }
    | _ => s

/-- The engine takes up the answer of the next source pixel where it has come in; none where it has not. -/
def State.takeAhead (s : State) : Option State :=
  if s.active && decide (s.engine.phase = .source) then
    match sparseRead s.engine.ahead (s.engine.processed + 1) with
    | some answer =>
      some ({ s with engine := { s.engine with ahead := sparseErase s.engine.ahead (s.engine.processed + 1) } }.takeSource
        answer)
    | none => none
  else none

/-- The engine may have issued the read of source pixel `n` and not been answered: the pixel lies after those processed
or being written, within the count, before the end of the window (R15, R26), and no answer has come in. -/
def State.sourceExpected (s : State) (n : Nat) : Bool :=
  match s.runningJob with
  | none => false
  | some j =>
    match j.work with
    | .transfer c _ _ _ count _ _ =>
      let first :=
        match s.engine.phase with
        | .source => some (s.engine.processed + 1)
        | .write _ => some (s.engine.processed + 2)
        | _ => none
      let left :=
        match s.context j.ref.stream c with
        | .set w p => w.remaining p
        | .unset => 0
      match first with
      | some f =>
        decide (f ≤ n) && decide (n ≤ count) && decide (n ≤ s.engine.processed + left)
          && (sparseRead s.engine.ahead n).isNone
      | none => false
    | _ => false

/-! ## A stop at a pixel boundary (R16, R41, R43, R44) -/

/-- The pixel the engine is dealing with is finished: its write made, or its READBACK word taken as accepted. -/
def State.landPixel (s : State) : State :=
  match s.engine.phase with
  | .write p => (s.writeAtCursor p).pixelDone true
  | .word _ => s.pixelDone true
  | .idle => s
  | .source => s
  | .read => s

/-- The engine is in the middle of a pixel: a write is presented, or a READBACK word is on the bus. -/
def EnginePhase.inPixel : EnginePhase → Bool
  | .write _ => true
  | .word _ => true
  | .idle => false
  | .source => false
  | .read => false

/-- The engine stops at a pixel boundary: after the pixel it is dealing with or before it, as is free (log 3). Reads
still outstanding are forgotten; their answers are late. -/
def State.stopEngine (s : State) : State :=
  let t :=
    if s.engine.phase.inPixel then
      let u := { s with choices := s.choices + 1 }
      if Config.finishesPixel s.choices then u.landPixel else u
    else s
  { t with engine := { t.engine with phase := .idle, ahead := [] } }

/-- A FLUSH of stream `k` reaches the job list and the contexts (R41, R18). -/
def State.flushJobs (s : State) (k : StreamId) : State :=
  let mine :=
    match s.runningJob with
    | some j => decide (j.ref.stream = k)
    | none => false
  let t :=
    if mine then
      let u := s.stopEngine
      match u.runningJob with
      | some j =>
        { u with
          engine := .free
          jobs := endRunningIn u.jobs { status := .cancelled, valueA := BitVec.ofNat 32 u.engine.written
                                        flags := .bypass j.bypassed } }
      | none => u
    else s
  { t with jobs := cancelQueued t.jobs k, contexts := t.contexts.set k (.all .unset) }

/-! ## Adding a job (R20, R21) -/

/-- A job as it enters the list. -/
def newJob (ref : RecordRef) (slots : Nat) (work : JobWork) (gate : Option Gate) (batch : Word) : Job :=
  { ref := ref, slots := slots, work := work, batch := batch, gate := gate
    gateState := if gate.isSome then .closed else .none
    target := none, bypassed := false, state := .queued }

/-- The Sequencer of stream `k` dispatches its checked job record: the job joins the tail of the list, tagged with the
batch counter, and the current record is emptied (R20, R54). None where the list has no room or there is no such
record. -/
def State.dispatchJob (s : State) (k : StreamId) : Option State :=
  match (s.stream k).current with
  | none => none
  | some c =>
    match kindOf c.slots with
    | none => none
    | some kind =>
      match jobFields kind c.slots s.heads with
      | none => none
      | some (work, gate) =>
        if roomFor s.jobs k then
          let j := newJob (headerRef k c) (declaredSlots c.slots) work gate (s.stream k).batch
          some { s.dropCurrent k with jobs := evaluateGates s.heads [] (s.jobs ++ [j]) }
        else none

end Sys2Proof.Machine
end

