-- ==== Sys2Proof/Machine/Links.lean ====
section
/-! DEFINITION. The Link Controller: the entry effects of each link state, the sequences between them, the backlight ramp,
and what a LINK or LIGHT record does at its dispatch; and the outputs of a head that the link decides. -/

namespace Sys2Proof.Machine

/-! ## Outputs (R129, R137) -/

/-- The panel supply is applied. -/
def Link.supply (l : Link) : Bool :=
  match l.state with
  | .off => false
  | .unpowering => false
  | .powering => true
  | .signalling => true
  | .on => true
  | .darkening => true
  | .quiescing => true

/-- The backlight output: the level while the link is ON, 0 in every other state. -/
def Head.backlight (hd : Head) : Nat := if hd.link.state = .on then hd.light.level else 0

/-! ## What an event of a head brings about at once (R66, R67, R89, R121) -/

/-- A latch step of the immediate evaluation of a head that is not scanning (R121). -/
def State.latchNow (h : HeadId) (s : State) : Option State :=
  let hd := s.head h
  if s.active && !hd.scanning && !(readyRun hd.present.entries .immediate hd.scan.frame).isEmpty then
    some (s.setHead h (hd.latchStep h .immediate))
  else none

/-- At most `n` latch steps of the immediate evaluation of head `h` (R121). -/
def State.latchAll : Nat → HeadId → State → State
  | 0, _, s => s
  | n + 1, h, s =>
    match State.latchNow h s with
    | some t => State.latchAll n h t
    | none => s

/-- The outcome of a WAIT whose condition holds (R66, R67), none where it does not. -/
def State.waitOutcome (s : State) (k : StreamId) (form : WaitForm) : Option Outcome :=
  match form with
  | .frame h f =>
    let hd := s.head h
    if !hd.scanning then some { status := .done, valueA := hd.scan.frame, flags := { notScanning := true } }
    else if f.toNat ≤ hd.scan.frame.toNat then some { status := .done, valueA := hd.scan.frame }
    else none
  | .retired h =>
    if (s.head h).present.entries.any (fun e => decide (e.ref.stream = k)) then none else some { status := .done }
  | .jobs => if s.jobs.any (fun j => decide (j.ref.stream = k)) then none else some { status := .done }

/-- The WAIT of a stream whose current record stands in a phase and whose condition holds. -/
def State.waitReached (s : State) (k : StreamId) : Option Outcome :=
  match (s.stream k).current with
  | some c =>
    if c.phase = .waitCondition then
      match waitFields c.slots with
      | some form => s.waitOutcome k form
      | none => none
    else none
  | none => none

/-- A WAIT of stream `k` completes (R66, R67). -/
def State.completeWait (k : StreamId) (s : State) : Option State :=
  if s.active then (s.waitReached k).map (fun o => s.finish k o) else none

/-- Every WAIT whose condition holds completes. -/
def State.completeWaits (s : State) : State :=
  allStreams.foldl (fun t k => (State.completeWait k t).getD t) s

/-- Head `h` has stopped scanning: its CLOSED gates with fixed targets open with the bypassed mark, its queue is evaluated
immediately, and the WAIT FRAME records on it complete (R34, R89). DESIGN CHOICE (log 28): the queue is evaluated and the
WAITs complete before any job whose gate so opens is started, ends and is removed in the same event; R89 gives no order. -/
def State.scanStopped (s : State) (h : HeadId) : State :=
  let opened := { s with jobs := bypassGates h s.jobs }
  (State.latchAll (s.head h).present.entries.length h opened).completeWaits

/-! ## Entries (R88, R89, R130, R131, R132, R135, R141) -/

/-- The delay of a timed step, none for OFF and ON (R129). -/
def Link.delayOf (l : Link) (st : LinkState) : Option Nat :=
  let d := l.delays.getD { supply := 0, signal := 0, light := 0 }
  match st with
  | .off => none
  | .on => none
  | .powering => some d.supply
  | .signalling => some d.signal
  | .darkening => some d.light
  | .quiescing => some d.signal
  | .unpowering => some d.supply

/-- The kind code of a LINK completion. -/
def linkKind : Byte := Kind.link.code

/-- The kind code of a LIGHT completion. -/
def lightKind : Byte := Kind.light.code

/-- A pending LINK ends DONE, its completion held for placement. -/
def Link.complete (l : Link) : Link :=
  match l.pending with
  | some ref => { l with pending := none, held := l.held ++ report ref linkKind { status := .done } }
  | none => l

/-- The LIGHT outcome with a level in value A. -/
def lightOutcome (status : Status) (level : Nat) : Outcome := { status := status, valueA := BitVec.ofNat 32 level }

/-- The backlight at the entry to ON: from level 0 to the stored target at once, or a ramp toward it (R141). -/
def Light.atOn (b : Light) : Light :=
  if b.dim = false ∨ b.target = 0 then { b with level := b.target, ramping := false }
  else { b with level := 0, ramping := true }

/-- The backlight at the entry to DARKENING: level 0, no ramp, no pending LIGHT (R141). -/
def Light.atFall (b : Light) : Light := { b with level := 0, ramping := false, pending := none }

/-- The completion of a LIGHT superseded at the level that stands. -/
def Light.superseded (b : Light) : List Completion :=
  match b.pending with
  | some ref => report ref lightKind (lightOutcome .superseded b.level)
  | none => []

/-- A head that enters a link state: the timer set, and the effects of the entry on this head's own blocks. -/
def Head.enter (hd : Head) (st : LinkState) : Head :=
  let l := { hd.link with state := st, timer := hd.link.delayOf st }
  match st with
  | .off => { hd with link := if l.target = .off then l.complete else l }
  | .powering => { hd with link := l }
  | .signalling => { hd with link := l, scan := hd.scan.beginLine 0 }
  | .on => { hd with link := if l.target = .on then l.complete else l, light := hd.light.atOn }
  | .darkening => { hd with link := { l with held := l.held ++ hd.light.superseded }, light := hd.light.atFall }
  | .quiescing => { hd with link := l, scan := { hd.scan with sent := [], shown := [] } }
  | .unpowering => { hd with link := l }

/-- The part with head `h` entering a link state. An entry to OFF or ON by a sequence sets the head's LINK cause (R135);
an entry to QUIESCING stops the scan, with all that the stop brings about, though the link may pass on at once (R89,
R130). -/
def State.enterLink (s : State) (h : HeadId) (st : LinkState) : State :=
  let t := s.setHead h ((s.head h).enter st)
  match st with
  | .off => t.raise (.link h)
  | .on => t.raise (.link h)
  | .quiescing => t.scanStopped h
  | .powering => t
  | .signalling => t
  | .darkening => t
  | .unpowering => t

/-- The state that follows the end of a timed step, none in OFF and ON (R131). -/
def afterStep (st : LinkState) (target : LinkTarget) : Option LinkState :=
  match st, target with
  | .powering, .on => some .signalling
  | .powering, .off => some .unpowering
  | .signalling, .on => some .on
  | .signalling, .off => some .quiescing
  | .darkening, _ => some .quiescing
  | .quiescing, _ => some .unpowering
  | .unpowering, _ => some .off
  | .off, _ => none
  | .on, _ => none

/-- Head `h` enters a link state and passes on at once: through steps of delay 0, and from OFF to POWERING where the
target is ON (R130, R131). The number bounds the passage; the longest has seven entries. -/
def State.linkTo : Nat → State → HeadId → LinkState → State
  | 0, s, _, _ => s
  | n + 1, s, h, st =>
    let t := s.enterLink h st
    let l := (t.head h).link
    match st with
    | .off => if l.target = .on then t.linkTo n h .powering else t
    | _ =>
      if l.timer = some 0 then
        match afterStep st l.target with
        | some next => t.linkTo n h next
        | none => t
      else t

/-- The bound of `linkTo`. -/
def linkEntries : Nat := 8

/-- The link moves where a change of target moves it (R131). -/
def State.linkMove (s : State) (h : HeadId) : State :=
  let l := (s.head h).link
  match l.state, l.target with
  | .off, .on => s.linkTo linkEntries h .powering
  | .on, .off => s.linkTo linkEntries h .darkening
  | _, _ => s

/-- The link stands in the stable state its target names. -/
def Link.arrived (l : Link) : Bool :=
  match l.state, l.target with
  | .off, .off => true
  | .on, .on => true
  | _, _ => false

/-! ## Dispatches (R133, R134, R136, R138, R140) -/

/-- The completions a Link Controller holds go to the Sequencer of stream `k`, with those given after them. -/
def State.handKept (s : State) (k : StreamId) (cs : List Completion) : State :=
  let st := s.stream k
  s.setStream k { st with kept := st.kept ++ cs }

/-- A LINK record of stream `k` is dispatched to head `h` (R133). -/
def State.dispatchLink (s : State) (k : StreamId) (ref : RecordRef) (h : HeadId) (target : LinkTarget) : State :=
  let hd := s.head h
  let superseded :=
    match hd.link.pending with
    | some old => report old linkKind { status := .superseded }
    | none => []
  let handed := hd.link.held ++ superseded
  let moved :=
    (s.setHead h { hd with link := { hd.link with pending := none, held := [], target := target } }).linkMove h
  if (moved.head h).link.arrived then
    (moved.handKept k (handed ++ report ref linkKind { status := .done })).dropCurrent k
  else
    let hd2 := moved.head h
    ((moved.setHead h { hd2 with link := { hd2.link with pending := some ref } }).handKept k handed).dropCurrent k

/-- The backlight after a LIGHT dispatch, and the record's own outcome where it is reached at once (R138). -/
def Light.take (b : Light) (on : Bool) (ref : RecordRef) (target : Nat) (dim : Bool) (step : Nat) :
    Light × Option Outcome :=
  let stored := { b with target := target, dim := dim, step := step, pending := none }
  if !on then (stored, some (lightOutcome .done 0))
  else if !dim then ({ stored with level := target, ramping := false }, some (lightOutcome .done target))
  else if b.level = target then ({ stored with ramping := false }, some (lightOutcome .done target))
  else ({ stored with ramping := true, pending := some ref }, none)

/-- A LIGHT record of stream `k` is dispatched to head `h` (R138). -/
def State.dispatchLight (s : State) (k : StreamId) (ref : RecordRef) (h : HeadId) (target : Nat) (dim : Bool)
    (step : Nat) : State :=
  let hd := s.head h
  let r := hd.light.take (decide (hd.link.state = .on)) ref target dim step
  let own :=
    match r.2 with
    | some o => report ref lightKind o
    | none => []
  let handed := hd.link.held ++ hd.light.superseded ++ own
  ((s.setHead h { hd with light := r.1, link := { hd.link with held := [] } }).handKept k handed).dropCurrent k

/-! ## The ramp (R139) -/

/-- A level moved one step toward a target, never past it. -/
def rampToward (level target step : Nat) : Nat :=
  if level < target then min target (level + step) else max target (level - step)

/-- A head after the ramp step of a blanking start. -/
def Head.ramp (hd : Head) : Head :=
  let b := hd.light
  if hd.link.state = .on ∧ b.ramping = true then
    let level := rampToward b.level b.target b.step
    if level = b.target then
      match b.pending with
      | some ref =>
        { hd with
          light := { b with level := level, ramping := false, pending := none }
          link := { hd.link with held := hd.link.held ++ report ref lightKind (lightOutcome .done level) } }
      | none => { hd with light := { b with level := level, ramping := false } }
    else { hd with light := { b with level := level } }
  else hd

end Sys2Proof.Machine
end

