-- ==== Sys2Proof/Machine/Settle.lean ====
section
/-! DEFINITION. What comes about inside a step beside its own effect: the tries, evaluations and placements that the
manual says happen "at once", "in the same event" or "at the first moment" a condition holds. Each is one reaction, which
answers none where it has nothing to do; `settle` takes reactions until none has. Reactions whose order the manual leaves
open and whose order shows (the tries: WAITs that complete, retries of held records, the engine's choice; placements; the
fetch grant) are chosen among freely (log 2). -/

namespace Sys2Proof.Machine

/-! ## Device -/

/-- A STOPPING device with no job RUNNING or ENDED becomes STOPPED (R42). -/
def State.reachStopped (s : State) : Option State :=
  if s.regs.device = .stopping ∧ s.jobs.all Job.isQueued then some (s.setDevice .stopped) else none

/-! ## Streams -/

/-- A commit entry as its PRESENT makes it (R114). -/
def newEntry (ref : RecordRef) (r : PresentRecord) (hd : Head) (batch : Word) : Entry :=
  { ref := ref, policy := r.policy, notBefore := r.notBefore, missed := 0, snapshot := hd.staging.picture
    pal := hd.staging.dirty, batch := batch, state := .waiting }

/-- The Sequencer of stream `k` dispatches its checked PRESENT: the entry is built and the batch counter raised (R114).
None where all four places of the queue are taken. -/
def State.dispatchPresent (s : State) (k : StreamId) : Option State :=
  match (s.stream k).current with
  | none => none
  | some c =>
    match presentFields c.slots with
    | none => none
    | some r =>
      let hd := s.head r.head
      if hd.present.places < queuePlaces then
        let st := s.stream k
        let t := s.setStream k { st with current := none, batch := st.batch + 1 }
        let e := (newEntry (headerRef k c) r hd st.batch).evaluated t.jobs t.streams
        some (t.setHead r.head
          { hd with
            present := { hd.present with entries := hd.present.entries ++ [e] }
            staging := { hd.staging with dirty := false } })
      else none

/-- The Sequencer of stream `k` dispatches its checked PALETTE: the component read begins (R111). None while the palette
hazard stands. -/
def State.dispatchPalette (s : State) (k : StreamId) : Option State :=
  match (s.stream k).current with
  | none => none
  | some c =>
    match paletteFields c.slots with
    | none => none
    | some r =>
      let hd := s.head r.head
      if hd.present.hazard then none
      else
        let read : PaletteRead :=
          { ref := headerRef k c, start := r.start, count := r.count, source := r.source, buffer := [] }
        some ((s.setHead r.head { hd with staging := { hd.staging with reading := some read } }).setPhase k
          .waitPaletteRead)

/-- The current record of stream `k` stands in a phase. -/
def State.inPhase (s : State) (k : StreamId) (p : RecordPhase) : Bool :=
  match (s.stream k).current with
  | some c => decide (c.phase = p)
  | none => false

/-- A PRESENT held QUEUE_FULL is tried again (R55). -/
def State.retryPresent (k : StreamId) (s : State) : Option State :=
  if s.running && s.inPhase k .heldQueueFull then s.dispatchPresent k else none

/-- A PALETTE held PALETTE_HAZARD is tried again (R55, R110). -/
def State.retryPalette (k : StreamId) (s : State) : Option State :=
  if s.running && s.inPhase k .heldPaletteHazard then s.dispatchPalette k else none

/-- A job record held JOB_SPACE is tried again: it joins the list where it finds room (R20, R55). -/
def State.retryJob (k : StreamId) (s : State) : Option State :=
  if s.running && s.inPhase k .heldJobSpace then s.dispatchJob k else none

/-! ## Tries -/

/-- The tries of one event: a WAIT that may complete, a held record that may be dispatched, and the engine's choice. -/
inductive Try where
  | wait (k : StreamId)
  | present (k : StreamId)
  | palette (k : StreamId)
  | job (k : StreamId)
  | engine
deriving DecidableEq, Repr

/-- All tries. -/
def allTries : List Try :=
  [.wait 0, .wait 1, .wait 2, .wait 3, .present 0, .present 1, .present 2, .present 3, .palette 0, .palette 1,
    .palette 2, .palette 3, .job 0, .job 1, .job 2, .job 3, .engine]

/-- A try made; none where it has nothing to do. -/
def State.attempt (s : State) (a : Try) : Option State :=
  match a with
  | .wait k => s.completeWait k
  | .present k => s.retryPresent k
  | .palette k => s.retryPalette k
  | .job k => s.retryJob k
  | .engine => s.engineChoose

/-- One of the tries that have something to do is made; which one is free. So of two records held JOB_SPACE either joins
the list first (R20, R55), and so of an addition and a job's start that ends NO_WINDOW and halts the same stream: the
added job is then cancelled with the others, or the held record is dropped (R39). -/
def State.tryNext (s : State) : Option State :=
  let ready := allTries.filter (fun a => (s.attempt a).isSome)
  if ready.isEmpty then none
  else
    let choice := s.pick ready.length
    choice.2.attempt (ready.getD choice.1 .engine)

/-! ## Placements (R145) -/

/-- The class OTHER has room in the outbound list. -/
def otherRoom (outbound : List Completion) : Bool :=
  decide ((outbound.filter (fun c => c.origin.isNone)).length < maxOther)

/-- The blocks that place completions. -/
inductive Placer where
  | jobList
  | sequencer (k : StreamId)
  | linkController (h : HeadId)
  | presentUnit (h : HeadId)
deriving DecidableEq, Repr

/-- All placing blocks. -/
def allPlacers : List Placer :=
  [.jobList, .sequencer 0, .sequencer 1, .sequencer 2, .sequencer 3, .linkController 0, .linkController 1,
    .presentUnit 0, .presentUnit 1]

/-- The state with a completion placed at the tail of the outbound list. -/
def State.place (s : State) (cs : List Completion) : State :=
  { s with writer := { s.writer with outbound := s.writer.outbound ++ cs } }

/-- The completion of the oldest ENDED job, and the list without that job; none where no job is ENDED. -/
def takeEnded : List Job → Option (Completion × List Job)
  | [] => none
  | j :: rest =>
    match j.state with
    | .ended o _ => some (completionOf j.ref j.work.kind.code o none, rest)
    | _ => (takeEnded rest).map (fun r => (r.1, j :: r.2))

/-- A reading of a slot is an earlier one of the slot that `c` names (R181). -/
def Completion.follows (c : Completion) (stream : StreamId) (ringIndex reading : Nat) : Bool :=
  decide (stream = c.stream) && decide (ringIndex = c.ringIndex) && decide (reading < c.reading)

/-- The completions that the Sequencers, the Link Controllers and the Present Units have to place. -/
def State.unplaced (s : State) : List Completion :=
  allStreams.flatMap (fun k => (s.stream k).kept)
    ++ allHeads.flatMap (fun h => (s.head h).link.held ++ (s.head h).present.outbox)

/-- The pending LINK and LIGHT records whose slots a job-error halt has counted as posted again (R61). -/
def State.rewoundPending (s : State) : List RecordRef :=
  (allHeads.flatMap (fun h => (s.head h).link.pending.toList ++ (s.head h).light.pending.toList)).filter
    (fun ref => ref.rewound)

/-- The completion of an earlier reading of the slot that `c` names is to be placed before `c`: that of an ENDED job, one a
block has to place, or that of a pending LINK or LIGHT whose slot has been read again after a job-error halt (R181;
log 27). -/
def State.owed (s : State) (c : Completion) : Bool :=
  s.jobs.any (fun j => j.isEnded && c.follows j.ref.stream j.ref.ringIndex j.ref.reading)
    || s.unplaced.any (fun d => c.follows d.stream d.ringIndex d.reading)
    || s.rewoundPending.any (fun ref => c.follows ref.stream ref.ringIndex ref.reading)

/-- A completion of an ABANDONED entry. -/
def Completion.isAbandoned (c : Completion) : Bool := decide (c.outcome.status = .abandoned)

/-- The completion that a list kept oldest first yields, and the list without it: its oldest, where `free` lets that be
placed; where it does not, the completions behind it wait too, unless `passed` lets them pass it. -/
def takeOldest (free passed : Completion → Bool) : List Completion → Option (Completion × List Completion)
  | [] => none
  | c :: rest =>
    if free c then some (c, rest)
    else if passed c then (takeOldest free passed rest).map (fun r => (r.1, c :: r.2))
    else none

/-- The completion that a block would place next, with the state once it is placed; none where it has none, or the next has
to wait for an earlier reading's (R181). The job list places its oldest ENDED job's (R22), a Sequencer and a Link Controller
their oldest, one after another in that order (R136), a Present Unit those of its latch steps in queue order (R122). DESIGN
CHOICE (log 27): of a Present Unit's completions, one of an ABANDONED entry that has to wait is passed by those behind it. -/
def State.nextFrom (s : State) (p : Placer) : Option (Completion × State) :=
  let free := fun c => !s.owed c
  match p with
  | .jobList =>
    match takeEnded s.jobs with
    | some (c, jobs) => if free c then some (c, (s.place [c]).jobsRemoved jobs) else none
    | none => none
  | .sequencer k =>
    match takeOldest free (fun _ => false) (s.stream k).kept with
    | some (c, rest) => some (c, (s.setStream k { s.stream k with kept := rest }).place [c])
    | none => none
  | .linkController h =>
    let hd := s.head h
    match takeOldest free (fun _ => false) hd.link.held with
    | some (c, rest) => some (c, (s.setHead h { hd with link := { hd.link with held := rest } }).place [c])
    | none => none
  | .presentUnit h =>
    let hd := s.head h
    match takeOldest free Completion.isAbandoned hd.present.outbox with
    | some (c, rest) => some (c, (s.setHead h { hd with present := { hd.present with outbox := rest } }).place [c])
    | none => none

/-- The block places completions of class COMMIT. -/
def Placer.commits : Placer → Bool
  | .jobList => false
  | .sequencer _ => false
  | .linkController _ => false
  | .presentUnit _ => true

/-- A block places its next completion; none where it has none, or has one of class OTHER for which the class has no room
(R145). -/
def State.placeFrom (s : State) (p : Placer) : Option State :=
  match s.nextFrom p with
  | some (_, t) => if p.commits || otherRoom s.writer.outbound then some t else none
  | none => none

/-- One of the blocks that can places its next completion; which one is free (R145). -/
def State.placeNext (s : State) : Option State :=
  if s.active then
    let ready := allPlacers.filter (fun p => (s.placeFrom p).isSome)
    if ready.isEmpty then none
    else
      let choice := s.pick ready.length
      choice.2.placeFrom (ready.getD choice.1 .jobList)
  else none

/-! ## Host bus requests -/

/-- The 16 bytes of a completion (R177). -/
def Completion.bytes (c : Completion) (lap : Bool) : List Byte :=
  [(if lap then 0x80#8 else 0#8) ||| BitVec.ofNat 8 c.stream.val, c.kind, c.outcome.status.code, c.outcome.flags.byte]
    ++ bytesOf c.tag.toNat 2 ++ bytesOf c.ringIndex 2 ++ bytesOf c.outcome.valueA.toNat 4
    ++ bytesOf c.outcome.valueB.toNat 4

/-- The host has left the producer index room (R147). -/
def CompletionRing.hasRoom (r : CompletionRing) : Bool := decide ((r.producer + 1) % r.size ≠ r.retire)

/-- The writer issues the write of the oldest outbound entry (R147). -/
def State.issueWrite (s : State) : Option State :=
  if s.active && s.writer.write.isNone then
    match s.writer.ring, s.writer.outbound with
    | some r, c :: _ =>
      if r.hasRoom then
        some { s with
          writer := { s.writer with
            write := some { address := r.base + BitVec.ofNat 64 (16 * r.producer), bytes := c.bytes r.lap } } }
      else none
    | _, _ => none
  else none

/-- The stream needs a slot that is posted (R47). -/
def Stream.needsSlot (st : Stream) : Bool :=
  match st.ring with
  | none => false
  | some r =>
    st.halt.isNone && st.kept.isEmpty && decide (r.fetch ≠ r.post)
      && (match st.current with
          | none => true
          | some c => decide (c.phase = .reading))

/-- Stream `k` is a fetch candidate of a class (R47). -/
def State.candidate (s : State) (cls : FetchClass) (k : StreamId) : Bool :=
  (s.stream k).needsSlot
    && (match (s.stream k).ring with
        | some r => decide (r.fetchClass = cls)
        | none => false)

/-- The streams in order after one of them, that one last (R48). -/
def after (k : StreamId) : List StreamId := [k + 1, k + 2, k + 3, k]

/-- The first candidate of a class in stream order after the stream of that class last granted. -/
def State.turn (s : State) (cls : FetchClass) : Option StreamId :=
  (after (match cls with
    | .urgent => s.fetch.lastUrgent
    | .normal => s.fetch.lastNormal)).find? (fun k => s.candidate cls k)

/-- The read of stream `k`'s next slot is issued. -/
def State.issueSlot (s : State) (k : StreamId) (f : FetchUnit) : Option State :=
  match (s.stream k).ring with
  | some r =>
    some { s with
      fetch := { f with
        read := some { stream := k, address := r.base + BitVec.ofNat 64 (64 * r.fetch), discard := false } } }
  | none => none

/-- The Fetch Unit grants one candidate (R48). -/
def State.grant (s : State) : Option State :=
  if s.running && s.fetch.read.isNone then
    match s.turn .urgent, s.turn .normal with
    | some u, none => s.issueSlot u { s.fetch with urgentRun := 0, lastUrgent := u }
    | some u, some n =>
      if s.fetch.urgentRun < 4 then
        s.issueSlot u { s.fetch with urgentRun := s.fetch.urgentRun + 1, lastUrgent := u }
      else s.issueSlot n { s.fetch with urgentRun := 0, lastNormal := n }
    | none, some n => s.issueSlot n { s.fetch with urgentRun := 0, lastNormal := n }
    | none, none => none
  else none

/-! ## Settling -/

/-- The acts of one event whose order the manual leaves open. -/
def acts : List (State → Option State) := [State.tryNext, State.placeNext, State.grant]

/-- A try, a placement or the fetch grant is made, of those that have something to do; which one is free (log 2). So where one event
makes several streams fetch candidates one after another, the grant may come before the second of them (R47, R48), and a
completion may be placed before or after a try (R20, R55, R145). -/
def State.actNext (s : State) : Option State :=
  let ready := acts.filter (fun f => (f s).isSome)
  if ready.isEmpty then none
  else
    let choice := s.pick ready.length
    (ready.getD choice.1 State.tryNext) choice.2

/-- The reactions, in the order they are looked for: the order of those before and after the free choice does not show
(DEDUCED, log 2). -/
def reactions : List (State → Option State) :=
  [State.reachStopped, State.latchNow 0, State.latchNow 1, State.takeAhead, State.actNext, State.issueWrite]

/-- The first of some reactions that has something to do. -/
def firstReaction : List (State → Option State) → State → Option State
  | [], _ => none
  | f :: rest, s =>
    match f s with
    | some t => some t
    | none => firstReaction rest s

/-- One reaction; none where the part has settled. -/
def State.react (s : State) : Option State := firstReaction reactions s

/-- At most `n` reactions. -/
def State.settleFor : Nat → State → State
  | 0, s => s
  | n + 1, s =>
    match s.react with
    | some t => t.settleFor n
    | none => s

/-- What a job may still lead to. -/
def Job.work? (j : Job) : Nat :=
  match j.state with
  | .queued => 6
  | .running => 5
  | .ended _ _ => 2

/-- What an entry may still lead to. -/
def Entry.work? (e : Entry) : Nat := if e.unlatched then 3 else 0

/-- What a stream may still lead to. -/
def Stream.work? (st : Stream) : Nat :=
  st.kept.length
    + (match st.current with
       | none => 0
       | some c =>
         match c.phase with
         | .heldJobSpace => 8
         | .heldQueueFull => 8
         | .heldPaletteHazard => 8
         | .waitCondition => 3
         | .reading => 0
         | .whole => 0
         | .waitLease => 0
         | .waitPaletteRead => 0)

/-- What a head may still lead to. -/
def Head.work? (hd : Head) : Nat :=
  (hd.present.entries.map Entry.work?).sum + hd.present.outbox.length + hd.link.held.length

/-- A number that falls with every reaction, so that it bounds how many there can be. -/
def State.workLeft (s : State) : Nat :=
  (if s.regs.device = .stopping then 1 else 0)
    + (s.jobs.map Job.work?).sum + s.engine.ahead.length
    + (s.stream 0).work? + (s.stream 1).work? + (s.stream 2).work? + (s.stream 3).work?
    + (s.head 0).work? + (s.head 1).work?
    + (if s.writer.write.isNone then 1 else 0) + (if s.fetch.read.isNone then 1 else 0)

/-- The part with every reaction taken. -/
def State.settle (s : State) : State := s.settleFor s.workLeft

end Sys2Proof.Machine
end

