-- ==== Sys2Proof/Decode.lean ====
section
/-! DEFINITION. The two decodings of the block: the opcode table's words (the table gives no row any bits, so no word
spells a command), and the host's writes to the register window, which R172 lays out bit by bit; and the encoder of the
window writes. -/

namespace Sys2Proof

/-- The command an opcode-table word spells: none, since no row of spec/opcode_table.json gives bits. -/
def decodeTableWord (_nbits _w : Nat) : Option Instr := none

/-- The offsets of the nine registers (R172). -/
inductive Register where
  | ident | control | status | cause | causeEnable | setupLo | setupHi | post | retire
deriving DecidableEq, Repr

/-- The register at a window offset, none where the offset names no register (R172). -/
def Register.at? (offset : BitVec 6) : Option Register :=
  match offset.toNat with
  | 0x00 => some .ident
  | 0x04 => some .control
  | 0x08 => some .status
  | 0x0C => some .cause
  | 0x10 => some .causeEnable
  | 0x14 => some .setupLo
  | 0x18 => some .setupHi
  | 0x1C => some .post
  | 0x20 => some .retire
  | _ => none

/-- Bits 3..0 of a word written to CONTROL name one of the five commands (R161, R172). -/
def controlNamesCommand (value : Word) : Bool :=
  1 ≤ (value.extractLsb' 0 4).toNat && (value.extractLsb' 0 4).toNat ≤ 5

/-- The stream number of a word written to CONTROL: bits 9..8 (R172). -/
def controlStream (value : Word) : StreamId := (value.extractLsb' 8 2).toFin

/-- The command a host write of `value` at a window offset is (R157, R161, R172). -/
def decodeWindowWrite (offset : BitVec 6) (value : Word) : Instr :=
  match Register.at? offset with
  | some .control =>
    match (value.extractLsb' 0 4).toNat with
    | 1 => .start
    | 2 => .stop
    | 3 => .reset
    | 4 => .resume (controlStream value)
    | 5 => .flush (controlStream value)
    | _ => .registerWriteOther offset value
  | some .cause => .causeWrite value
  | some .causeEnable => .causeEnableWrite value
  | some .setupLo => .setupAddressWrite .low value
  | some .setupHi => .setupAddressWrite .high value
  | some .post => .post value
  | some .retire => .retire value
  | some .ident => .registerWriteOther offset value
  | some .status => .registerWriteOther offset value
  | none => .registerWriteOther offset value

/-- A word with a command code in bits 3..0 and a stream number in bits 9..8, its other bits zero (R172). -/
def controlWord (code : Nat) (s : StreamId) : Word := BitVec.ofNat 32 (code + 256 * s.val)

/-- The window write that gives a command, where the command is one: its offset and value. -/
def encodeWindowWrite : Instr → Option (BitVec 6 × Word)
  | .start => some (0x04#6, controlWord 1 0)
  | .stop => some (0x04#6, controlWord 2 0)
  | .reset => some (0x04#6, controlWord 3 0)
  | .resume s => some (0x04#6, controlWord 4 s)
  | .flush s => some (0x04#6, controlWord 5 s)
  | .causeWrite value => some (0x0C#6, value)
  | .causeEnableWrite value => some (0x10#6, value)
  | .setupAddressWrite .low value => some (0x14#6, value)
  | .setupAddressWrite .high value => some (0x18#6, value)
  | .post value => some (0x1C#6, value)
  | .retire value => some (0x20#6, value)
  | .registerWriteOther offset value => some (offset, value)
  | _ => none

end Sys2Proof
end

