-- ==== Sys2Proof/Machine/Window.lean ====
section
/-! DEFINITION. The register window and the device states: what reads return, power-on reset, the five CONTROL commands,
the other register writes, the entry to FAULT, and the Setup Table load. -/

namespace Sys2Proof.Machine

/-- What a command answers. -/
abbrev Answer := Host.Outcome State Fault Refusal

/-! ## Register reads (R157 to R159, R172) -/

/-- The device state code. -/
def Device.code : Device → Nat
  | .idle => 0
  | .loading => 1
  | .running => 2
  | .stopping => 3
  | .stopped => 4
  | .fault => 5

/-- The setup error code. -/
def SetupError.code : SetupError → Nat
  | .none => 0
  | .tableAlign => 1
  | .noStream => 2
  | .stream0 => 3
  | .stream1 => 4
  | .stream2 => 5
  | .stream3 => 6
  | .ring => 7
  | .head0 => 8
  | .head1 => 9

/-- The fault origin code. -/
def FaultOrigin.code : FaultOrigin → Nat
  | .none => 0
  | .completionWrite => 1
  | .setupRead => 2

/-- The link state code. -/
def LinkState.code : LinkState → Nat
  | .off => 0
  | .powering => 1
  | .signalling => 2
  | .on => 3
  | .darkening => 4
  | .quiescing => 5
  | .unpowering => 6

/-- The code of a wait reason: 8 and above always mean WAITING. -/
def WaitReason.code : WaitReason → Nat
  | .posting => 8
  | .jobSpace => 9
  | .queueFull => 10
  | .lease => 11
  | .paletteHazard => 12
  | .paletteRead => 13
  | .waitRecord => 14
  | .completionSpace => 15

/-- The stream code. -/
def StreamCode.code : StreamCode → Nat
  | .disabled => 0
  | .idle => 1
  | .running => 2
  | .halted => 3
  | .stopped => 4
  | .waiting r => r.code

/-- The detail field, read against the device state (R159). -/
def Registers.detail (r : Registers) : Nat :=
  match r.device with
  | .idle => r.setupError.code
  | .fault => r.faultOrigin.code
  | .loading => 0
  | .running => 0
  | .stopping => 0
  | .stopped => 0

/-- What a read of STATUS returns (R159, R172). -/
def State.status (s : State) : Word :=
  BitVec.ofNat 32
    (s.regs.device.code + s.regs.detail * 16 + (s.head 0).link.state.code * 256 + (s.head 1).link.state.code * 4096
      + (s.streamCode 0).code * 65536 + (s.streamCode 1).code * 1048576 + (s.streamCode 2).code * 16777216
      + (s.streamCode 3).code * 268435456)

/-- What a host read at a window offset returns; no read changes any state (R157). -/
def State.readRegister (s : State) (offset : BitVec 6) : Word :=
  match Register.at? offset with
  | some .ident => identWord
  | some .control => 0
  | some .status => s.status
  | some .cause => s.regs.cause.zeroExtend 32
  | some .causeEnable => s.regs.causeEnable.zeroExtend 32
  | some .setupLo => s.regs.setupLo
  | some .setupHi => s.regs.setupHi
  | some .post => 0
  | some .retire =>
    match s.writer.ring with
    | some r => BitVec.ofNat 32 r.retire
    | none => 0
  | none => 0

/-! ## Resets (R168, R170) -/

/-- A head after RESET: the active set kept and copied into the staging set, everything else as after power-on
(R81, R90, R91, R103, R127, R128, R137, R143). -/
def Head.afterReset (hd : Head) : Head :=
  { lease := .free
    staging := { picture := hd.scan.active, palette := hd.scan.palette, dirty := false, reading := none }
    present := .empty
    scan := { timing := none, line := 0, frame := 0, active := hd.scan.active, palette := hd.scan.palette, sent := []
              shown := [] }
    link := .off
    light := .dark }

/-- The part after RESET: a RUNNING job stops at a pixel boundary, panel memory, the active sets, CAUSE_ENABLE and the
Setup Table address stay, and every block takes its reset value (R168). -/
def State.afterReset (s : State) : State :=
  let t := s.stopEngine
  { State.reset with
    regs := { Registers.atPowerOn with
      causeEnable := s.regs.causeEnable, setupLo := s.regs.setupLo, setupHi := s.regs.setupHi }
    panel := t.panel
    heads := s.heads.map Head.afterReset
    choices := t.choices
    slotReads := t.slotReads
    pending := s.pending }

/-- The part after power-on reset: panel memory of unknown content again (R5, R170). The queue of waiting commands is the
model's and stays, and its count of choices. -/
def State.afterPowerOn (s : State) : State :=
  { State.reset with
    panel := { powerOns := s.panel.powerOns + 1, cells := [] }
    choices := s.choices
    slotReads := s.slotReads
    pending := s.pending }

/-! ## FAULT (R169) -/

/-- The entry to FAULT: the origin and ERROR are set, each stream keeps the state it showed, the engine stops at a pixel
boundary, palette reads stop with their buffers dropped, an outstanding slot read will be discarded, and a Setup Table
load ends (R44, R49, R58, R112, R152, R163). -/
def State.enterFault (s : State) (origin : FaultOrigin) : State :=
  let t := s.stopEngine
  { t with
    regs := { s.regs with
      device := .fault, faultOrigin := origin, cause := setCause .error s.regs.cause
      frozen := ⟨s.streamCode 0, s.streamCode 1, s.streamCode 2, s.streamCode 3⟩ }
    loader := none
    fetch := { s.fetch with read := s.fetch.read.map (fun r => { r with discard := true }) }
    heads := t.heads.map (fun hd => { hd with staging := { hd.staging with reading := none } }) }

/-! ## The effects of register writes -/

/-- A CONTROL command that is refused sets CONTROL_REFUSED and does nothing else (R161). -/
def State.refuseControl (s : State) : State := s.raise .controlRefused

/-- The Setup Table address (R160). -/
def State.setupAddress (s : State) : Address := s.regs.setupHi ++ s.regs.setupLo

/-- START (R163, R166). -/
def State.startCommand (s : State) : State :=
  match s.regs.device with
  | .idle =>
    if s.setupAddress.toNat % 64 = 0 then
      { s with regs := { s.regs with device := .loading, setupError := .none }
               loader := some { address := s.setupAddress, quarters := [] } }
    else { s with regs := { s.regs with setupError := .tableAlign } }.raise .setup
  | .stopped => (s.setDevice .running).settle
  | .loading => s.refuseControl
  | .running => s.refuseControl
  | .stopping => s.refuseControl
  | .fault => s.refuseControl

/-- STOP (R167): STOPPING, or STOPPED in the same event where no job is RUNNING or ENDED. -/
def State.stopCommand (s : State) : State :=
  if s.regs.device = .running then (s.setDevice .stopping).settle else s.refuseControl

/-- RESUME of stream `k` (R62): the stream leaves its halt and reads on from its fetch index. -/
def State.resumeCommand (s : State) (k : StreamId) : State :=
  if s.active && (s.stream k).halt.isSome then (s.setStream k { s.stream k with halt := none }).settle
  else s.refuseControl

/-- The stream after the Sequencer's part of its FLUSH: its current record ended CANCELLED, its posted records passed over,
its halt forgotten, its batch counter 0 (R63). -/
def State.flushStream (s : State) (k : StreamId) : State :=
  let t := s.finish k { status := .cancelled }
  let st := t.stream k
  { t.setStream k { st with ring := st.ring.map (fun r => { r with fetch := r.post }), halt := none, batch := 0 } with
    fetch := { t.fetch with
      read := t.fetch.read.map (fun r => if r.stream = k then { r with discard := true } else r) } }

/-- Head `h` in a FLUSH of stream `k`: its entries abandoned, then its lease handed on, with one reload where it held the
lease or lost an entry (R79, R124). -/
def State.flushHead (s : State) (h : HeadId) (k : StreamId) : State :=
  let hd := s.head h
  let gone := hd.condemned k 0 none
  let after := hd.abandon h k 0 none
  if hd.lease.holder = some k then (s.setHead h after).handOn h (gone.any (fun e => e.pal))
  else if gone.isEmpty then s.setHead h after
  else s.setHead h (after.reload (gone.any (fun e => e.pal)))

/-- FLUSH of stream `k` before what it brings about in the same step (R63). -/
def State.flushed (s : State) (k : StreamId) : State :=
  let withdrawn := { s with heads := s.heads.map (fun hd => (Head.withdraw hd k).abandonRead k) }
  (((withdrawn.flushStream k).flushJobs k).flushHead 0 k).flushHead 1 k

/-- FLUSH of stream `k` (R63): refused for a DISABLED stream, and in IDLE, LOADING and FAULT. -/
def State.flushCommand (s : State) (k : StreamId) : State :=
  if s.active && (s.stream k).ring.isSome then (s.flushed k).settle else s.refuseControl

/-- A write to POST (R46). -/
def State.postWrite (s : State) (value : Word) : State :=
  let st := s.stream (postStream value)
  match st.ring with
  | some r =>
    if indexField value < r.size then
      (s.setStream (postStream value) { st with ring := some { r with post := indexField value } }).settle
    else s.raise .postRejected
  | none => s.raise .postRejected

/-- A write to RETIRE (R149). -/
def State.retireWrite (s : State) (value : Word) : State :=
  match s.writer.ring with
  | some r =>
    if indexField value < r.size then
      { s with writer := { s.writer with ring := some { r with retire := indexField value } } }.settle
    else s.raise .postRejected
  | none => s.raise .postRejected

/-- A write to CAUSE (R154). -/
def State.causeWritten (s : State) (value : Word) : State :=
  { s with regs := { s.regs with cause := clearCauses s.regs.cause value } }

/-- A write to CAUSE_ENABLE; bits 31..9 are ignored (R155, R172). -/
def State.enableWritten (s : State) (value : Word) : State :=
  { s with regs := { s.regs with causeEnable := value.truncate 9 } }

/-- A write to SETUP_LO or SETUP_HI (R160). -/
def State.addressWritten (s : State) (half : AddressHalf) (value : Word) : State :=
  match half with
  | .low => { s with regs := { s.regs with setupLo := value } }
  | .high => { s with regs := { s.regs with setupHi := value } }

/-- A host write anywhere in the window, as the window decodes it (R157, R161). -/
def State.windowWrite (s : State) (offset : BitVec 6) (value : Word) : State :=
  match decodeWindowWrite offset value with
  | .start => s.startCommand
  | .stop => s.stopCommand
  | .reset => s.afterReset
  | .resume k => s.resumeCommand k
  | .flush k => s.flushCommand k
  | .post v => s.postWrite v
  | .retire v => s.retireWrite v
  | .causeWrite v => s.causeWritten v
  | .causeEnableWrite v => s.enableWritten v
  | .setupAddressWrite half v => s.addressWritten half v
  | _ => if Register.at? offset = some .control then s.refuseControl else s

/-! ## Meanings -/

/-- POWER_ON_RESET (R170). -/
def execPowerOnReset (s : State) : Answer := .next s.afterPowerOn

/-- START (R163, R166). -/
def execStart (s : State) : Answer := .next s.startCommand

/-- STOP (R167). -/
def execStop (s : State) : Answer := .next s.stopCommand

/-- RESET (R168). -/
def execReset (s : State) : Answer := .next s.afterReset

/-- RESUME (R62). -/
def execResume (k : StreamId) (s : State) : Answer := .next (s.resumeCommand k)

/-- FLUSH (R63). -/
def execFlush (k : StreamId) (s : State) : Answer := .next (s.flushCommand k)

/-- POST (R46). -/
def execPost (value : Word) (s : State) : Answer := .next (s.postWrite value)

/-- RETIRE (R149). -/
def execRetire (value : Word) (s : State) : Answer := .next (s.retireWrite value)

/-- CAUSE_WRITE (R154). -/
def execCauseWrite (value : Word) (s : State) : Answer := .next (s.causeWritten value)

/-- CAUSE_ENABLE_WRITE (R155). -/
def execCauseEnableWrite (value : Word) (s : State) : Answer := .next (s.enableWritten value)

/-- SETUP_ADDRESS_WRITE (R160). -/
def execSetupAddressWrite (half : AddressHalf) (value : Word) (s : State) : Answer := .next (s.addressWritten half value)

/-- REGISTER_WRITE_OTHER (R157, R161): no effect, but for a CONTROL write whose code names no command, which is refused.
An ill-formed command, which names a place of another command, is the write to that place. -/
def execRegisterWriteOther (offset : BitVec 6) (value : Word) (s : State) : Answer := .next (s.windowWrite offset value)

/-! ## The Setup Table load (R163 to R165) -/

/-- A stream as a clean table leaves it (R165). -/
def loadedStream (quarters : List (List Byte)) (k : StreamId) : Stream :=
  if tableEnabled quarters k then { Stream.disabled with ring := tableRing quarters k } else Stream.disabled

/-- A head as a clean table leaves it (R165): timing and delays loaded, the rest as it stood. -/
def Head.loaded (hd : Head) (quarters : List (List Byte)) (h : HeadId) : Head :=
  { hd with scan := { hd.scan with timing := tableTiming quarters h }
            link := { hd.link with delays := some (tableDelays quarters h) } }

/-- The part after the fourth quarter has been read (R164, R165). -/
def State.endLoad (s : State) (quarters : List (List Byte)) : State :=
  match tableError quarters with
  | .none =>
    { s with
      regs := { s.regs with device := .running }
      loader := none
      streams := ⟨loadedStream quarters 0, loadedStream quarters 1, loadedStream quarters 2, loadedStream quarters 3⟩
      heads := ⟨s.heads.at0.loaded quarters 0, s.heads.at1.loaded quarters 1⟩
      writer := { s.writer with ring := tableCompletionRing quarters } }.settle
  | e => { s with regs := { s.regs with device := .idle, setupError := e }, loader := none }.raise .setup

/-- The part after an answer to the Setup Table read outstanding (R163). -/
def State.setupAnswered (s : State) (answer : ReadAnswer (List Byte)) : State :=
  match s.loader with
  | none => s
  | some load =>
    match answer with
    | .late => s
    | .busError => s.enterFault .setupRead
    | .data bytes =>
      if load.quarters.length + 1 < 4 then
        { s with loader := some { load with quarters := load.quarters ++ [bytes] } }
      else s.endLoad (load.quarters ++ [bytes])

/-- The address of the Setup Table read outstanding (R163). -/
def SetupLoad.readAddress (l : SetupLoad) : Address := l.address + BitVec.ofNat 64 (64 * l.quarters.length)

/-- SETUP_READ_ANSWER (R163). -/
def execSetupReadAnswer (answer : ReadAnswer (List Byte)) (s : State) : Answer := .next (s.setupAnswered answer)

end Sys2Proof.Machine
end

