-- ==== Sys2Proof/Machine/Events.lean ====
section
/-! DEFINITION. The events of the engine, the Completion Writer, the scan, the millisecond timebase and the links. An event
the part does not raise in a state (an access served while none is presented, an answer while nothing is asked, a line
start of a head that is not scanning) leaves the state unchanged (log 4). -/

namespace Sys2Proof.Machine

/-! ## Engine (R3, R26, R32) -/

/-- The part after the memory port has served the engine's access: a write processes its pixel; a read presents the write of
its word to the bus (R3, R31, R32). -/
def State.engineServed (s : State) : State :=
  if s.active then
    match s.engine.phase with
    | .write p => ((s.writeAtCursor p).pixelDone true).nextPixel.settle
    | .read =>
      match s.readbackWrite with
      | some write => { s with engine := { s.engine with phase := .word write } }
      | none => s
    | .idle => s
    | .source => s
    | .word _ => s
  else s

/-- ENGINE_ACCESS_SERVED (R3). -/
def execEngineAccessServed (s : State) : Answer := .next s.engineServed

/-- The part after the answer to the read of source pixel `n` of the running TRANSFER (R26). -/
def State.sourceAnswered (s : State) (n : Nat) (answer : ReadAnswer Word) : State :=
  if s.active && s.sourceExpected n then
    match answer with
    | .late => s
    | .busError => { s with engine := { s.engine with ahead := sparseWrite s.engine.ahead n none } }.settle
    | .data word => { s with engine := { s.engine with ahead := sparseWrite s.engine.ahead n (some word) } }.settle
  else s

/-- SOURCE_READ_ANSWER (R26). -/
def execSourceReadAnswer (n : Nat) (answer : ReadAnswer Word) (s : State) : Answer := .next (s.sourceAnswered n answer)

/-- The part after the answer to the READBACK word write outstanding (R32, R38). -/
def State.wordAnswered (s : State) (answer : WriteAnswer) : State :=
  if s.active then
    match s.engine.phase with
    | .word _ =>
      match answer with
      | .late => s
      | .accepted => (s.pixelDone true).nextPixel.settle
      | .busError => (s.failJob .sourceError s.engine.written).settle
    | .write _ => s
    | .read => s
    | .idle => s
    | .source => s
  else s

/-- READBACK_WORD_ANSWER (R32). -/
def execReadbackWordAnswer (answer : WriteAnswer) (s : State) : Answer := .next (s.wordAnswered answer)

/-! ## Completion writes (R148, R152) -/

/-- The producer index and lap bit after an accepted write (R148). -/
def CompletionRing.advanced (r : CompletionRing) : CompletionRing :=
  if (r.producer + 1) % r.size = 0 then { r with producer := 0, lap := !r.lap }
  else { r with producer := (r.producer + 1) % r.size }

/-- The entry, LATCHED or SKIPPED, is the one whose completion `c` is. -/
def Entry.ownCompletion (e : Entry) (c : Completion) : Bool :=
  !e.unlatched && decide (e.ref.stream = c.stream) && decide (e.ref.ringIndex = c.ringIndex)
    && decide (e.ref.reading = c.reading)

/-- The entries without the one whose completion has been written (R122). -/
def dropWritten (c : Completion) : List Entry → List Entry
  | [] => []
  | e :: rest => if e.ownCompletion c then rest else e :: dropWritten c rest

/-- A present queue told that one of its completions has been written: an ABANDONED entry's place is freed, or a LATCHED
or SKIPPED entry leaves (R113, R122, R148). -/
def Present.written (p : Present) (c : Completion) : Present :=
  if c.outcome.status = .abandoned then { p with abandoned := p.abandoned - 1 }
  else { p with entries := dropWritten c p.entries }

/-- The part after an accepted completion write, before what it brings about (R148). DESIGN CHOICE (log 30): the producer
index advances by R148 also where a RETIRE, written while the write was outstanding, names the index it advances to; R147
says that it never advances onto the RETIRE index. -/
def State.completionWritten (s : State) (c : Completion) (rest : List Completion) : State :=
  { s with
    regs := { s.regs with cause := writtenCauses c s.regs.cause }
    writer := { outbound := rest, ring := s.writer.ring.map CompletionRing.advanced, write := none }
    heads :=
      match c.origin with
      | some h => s.heads.set h { s.head h with present := (s.head h).present.written c }
      | none => s.heads }

/-- The part after the answer to the completion write outstanding (R148, R152). -/
def State.completionAnswered (s : State) (answer : WriteAnswer) : State :=
  match s.writer.write, s.writer.outbound with
  | some _, c :: rest =>
    match answer with
    | .late => s
    | .accepted => (s.completionWritten c rest).settle
    | .busError => { s with writer := { s.writer with write := none } }.enterFault .completionWrite
  | _, _ => s

/-- COMPLETION_WRITE_ANSWER (R148, R152). -/
def execCompletionWriteAnswer (answer : WriteAnswer) (s : State) : Answer := .next (s.completionAnswered answer)

/-! ## Scan (R84 to R87, R96, R100) -/

/-- The line after the one being scanned. -/
def Scan.nextLine (sc : Scan) (t : Timing) : Nat := if sc.line + 1 < t.vAct + t.vBlank then sc.line + 1 else 0

/-- A Scan Unit whose line has ended: the scan reads still waiting have been served before the end, so that the link has
had every value of the line (R96, R100; log 15). -/
def Scan.endLine (sc : Scan) (m : Panel) : Scan := { sc with shown := sc.wholeLine m }

/-- A Scan Unit at its next line start: at line V_ACT the frame counter is raised (R84). -/
def Scan.advanced (sc : Scan) (t : Timing) : Scan :=
  if sc.nextLine t = t.vAct then { sc with frame := sc.frame + 1 }.beginLine (sc.nextLine t)
  else sc.beginLine (sc.nextLine t)

/-- What head `h` does at its blanking-start event beside its Scan Unit: one latch step and one ramp step. In FAULT its
queue and its Link Controller are frozen (R117, R127, R139, R142). -/
def Head.blankingStart (hd : Head) (h : HeadId) (frozen : Bool) : Head :=
  if frozen then hd else (hd.latchStep h .blanking).ramp

/-- The blanking-start event of head `h`: one latch step and one ramp step, and the FRAME cause where it is enabled
(R85, R86). -/
def State.blanked (s : State) (h : HeadId) (frameCause : Bool) : State :=
  let told := s.setHead h ((s.head h).blankingStart h (decide (s.regs.device = Device.fault)))
  if frameCause then told.raise (.frame h) else told

/-- At a blanking start that opens a gate, the latch step may come before, among or after what the opened gate brings about
(jobs that start, end and are removed, one after another; R119): how many of those reactions come first is free, by the count
of choices (DESIGN CHOICE, log 2; that the step may fall between two removals of one LINE_START is DEDUCED from R119). -/
def State.gatesFirst (s : State) (opened : Bool) : State :=
  if opened then
    let choice := s.pick (s.workLeft + 1)
    choice.2.settleFor choice.1
  else s

/-- The part after a line start of head `h`: the line before has ended, the scan position moves and gates open; at line
V_ACT the blanking-start event follows (R34, R84, R85, R86). -/
def State.lineStarted (s : State) (h : HeadId) : State :=
  let hd := s.head h
  match hd.scan.timing with
  | none => s
  | some t =>
    if hd.scanning then
      let sc := (hd.scan.endLine s.panel).advanced t
      let jobs := openGates h sc s.jobs
      let moved := { s.setHead h { hd with scan := sc } with jobs := jobs }
      if sc.line = t.vAct then ((moved.gatesFirst (decide (jobs ≠ s.jobs))).blanked h t.frameCause).settle
      else moved.settle
    else s

/-- LINE_START (R84). -/
def execLineStart (h : HeadId) (s : State) : Answer := .next (s.lineStarted h)

/-- The band through which a Scan Unit has a scan read waiting: the one that covers the line being scanned, while a column
of the line has not been read (R94 to R96). DESIGN CHOICE (log 14): only reads of the line being scanned are served, never
those of a line before its start, which R96 lets the port serve early. -/
def Scan.nextRead (sc : Scan) : Option Band :=
  match sc.timing with
  | none => none
  | some t => if sc.line < t.vAct ∧ sc.sent.length < t.hAct then bandAt sc.active.bands sc.line else none

/-- The part after the memory port has served head `h`'s next scan read: the pixel's output value is sent to the link
(R4, R96 to R100). -/
def State.scanServed (s : State) (h : HeadId) : State :=
  let hd := s.head h
  if hd.scanning then
    match hd.scan.nextRead with
    | some b =>
      s.setHead h
        { hd with
          scan := { hd.scan with sent := hd.scan.sent ++ [hd.scan.valueAt b s.panel hd.scan.sent.length] } }
    | none => s
  else s

/-- SCAN_READ_SERVED (R4). -/
def execScanReadServed (h : HeadId) (s : State) : Answer := .next (s.scanServed h)

/-! ## Timebase (R73, R130) -/

/-- A waiter one mark later; UNLIMITED stays. -/
def Waiter.tick (w : Waiter) : Waiter := { w with remaining := w.remaining.map (fun t => t - 1) }

/-- A head one mark later. -/
def Head.tick (hd : Head) : Head :=
  { hd with lease := { hd.lease with waiters := hd.lease.waiters.map Waiter.tick }
            link := { hd.link with timer := hd.link.timer.map (fun t => t - 1) } }


/-- The waiter of stream `k` whose remaining time has reached 0. -/
def Lease.due (l : Lease) (k : StreamId) : Option Waiter :=
  l.waiters.find? (fun w => decide (w.ref.stream = k) && decide (w.remaining = some 0))

/-- The part after the expiry of the waiter of stream `k` on head `h`; none where none is due (R73). -/
def State.expire (s : State) (h : HeadId) (k : StreamId) : Option State :=
  if s.active then
    ((s.head h).lease.due k).map (fun w =>
      ((s.setHead h (Head.withdraw (s.head h) k)).finishAs k w.ref Kind.claim.code { status := .claimTimeout }).settle)
  else none

/-- The part after the end of the timed step of head `h`'s link; none where no step's timer has reached 0 (R131). -/
def State.endStep (s : State) (h : HeadId) : Option State :=
  let l := (s.head h).link
  if s.regs.device ≠ .fault ∧ l.timer = some 0 then
    (afterStep l.state l.target).map (fun next => (s.linkTo linkEntries h next).settle)
  else none

/-- WAITER_EXPIRY (R73): the waiter leaves the list and its stream halts with CLAIM_TIMEOUT. -/
def execWaiterExpiry (h : HeadId) (k : StreamId) (s : State) : Answer := .next ((s.expire h k).getD s)

/-- LINK_STEP_END (R131): the timed step whose timer has reached 0 ends and the link moves to its next state. -/
def execLinkStepEnd (h : HeadId) (s : State) : Answer := .next ((s.endStep h).getD s)

/-- What a mark of the timebase brings about: the end of a head's timed step, or the expiry of a waiter. -/
inductive Due where
  | step (h : HeadId)
  | waiter (h : HeadId) (k : StreamId)
deriving DecidableEq, Repr

/-- All that may be due. -/
def allDue : List Due :=
  [.step 0, .step 1, .waiter 0 0, .waiter 0 1, .waiter 0 2, .waiter 0 3, .waiter 1 0, .waiter 1 1, .waiter 1 2,
    .waiter 1 3]

/-- The part after one of them has been taken; none where it is not due. -/
def State.takeDue (s : State) (d : Due) : Option State :=
  match d with
  | .step h => s.endStep h
  | .waiter h k => s.expire h k

/-- What is due: what the last mark brought to 0 and no command has taken. -/
def State.due (s : State) : List Due := allDue.filter (fun d => (s.takeDue d).isSome)

/-- What is due has been taken, one at a time, in either order; at most `n` are taken. -/
def State.takeAllDue : Nat → State → State
  | 0, s => s
  | n + 1, s =>
    if s.due.isEmpty then s
    else
      let choice := s.pick s.due.length
      ((choice.2.takeDue (s.due.getD choice.1 (.step 0))).getD choice.2).takeAllDue n

/-- The remaining times and the step timers one mark later (R73, R130). -/
def State.ticked (s : State) : State := { s with heads := s.heads.map Head.tick }

/-- MILLISECOND_MARK (R73, R130): the remaining times and the step timers fall by one; in FAULT the timebase is held
still. A step and a wait end at the mark that brings them to 0, by the commands LINK_STEP_END and WAITER_EXPIRY that follow
the mark; what those have not taken by the next mark is taken first at that mark, so that none outlasts it (log 13). -/
def execMillisecondMark (s : State) : Answer :=
  if s.regs.device = .fault then .next s else .next (s.takeAllDue s.due.length).ticked

end Sys2Proof.Machine
end

