-- ==== Sys2Proof/Machine/Records.lean ====
section
/-! DEFINITION. The fifteen record commands: the Sequencer of a stream takes up its whole current record of a kind, makes
the checks of steps 3 and 4 of R53, holds the record at step 5 or dispatches it to the block that owns its work. A command
for a stream that has no such record to take up, or taken while the device does not dispatch, changes nothing (log 4). -/

namespace Sys2Proof.Machine

/-- The whole record of a kind that the Sequencer of stream `k` can take up now: the device RUNNING, the stream neither
DISABLED nor HALTED, no completion kept (R54, R57, R59). -/
def State.takeUp (s : State) (k : StreamId) (kind : Kind) : Option CurrentRecord :=
  let st := s.stream k
  if s.running && st.ring.isSome && st.halt.isNone && st.kept.isEmpty then
    match st.current with
    | some c => if c.phase = .whole ∧ kindOf c.slots = some kind then some c else none
    | none => none
  else none

/-- The record ends BAD_FIELD (step 3 of R53). -/
def State.badField (s : State) (k : StreamId) : State := s.finish k { status := .badField }

/-- The stream holds the lease of a head (step 4 of R53, R77). -/
def State.owns (s : State) (k : StreamId) (h : HeadId) : Bool := decide ((s.head h).lease.holder = some k)

/-- The record ends NOT_OWNER (R74, R77). -/
def State.notOwner (s : State) (k : StreamId) : State := s.finish k { status := .notOwner }

/-! ## Pixel jobs (R7, R20, R25, R55) -/

/-- A pixel job record is checked and dispatched, or held JOB_SPACE. -/
def State.takeJob (s : State) (k : StreamId) (kind : Kind) : State :=
  match s.takeUp k kind with
  | none => s
  | some c =>
    match jobFields kind c.slots s.heads with
    | none => (s.badField k).settle
    | some _ =>
      match s.dispatchJob k with
      | some t => t.settle
      | none => (s.setPhase k .heldJobSpace).settle

/-- WINDOW (R7). -/
def execWindow (k : StreamId) (s : State) : Answer := .next (s.takeJob k .window)

/-- TRANSFER (R25). -/
def execTransfer (k : StreamId) (s : State) : Answer := .next (s.takeJob k .transfer)

/-- FILL (R25). -/
def execFill (k : StreamId) (s : State) : Answer := .next (s.takeJob k .fill)

/-- READBACK (R25). -/
def execReadback (k : StreamId) (s : State) : Answer := .next (s.takeJob k .readback)

/-! ## Leases (R71, R72, R74) -/

/-- A CLAIM of stream `k` is decided by the lease of its head. -/
def State.decideClaim (s : State) (k : StreamId) (c : CurrentRecord) (r : ClaimRecord) : State :=
  let hd := s.head r.head
  match hd.lease.holder with
  | none => (s.setHead r.head { hd with lease := { hd.lease with holder := some k } }).finish k { status := .done }
  | some holder =>
    if holder = k then s.finish k { status := .done, flags := { alreadyHeld := true } }
    else if r.wait then
      let w : Waiter :=
        { ref := headerRef k c, remaining := if r.timeout = 0 then none else some r.timeout }
      (s.setHead r.head { hd with lease := { hd.lease with waiters := hd.lease.waiters ++ [w] } }).setPhase k .waitLease
    else s.finish k { status := .claimRefused }

/-- CLAIM (R71). -/
def execClaim (k : StreamId) (s : State) : Answer :=
  match s.takeUp k .claim with
  | none => .next s
  | some c =>
    match claimFields c.slots with
    | none => .next (s.badField k).settle
    | some r => .next (s.decideClaim k c r).settle

/-- RELEASE (R74). -/
def execRelease (k : StreamId) (s : State) : Answer :=
  match s.takeUp k .release with
  | none => .next s
  | some c =>
    match releaseFields c.slots with
    | none => .next (s.badField k).settle
    | some h =>
      if s.owns k h then .next ((s.finish k { status := .done }).handOn h false).settle
      else .next (s.notOwner k).settle

/-! ## Staging (R105 to R112) -/

/-- The staging set of head `h` with its picture replaced. -/
def State.stage (s : State) (h : HeadId) (p : Picture) : State :=
  s.setHead h { s.head h with staging := { (s.head h).staging with picture := p } }

/-- BANDS (R106). -/
def execBands (k : StreamId) (s : State) : Answer :=
  match s.takeUp k .bands with
  | none => .next s
  | some c =>
    match bandsFields c.slots s.heads with
    | none => .next (s.badField k).settle
    | some (h, bands, background) =>
      if s.owns k h then
        .next ((s.stage h { (s.head h).staging.picture with bands := bands, background := background }).finish k
          { status := .done }).settle
      else .next (s.notOwner k).settle

/-- A band table with the scroll of one band replaced (R107). -/
def scrollBand (bands : List Band) (index scroll : Nat) : List Band :=
  bands.modify index (fun b => { b with scroll := scroll })

/-- SCROLL (R107). -/
def execScroll (k : StreamId) (s : State) : Answer :=
  match s.takeUp k .scroll with
  | none => .next s
  | some c =>
    match scrollFields c.slots s.heads with
    | none => .next (s.badField k).settle
    | some (h, index, scroll) =>
      if s.owns k h then
        let p := (s.head h).staging.picture
        .next ((s.stage h { p with bands := scrollBand p.bands index scroll }).finish k { status := .done }).settle
      else .next (s.notOwner k).settle

/-- OUTPUT (R108). -/
def execOutput (k : StreamId) (s : State) : Answer :=
  match s.takeUp k .output with
  | none => .next s
  | some c =>
    match outputFields c.slots with
    | none => .next (s.badField k).settle
    | some (h, mode) =>
      if s.owns k h then
        .next ((s.stage h { (s.head h).staging.picture with mode := mode }).finish k { status := .done }).settle
      else .next (s.notOwner k).settle

/-- PALETTE (R110). -/
def execPalette (k : StreamId) (s : State) : Answer :=
  match s.takeUp k .palette with
  | none => .next s
  | some c =>
    match paletteFields c.slots with
    | none => .next (s.badField k).settle
    | some r =>
      if s.owns k r.head then
        match s.dispatchPalette k with
        | some t => .next t.settle
        | none => .next (s.setPhase k .heldPaletteHazard).settle
      else .next (s.notOwner k).settle

/-- The components a palette read takes: the count, or those up to entry 255 (R111). -/
def PaletteRead.taken (r : PaletteRead) : Nat := min r.count (3 * (256 - r.start))

/-- The address of component `i` (R111). -/
def PaletteRead.address (r : PaletteRead) (i : Nat) : Address := r.source + BitVec.ofNat 64 (2 * i)

/-- The outcome of a palette read whose last component has come in (R111). -/
def PaletteRead.outcome (r : PaletteRead) : Outcome :=
  { status := .done, valueA := BitVec.ofNat 32 r.taken, valueB := BitVec.ofNat 32 (r.count - r.taken)
    flags := { overrun := decide (r.taken < r.count), partialEntry := decide (r.taken % 3 ≠ 0) } }

/-- The part after an answer to the read of component `i` of head `h`'s palette read (R111, R112). An answer to a component
that is not read, or was answered before, is none the part waits for. -/
def State.paletteAnswered (s : State) (h : HeadId) (i : Nat) (answer : ReadAnswer (BitVec 16)) : State :=
  let hd := s.head h
  match hd.staging.reading with
  | none => s
  | some r =>
    if s.active && decide (i < r.taken) && (sparseRead r.buffer i).isNone then
      match answer with
      | .late => s
      | .busError =>
        ((s.setHead h { hd with staging := { hd.staging with reading := none } }).finishAs r.ref.stream r.ref
          Kind.palette.code { status := .sourceError }).settle
      | .data word =>
        let buffer := sparseWrite r.buffer i (word.truncate 10)
        if buffer.length < r.taken then
          s.setHead h { hd with staging := { hd.staging with reading := some { r with buffer := buffer } } }
        else
          ((s.setHead h
              { hd with
                staging := { hd.staging with
                  palette := hd.staging.palette.writeComponents r.start buffer, dirty := true, reading := none } }).finishAs
            r.ref.stream r.ref Kind.palette.code r.outcome).settle
    else s

/-- PALETTE_READ_ANSWER (R111, R112). -/
def execPaletteReadAnswer (h : HeadId) (i : Nat) (answer : ReadAnswer (BitVec 16)) (s : State) : Answer :=
  .next (s.paletteAnswered h i answer)

/-! ## Commits (R113, R114) -/

/-- PRESENT (R114). -/
def execPresent (k : StreamId) (s : State) : Answer :=
  match s.takeUp k .present with
  | none => .next s
  | some c =>
    match presentFields c.slots with
    | none => .next (s.badField k).settle
    | some r =>
      if s.owns k r.head then
        match s.dispatchPresent k with
        | some t => .next t.settle
        | none => .next (s.setPhase k .heldQueueFull).settle
      else .next (s.notOwner k).settle

/-! ## Link and backlight (R133, R138) -/

/-- LINK (R133). -/
def execLink (k : StreamId) (s : State) : Answer :=
  match s.takeUp k .link with
  | none => .next s
  | some c =>
    match linkFields c.slots with
    | none => .next (s.badField k).settle
    | some (h, target) =>
      if s.owns k h then .next (s.dispatchLink k (headerRef k c) h target).settle
      else .next (s.notOwner k).settle

/-- LIGHT (R138). -/
def execLight (k : StreamId) (s : State) : Answer :=
  match s.takeUp k .light with
  | none => .next s
  | some c =>
    match lightFields c.slots with
    | none => .next (s.badField k).settle
    | some r =>
      if s.owns k r.head then
        .next (s.dispatchLight k (headerRef k c) r.head r.target r.dim r.step).settle
      else .next (s.notOwner k).settle

/-! ## WAIT and NOTE (R66 to R68) -/

/-- WAIT (R66, R67): the stream waits for the condition, which is evaluated at dispatch. -/
def execWait (k : StreamId) (s : State) : Answer :=
  match s.takeUp k .wait with
  | none => .next s
  | some c =>
    match waitFields c.slots with
    | none => .next (s.badField k).settle
    | some form =>
      match s.waitOutcome k form with
      | some o => .next (s.finish k o).settle
      | none => .next (s.setPhase k .waitCondition).settle

/-- NOTE (R68). -/
def execNote (k : StreamId) (s : State) : Answer :=
  match s.takeUp k .note with
  | none => .next s
  | some _ => .next (s.finish k { status := .done }).settle

end Sys2Proof.Machine
end

