-- ==== Sys2Proof/Machine/Slots.lean ====
section
/-! DEFINITION. Submission slots: the answer to a slot read, the slot count check of a first slot, and the kind and slot
count checks of a whole record. -/

namespace Sys2Proof.Machine

/-- The Sequencer of stream `k` looks at its current record after a slot has joined it: the declared count first, then, of
a whole record, its kind and its slot count (R51, R52, steps 1 and 2 of R53). -/
def State.examine (s : State) (k : StreamId) : State :=
  match (s.stream k).current with
  | none => s
  | some c =>
    let declared := declaredSlots c.slots
    if declared < 1 ∨ 4 < declared then s.finish k { status := .badSize }
    else if c.slots.length < declared then s
    else
      match kindOf c.slots with
      | none => s.finish k { status := .badKind }
      | some kind =>
        if slotCountSuits kind c.slots declared then s.setPhase k .whole else s.finish k { status := .badSize }

/-- A slot's bytes join the current record of stream `k`, beginning one of reading `n` where there is none, and the fetch
index advances (R49, R57). -/
def Stream.takeSlot (st : Stream) (n : Nat) (bytes : List Byte) : Stream :=
  match st.ring with
  | none => st
  | some r =>
    { st with
      ring := some { r with fetch := (r.fetch + 1) % r.size }
      current :=
        match st.current with
        | none => some { index := r.fetch, slots := [bytes], phase := .reading, reading := n }
        | some c => some { c with slots := c.slots ++ [bytes] } }

/-- The reference of a record whose first slot could not be read: no header, so tag 0 and no flag (R60). -/
def unreadRef (k : StreamId) (index n : Nat) : RecordRef :=
  { stream := k, tag := 0, notify := false, silent := false, ringIndex := index, reading := n }

/-- The slot read of stream `k`, the `n`th, ended in a bus error: the record ends FETCH_ERROR (R49, R60). -/
def State.fetchFailed (s : State) (k : StreamId) (n : Nat) : State :=
  match (s.stream k).current with
  | some _ => s.finish k { status := .fetchError }
  | none =>
    match (s.stream k).ring with
    | some r => s.finishAs k (unreadRef k r.fetch n) 0 { status := .fetchError }
    | none => s

/-- The part after an answer to the slot read outstanding (R49): placed, failed, or discarded. -/
def State.slotAnswered (s : State) (answer : ReadAnswer (List Byte)) : State :=
  match s.fetch.read with
  | none => s
  | some read =>
    let t := { s with fetch := { s.fetch with read := none }, slotReads := s.slotReads + 1 }
    match answer with
    | .late => s
    | .busError => if read.discard then t.settle else (t.fetchFailed read.stream s.slotReads).settle
    | .data bytes =>
      if read.discard then t.settle
      else ((t.setStream read.stream ((t.stream read.stream).takeSlot s.slotReads bytes)).examine read.stream).settle

/-- SLOT_READ_ANSWER (R49). -/
def execSlotReadAnswer (answer : ReadAnswer (List Byte)) (s : State) : Answer := .next (s.slotAnswered answer)

end Sys2Proof.Machine
end

