-- ==== Sys2Proof/Machine/Dispatch.lean ====
section
/-! DEFINITION. The dispatch: one arm per command, each one direct call of its meaning. -/

namespace Sys2Proof.Machine

open Sys2Proof

/-- The effect of a command on everything but the queue of waiting commands. -/
def exec (i : Instr) (s : State) : Host.Outcome State Fault Refusal :=
  match i with
  | .powerOnReset => Sys2Proof.Machine.execPowerOnReset s
  | .start => Sys2Proof.Machine.execStart s
  | .stop => Sys2Proof.Machine.execStop s
  | .reset => Sys2Proof.Machine.execReset s
  | .resume k => Sys2Proof.Machine.execResume k s
  | .flush k => Sys2Proof.Machine.execFlush k s
  | .post value => Sys2Proof.Machine.execPost value s
  | .retire value => Sys2Proof.Machine.execRetire value s
  | .causeWrite value => Sys2Proof.Machine.execCauseWrite value s
  | .causeEnableWrite value => Sys2Proof.Machine.execCauseEnableWrite value s
  | .setupAddressWrite half value => Sys2Proof.Machine.execSetupAddressWrite half value s
  | .registerWriteOther offset value => Sys2Proof.Machine.execRegisterWriteOther offset value s
  | .setupReadAnswer answer => Sys2Proof.Machine.execSetupReadAnswer answer s
  | .slotReadAnswer answer => Sys2Proof.Machine.execSlotReadAnswer answer s
  | .window k => Sys2Proof.Machine.execWindow k s
  | .transfer k => Sys2Proof.Machine.execTransfer k s
  | .fill k => Sys2Proof.Machine.execFill k s
  | .readback k => Sys2Proof.Machine.execReadback k s
  | .claim k => Sys2Proof.Machine.execClaim k s
  | .release k => Sys2Proof.Machine.execRelease k s
  | .bands k => Sys2Proof.Machine.execBands k s
  | .scroll k => Sys2Proof.Machine.execScroll k s
  | .output k => Sys2Proof.Machine.execOutput k s
  | .palette k => Sys2Proof.Machine.execPalette k s
  | .paletteReadAnswer h k answer => Sys2Proof.Machine.execPaletteReadAnswer h k answer s
  | .present k => Sys2Proof.Machine.execPresent k s
  | .link k => Sys2Proof.Machine.execLink k s
  | .light k => Sys2Proof.Machine.execLight k s
  | .wait k => Sys2Proof.Machine.execWait k s
  | .note k => Sys2Proof.Machine.execNote k s
  | .engineAccessServed => Sys2Proof.Machine.execEngineAccessServed s
  | .sourceReadAnswer n answer => Sys2Proof.Machine.execSourceReadAnswer n answer s
  | .readbackWordAnswer answer => Sys2Proof.Machine.execReadbackWordAnswer answer s
  | .completionWriteAnswer answer => Sys2Proof.Machine.execCompletionWriteAnswer answer s
  | .lineStart h => Sys2Proof.Machine.execLineStart h s
  | .millisecondMark => Sys2Proof.Machine.execMillisecondMark s
  | .waiterExpiry h k => Sys2Proof.Machine.execWaiterExpiry h k s
  | .linkStepEnd h => Sys2Proof.Machine.execLinkStepEnd h s
  | .scanReadServed h => Sys2Proof.Machine.execScanReadServed h s

end Sys2Proof.Machine
end

