-- ==== Sys2Proof/WellFormed.lean ====
section
/-! DEFINITION. Which commands are well formed: the operands a host, a bus or the scan can present. The operand types
already bound stream and head numbers; what is left are the window places with no command of their own, the length of a
64-byte read, and the numbers of palette components and source pixels. -/

namespace Sys2Proof

/-- A write to this place with this value is spelled by no command of its own: IDENT, STATUS, an address that names no
register, or CONTROL with a code that names no command. -/
def otherPlace (offset : BitVec 6) (value : Word) : Bool :=
  match Register.at? offset with
  | some .ident => true
  | some .status => true
  | some .control => !controlNamesCommand value
  | some _ => false
  | none => true

/-- A read answer with data carries the 64 bytes of a slot or of a quarter of the Setup Table. -/
def ReadAnswer.has64 : ReadAnswer (List Byte) → Bool
  | .data bytes => bytes.length == 64
  | _ => true

/-- The well-formed commands. -/
def Instr.wellFormed : Instr → Bool
  | .powerOnReset => true
  | .start => true
  | .stop => true
  | .reset => true
  | .resume _ => true
  | .flush _ => true
  | .post _ => true
  | .retire _ => true
  | .causeWrite _ => true
  | .causeEnableWrite _ => true
  | .setupAddressWrite _ _ => true
  | .registerWriteOther offset value => otherPlace offset value
  | .setupReadAnswer answer => answer.has64
  | .slotReadAnswer answer => answer.has64
  | .window _ => true
  | .transfer _ => true
  | .fill _ => true
  | .readback _ => true
  | .claim _ => true
  | .release _ => true
  | .bands _ => true
  | .scroll _ => true
  | .output _ => true
  | .palette _ => true
  | .paletteReadAnswer _ k _ => decide (k < 768)
  | .present _ => true
  | .link _ => true
  | .light _ => true
  | .wait _ => true
  | .note _ => true
  | .engineAccessServed => true
  | .sourceReadAnswer n _ => decide (1 ≤ n) && decide (n ≤ maxCount)
  | .readbackWordAnswer _ => true
  | .completionWriteAnswer _ => true
  | .lineStart _ => true
  | .millisecondMark => true
  | .waiterExpiry _ _ => true
  | .linkStepEnd _ => true
  | .scanReadServed _ => true

end Sys2Proof
end

