-- ==== Sys2Proof/Safety.lean ====
section
/-! DEFINITION. What a lawful state is: the laws the manual states of every state the part is in, each as a property of
one state. The statements say that every step keeps them and that they hold after power-on. -/

namespace Sys2Proof.Machine

/-- The job list never holds more than 16 jobs, nor more than 8 of one stream (R20). -/
def State.jobsBounded (s : State) : Prop :=
  s.jobs.length ≤ maxJobs
    ∧ ∀ k : StreamId, (s.jobs.filter (fun j => decide (j.ref.stream = k))).length ≤ maxStreamJobs

/-- At most one job is RUNNING or is the ENDED job that keeps the engine busy (R21, R23). -/
def State.oneEngineJob (s : State) : Prop := (s.jobs.filter Job.holdsEngine).length ≤ 1

/-- The bounds of a WINDOW job lie in panel memory, in order; other jobs carry none (R7, R19). -/
def Job.windowBounded (j : Job) : Bool :=
  match j.work with
  | .window _ w => w.bounded
  | .transfer _ _ _ _ _ _ _ => true
  | .fill _ _ _ _ => true
  | .readback _ _ _ _ => true

/-- Every SET context's window lies in panel memory and its cursor lies inside it or is ENDED, and every WINDOW job in the
list brings such a window (R6, R7, R12). -/
def State.cursorsInside (s : State) : Prop :=
  (∀ (k : StreamId) (c : ContextId), (s.context k c).wf = true) ∧ ∀ j ∈ s.jobs, j.windowBounded = true

/-- A completion belongs to an entry of head `h`'s present queue. -/
def Completion.fromHead (c : Completion) (h : HeadId) : Bool := decide (c.origin = some h)

/-- The commit completions of head `h` not yet written: those placed, and those its Present Unit is placing. -/
def State.commitsOf (s : State) (h : HeadId) : List Completion :=
  s.writer.outbound.filter (fun c => c.fromHead h) ++ (s.head h).present.outbox

/-- The class of each completion kept outside the outbound list is the one its placing block places (R144, R145). -/
def State.classesKept (s : State) : Prop :=
  (∀ h : HeadId, ∀ c ∈ (s.head h).present.outbox, c.origin = some h)
    ∧ (∀ k : StreamId, ∀ c ∈ (s.stream k).kept, c.origin = none)
    ∧ ∀ h : HeadId, ∀ c ∈ (s.head h).link.held, c.origin = none

/-- What tells one record's completion from another's: its stream, the ring index of its first slot, and which reading of
that slot it was. -/
def Completion.key (c : Completion) : StreamId × Nat × Nat := (c.stream, c.ringIndex, c.reading)

/-- The key of the completion of an entry. -/
def Entry.key (e : Entry) : StreamId × Nat × Nat := (e.ref.stream, e.ref.ringIndex, e.ref.reading)

/-- Every commit completion not yet written takes one place of its head's queue, that of an entry not ABANDONED the place of
its own LATCHED or SKIPPED entry, and no queue has more than four places taken (R113, R115, R122). -/
def State.placesTaken (s : State) : Prop :=
  ∀ h : HeadId,
    (s.head h).present.places ≤ queuePlaces
      ∧ ((s.commitsOf h).filter (fun c => c.isAbandoned)).length = (s.head h).present.abandoned
      ∧ List.Perm (((s.commitsOf h).filter (fun c => !c.isAbandoned)).map Completion.key)
          (((s.head h).present.entries.filter (fun e => !e.unlatched)).map Entry.key)

/-- Every LATCHED or SKIPPED entry stands before every WAITING or READY entry of its queue (R115). -/
def State.queuesOrdered (s : State) : Prop :=
  ∀ h : HeadId, (s.head h).present.entries.Pairwise (fun a b => b.unlatched = false → a.unlatched = false)

/-- The outbound list never holds more than 8 completions of class OTHER (R144). -/
def State.othersBounded (s : State) : Prop :=
  (s.writer.outbound.filter (fun c => c.origin.isNone)).length ≤ maxOther

/-- The law of the outbound list and of the places of the present queues. -/
def State.outboundLaw (s : State) : Prop := s.classesKept ∧ s.placesTaken ∧ s.othersBounded

/-- A picture whose band table is lawful: at most 8 bands in ascending order, no two on one screen line, each with a line to
show, a memory region inside panel memory, and its scroll inside the region (R93, R104, R105). -/
def Picture.lawful (p : Picture) : Prop :=
  p.bands.length ≤ 8 ∧ bandsAscend p.bands = true
    ∧ ∀ b ∈ p.bands, 1 ≤ b.lineCount ∧ 1 ≤ b.memExtent ∧ b.memBase + b.memExtent ≤ panelSide ∧ b.scroll < b.memExtent

/-- Every picture of the part is lawful: the staged ones, the active ones, and every snapshot in a queue (R104). -/
def State.picturesLawful (s : State) : Prop :=
  ∀ h : HeadId, (s.head h).staging.picture.lawful ∧ (s.head h).scan.active.lawful
    ∧ ∀ e ∈ (s.head h).present.entries, e.snapshot.lawful

/-! ## Leases, held records and palettes (R49, R55, R56, R70, R110) -/

/-- The current record of stream `k` stands in a phase and names head `h`. -/
def State.currentIn (s : State) (k : StreamId) (p : RecordPhase) (h : HeadId) : Prop :=
  ∃ c : CurrentRecord, (s.stream k).current = some c ∧ c.phase = p ∧ headField c.slots = some h

/-- A slot read that is not to be discarded is one of a stream without a current record, or with one read in part (R47). -/
def State.slotReadFits (s : State) : Prop :=
  ∀ (read : SlotRead) (c : CurrentRecord), s.fetch.read = some read → read.discard = false →
    (s.stream read.stream).current = some c → c.phase = .reading

/-- A FREE lease has no waiter; a waiter list holds no stream twice and not the holder, and each waiter's stream waits LEASE
with a CLAIM of that head as its current record (R70, R72). -/
def State.leasesLawful (s : State) : Prop :=
  ∀ h : HeadId,
    ((s.head h).lease.holder = none → (s.head h).lease.waiters = [])
      ∧ ((s.head h).lease.waiters.map (fun w => w.ref.stream)).Nodup
      ∧ ∀ w ∈ (s.head h).lease.waiters,
          (s.head h).lease.holder ≠ some w.ref.stream ∧ s.currentIn w.ref.stream .waitLease h

/-- A palette read belongs to the holder, which waits for it; and a PRESENT or PALETTE held back is the holder's (R53, R55,
R56). -/
def State.holdersHold (s : State) : Prop :=
  ∀ h : HeadId,
    (∀ r : PaletteRead, (s.head h).staging.reading = some r →
        (s.head h).lease.holder = some r.ref.stream ∧ s.currentIn r.ref.stream .waitPaletteRead h)
      ∧ ∀ k : StreamId, s.currentIn k .heldQueueFull h ∨ s.currentIn k .heldPaletteHazard h →
          (s.head h).lease.holder = some k

/-- A queue holds at most one unlatched entry with PAL, and while it stands palette-dirty is clear and no palette read is
under way (R110). -/
def State.palettesGuarded (s : State) : Prop :=
  ∀ h : HeadId,
    ((s.head h).present.entries.filter (fun e => e.unlatched && e.pal)).length ≤ 1
      ∧ ((s.head h).present.hazard = true →
          (s.head h).staging.dirty = false ∧ (s.head h).staging.reading = none)

/-- A Setup Table is loaded in LOADING alone, and before it is loaded no CLAIM waits and no palette is read (R81, R163). -/
def State.loadsFirst (s : State) : Prop :=
  (s.loader ≠ none → s.regs.device = .loading)
    ∧ (s.regs.device = .idle ∨ s.regs.device = .loading →
        ∀ h : HeadId, (s.head h).lease.waiters = [] ∧ (s.head h).staging.reading = none)

/-- The law of the leases, of the records held back, and of the palettes. -/
def State.holdingLaw (s : State) : Prop :=
  s.slotReadFits ∧ s.leasesLawful ∧ s.holdersHold ∧ s.palettesGuarded ∧ s.loadsFirst

/-- The part has settled: no try, evaluation or placement is left to make. -/
def State.quiescent (s : State) : Prop := s.react = none

/-- A lawful state. -/
def State.lawful (s : State) : Prop :=
  s.panel.wf = true ∧ s.jobsBounded ∧ s.oneEngineJob ∧ s.cursorsInside ∧ s.outboundLaw ∧ s.queuesOrdered ∧ s.picturesLawful
    ∧ s.holdingLaw ∧ s.quiescent

/-! ## Ends of records, said in the terms of the statements -/

/-- The whole record `c` of stream `k` has ended with an outcome that halts nothing: its buffer is emptied, and the one
completion it may have is kept for placement (R57). -/
def State.recordDone (s : State) (k : StreamId) (c : CurrentRecord) (kind : Kind) (o : Outcome) : State :=
  s.setStream k
    { s.stream k with current := none, kept := (s.stream k).kept ++ report (headerRef k c) kind.code o }

/-- The index after the last slot of a record, in a ring (R60). -/
def Ring.afterRecord (r : Ring) (c : CurrentRecord) : Nat := (c.index + declaredSlots c.slots) % r.size

/-- The whole record `c` of stream `k`, read from the ring `r`, has ended with a halting status: the stream is HALTED at
the slot after it, and the completion, values 0, is kept whatever SILENT says (R60). -/
def State.recordHalted (s : State) (k : StreamId) (r : Ring) (c : CurrentRecord) (kind : Kind) (status : Status) :
    State :=
  s.setStream k
    { ring := some { r with fetch := r.afterRecord c }
      current := none
      kept := (s.stream k).kept ++ [completionOf (headerRef k c) kind.code { status := status } none]
      halt := some (r.afterRecord c)
      batch := (s.stream k).batch }

/-- The whole record `c` of stream `k` stays the current record, held or waiting for the reason of a phase (R55, R56). -/
def State.recordHeld (s : State) (k : StreamId) (c : CurrentRecord) (p : RecordPhase) : State :=
  s.setStream k { s.stream k with current := some { c with phase := p } }

/-- The record command of a kind. -/
def Kind.command (kind : Kind) (k : StreamId) : Instr :=
  match kind with
  | .window => .window k
  | .transfer => .transfer k
  | .fill => .fill k
  | .readback => .readback k
  | .claim => .claim k
  | .release => .release k
  | .bands => .bands k
  | .scroll => .scroll k
  | .output => .output k
  | .palette => .palette k
  | .present => .present k
  | .link => .link k
  | .light => .light k
  | .wait => .wait k
  | .note => .note k

/-- The fields of a record of a kind pass its checks (step 3 of R53). -/
def State.fieldsPass (s : State) (kind : Kind) (slots : List (List Byte)) : Bool :=
  match kind with
  | .window => (jobFields .window slots s.heads).isSome
  | .transfer => (jobFields .transfer slots s.heads).isSome
  | .fill => (jobFields .fill slots s.heads).isSome
  | .readback => (jobFields .readback slots s.heads).isSome
  | .claim => (claimFields slots).isSome
  | .release => (releaseFields slots).isSome
  | .bands => (bandsFields slots s.heads).isSome
  | .scroll => (scrollFields slots s.heads).isSome
  | .output => (outputFields slots).isSome
  | .palette => (paletteFields slots).isSome
  | .present => (presentFields slots).isSome
  | .link => (linkFields slots).isSome
  | .light => (lightFields slots).isSome
  | .wait => (waitFields slots).isSome
  | .note => true

/-- The kinds that only the holder of the head's lease may submit, RELEASE with them, whose own outcome says the same
(R74, R77). -/
def Kind.holderOnly : Kind → Bool
  | .release => true
  | .bands => true
  | .scroll => true
  | .output => true
  | .palette => true
  | .present => true
  | .link => true
  | .light => true
  | .window => false
  | .transfer => false
  | .fill => false
  | .readback => false
  | .claim => false
  | .wait => false
  | .note => false

/-! ## Fields of records and of the Setup Table, as the tables of the manual lay them out -/

/-- The order code (R175). -/
def Order.code : Order → Nat
  | .rowFirst => 0
  | .columnFirst => 1

/-- The direction code (R175). -/
def Direction.code : Direction → Nat
  | .inc => 0
  | .dec => 1

/-- The mode code (R175). -/
def Mode.code : Mode → Nat
  | .fresh => 0
  | .resumed => 1

/-- The source format code (R175). -/
def Format.code : Format → Nat
  | .r4g4b4 => 0
  | .r5g6b5 => 1
  | .r6g6b6 => 2
  | .r8g8b8 => 3
  | .x8r8g8b8 => 4
  | .i8 => 5

/-- The key sense code (R175). -/
def KeySense.code : KeySense → Nat
  | .skipMatch => 0
  | .writeMatch => 1

/-- The code of a band's use (R176). -/
def BandUse.code : BandUse → Nat
  | .direct => 0
  | .indexed => 1

/-- The code of an output mode (R176). -/
def OutputMode.code : OutputMode → Nat
  | .full => 0
  | .depth6 => 1
  | .monoLuma => 2
  | .monoEven => 3
  | .monoGreen => 4

/-- A TRANSFER carries this run part, or none (R25, R175). -/
def RunPart (slots : List (List Byte)) (f : Format) (run : Option Run) : Prop :=
  (recordField slots 0x12 1).testBit 0 = run.isSome
    ∧ ∀ r : Run, run = some r →
        r.length = recordField slots 0x20 2 ∧ 1 ≤ r.length ∧ r.length ≤ 2048
          ∧ r.stride = recordField slots 0x24 4 ∧ r.stride % f.alignment = 0

/-- A TRANSFER carries this key part, or none (R25, R175). -/
def KeyPart (slots : List (List Byte)) (key : Option Key) : Prop :=
  (recordField slots 0x12 1).testBit 1 = key.isSome
    ∧ ∀ q : Key, key = some q →
        q.key = BitVec.ofNat 24 (recordField slots 0x40 4) ∧ q.mask = BitVec.ofNat 24 (recordField slots 0x44 4)
          ∧ q.sense.code = recordField slots 0x48 1

/-- A TRANSFER, FILL or READBACK carries this gate part, or none (R25, R175). -/
def GatePart (slots : List (List Byte)) (heads : Two Head) (gate : Option Gate) : Prop :=
  (recordField slots 0x12 1).testBit 2 = gate.isSome
    ∧ ∀ g : Gate, gate = some g →
        g.head.val = recordField slots 0x50 1 ∧ g.relative = (recordField slots 0x51 1).testBit 0
          ∧ g.line = recordField slots 0x52 2 ∧ g.frame = BitVec.ofNat 32 (recordField slots 0x54 4)
          ∧ ∃ t : Timing, (heads.get g.head).scan.timing = some t ∧ g.line < t.vAct + t.vBlank

/-- A band stands at an offset of a BANDS record and suits a timing (R105, R176). -/
def BandPart (slots : List (List Byte)) (o : Nat) (t : Timing) (b : Band) : Prop :=
  b.screenFirst = recordField slots o 2 ∧ b.lineCount = recordField slots (o + 2) 2
    ∧ b.memBase = recordField slots (o + 4) 2 ∧ b.memExtent = recordField slots (o + 6) 2
    ∧ b.scroll = recordField slots (o + 8) 2 ∧ b.colBase = recordField slots (o + 10) 2 % 2048
    ∧ b.use.code = recordField slots (o + 10) 2 / 16384
    ∧ b.screenFirst < t.vAct ∧ 1 ≤ b.lineCount ∧ b.screenFirst + b.lineCount ≤ t.vAct ∧ b.memBase ≤ 2047
    ∧ 1 ≤ b.memExtent ∧ b.memBase + b.memExtent ≤ 2048 ∧ b.scroll < b.memExtent ∧ b.colBase + t.hAct ≤ 2048

/-- A ring size the Setup Table may give (R164). -/
def RingSizePasses (size : Nat) : Prop := ∃ n : Nat, 4 ≤ n ∧ n ≤ 12 ∧ size = 2 ^ n

/-- Stream descriptor `k` passes check 2 of R164. -/
def StreamPasses (quarters : List (List Byte)) (k : StreamId) : Prop :=
  tableField quarters (16 * k.val) 8 % 64 = 0 ∧ RingSizePasses (tableField quarters (16 * k.val + 8) 2)
    ∧ tableField quarters (16 * k.val + 10) 1 ≤ 1

/-- The completion ring descriptor passes check 3 of R164. -/
def RingPasses (quarters : List (List Byte)) : Prop :=
  tableField quarters 0x40 8 % 16 = 0 ∧ RingSizePasses (tableField quarters 0x48 2)

/-- Head descriptor `h` passes check 4 or 5 of R164. -/
def HeadPasses (quarters : List (List Byte)) (h : HeadId) : Prop :=
  16 ≤ tableField quarters (0x60 + 32 * h.val) 2 ∧ tableField quarters (0x60 + 32 * h.val) 2 ≤ 2048
    ∧ 16 ≤ tableField quarters (0x62 + 32 * h.val) 2 ∧ tableField quarters (0x62 + 32 * h.val) 2 ≤ 2048
    ∧ 2 ≤ tableField quarters (0x64 + 32 * h.val) 2 ∧ tableField quarters (0x64 + 32 * h.val) 2 ≤ 255
    ∧ 1000 ≤ tableField quarters (0x66 + 32 * h.val) 2

/-- Stream descriptor `k` is enabled (R173). -/
def StreamEnabled (quarters : List (List Byte)) (k : StreamId) : Prop :=
  (tableField quarters (16 * k.val + 11) 1).testBit 0 = true

/-- What an entry to FAULT from `s` leaves, beside its origin (R44, R49, R58, R80, R112, R127, R142, R152, R169). -/
def FaultEntered (s t : State) : Prop :=
  t.regs.device = .fault ∧ t.regs.cause = s.regs.cause ||| 0x002#9 ∧ t.loader = none ∧ t.jobs = s.jobs
    ∧ t.streams = s.streams ∧ t.engine.phase = .idle
    ∧ t.fetch.read = s.fetch.read.map (fun r => { r with discard := true })
    ∧ (∀ k : StreamId, t.streamCode k = s.streamCode k)
    ∧ ∀ h : HeadId, t.head h = { s.head h with staging := { (s.head h).staging with reading := none } }

/-- A safe step ends in a next state, neither in a fault nor in a refusal. -/
def Safe (o : Host.Outcome State Fault Refusal) : Prop := ∃ t : State, o = .next t

end Sys2Proof.Machine
end

