-- ==== Sys2Proof/Certificates/Slice0/Obligations.lean ====
section
/-! DEFINITION. The statements about the model: the laws every step keeps, the effect of every command, and the rules of
counting, scanning, formats and layouts. `exec c s = .next t` says what a command does to everything but the queue; a state
followed by `settle` is one in which what the manual makes follow in the same event is still to be made. -/

section
open Sys2Proof Sys2Proof.Machine

/-! ## The machine -/

/-- A step runs the command at the front of the queue on the part with the queue's rest; on an empty queue the part idles
(the model's choice, log 6). -/
def Obligations.StepRunsTheFrontCommand : Prop :=
  (∀ (c : Instr) (rest : List Instr) (s : State), s.pending = c :: rest → step s = exec c { s with pending := rest })
    ∧ ∀ s : State, s.pending = [] → step s = .next s

/-- No command stops the part: each answers a next state in every state (an event the part does not raise in a state leaves
it as it is, the model's choice, log 4), and none changes the queue of waiting commands. -/
def Obligations.EveryCommandCompletes : Prop :=
  ∀ (i : Instr) (s : State), ∃ t : State, exec i s = .next t ∧ t.pending = s.pending

/-- What follows in an event comes to an end: after settling no try, evaluation or placement is left to make. -/
def Obligations.SettlingEnds : Prop := ∀ s : State, s.settle.react = none

/-- Every step leaves a settled part settled: between events nothing is due that the manual makes follow at once. -/
def Obligations.StepsKeepQuiescence : Prop :=
  ∀ s t : State, s.quiescent → step s = .next t → t.quiescent

/-- What settling leaves alone: panel memory, the registers but the device state, the Setup Table load, the completion ring,
the rings' bases, sizes, classes and post indices, batch counters but those of streams with a PRESENT held QUEUE_FULL,
leases' holders, links but the completions they hold, backlights, pending LINK and LIGHT records but for the mark of a rewound
slot (the model's own, log 27), scan counters and timings, values sent and shown, the count of slot reads and the waiting
commands. -/
def Obligations.SettlingLeavesAlone : Prop :=
  ∀ s : State,
    s.settle.panel = s.panel ∧ s.settle.loader = s.loader ∧ s.settle.pending = s.pending
      ∧ s.settle.slotReads = s.slotReads
      ∧ s.settle.regs = { s.regs with device := s.settle.regs.device }
      ∧ s.settle.writer.ring = s.writer.ring
      ∧ (∀ k : StreamId,
          ((s.settle.stream k).ring.map (fun r => (r.base, r.size, r.fetchClass, r.post)))
            = (s.stream k).ring.map (fun r => (r.base, r.size, r.fetchClass, r.post))
          ∧ ((s.stream k).current.map (fun c => c.phase) ≠ some .heldQueueFull →
              (s.settle.stream k).batch = (s.stream k).batch))
      ∧ ∀ h : HeadId,
          (s.settle.head h).lease.holder = (s.head h).lease.holder
            ∧ (s.settle.head h).light = { (s.head h).light with pending := (s.settle.head h).light.pending }
            ∧ (s.settle.head h).link
              = { (s.head h).link with
                  held := (s.settle.head h).link.held, pending := (s.settle.head h).link.pending }
            ∧ (s.settle.head h).light.pending.map (fun ref => { ref with rewound := false })
              = (s.head h).light.pending.map (fun ref => { ref with rewound := false })
            ∧ (s.settle.head h).link.pending.map (fun ref => { ref with rewound := false })
              = (s.head h).link.pending.map (fun ref => { ref with rewound := false })
            ∧ (s.settle.head h).scan.line = (s.head h).scan.line
            ∧ (s.settle.head h).scan.frame = (s.head h).scan.frame
            ∧ (s.settle.head h).scan.timing = (s.head h).scan.timing
            ∧ (s.settle.head h).scan.sent = (s.head h).scan.sent
            ∧ (s.settle.head h).scan.shown = (s.head h).scan.shown

/-- The state after power-on is lawful. -/
def Obligations.PowerOnIsLawful : Prop := State.reset.lawful

/-! ## Laws every step keeps -/

/-- Every step keeps panel memory in the model's canonical form (log 1): cells strictly rising, all in the store.
Panel memory is changed by the engine's presented write alone: by any command but power-on reset, either nothing is
written, or the pixel at the cursor takes the value presented and every other pixel reads as before. -/
def Obligations.PanelMemoryIsTheEngines : Prop :=
  (∀ s t : State, s.panel.wf = true → step s = .next t → t.panel.wf = true)
    ∧ (∀ (i : Instr) (s t : State), i ≠ .powerOnReset → exec i s = .next t →
      (∀ a : Nat, t.panel.read a = s.panel.read a)
        ∨ ∃ (p : Pixel) (pos : Position), s.engine.phase = .write p ∧ s.cursor = some pos
            ∧ ∀ a : Nat, t.panel.read a = if a = pos.cell ∧ a < panelCells then p else s.panel.read a)

/-- Every step keeps the job list within 16 jobs, and 8 of one stream.
Every step keeps at most one job RUNNING or keeping the engine busy.
Every step keeps the law of the leases, of the records held back and of the palettes: a waiter list holds no stream twice and
not the holder, each waiter's stream waits with its CLAIM; a palette read and a PRESENT or PALETTE held back are the
holder's; a queue holds at most one unlatched entry with PAL, while which palette-dirty is clear and no palette read is under
way. So a waiter list has at most 3 entries. -/
def Obligations.JobListKeepsItsLaws : Prop :=
  (∀ s t : State, s.jobsBounded → step s = .next t → t.jobsBounded)
    ∧ (∀ s t : State, s.oneEngineJob → step s = .next t → t.oneEngineJob)
    ∧ (∀ s t : State, s.holdingLaw → step s = .next t → t.holdingLaw)
    ∧ ∀ s : State, s.holdingLaw → ∀ h : HeadId, (s.head h).lease.waiters.length ≤ 3

/-- Every step keeps every window in panel memory and every cursor inside its window or ENDED. -/
def Obligations.CursorsStayInside : Prop :=
  ∀ s t : State, s.cursorsInside → step s = .next t → t.cursorsInside

/-- Every step keeps the law of the outbound list: each unwritten commit completion takes one of the four places of its head's
queue, that of an entry not ABANDONED the place of its own LATCHED or SKIPPED entry, and class OTHER holds at most 8; so the list holds at most 8 commit completions, 8 others, and 16 in all.
Every step keeps the queues in order: each LATCHED or SKIPPED entry before each WAITING or READY one. -/
def Obligations.OutboundLawIsKept : Prop :=
  (∀ s t : State, s.outboundLaw → step s = .next t → t.outboundLaw)
    ∧ (∀ s t : State, s.queuesOrdered → step s = .next t → t.queuesOrdered)
    ∧ ∀ s : State, s.outboundLaw →
        (s.writer.outbound.filter (fun c => c.origin.isSome)).length ≤ 8
          ∧ (s.writer.outbound.filter (fun c => c.origin.isNone)).length ≤ 8
          ∧ s.writer.outbound.length ≤ 16

/-- Every step keeps every band table lawful, the staged ones, the active ones and every snapshot in a queue; and in a lawful
table at most one band covers a screen line, and the memory lines it shows lie in panel memory. -/
def Obligations.PicturesStayLawful : Prop :=
  (∀ s t : State, s.picturesLawful → step s = .next t → t.picturesLawful)
    ∧ ∀ p : Picture, p.lawful →
        ∀ (y : Nat) (a b : Band), a ∈ p.bands → b ∈ p.bands → a.covers y = true → b.covers y = true →
          a = b ∧ bandAt p.bands y = some a ∧ a.memoryLine y < 2048

/-- A head's frame counter is changed by its own line starts, RESET and power-on alone.
CAUSE_ENABLE and the Setup Table address are changed by their own writes and power-on alone, in every device state. -/
def Obligations.CountersAndEnablesHaveOneOwner : Prop :=
  (∀ (i : Instr) (s t : State) (h : HeadId), i.wellFormed = true → i ≠ .lineStart h → i ≠ .reset → i ≠ .powerOnReset →
      exec i s = .next t → (t.head h).scan.frame = (s.head h).scan.frame)
    ∧ (∀ (i : Instr) (s t : State), i.wellFormed = true → i ≠ .powerOnReset → exec i s = .next t →
      ((∀ v, i ≠ .causeEnableWrite v) → t.regs.causeEnable = s.regs.causeEnable)
        ∧ ((∀ v, i ≠ .setupAddressWrite .low v) → t.regs.setupLo = s.regs.setupLo)
        ∧ ((∀ v, i ≠ .setupAddressWrite .high v) → t.regs.setupHi = s.regs.setupHi))

/-! ## Windows and cursors -/

/-- The start corner of a window, and its end column and end line, by the two directions; the order plays no part. -/
def Obligations.StartCornerByDirections : Prop :=
  ∀ w : Window,
    w.corner.column = (if w.xDir = .inc then w.xStart else w.xEnd)
      ∧ w.corner.line = (if w.yDir = .inc then w.yStart else w.yEnd)
      ∧ w.endColumn = (if w.xDir = .inc then w.xEnd else w.xStart)
      ∧ w.endLine = (if w.yDir = .inc then w.yEnd else w.yStart)
      ∧ ∀ o : Order, ({ w with order := o } : Window).corner = w.corner

/-- ROW_FIRST: the three cases of one step, and so the order of the whole visit: position `n` lies on line n div width,
column n mod width, counted from the start corner in the two directions, and after the last the cursor is ENDED. -/
def Obligations.RowFirstVisitsLineByLine : Prop :=
  ∀ w : Window, w.bounded = true → w.order = .rowFirst →
    (∀ p : Position, w.holds p = true →
      (p.column ≠ w.endColumn → w.stepFrom p
        = some { column := if w.xDir = .inc then p.column + 1 else p.column - 1, line := p.line })
      ∧ (p.column = w.endColumn → p.line ≠ w.endLine → w.stepFrom p
        = some { column := w.corner.column, line := if w.yDir = .inc then p.line + 1 else p.line - 1 })
      ∧ (p.column = w.endColumn → p.line = w.endLine → w.stepFrom p = none))
    ∧ (∀ n : Nat, n < (w.xEnd - w.xStart + 1) * (w.yEnd - w.yStart + 1) →
        (fun c : Option Position => c.bind w.stepFrom)^[n] (some w.corner)
          = some
              { column := if w.xDir = .inc then w.xStart + n % (w.xEnd - w.xStart + 1)
                  else w.xEnd - n % (w.xEnd - w.xStart + 1)
                line := if w.yDir = .inc then w.yStart + n / (w.xEnd - w.xStart + 1)
                  else w.yEnd - n / (w.xEnd - w.xStart + 1) })
    ∧ (fun c : Option Position => c.bind w.stepFrom)^[(w.xEnd - w.xStart + 1) * (w.yEnd - w.yStart + 1)]
        (some w.corner) = none

/-- COLUMN_FIRST: the same with columns and lines exchanged. -/
def Obligations.ColumnFirstVisitsColumnByColumn : Prop :=
  ∀ w : Window, w.bounded = true → w.order = .columnFirst →
    (∀ p : Position, w.holds p = true →
      (p.line ≠ w.endLine → w.stepFrom p
        = some { column := p.column, line := if w.yDir = .inc then p.line + 1 else p.line - 1 })
      ∧ (p.line = w.endLine → p.column ≠ w.endColumn → w.stepFrom p
        = some { column := if w.xDir = .inc then p.column + 1 else p.column - 1, line := w.corner.line })
      ∧ (p.line = w.endLine → p.column = w.endColumn → w.stepFrom p = none))
    ∧ (∀ n : Nat, n < (w.xEnd - w.xStart + 1) * (w.yEnd - w.yStart + 1) →
        (fun c : Option Position => c.bind w.stepFrom)^[n] (some w.corner)
          = some
              { column := if w.xDir = .inc then w.xStart + n / (w.yEnd - w.yStart + 1)
                  else w.xEnd - n / (w.yEnd - w.yStart + 1)
                line := if w.yDir = .inc then w.yStart + n % (w.yEnd - w.yStart + 1)
                  else w.yEnd - n % (w.yEnd - w.yStart + 1) })
    ∧ (fun c : Option Position => c.bind w.stepFrom)^[(w.xEnd - w.xStart + 1) * (w.yEnd - w.yStart + 1)]
        (some w.corner) = none

/-- A step from a position inside the window stays inside or ends, and uses up one of the positions that remain; at the
start corner every position of the window remains, from 1 to 4,194,304. -/
def Obligations.StepsStayInTheWindow : Prop :=
  ∀ w : Window, w.bounded = true →
    (∀ p : Position, w.holds p = true →
      (∀ q : Position, w.stepFrom p = some q → w.holds q = true)
        ∧ w.remaining (w.stepFrom p) + 1 = w.remaining (some p))
    ∧ w.remaining (some w.corner) = (w.xEnd - w.xStart + 1) * (w.yEnd - w.yStart + 1)
    ∧ 1 ≤ w.remaining (some w.corner) ∧ w.remaining (some w.corner) ≤ 4194304

/-! ## Pixels in -/

/-- Every source format, bit by bit: a component's own bits first, then its most significant bits again. -/
def Obligations.SourcePixelsWiden : Prop :=
  ∀ w : Word,
    widenPixel .r4g4b4 w = (w.extractLsb' 8 4 ++ w.extractLsb' 8 4) ++ (w.extractLsb' 4 4 ++ w.extractLsb' 4 4)
        ++ (w.extractLsb' 0 4 ++ w.extractLsb' 0 4)
      ∧ widenPixel .r5g6b5 w = (w.extractLsb' 11 5 ++ w.extractLsb' 13 3) ++ (w.extractLsb' 5 6 ++ w.extractLsb' 9 2)
        ++ (w.extractLsb' 0 5 ++ w.extractLsb' 2 3)
      ∧ widenPixel .r6g6b6 w = (w.extractLsb' 12 6 ++ w.extractLsb' 16 2) ++ (w.extractLsb' 6 6 ++ w.extractLsb' 10 2)
        ++ (w.extractLsb' 0 6 ++ w.extractLsb' 4 2)
      ∧ widenPixel .r8g8b8 w = w.extractLsb' 0 8 ++ w.extractLsb' 8 8 ++ w.extractLsb' 16 8
      ∧ widenPixel .x8r8g8b8 w = w.extractLsb' 16 8 ++ w.extractLsb' 8 8 ++ w.extractLsb' 0 8
      ∧ widenPixel .i8 w = (0#16 ++ w.extractLsb' 0 8)

/-- Source pixel `n` of a TRANSFER lies in run (n − 1) div length at place (n − 1) mod length, all modulo 2^64; without a
run part the pixels follow one another; a READBACK's words do too, 4 bytes apart.
A key skips a pixel by its sense where pixel and key agree in every bit of the mask, and a mask of zero matches every
pixel. The bytes and the alignment of each format. -/
def Obligations.SourcePixelsAreFoundAndKeyed : Prop :=
  (∀ (base : Address) (f : Format) (n : Nat), 1 ≤ n →
      (sourceAddress base f none n).toNat = (base.toNat + (n - 1) * f.bytes) % 2 ^ 64
        ∧ (∀ r : Run, (sourceAddress base f (some r) n).toNat
            = (base.toNat + (n - 1) / r.length * r.stride + (n - 1) % r.length * f.bytes) % 2 ^ 64)
        ∧ (destinationAddress base n).toNat = (base.toNat + 4 * (n - 1)) % 2 ^ 64)
    ∧ (∀ (k : Key) (p : Pixel),
      (k.sense = .skipMatch → (k.skips p = true ↔ ∀ i : Fin 24, k.mask.getLsbD i = true → p.getLsbD i = k.key.getLsbD i))
        ∧ (k.sense = .writeMatch →
            (k.skips p = false ↔ ∀ i : Fin 24, k.mask.getLsbD i = true → p.getLsbD i = k.key.getLsbD i))
        ∧ (k.mask = 0 → k.skips p = decide (k.sense = .skipMatch)))
    ∧ [Format.r4g4b4, .r5g6b5, .r6g6b6, .r8g8b8, .x8r8g8b8, .i8].map (fun f => (f.bytes, f.alignment))
      = [(2, 2), (2, 2), (4, 4), (3, 1), (4, 4), (1, 1)]

/-! ## Pixels out -/

/-- Through a DIRECT band each 8-bit component becomes 10 bits, its two most significant bits repeated, and the output mode
reduces the three; 00h gives 0, FFh 1023, and the order is kept.
Through an INDEXED band the blue field alone names a palette entry, whose three components are the pixel's.
The five output modes, their ranges, and grey pixels, whose level the two weighted modes give exactly. -/
def Obligations.PixelsBecomeOutputValues : Prop :=
  ((∀ (palette : Palette) (mode : OutputMode) (p : Pixel),
      outputOf .direct mode palette p = reduceOutput mode (directComponents p))
    ∧ (∀ p : Pixel,
      (directComponents p).red = (p.extractLsb' 16 8 ++ p.extractLsb' 22 2).toNat
        ∧ (directComponents p).green = (p.extractLsb' 8 8 ++ p.extractLsb' 14 2).toNat
        ∧ (directComponents p).blue = (p.extractLsb' 0 8 ++ p.extractLsb' 6 2).toNat)
      ∧ widen 8 10 0 = 0 ∧ widen 8 10 255 = 1023
      ∧ ∀ a b : Nat, a ≤ b → b < 256 → widen 8 10 a ≤ widen 8 10 b)
    ∧ (∀ (palette : Palette) (mode : OutputMode) (p : Pixel),
      outputOf .indexed mode palette p
        = reduceOutput mode
            { red := (palette.get (p.extractLsb' 0 8).toFin).red.toNat
              green := (palette.get (p.extractLsb' 0 8).toFin).green.toNat
              blue := (palette.get (p.extractLsb' 0 8).toFin).blue.toNat })
    ∧ (∀ c : Components,
      reduceOutput .full c = .colour c.red c.green c.blue
        ∧ reduceOutput .depth6 c = .colour (c.red / 16) (c.green / 16) (c.blue / 16)
        ∧ reduceOutput .monoLuma c = .grey ((5 * c.red + 9 * c.green + 2 * c.blue) / 16)
        ∧ reduceOutput .monoEven c = .grey ((c.red + c.green + c.blue) / 3)
        ∧ reduceOutput .monoGreen c = .grey c.green
        ∧ (c.red = c.green → c.green = c.blue →
            reduceOutput .monoLuma c = .grey c.green ∧ reduceOutput .monoEven c = .grey c.green)
        ∧ (c.red ≤ 1023 → c.green ≤ 1023 → c.blue ≤ 1023 →
            c.red / 16 ≤ 63 ∧ c.green / 16 ≤ 63 ∧ c.blue / 16 ≤ 63
              ∧ (5 * c.red + 9 * c.green + 2 * c.blue) / 16 ≤ 1023 ∧ (c.red + c.green + c.blue) / 3 ≤ 1023))

/-- A band is a circle of mem_extent memory lines that scroll turns: the line shown lies in the region, the first screen
line shows the region line scroll, the next screen line shows the next region line or the first again, and a scroll one
greater shows on a line what the next line showed. -/
def Obligations.BandsMapInACircle : Prop :=
  ∀ (b : Band) (y : Nat), b.covers y = true → 1 ≤ b.memExtent → b.scroll < b.memExtent →
    b.memBase ≤ b.memoryLine y ∧ b.memoryLine y < b.memBase + b.memExtent
      ∧ b.memoryLine b.screenFirst = b.memBase + b.scroll
      ∧ b.memoryLine (y + 1)
        = (if b.memoryLine y + 1 = b.memBase + b.memExtent then b.memBase else b.memoryLine y + 1)
      ∧ ({ b with scroll := b.scroll + 1 } : Band).memoryLine y = b.memoryLine (y + 1)

/-! ## The register window -/

/-- IDENT reads the same in every state: part 2200, revision 1, four streams, two heads. -/
def Obligations.IdentIsFixed : Prop :=
  ∀ s : State,
    ((s.readRegister 0x00#6).extractLsb' 0 16).toNat = 2200 ∧ ((s.readRegister 0x00#6).extractLsb' 16 4).toNat = 1
      ∧ ((s.readRegister 0x00#6).extractLsb' 20 4).toNat = 4 ∧ ((s.readRegister 0x00#6).extractLsb' 24 4).toNat = 2
      ∧ ((s.readRegister 0x00#6).extractLsb' 28 4).toNat = 0

/-- Every field of STATUS stands at its bits, and the bits of no field read as zero; the codes of each field.
What a stream shows: in FAULT the state it showed at the entry; else, from the top, DISABLED without a ring, HALTED, STOPPED
in a STOPPING or STOPPED device, WAITING with its reason, RUNNING with a record being read or checked or with posted slots,
else IDLE. A record read in part waits POSTING while its remaining slots are not all posted; the slots that are posted are
read meanwhile (the model's inference, log 29). -/
def Obligations.StatusHoldsItsFields : Prop :=
  (∀ s : State,
    (s.status.extractLsb' 0 3).toNat = s.regs.device.code
      ∧ (s.status.extractLsb' 3 1).toNat = 0
      ∧ (s.status.extractLsb' 4 4).toNat
        = (if s.regs.device = .idle then s.regs.setupError.code
          else if s.regs.device = .fault then s.regs.faultOrigin.code else 0)
      ∧ (s.status.extractLsb' 8 3).toNat = (s.head 0).link.state.code
      ∧ (s.status.extractLsb' 11 1).toNat = 0
      ∧ (s.status.extractLsb' 12 3).toNat = (s.head 1).link.state.code
      ∧ (s.status.extractLsb' 15 1).toNat = 0
      ∧ (s.status.extractLsb' 16 4).toNat = (s.streamCode 0).code
      ∧ (s.status.extractLsb' 20 4).toNat = (s.streamCode 1).code
      ∧ (s.status.extractLsb' 24 4).toNat = (s.streamCode 2).code
      ∧ (s.status.extractLsb' 28 4).toNat = (s.streamCode 3).code)
    ∧ [Device.idle, .loading, .running, .stopping, .stopped, .fault].map Device.code = [0, 1, 2, 3, 4, 5]
    ∧ [SetupError.none, .tableAlign, .noStream, .stream0, .stream1, .stream2, .stream3, .ring, .head0, .head1].map
        SetupError.code = [0, 1, 2, 3, 4, 5, 6, 7, 8, 9]
    ∧ FaultOrigin.completionWrite.code = 1 ∧ FaultOrigin.setupRead.code = 2
    ∧ [LinkState.off, .powering, .signalling, .on, .darkening, .quiescing, .unpowering].map LinkState.code
      = [0, 1, 2, 3, 4, 5, 6]
    ∧ [StreamCode.disabled, .idle, .running, .halted, .stopped, .waiting .posting, .waiting .jobSpace,
        .waiting .queueFull, .waiting .lease, .waiting .paletteHazard, .waiting .paletteRead, .waiting .waitRecord,
        .waiting .completionSpace].map StreamCode.code = [0, 1, 2, 3, 4, 8, 9, 10, 11, 12, 13, 14, 15]
    ∧ (∀ (s : State) (k : StreamId),
        s.streamCode k = if s.regs.device = .fault then s.regs.frozen.get k else (s.stream k).shows s.regs.device)
    ∧ ∀ (st : Stream) (d : Device),
        (st.ring = none → st.shows d = .disabled)
        ∧ ∀ r : Ring, st.ring = some r →
          (st.halt ≠ none → st.shows d = .halted)
          ∧ (st.halt = none →
            (d = .stopping ∨ d = .stopped → st.shows d = .stopped)
            ∧ (d ≠ .stopping → d ≠ .stopped →
              (st.kept ≠ [] → st.shows d = .waiting .completionSpace)
              ∧ (st.kept = [] →
                (st.current = none → st.shows d = if r.fetch = r.post then .idle else .running)
                ∧ ∀ c : CurrentRecord, st.current = some c →
                  (c.phase = .reading →
                    st.shows d
                      = if (r.post + r.size - r.fetch) % r.size < declaredSlots c.slots - c.slots.length
                        then .waiting .posting else .running)
                  ∧ (c.phase = .whole → st.shows d = .running)
                  ∧ (c.phase = .heldJobSpace → st.shows d = .waiting .jobSpace)
                  ∧ (c.phase = .heldQueueFull → st.shows d = .waiting .queueFull)
                  ∧ (c.phase = .heldPaletteHazard → st.shows d = .waiting .paletteHazard)
                  ∧ (c.phase = .waitLease → st.shows d = .waiting .lease)
                  ∧ (c.phase = .waitPaletteRead → st.shows d = .waiting .paletteRead)
                  ∧ (c.phase = .waitCondition → st.shows d = .waiting .waitRecord))))

/-- A window write decodes to the command that encodes to it, for every well-formed command that is a window write, and
every window write decodes to a well-formed command; of a word written to CONTROL bits 3..0 and 9..8 alone decide. A
CONTROL write that names no command is REGISTER_WRITE_OTHER (the model's choice, log 23). -/
def Obligations.WindowWritesDecode : Prop :=
  (∀ (i : Instr) (offset : BitVec 6) (value : Word), i.wellFormed = true →
    encodeWindowWrite i = some (offset, value) → decodeWindowWrite offset value = i)
    ∧ (∀ (offset : BitVec 6) (value : Word), (decodeWindowWrite offset value).wellFormed = true)
    ∧ ∀ v w : Word, v.extractLsb' 0 4 = w.extractLsb' 0 4 → v.extractLsb' 8 2 = w.extractLsb' 8 2 →
        controlNamesCommand v = true → decodeWindowWrite 0x04#6 v = decodeWindowWrite 0x04#6 w

/-- A completion is written as 16 bytes at its ring entry, 16 bytes each from the ring's base; they hold its nine fields
where the layout puts them, unassigned bits zero, with the status codes and flag bits of the two tables. -/
def Obligations.CompletionsAreLaidOut : Prop :=
  (∀ (s t : State) (r : CompletionRing) (c : Completion) (rest : List Completion), s.issueWrite = some t →
      s.writer.ring = some r → s.writer.outbound = c :: rest →
      ∃ w : HostWrite, t.writer.write = some w ∧ w.bytes = c.bytes r.lap
        ∧ w.address.toNat = (r.base.toNat + 16 * r.producer) % 2 ^ 64)
    ∧ (∀ (c : Completion) (lap : Bool), c.ringIndex < 4096 →
      (c.bytes lap).length = 16
        ∧ (byteAt (c.bytes lap) 0).getLsbD 7 = lap
        ∧ ((byteAt (c.bytes lap) 0).extractLsb' 2 5).toNat = 0
        ∧ ((byteAt (c.bytes lap) 0).extractLsb' 0 2).toNat = c.stream.val
        ∧ byteAt (c.bytes lap) 1 = c.kind
        ∧ byteAt (c.bytes lap) 2 = c.outcome.status.code
        ∧ c.outcome.status.code.getLsbD 7 = c.outcome.status.halting
        ∧ (byteAt (c.bytes lap) 3).getLsbD 0 = c.outcome.flags.overrun
        ∧ (byteAt (c.bytes lap) 3).getLsbD 1 = c.outcome.flags.gateBypassed
        ∧ (byteAt (c.bytes lap) 3).getLsbD 2 = c.outcome.flags.alreadyHeld
        ∧ (byteAt (c.bytes lap) 3).getLsbD 3 = c.outcome.flags.partialEntry
        ∧ (byteAt (c.bytes lap) 3).getLsbD 4 = c.outcome.flags.notScanning
        ∧ (byteAt (c.bytes lap) 3).getLsbD 5 = c.outcome.flags.palette
        ∧ ((byteAt (c.bytes lap) 3).extractLsb' 6 2).toNat = 0
        ∧ fieldAt (c.bytes lap) 4 2 = c.tag.toNat
        ∧ fieldAt (c.bytes lap) 6 2 = c.ringIndex
        ∧ fieldAt (c.bytes lap) 8 4 = c.outcome.valueA.toNat
        ∧ fieldAt (c.bytes lap) 12 4 = c.outcome.valueB.toNat)
    ∧ Status.done.code = 0x00 ∧ Status.skipped.code = 0x01 ∧ Status.abandoned.code = 0x02
    ∧ Status.cancelled.code = 0x03 ∧ Status.superseded.code = 0x04 ∧ Status.badKind.code = 0x80
    ∧ Status.badSize.code = 0x81 ∧ Status.badField.code = 0x82 ∧ Status.noWindow.code = 0x83
    ∧ Status.notOwner.code = 0x84 ∧ Status.claimRefused.code = 0x85 ∧ Status.claimTimeout.code = 0x86
    ∧ Status.sourceError.code = 0x87 ∧ Status.fetchError.code = 0x88

/-- The causes: CAUSE_WRITE clears the bits written as one, CAUSE_ENABLE_WRITE replaces the nine enables, the rest of the
part unchanged; and the interrupt line is asserted while both have a bit in common.
SETUP_LO and SETUP_HI take the value written, in any device state, and read back; nothing else changes. A write to any
other place without a command has no effect, but a CONTROL write whose code names no command (REGISTER_WRITE_OTHER, the
model's choice, log 23) sets CONTROL_REFUSED.
What a read returns: CONTROL and POST 0, STATUS its fields, CAUSE and CAUSE_ENABLE their nine bits, RETIRE the retire index,
0 without a ring, and 0 at every offset that names no register. -/
def Obligations.RegisterWritesTakeEffect : Prop :=
  (∀ (v : Word) (s : State),
      (∃ bits : Causes, exec (.causeWrite v) s = .next { s with regs := { s.regs with cause := bits } }
          ∧ ∀ i : Fin 9, bits.getLsbD i = (s.regs.cause.getLsbD i && !v.getLsbD i))
        ∧ (∃ bits : Causes, exec (.causeEnableWrite v) s = .next { s with regs := { s.regs with causeEnable := bits } }
          ∧ ∀ i : Fin 9, bits.getLsbD i = v.getLsbD i)
        ∧ (interruptLine s = true
          ↔ ∃ i : Fin 9, s.regs.cause.getLsbD i = true ∧ s.regs.causeEnable.getLsbD i = true))
    ∧ (∀ (v : Word) (s : State),
      exec (.setupAddressWrite .low v) s = .next { s with regs := { s.regs with setupLo := v } }
        ∧ (({ s with regs := { s.regs with setupLo := v } } : State).readRegister 0x14#6) = v
        ∧ exec (.setupAddressWrite .high v) s = .next { s with regs := { s.regs with setupHi := v } }
        ∧ (({ s with regs := { s.regs with setupHi := v } } : State).readRegister 0x18#6) = v
        ∧ ∀ offset : BitVec 6, otherPlace offset v = true →
            exec (.registerWriteOther offset v) s
              = .next { s with regs := { s.regs with
                  cause := if offset = 0x04#6 then s.regs.cause ||| 0x080#9 else s.regs.cause } })
    ∧ ∀ s : State,
        s.readRegister 0x04#6 = 0 ∧ s.readRegister 0x08#6 = s.status
          ∧ (s.readRegister 0x0C#6).toNat = s.regs.cause.toNat ∧ (s.readRegister 0x10#6).toNat = s.regs.causeEnable.toNat
          ∧ s.readRegister 0x14#6 = s.regs.setupLo ∧ s.readRegister 0x18#6 = s.regs.setupHi ∧ s.readRegister 0x1C#6 = 0
          ∧ (s.writer.ring = none → s.readRegister 0x20#6 = 0)
          ∧ (∀ r : CompletionRing, s.writer.ring = some r → s.readRegister 0x20#6 = BitVec.ofNat 32 r.retire)
          ∧ ∀ offset : BitVec 6,
              offset ∉ [0x00#6, 0x04#6, 0x08#6, 0x0C#6, 0x10#6, 0x14#6, 0x18#6, 0x1C#6, 0x20#6] →
              s.readRegister offset = 0

/-- START in IDLE: with an aligned address the load begins, with another it fails at once with TABLE_ALIGN and SETUP;
START in STOPPED returns the part to RUNNING as it stands.
RESUME of a HALTED stream forgets its halt point, from which its fetch index already reads on.
A refused CONTROL command sets CONTROL_REFUSED and does nothing else: START outside IDLE and STOPPED, STOP outside
RUNNING, RESUME outside RUNNING, STOPPING and STOPPED or of a stream not HALTED, FLUSH outside those or of a DISABLED
stream. -/
def Obligations.ControlCommandsAreTakenOrRefused : Prop :=
  (∀ s : State,
      (s.regs.device = .idle → (s.regs.setupHi ++ s.regs.setupLo).toNat % 64 = 0 →
        exec .start s
          = .next { s with
              regs := { s.regs with device := .loading, setupError := .none }
              loader := some { address := s.regs.setupHi ++ s.regs.setupLo, quarters := [] } })
      ∧ (s.regs.device = .idle → (s.regs.setupHi ++ s.regs.setupLo).toNat % 64 ≠ 0 →
        exec .start s
          = .next { s with regs := { s.regs with setupError := .tableAlign, cause := s.regs.cause ||| 0x100#9 } })
      ∧ (s.regs.device = .stopped → exec .start s = .next { s with regs := { s.regs with device := .running } }.settle))
    ∧ (∀ (k : StreamId) (s : State), s.active = true → (s.stream k).halt.isSome = true →
      exec (.resume k) s = .next (s.setStream k { s.stream k with halt := none }).settle)
    ∧ (∀ (s : State) (k : StreamId),
      (s.regs.device ≠ .idle → s.regs.device ≠ .stopped →
          exec .start s = .next { s with regs := { s.regs with cause := s.regs.cause ||| 0x080#9 } })
        ∧ (s.regs.device ≠ .running →
          exec .stop s = .next { s with regs := { s.regs with cause := s.regs.cause ||| 0x080#9 } })
        ∧ (s.active = false ∨ (s.stream k).halt = none →
          exec (.resume k) s = .next { s with regs := { s.regs with cause := s.regs.cause ||| 0x080#9 } })
        ∧ (s.active = false ∨ (s.stream k).ring = none →
          exec (.flush k) s = .next { s with regs := { s.regs with cause := s.regs.cause ||| 0x080#9 } }))

/-- STOP in RUNNING leads to STOPPING, and to STOPPED in the same event exactly where no job is RUNNING or ENDED after
it. -/
def Obligations.StopReachesStopped : Prop :=
  ∀ s : State, s.regs.device = .running →
    ∃ t : State, exec .stop s = .next t ∧ t.panel = s.panel ∧ t.loader = s.loader
      ∧ (t.regs.device = .stopping ∨ t.regs.device = .stopped)
      ∧ (t.regs.device = .stopped ↔ ∀ j ∈ t.jobs, j.state = .queued)

/-- After FLUSH the stream has no current record, no halt, its fetch index at its post index, batch counter 0, UNSET
contexts, no lease, no waiter, no palette read, no unlatched entry and no job that is not ENDED; the other streams' rings
keep their bases, sizes and post indices.
The outcomes it gives: the current record ends CANCELLED, values 0; its QUEUED jobs and its RUNNING one end CANCELLED, with
GATE_BYPASSED where their gate was bypassed, the RUNNING one with the pixels written before the stop as value A (after the
pixel in hand or before it, as is free while its write is in flight, the model's choice, log 3); its unlatched entries leave
with ABANDONED completions, in queue order (the model's choice, log 28). On each head whose lease it held or where it had such
entries the staging set is reloaded from the newest unlatched entry left or the active set, the palette where it is dirty or
an abandoned entry had PAL; on the others it stays. The lease is handed to the first waiter that is left, whose CLAIM is DONE,
or becomes FREE. -/
def Obligations.FlushLeavesTheStreamClean : Prop :=
  ∀ (k : StreamId) (s : State) (r : Ring), s.active = true → (s.stream k).ring = some r → s.oneEngineJob →
    ∃ t : State, exec (.flush k) s = .next t
      ∧ (∃ (u : State) (written : Nat) (gone : Entry → Bool), t = u.settle
        ∧ (∀ e : Entry, gone e = true ↔ e.unlatched = true ∧ e.ref.stream = k)
        ∧ (u.stream k).kept
          = (s.stream k).kept
            ++ (match (s.stream k).current with
              | some c => [completionOf (headerRef k c) (kindByte c.slots) { status := .cancelled } none]
              | none => [])
        ∧ (written = s.engine.written ∨ s.engine.phase.inPixel = true ∧ written = s.engine.written + 1)
        ∧ u.jobs
          = s.jobs.map (fun q =>
              if q.ref.stream = k ∧ q.state = .running then
                { q with
                  state := .ended
                    { status := .cancelled, valueA := BitVec.ofNat 32 written
                      flags := { gateBypassed := q.bypassed } } true }
              else if q.ref.stream = k ∧ q.state = .queued then
                { q with
                  state := .ended { status := .cancelled, flags := { gateBypassed := q.bypassed } } false }
              else q)
        ∧ ∀ h : HeadId, ∃ (lost : List Entry) (waiters : List Waiter) (staging : Staging),
            lost = (s.head h).present.entries.filter gone
              ∧ waiters = (s.head h).lease.waiters.filter (fun w => decide (w.ref.stream ≠ k))
              ∧ (u.head h).present.entries = (s.head h).present.entries.filter (fun e => !gone e)
              ∧ (u.head h).present.abandoned = (s.head h).present.abandoned + lost.length
              ∧ (u.head h).present.outbox
                = (s.head h).present.outbox
                  ++ lost.map (fun e =>
                      completionOf e.ref 0x24 { status := .abandoned, valueB := BitVec.ofNat 32 e.missed } (some h))
              ∧ (u.head h).lease
                = (if (s.head h).lease.holder = some k then
                    { holder := waiters.head?.map (fun w => w.ref.stream), waiters := waiters.tail }
                  else { (s.head h).lease with waiters := waiters })
              ∧ staging.reading
                = (s.head h).staging.reading.filter (fun r => decide (r.ref.stream ≠ k))
              ∧ ((s.head h).lease.holder = some k ∨ lost ≠ [] →
                staging.picture
                    = (match ((u.head h).present.entries.reverse.find? (fun e => e.unlatched)) with
                      | some e => e.snapshot
                      | none => (s.head h).scan.active)
                  ∧ staging.palette
                    = (if (s.head h).staging.dirty = true ∨ (∃ e ∈ lost, e.pal = true) then (s.head h).scan.palette
                      else (s.head h).staging.palette)
                  ∧ staging.dirty = false)
              ∧ ((s.head h).lease.holder ≠ some k → lost = [] →
                staging.picture = (s.head h).staging.picture ∧ staging.palette = (s.head h).staging.palette
                  ∧ staging.dirty = (s.head h).staging.dirty)
              ∧ (u.head h).staging = staging
              ∧ ∀ (w : Waiter) (rest : List Waiter), (s.head h).lease.holder = some k → waiters = w :: rest →
                (u.stream w.ref.stream).current = none
                  ∧ ∀ c ∈ report w.ref 0x10 { status := .done }, c ∈ (u.stream w.ref.stream).kept)
      ∧ (t.stream k).current = none ∧ (t.stream k).halt = none ∧ (t.stream k).batch = 0
      ∧ (t.stream k).ring = some { r with fetch := r.post }
      ∧ (∀ c : ContextId, t.context k c = .unset)
      ∧ (∀ h : HeadId,
          (t.head h).lease.holder ≠ some k
            ∧ (∀ w ∈ (t.head h).lease.waiters, w.ref.stream ≠ k)
            ∧ (∀ p : PaletteRead, (t.head h).staging.reading = some p → p.ref.stream ≠ k)
            ∧ ∀ e ∈ (t.head h).present.entries, e.ref.stream = k → e.unlatched = false)
      ∧ (∀ j ∈ t.jobs, j.ref.stream = k → j.isEnded = true)
      ∧ ∀ i : StreamId, i ≠ k →
          (t.stream i).ring.map (fun q => (q.base, q.size, q.post))
            = (s.stream i).ring.map (fun q => (q.base, q.size, q.post))

/-- POST: an index in the ring of an enabled stream replaces its post index; any other write sets POST_REJECTED and does
nothing else.
RETIRE: an index in the loaded completion ring replaces the retire index; any other write sets POST_REJECTED and does
nothing else. -/
def Obligations.PostAndRetireMoveTheIndices : Prop :=
  (∀ (v : Word) (s : State),
      (∀ r : Ring, (s.stream (v.extractLsb' 16 2).toFin).ring = some r →
        ((v.extractLsb' 0 12).toNat < r.size →
          exec (.post v) s
            = .next (s.setStream (v.extractLsb' 16 2).toFin
                { s.stream (v.extractLsb' 16 2).toFin with
                  ring := some { r with post := (v.extractLsb' 0 12).toNat } }).settle)
        ∧ (r.size ≤ (v.extractLsb' 0 12).toNat →
          exec (.post v) s = .next { s with regs := { s.regs with cause := s.regs.cause ||| 0x040#9 } }))
      ∧ ((s.stream (v.extractLsb' 16 2).toFin).ring = none →
        exec (.post v) s = .next { s with regs := { s.regs with cause := s.regs.cause ||| 0x040#9 } }))
    ∧ (∀ (v : Word) (s : State),
      (∀ r : CompletionRing, s.writer.ring = some r →
        ((v.extractLsb' 0 12).toNat < r.size →
          exec (.retire v) s
            = .next { s with
                writer := { s.writer with ring := some { r with retire := (v.extractLsb' 0 12).toNat } } }.settle)
        ∧ (r.size ≤ (v.extractLsb' 0 12).toNat →
          exec (.retire v) s = .next { s with regs := { s.regs with cause := s.regs.cause ||| 0x040#9 } }))
      ∧ (s.writer.ring = none →
        exec (.retire v) s = .next { s with regs := { s.regs with cause := s.regs.cause ||| 0x040#9 } }))

/-! ## Resets and the Setup Table -/

/-- What power-on reset leaves, every register of the window, ring, context, job, head and completion state at the value
the manual gives. That panel memory has no cell listed is the model's form of its unknown content (log 1, DESIGN CHOICE); the
waiting commands, which are the model's own, are kept (log 21, DESIGN CHOICE). -/
def Obligations.PowerOnResetsEverything : Prop :=
  ∀ s : State, ∃ t : State, exec .powerOnReset s = .next t
    ∧ t.regs.device = .idle ∧ t.regs.setupError = .none ∧ t.regs.faultOrigin = .none ∧ t.regs.cause = 0
    ∧ t.regs.causeEnable = 0 ∧ t.regs.setupLo = 0 ∧ t.regs.setupHi = 0 ∧ t.loader = none
    ∧ t.fetch = { read := none, urgentRun := 0, lastUrgent := 3, lastNormal := 3 }
    ∧ (∀ k : StreamId, t.stream k = { ring := none, current := none, kept := [], halt := none, batch := 0 })
    ∧ (∀ (k : StreamId) (c : ContextId), t.context k c = .unset)
    ∧ t.jobs = [] ∧ t.engine.phase = .idle ∧ t.panel.cells = []
    ∧ t.writer = { outbound := [], ring := none, write := none }
    ∧ (∀ h : HeadId,
        (t.head h).lease = { holder := none, waiters := [] }
          ∧ (t.head h).present = { entries := [], abandoned := 0, outbox := [] }
          ∧ (t.head h).scan.timing = none ∧ (t.head h).scan.line = 0 ∧ (t.head h).scan.frame = 0
          ∧ (t.head h).scan.active = { bands := [], background := 0, mode := .full }
          ∧ (∀ i : Fin 256, (t.head h).scan.palette.get i = { red := 0, green := 0, blue := 0 })
          ∧ (t.head h).staging.picture = (t.head h).scan.active ∧ (t.head h).staging.palette = (t.head h).scan.palette
          ∧ (t.head h).staging.dirty = false ∧ (t.head h).staging.reading = none
          ∧ (t.head h).link
            = { state := .off, target := .off, timer := none, pending := none, delays := none, held := [] }
          ∧ (t.head h).light
            = { level := 0, target := 0, step := 1, dim := false, ramping := false, pending := none })
    ∧ t.pending = s.pending

/-- What RESET leaves, in any device state: everything as after power-on but panel memory, which reads as before where the
engine presents no write (else log 3), the active sets, copied into the staging sets, CAUSE_ENABLE and the Setup Table address. -/
def Obligations.ResetKeepsThePicture : Prop :=
  ∀ s : State, ∃ t : State, exec .reset s = .next t
    ∧ t.regs.device = .idle ∧ t.regs.setupError = .none ∧ t.regs.faultOrigin = .none ∧ t.regs.cause = 0
    ∧ t.regs.causeEnable = s.regs.causeEnable ∧ t.regs.setupLo = s.regs.setupLo ∧ t.regs.setupHi = s.regs.setupHi
    ∧ t.loader = none ∧ t.fetch = { read := none, urgentRun := 0, lastUrgent := 3, lastNormal := 3 }
    ∧ (∀ k : StreamId, t.stream k = { ring := none, current := none, kept := [], halt := none, batch := 0 })
    ∧ (∀ (k : StreamId) (c : ContextId), t.context k c = .unset)
    ∧ t.jobs = [] ∧ t.engine.phase = .idle
    ∧ t.writer = { outbound := [], ring := none, write := none }
    ∧ ((∀ p : Pixel, s.engine.phase ≠ .write p) → ∀ a : Nat, t.panel.read a = s.panel.read a)
    ∧ (∀ h : HeadId,
        (t.head h).lease = { holder := none, waiters := [] }
          ∧ (t.head h).present = { entries := [], abandoned := 0, outbox := [] }
          ∧ (t.head h).scan.timing = none ∧ (t.head h).scan.line = 0 ∧ (t.head h).scan.frame = 0
          ∧ (t.head h).scan.active = (s.head h).scan.active ∧ (t.head h).scan.palette = (s.head h).scan.palette
          ∧ (t.head h).staging.picture = (s.head h).scan.active
          ∧ (t.head h).staging.palette = (s.head h).scan.palette
          ∧ (t.head h).staging.dirty = false ∧ (t.head h).staging.reading = none
          ∧ (t.head h).link
            = { state := .off, target := .off, timer := none, pending := none, delays := none, held := [] }
          ∧ (t.head h).light
            = { level := 0, target := 0, step := 1, dim := false, ramping := false, pending := none })
    ∧ t.pending = s.pending

/-- The answers to the Setup Table reads: each of the first three quarters is kept and the next read is at the following
64 bytes; with the fourth a table that fails a check returns the part to IDLE with the first failing code and SETUP; a
clean one is loaded into the rings, timings and delays, and the part is RUNNING.
The checks in their order: a stream enabled; base, size and class of each enabled stream, the lowest first; base and size of
the completion ring; the ranges of head 0, then of head 1; each fails with its code, and a table that passes all is clean.
What a descriptor that passes gives the blocks. -/
def Obligations.SetupTableLoads : Prop :=
  (∀ (s : State) (l : SetupLoad) (bytes : List Byte), s.loader = some l →
    (l.quarters.length < 3 →
      exec (.setupReadAnswer (.data bytes)) s
          = .next { s with loader := some { l with quarters := l.quarters ++ [bytes] } }
        ∧ ({ l with quarters := l.quarters ++ [bytes] } : SetupLoad).readAddress = l.readAddress + 64)
    ∧ (l.quarters.length = 3 → tableError (l.quarters ++ [bytes]) ≠ .none →
      exec (.setupReadAnswer (.data bytes)) s
        = .next { s with
            regs := { s.regs with
              device := .idle, setupError := tableError (l.quarters ++ [bytes]), cause := s.regs.cause ||| 0x100#9 }
            loader := none })
    ∧ (l.quarters.length = 3 → tableError (l.quarters ++ [bytes]) = .none →
      ∃ ring : CompletionRing,
        tableCompletionRing (l.quarters ++ [bytes]) = some ring
          ∧ ring.producer = 0 ∧ ring.lap = true ∧ ring.retire = 0
          ∧ exec (.setupReadAnswer (.data bytes)) s
            = .next { s with
                regs := { s.regs with device := .running }
                loader := none
                streams :=
                  ⟨loadedStream (l.quarters ++ [bytes]) 0, loadedStream (l.quarters ++ [bytes]) 1,
                    loadedStream (l.quarters ++ [bytes]) 2, loadedStream (l.quarters ++ [bytes]) 3⟩
                heads :=
                  ⟨{ s.heads.at0 with
                      scan := { s.heads.at0.scan with timing := tableTiming (l.quarters ++ [bytes]) 0 }
                      link := { s.heads.at0.link with delays := some (tableDelays (l.quarters ++ [bytes]) 0) } },
                    { s.heads.at1 with
                      scan := { s.heads.at1.scan with timing := tableTiming (l.quarters ++ [bytes]) 1 }
                      link := { s.heads.at1.link with delays := some (tableDelays (l.quarters ++ [bytes]) 1) } }⟩
                writer := { s.writer with ring := some ring } }.settle))
    ∧ (∀ quarters : List (List Byte),
      (tableError quarters = .noStream ↔ ∀ k : StreamId, ¬ StreamEnabled quarters k)
      ∧ (∀ k : StreamId, (tableError quarters).code = 3 + k.val
          ↔ StreamEnabled quarters k ∧ ¬ StreamPasses quarters k
            ∧ ∀ i : StreamId, i < k → StreamEnabled quarters i → StreamPasses quarters i)
      ∧ ((∃ k : StreamId, StreamEnabled quarters k) →
        (∀ k : StreamId, StreamEnabled quarters k → StreamPasses quarters k) →
          (tableError quarters = .ring ↔ ¬ RingPasses quarters)
          ∧ (tableError quarters = .head0 ↔ RingPasses quarters ∧ ¬ HeadPasses quarters 0)
          ∧ (tableError quarters = .head1 ↔ RingPasses quarters ∧ HeadPasses quarters 0 ∧ ¬ HeadPasses quarters 1)
          ∧ (tableError quarters = .none ↔ RingPasses quarters ∧ HeadPasses quarters 0 ∧ HeadPasses quarters 1)))
    ∧ ∀ quarters : List (List Byte),
      (∀ k : StreamId,
        (¬ StreamEnabled quarters k →
          loadedStream quarters k = { ring := none, current := none, kept := [], halt := none, batch := 0 })
        ∧ (StreamEnabled quarters k → StreamPasses quarters k →
          loadedStream quarters k
            = { ring := some { base := BitVec.ofNat 64 (tableField quarters (16 * k.val) 8)
                               size := tableField quarters (16 * k.val + 8) 2
                               fetchClass := if tableField quarters (16 * k.val + 10) 1 = 1 then .urgent else .normal
                               post := 0, fetch := 0 }
                current := none, kept := [], halt := none, batch := 0 }))
      ∧ (RingPasses quarters →
          tableCompletionRing quarters
            = some { base := BitVec.ofNat 64 (tableField quarters 0x40 8), size := tableField quarters 0x48 2
                     producer := 0, lap := true, retire := 0 })
      ∧ ∀ h : HeadId,
          (HeadPasses quarters h →
            tableTiming quarters h
              = some { hAct := tableField quarters (0x60 + 32 * h.val) 2
                       vAct := tableField quarters (0x62 + 32 * h.val) 2
                       vBlank := tableField quarters (0x64 + 32 * h.val) 2
                       linePeriod := tableField quarters (0x66 + 32 * h.val) 2
                       frameCause := (tableField quarters 0x50 1).testBit h.val })
          ∧ tableDelays quarters h
            = { supply := tableField quarters (0x68 + 32 * h.val) 1, signal := tableField quarters (0x69 + 32 * h.val) 1
                light := tableField quarters (0x6A + 32 * h.val) 1 }

/-- Bus errors on a Setup Table read and on a completion write lead to FAULT: the origin and ERROR are set, each stream goes
on showing the state it showed, the job list, queues, leases, links and the outbound list stand as they are, palette reads
stop, and outstanding reads will be discarded. -/
def Obligations.BusErrorsLeadToFault : Prop :=
  ∀ s : State,
    (s.loader.isSome = true →
      ∃ t : State, exec (.setupReadAnswer .busError) s = .next t ∧ t.regs.faultOrigin = .setupRead
        ∧ t.writer = s.writer ∧ FaultEntered s t)
    ∧ (∀ (w : HostWrite) (c : Completion) (rest : List Completion), s.writer.write = some w →
        s.writer.outbound = c :: rest →
        ∃ t : State, exec (.completionWriteAnswer .busError) s = .next t ∧ t.regs.faultOrigin = .completionWrite
          ∧ t.writer = { s.writer with write := none } ∧ FaultEntered s t)

/-! ## Slots -/

/-- The answer to a slot read: its 64 bytes join the stream's current record, or begin one, the fetch index advances, and
the Sequencer looks at the record; a bus error ends the record FETCH_ERROR with the stream HALTED, one slot on where the
read was of its first slot, with kind code and tag 0, and else after its declared slots, with the header's; an answer to
a read that was to be discarded changes nothing but that the bus is free. Each answer is counted, and the count at its first
slot is a record's reading (the model's own, log 27). -/
def Obligations.SlotReadAnswers : Prop :=
  ∀ (s a : State) (read : SlotRead) (bytes : List Byte) (r : Ring), s.fetch.read = some read →
    a = { s with fetch := { s.fetch with read := none }, slotReads := s.slotReads + 1 } →
    (s.stream read.stream).ring = some r →
    (read.discard = true →
      exec (.slotReadAnswer (.data bytes)) s = .next a.settle
        ∧ exec (.slotReadAnswer .busError) s = .next a.settle)
    ∧ (read.discard = false → (s.stream read.stream).current = none →
      exec (.slotReadAnswer (.data bytes)) s
          = .next
              ((a.setStream read.stream
                  { s.stream read.stream with
                    ring := some { r with fetch := (r.fetch + 1) % r.size }
                    current := some { index := r.fetch, slots := [bytes], phase := .reading, reading := s.slotReads } }).examine
                read.stream).settle
        ∧ exec (.slotReadAnswer .busError) s
          = .next
              (a.setStream read.stream
                { s.stream read.stream with
                  ring := some { r with fetch := (r.fetch + 1) % r.size }
                  kept := (s.stream read.stream).kept
                    ++ [({ stream := read.stream, kind := 0x00, outcome := { status := .fetchError }, tag := 0
                           ringIndex := r.fetch, notify := false, origin := none, reading := s.slotReads } : Completion)]
                  halt := some ((r.fetch + 1) % r.size) }).settle)
    ∧ ∀ c : CurrentRecord, read.discard = false → (s.stream read.stream).current = some c →
      exec (.slotReadAnswer (.data bytes)) s
          = .next
              ((a.setStream read.stream
                  { s.stream read.stream with
                    ring := some { r with fetch := (r.fetch + 1) % r.size }
                    current := some { c with slots := c.slots ++ [bytes] } }).examine read.stream).settle
        ∧ (1 ≤ declaredSlots c.slots → declaredSlots c.slots ≤ 4 →
          exec (.slotReadAnswer .busError) s
            = .next
                (a.setStream read.stream
                  { s.stream read.stream with
                    ring := some { r with fetch := r.afterRecord c }
                    current := none
                    kept := (s.stream read.stream).kept
                      ++ [completionOf (headerRef read.stream c) (kindByte c.slots)
                          { status := .fetchError } none]
                    halt := some (r.afterRecord c) }).settle)

/-- What the Sequencer makes of a record as it stands in its buffer: BAD_SIZE for a declared count outside 1..4 (the halt
point one slot on), nothing while slots are missing, then BAD_KIND, BAD_SIZE, or whole; the refused record's
completion carries its header's kind byte and tag (the model's inference, log 11).
Which slot counts suit which kinds: one slot for eleven kinds; two for a TRANSFER with a key or a gate and for a FILL
or READBACK with a gate, one otherwise; one or two for BANDS by its band count. -/
def Obligations.RecordsAreExaminedInOrder : Prop :=
  (∀ (s : State) (k : StreamId) (c : CurrentRecord) (r : Ring), (s.stream k).current = some c →
      (s.stream k).ring = some r →
      (declaredSlots c.slots < 1 ∨ 4 < declaredSlots c.slots →
        s.examine k
          = s.setStream k
              { ring := some { r with fetch := (c.index + 1) % r.size }
                current := none
                kept := (s.stream k).kept
                  ++ [completionOf (headerRef k c) (kindByte c.slots) { status := .badSize } none]
                halt := some ((c.index + 1) % r.size)
                batch := (s.stream k).batch })
      ∧ (1 ≤ declaredSlots c.slots → declaredSlots c.slots ≤ 4 →
        (c.slots.length < declaredSlots c.slots → s.examine k = s)
        ∧ (declaredSlots c.slots ≤ c.slots.length →
          (kindOf c.slots = none →
            s.examine k
              = s.setStream k
                  { ring := some { r with fetch := r.afterRecord c }
                    current := none
                    kept := (s.stream k).kept
                      ++ [completionOf (headerRef k c) (kindByte c.slots) { status := .badKind } none]
                    halt := some (r.afterRecord c)
                    batch := (s.stream k).batch })
          ∧ ∀ kind : Kind, kindOf c.slots = some kind →
              (slotCountSuits kind c.slots (declaredSlots c.slots) = true → s.examine k = s.recordHeld k c .whole)
              ∧ (slotCountSuits kind c.slots (declaredSlots c.slots) = false →
                  s.examine k = s.recordHalted k r c kind .badSize))))
    ∧ (∀ (slots : List (List Byte)) (n : Nat),
      (∀ kind : Kind, kind ≠ .transfer → kind ≠ .fill → kind ≠ .readback → kind ≠ .bands →
        (slotCountSuits kind slots n = true ↔ n = 1))
      ∧ (slotCountSuits .transfer slots n = true ↔ n = if keyMark slots = true ∨ gateMark slots = true then 2 else 1)
      ∧ (slotCountSuits .fill slots n = true ↔ n = if gateMark slots = true then 2 else 1)
      ∧ (slotCountSuits .readback slots n = true ↔ n = if gateMark slots = true then 2 else 1)
      ∧ (1 ≤ bandCount slots → bandCount slots ≤ 8 →
          (slotCountSuits .bands slots n = true ↔ n = if bandCount slots ≤ 3 then 1 else 2))
      ∧ (bandCount slots = 0 ∨ 8 < bandCount slots → n ≤ 2 → slotCountSuits .bands slots n = true))

/-- A grant is made exactly where the device is RUNNING, no read is outstanding and some stream is a candidate: it is not
HALTED, keeps no completion, its next slot is posted, and it has no current record or one read in part.
The grant: an URGENT candidate unless NORMAL ones wait and four URGENT grants have been made over them, the first of its
class in stream order after the last one granted, which it becomes; the run count rises exactly where a NORMAL candidate was
passed over, and is else 0. -/
def Obligations.GrantsFollowTheClasses : Prop :=
  (∀ s : State, s.grant ≠ none ↔
      s.regs.device = .running ∧ s.fetch.read = none ∧ ∃ k : StreamId, (s.stream k).needsSlot = true)
    ∧ (∀ st : Stream, st.needsSlot = true ↔
      st.halt = none ∧ st.kept = [] ∧ (∃ r : Ring, st.ring = some r ∧ r.fetch ≠ r.post)
        ∧ ∀ c : CurrentRecord, st.current = some c → c.phase = .reading)
    ∧ ∀ s t : State, s.grant = some t →
      ∃ (k : StreamId) (r : Ring), (s.stream k).needsSlot = true ∧ (s.stream k).ring = some r
        ∧ t.fetch.read = some { stream := k, address := r.base + BitVec.ofNat 64 (64 * r.fetch), discard := false }
        ∧ (∃ cls : FetchClass, r.fetchClass = cls
            ∧ (cls = .urgent → (∃ i : StreamId, s.candidate .normal i = true) → s.fetch.urgentRun < 4)
            ∧ (cls = .normal → (∃ i : StreamId, s.candidate .urgent i = true) → 4 ≤ s.fetch.urgentRun)
            ∧ (∀ i : StreamId, s.candidate cls i = true →
                (k - (if cls = .urgent then s.fetch.lastUrgent else s.fetch.lastNormal) - 1 : Fin 4)
                  ≤ i - (if cls = .urgent then s.fetch.lastUrgent else s.fetch.lastNormal) - 1)
            ∧ t.fetch.lastUrgent = (if cls = .urgent then k else s.fetch.lastUrgent)
            ∧ t.fetch.lastNormal = (if cls = .normal then k else s.fetch.lastNormal)
            ∧ t.fetch.urgentRun
              = (if cls = .urgent ∧ ∃ i : StreamId, s.candidate .normal i = true then s.fetch.urgentRun + 1 else 0))
        ∧ t = { s with fetch := t.fetch }

/-! ## Records -/

/-- A record is taken up exactly where the device is RUNNING, its stream neither DISABLED nor HALTED and keeping no completion,
and the current record is a whole one of the kind; otherwise a record command changes nothing (the model's choice, log 4), so
that STOPPING, STOPPED and FAULT dispatch none.
A whole record whose fields fail the checks of its kind ends BAD_FIELD: its stream is HALTED at the slot after it, with
one completion of values 0.
A RELEASE or an owner-only record of a stream that does not hold the lease of the head it names ends NOT_OWNER. -/
def Obligations.RefusedRecordsHalt : Prop :=
  (∀ (kind : Kind) (k : StreamId) (s : State) (c : CurrentRecord),
      (s.takeUp k kind = some c ↔
        s.regs.device = .running ∧ (s.stream k).ring ≠ none ∧ (s.stream k).halt = none ∧ (s.stream k).kept = []
          ∧ (s.stream k).current = some c ∧ c.phase = .whole ∧ kindOf c.slots = some kind)
      ∧ (s.takeUp k kind = none → exec (kind.command k) s = .next s))
    ∧ (∀ (kind : Kind) (k : StreamId) (s : State) (c : CurrentRecord) (r : Ring), s.takeUp k kind = some c →
      (s.stream k).ring = some r → 1 ≤ declaredSlots c.slots → declaredSlots c.slots ≤ 4 →
      s.fieldsPass kind c.slots = false →
      exec (kind.command k) s = .next (s.recordHalted k r c kind .badField).settle)
    ∧ (∀ (kind : Kind) (k : StreamId) (s : State) (c : CurrentRecord) (r : Ring) (h : HeadId), s.takeUp k kind = some c →
      (s.stream k).ring = some r → 1 ≤ declaredSlots c.slots → declaredSlots c.slots ≤ 4 → kind.holderOnly = true →
      s.fieldsPass kind c.slots = true → headField c.slots = some h → (s.head h).lease.holder ≠ some k →
      exec (kind.command k) s = .next (s.recordHalted k r c kind .notOwner).settle)

/-- WINDOW, TRANSFER, FILL and READBACK: with fewer than 16 jobs in all and 8 of the stream the record becomes the youngest
job, QUEUED, its gate CLOSED without a target until it is evaluated, tagged with the batch counter; otherwise it is held
JOB_SPACE.
Which fields pass, and what job they ask for: of a WINDOW context, bounds, order and directions; of the others context, mode
and count, of a TRANSFER also format, source and its run and key parts, of a READBACK its destination, of each its gate
part. -/
def Obligations.JobRecordsJoinTheList : Prop :=
  (∀ (kind : Kind) (k : StreamId) (s : State) (c : CurrentRecord) (work : JobWork) (gate : Option Gate),
    kind ∈ [Kind.window, .transfer, .fill, .readback] → s.takeUp k kind = some c →
    jobFields kind c.slots s.heads = some (work, gate) →
    (s.jobs.length < 16 ∧ (s.jobs.filter (fun j => decide (j.ref.stream = k))).length < 8 →
      exec (kind.command k) s
        = .next { (s.setStream k { s.stream k with current := none }) with
            jobs := evaluateGates s.heads []
              (s.jobs
                ++ [({ ref := headerRef k c, slots := declaredSlots c.slots, work := work
                       batch := (s.stream k).batch, gate := gate
                       gateState := if gate.isSome = true then .closed else .none
                       target := none, bypassed := false, state := .queued } : Job)]) }.settle)
    ∧ (16 ≤ s.jobs.length ∨ 8 ≤ (s.jobs.filter (fun j => decide (j.ref.stream = k))).length →
      exec (kind.command k) s = .next (s.recordHeld k c .heldJobSpace).settle))
    ∧ ∀ (slots : List (List Byte)) (heads : Two Head) (p : JobWork × Option Gate),
      (jobFields .window slots heads = some p ↔
        ∃ (c : ContextId) (w : Window), p = (.window c w, none) ∧ c.val = recordField slots 0x03 1
          ∧ w.xStart = recordField slots 0x10 2 ∧ w.xEnd = recordField slots 0x12 2
          ∧ w.yStart = recordField slots 0x14 2 ∧ w.yEnd = recordField slots 0x16 2
          ∧ w.order.code = recordField slots 0x18 1 ∧ w.xDir.code = recordField slots 0x19 1
          ∧ w.yDir.code = recordField slots 0x1A 1
          ∧ w.xStart ≤ w.xEnd ∧ w.xEnd ≤ 2047 ∧ w.yStart ≤ w.yEnd ∧ w.yEnd ≤ 2047)
      ∧ (jobFields .transfer slots heads = some p ↔
        ∃ (c : ContextId) (m : Mode) (f : Format) (n : Nat) (run : Option Run) (key : Option Key) (gate : Option Gate),
          p = (.transfer c m (BitVec.ofNat 64 (recordField slots 0x18 8)) f n run key, gate)
            ∧ c.val = recordField slots 0x03 1 ∧ m.code = recordField slots 0x10 1 ∧ f.code = recordField slots 0x11 1
            ∧ n = recordField slots 0x14 4 ∧ 1 ≤ n ∧ n ≤ 4194304 ∧ recordField slots 0x18 8 % f.alignment = 0
            ∧ RunPart slots f run ∧ KeyPart slots key ∧ GatePart slots heads gate)
      ∧ (jobFields .fill slots heads = some p ↔
        ∃ (c : ContextId) (m : Mode) (n : Nat) (gate : Option Gate),
          p = (.fill c m (BitVec.ofNat 24 (recordField slots 0x18 4)) n, gate)
            ∧ c.val = recordField slots 0x03 1 ∧ m.code = recordField slots 0x10 1 ∧ n = recordField slots 0x14 4
            ∧ n ≤ 4194304 ∧ GatePart slots heads gate)
      ∧ (jobFields .readback slots heads = some p ↔
        ∃ (c : ContextId) (m : Mode) (n : Nat) (gate : Option Gate),
          p = (.readback c m (BitVec.ofNat 64 (recordField slots 0x18 8)) n, gate)
            ∧ c.val = recordField slots 0x03 1 ∧ m.code = recordField slots 0x10 1 ∧ n = recordField slots 0x14 4
            ∧ 1 ≤ n ∧ n ≤ 4194304 ∧ recordField slots 0x18 8 % 4 = 0 ∧ GatePart slots heads gate)

/-- A CLAIM: a FREE head is granted, DONE; the holder's own is DONE with ALREADY_HELD; with wait=yes the stream joins the
waiters of another's head with its timeout, UNLIMITED for 0; with wait=no it ends CLAIM_REFUSED.
Its fields pass exactly where the head byte names a head and the wait code is 0 or 1. -/
def Obligations.ClaimsAreDecided : Prop :=
  (∀ (k : StreamId) (s : State) (c : CurrentRecord) (r : ClaimRecord), s.takeUp k .claim = some c →
    claimFields c.slots = some r →
    ((s.head r.head).lease.holder = none →
      exec (.claim k) s
        = .next ((s.setHead r.head
              { s.head r.head with lease := { (s.head r.head).lease with holder := some k } }).recordDone k c .claim
            { status := .done }).settle)
    ∧ ((s.head r.head).lease.holder = some k →
      exec (.claim k) s
        = .next (s.recordDone k c .claim { status := .done, flags := { alreadyHeld := true } }).settle)
    ∧ ∀ o : StreamId, o ≠ k → (s.head r.head).lease.holder = some o →
      (r.wait = true →
        exec (.claim k) s
          = .next ((s.setHead r.head
                { s.head r.head with
                  lease := { (s.head r.head).lease with
                    waiters := (s.head r.head).lease.waiters
                      ++ [{ ref := headerRef k c
                            remaining := if r.timeout = 0 then none else some r.timeout }] } }).recordHeld k c
              .waitLease).settle)
      ∧ (r.wait = false → ∀ ring : Ring, (s.stream k).ring = some ring → 1 ≤ declaredSlots c.slots →
          declaredSlots c.slots ≤ 4 →
          exec (.claim k) s = .next (s.recordHalted k ring c .claim .claimRefused).settle))
    ∧ ∀ (slots : List (List Byte)) (r : ClaimRecord), claimFields slots = some r ↔
        r.head.val = recordField slots 0x03 1 ∧ (if r.wait = true then 1 else 0) = recordField slots 0x10 1
          ∧ r.timeout = recordField slots 0x12 2

/-- A RELEASE by the holder is DONE; the lease passes to the first waiter, whose CLAIM is DONE, or becomes FREE, and the
staging set is reloaded from the newest unlatched entry or the active set, with the palette where it is dirty. The head
byte of a RELEASE passes exactly where it names a head. -/
def Obligations.ReleaseHandsOn : Prop :=
  (∀ (k : StreamId) (s : State) (c : CurrentRecord) (h : HeadId), s.takeUp k .release = some c →
    headField c.slots = some h → (s.head h).lease.holder = some k →
    ∃ staging : Staging,
      staging.picture
          = (match (s.head h).present.entries.reverse.find? (fun e => e.unlatched) with
            | some e => e.snapshot
            | none => (s.head h).scan.active)
        ∧ staging.palette
          = (if (s.head h).staging.dirty = true then (s.head h).scan.palette else (s.head h).staging.palette)
        ∧ staging.dirty = false ∧ staging.reading = (s.head h).staging.reading
        ∧ ((s.head h).lease.waiters = [] →
            exec (.release k) s
              = .next ((s.recordDone k c .release { status := .done }).setHead h
                  { s.head h with lease := { holder := none, waiters := [] }, staging := staging }).settle)
        ∧ ∀ (w : Waiter) (rest : List Waiter), (s.head h).lease.waiters = w :: rest →
            exec (.release k) s
              = .next (((s.recordDone k c .release { status := .done }).setHead h
                    { s.head h with
                      lease := { holder := some w.ref.stream, waiters := rest }, staging := staging }).finishAs
                  w.ref.stream w.ref 0x10 { status := .done }).settle)
    ∧ ∀ (slots : List (List Byte)) (h : HeadId),
        (headField slots = some h ↔ h.val = recordField slots 0x03 1)
          ∧ (releaseFields slots = some h ↔ h.val = recordField slots 0x03 1)

/-- BANDS, SCROLL and OUTPUT of the holder: the staged table and background replaced whole, the scroll of one staged band,
or the staged mode, nothing else of the head; DONE at once.
Which fields pass: of BANDS 1 to 8 bands, each in the ranges its head's timing gives it and none beginning before the end of
the one before; of SCROLL a staged band and a scroll inside its region; of OUTPUT a mode code. -/
def Obligations.StagingRecordsStage : Prop :=
  (∀ (k : StreamId) (s : State) (c : CurrentRecord) (h : HeadId), (s.head h).lease.holder = some k →
    (∀ (bands : List Band) (background : Pixel), s.takeUp k .bands = some c →
      bandsFields c.slots s.heads = some (h, bands, background) →
      exec (.bands k) s
        = .next ((s.setHead h
              { s.head h with
                staging := { (s.head h).staging with
                  picture := { bands := bands, background := background
                               mode := (s.head h).staging.picture.mode } } }).recordDone k c .bands
            { status := .done }).settle)
    ∧ (∀ index scroll : Nat, s.takeUp k .scroll = some c → scrollFields c.slots s.heads = some (h, index, scroll) →
      ∃ bands : List Band, bands.length = (s.head h).staging.picture.bands.length
        ∧ (∀ i : Nat, i ≠ index → bands[i]? = (s.head h).staging.picture.bands[i]?)
        ∧ (∃ b : Band, (s.head h).staging.picture.bands[index]? = some b ∧ scroll < b.memExtent
            ∧ bands[index]? = some { b with scroll := scroll })
        ∧ exec (.scroll k) s
          = .next ((s.setHead h
                { s.head h with
                  staging := { (s.head h).staging with
                    picture := { (s.head h).staging.picture with bands := bands } } }).recordDone k c .scroll
              { status := .done }).settle)
    ∧ ∀ mode : OutputMode, s.takeUp k .output = some c → outputFields c.slots = some (h, mode) →
      exec (.output k) s
        = .next ((s.setHead h
              { s.head h with
                staging := { (s.head h).staging with
                  picture := { (s.head h).staging.picture with mode := mode } } }).recordDone k c .output
            { status := .done }).settle)
    ∧ (∀ (slots : List (List Byte)) (heads : Two Head) (h : HeadId) (bands : List Band) (background : Pixel),
      bandsFields slots heads = some (h, bands, background) ↔
        h.val = recordField slots 0x03 1 ∧ background = BitVec.ofNat 24 (recordField slots 0x14 4)
          ∧ bands.length = recordField slots 0x10 1 ∧ 1 ≤ bands.length ∧ bands.length ≤ 8
          ∧ (∃ t : Timing, (heads.get h).scan.timing = some t
              ∧ ∀ (k : Nat) (b : Band), bands[k]? = some b →
                  BandPart slots (if k < 3 then 0x18 + 12 * k else 0x40 + 12 * (k - 3)) t b)
          ∧ ∀ (k : Nat) (a b : Band), bands[k]? = some a → bands[k + 1]? = some b →
              a.screenFirst + a.lineCount ≤ b.screenFirst)
    ∧ (∀ (slots : List (List Byte)) (heads : Two Head) (h : HeadId) (index scroll : Nat),
      scrollFields slots heads = some (h, index, scroll) ↔
        h.val = recordField slots 0x03 1 ∧ index = recordField slots 0x10 1 ∧ scroll = recordField slots 0x12 2
          ∧ ∃ b : Band, (heads.get h).staging.picture.bands[index]? = some b ∧ scroll < b.memExtent)
    ∧ ∀ (slots : List (List Byte)) (h : HeadId) (mode : OutputMode),
      outputFields slots = some (h, mode) ↔
        h.val = recordField slots 0x03 1 ∧ mode.code = recordField slots 0x10 1

/-- A PALETTE of the holder is held while an unlatched entry with PAL stands in the head's queue; otherwise its component
read begins, with an empty buffer, and the stream waits for it.
The answers to component reads, in any order (the model's inference, log 17): a component before the last joins the buffer alone; with the last the buffer is written
into the staging palette, palette-dirty set, and the PALETTE is DONE with the components taken and discarded; a bus error
ends it SOURCE_ERROR with the staging palette untouched.
Component `i` written into a palette from entry `start` is the red, green or blue of entry start + i div 3 by i mod 3,
and every other component of every entry keeps its value; a buffer is written component by component.
Which fields pass: a start to 255, a count from 1 to 768, a source that is a multiple of 2. -/
def Obligations.PaletteRecordsAreRead : Prop :=
  (∀ (k : StreamId) (s : State) (c : CurrentRecord) (r : PaletteRecord), s.takeUp k .palette = some c →
      paletteFields c.slots = some r → (s.head r.head).lease.holder = some k →
      ((∃ e ∈ (s.head r.head).present.entries, e.unlatched = true ∧ e.pal = true) →
        exec (.palette k) s = .next (s.recordHeld k c .heldPaletteHazard).settle)
      ∧ ((∀ e ∈ (s.head r.head).present.entries, e.unlatched = true → e.pal = false) →
        exec (.palette k) s
          = .next ((s.setHead r.head
                { s.head r.head with
                  staging := { (s.head r.head).staging with
                    reading := some { ref := headerRef k c, start := r.start, count := r.count
                                      source := r.source, buffer := [] } } }).recordHeld k c .waitPaletteRead).settle))
    ∧ (∀ (h : HeadId) (i : Nat) (word : BitVec 16) (s : State) (r : PaletteRead), s.active = true →
      (s.head h).staging.reading = some r → i < min r.count (3 * (256 - r.start)) → sparseRead r.buffer i = none →
      (r.buffer.length + 1 < min r.count (3 * (256 - r.start)) →
        exec (.paletteReadAnswer h i (.data word)) s
          = .next (s.setHead h
              { s.head h with
                staging := { (s.head h).staging with
                  reading := some { r with buffer := sparseWrite r.buffer i (word.extractLsb' 0 10) } } }))
      ∧ (min r.count (3 * (256 - r.start)) ≤ r.buffer.length + 1 →
        exec (.paletteReadAnswer h i (.data word)) s
          = .next ((s.setHead h
                { s.head h with
                  staging := { (s.head h).staging with
                    palette := (s.head h).staging.palette.writeComponents r.start
                      (sparseWrite r.buffer i (word.extractLsb' 0 10))
                    dirty := true
                    reading := none } }).finishAs r.ref.stream r.ref 0x23
              { status := .done
                valueA := BitVec.ofNat 32 (min r.count (3 * (256 - r.start)))
                valueB := BitVec.ofNat 32 (r.count - min r.count (3 * (256 - r.start)))
                flags := { overrun := decide (min r.count (3 * (256 - r.start)) < r.count)
                           partialEntry := decide (min r.count (3 * (256 - r.start)) % 3 ≠ 0) } }).settle)
      ∧ exec (.paletteReadAnswer h i .busError) s
          = .next ((s.setHead h
                { s.head h with staging := { (s.head h).staging with reading := none } }).finishAs r.ref.stream r.ref 0x23
              { status := .sourceError }).settle)
    ∧ (∀ (p : Palette) (start i : Nat) (v : BitVec 10), start + i / 3 < 256 →
      ∀ n : Fin 256,
        ((p.setComponent start i v).get n).red
            = (if n.val = start + i / 3 ∧ i % 3 = 0 then v else (p.get n).red)
          ∧ ((p.setComponent start i v).get n).green
            = (if n.val = start + i / 3 ∧ i % 3 = 1 then v else (p.get n).green)
          ∧ ((p.setComponent start i v).get n).blue
            = (if n.val = start + i / 3 ∧ i % 3 = 2 then v else (p.get n).blue))
    ∧ (∀ (p : Palette) (start : Nat), p.writeComponents start [] = p
      ∧ ∀ (i : Nat) (v : BitVec 10) (rest : Sparse (BitVec 10)),
          p.writeComponents start ((i, v) :: rest) = (p.setComponent start i v).writeComponents start rest)
    ∧ ∀ (slots : List (List Byte)) (r : PaletteRecord), paletteFields slots = some r ↔
        r.head.val = recordField slots 0x03 1 ∧ r.start = recordField slots 0x10 2 ∧ r.count = recordField slots 0x12 2
          ∧ r.source = BitVec.ofNat 64 (recordField slots 0x18 8) ∧ recordField slots 0x18 8 % 2 = 0
          ∧ r.start ≤ 255 ∧ 1 ≤ r.count ∧ r.count ≤ 768

/-- A PRESENT of the holder adds an entry at the tail of the queue with the staged picture, PAL from palette-dirty, which is
cleared, and the batch counter's value, which is raised; the entry is READY where no job of its batch or an earlier one
stands in the list. With all four places taken it is held QUEUE_FULL. Its fields pass exactly where head and policy are
named. -/
def Obligations.PresentAddsAnEntry : Prop :=
  (∀ (k : StreamId) (s : State) (c : CurrentRecord) (r : PresentRecord), s.takeUp k .present = some c →
    presentFields c.slots = some r → (s.head r.head).lease.holder = some k →
    ((s.head r.head).present.entries.length + (s.head r.head).present.abandoned < 4 →
      exec (.present k) s
        = .next ((s.setStream k { s.stream k with current := none, batch := (s.stream k).batch + 1 }).setHead r.head
            { s.head r.head with
              present := { (s.head r.head).present with
                entries := (s.head r.head).present.entries
                  ++ [{ ref := headerRef k c, policy := r.policy, notBefore := r.notBefore, missed := 0
                        snapshot := (s.head r.head).staging.picture, pal := (s.head r.head).staging.dirty
                        batch := (s.stream k).batch
                        state :=
                          if s.jobs.any (fun j => decide (j.ref.stream = k)
                              && decide (((s.stream k).batch + 1 - (s.stream k).batch).toNat
                                ≤ ((s.stream k).batch + 1 - j.batch).toNat)) = true
                          then .waiting else .ready }] }
              staging := { (s.head r.head).staging with dirty := false } }).settle)
    ∧ (4 ≤ (s.head r.head).present.entries.length + (s.head r.head).present.abandoned →
      exec (.present k) s = .next (s.recordHeld k c .heldQueueFull).settle))
    ∧ ∀ (slots : List (List Byte)) (r : PresentRecord), presentFields slots = some r ↔
        r.head.val = recordField slots 0x03 1 ∧ (if r.policy = .latest then 1 else 0) = recordField slots 0x10 1
          ∧ r.notBefore = BitVec.ofNat 32 (recordField slots 0x14 4)

/-- A LINK of the holder: it supersedes a pending LINK and takes the completions held; the target already reached it is
DONE at once; in a step it sets the target alone and becomes the pending LINK; OFF it starts POWERING, ON it starts
DARKENING with the backlight dark, and the LIGHT so superseded is then held by the Link Controller (the model's inference,
log 16).
With a supply delay of 0 the link passes from OFF through POWERING into SIGNALLING, and with a signal delay of 0 too into ON,
where the LINK is DONE; with a light delay of 0 it passes from ON through DARKENING into QUIESCING, where the scan stops (other
passages through delays of 0 are left out here). Which head and target codes pass. -/
def Obligations.LinkRecordsSetTheTarget : Prop :=
  (∀ (k : StreamId) (s : State) (c : CurrentRecord) (h : HeadId) (target : LinkTarget), s.takeUp k .link = some c →
    linkFields c.slots = some (h, target) → (s.head h).lease.holder = some k →
    ∃ handed : List Completion,
      handed = (s.head h).link.held
          ++ (match (s.head h).link.pending with
            | some old => [completionOf old 0x30 { status := .superseded } none]
            | none => [])
        ∧ (((s.head h).link.state = .off ∧ target = .off ∨ (s.head h).link.state = .on ∧ target = .on) →
          exec (.link k) s
            = .next ((s.setHead h
                  { s.head h with
                    link := { (s.head h).link with target := target, pending := none, held := [] } }).setStream k
                { s.stream k with
                  current := none
                  kept := (s.stream k).kept ++ (handed
                    ++ report (headerRef k c) 0x30 { status := .done }) }).settle)
        ∧ ((s.head h).link.state ≠ .off → (s.head h).link.state ≠ .on →
          exec (.link k) s
            = .next ((s.setHead h
                  { s.head h with
                    link := { (s.head h).link with
                      target := target, pending := some (headerRef k c), held := [] } }).setStream k
                { s.stream k with current := none, kept := (s.stream k).kept ++ handed }).settle)
        ∧ (∀ d : Delays, (s.head h).link.state = .off → target = .on → (s.head h).link.delays = some d → 0 < d.supply →
          exec (.link k) s
            = .next ((s.setHead h
                  { s.head h with
                    link := { (s.head h).link with
                      state := .powering, timer := some d.supply, target := .on
                      pending := some (headerRef k c), held := [] } }).setStream k
                { s.stream k with current := none, kept := (s.stream k).kept ++ handed }).settle)
        ∧ (∀ d : Delays, (s.head h).link.state = .off → target = .on → (s.head h).link.delays = some d → d.supply = 0 →
          (0 < d.signal →
            exec (.link k) s
              = .next ((s.setHead h
                    { s.head h with
                      scan := (s.head h).scan.beginLine 0
                      link := { (s.head h).link with
                        state := .signalling, timer := some d.signal, target := .on
                        pending := some (headerRef k c), held := [] } }).setStream k
                  { s.stream k with current := none, kept := (s.stream k).kept ++ handed }).settle)
          ∧ (d.signal = 0 →
            exec (.link k) s
              = .next ({ s.setHead h
                    { s.head h with
                      scan := (s.head h).scan.beginLine 0
                      link := { (s.head h).link with
                        state := .on, timer := none, target := .on, pending := none, held := [] }
                      light :=
                        if (s.head h).light.dim = true ∧ (s.head h).light.target ≠ 0 then
                          { (s.head h).light with level := 0, ramping := true }
                        else { (s.head h).light with level := (s.head h).light.target, ramping := false } } with
                    regs := { s.regs with cause := s.regs.cause ||| (0x010#9 <<< h.val) } }.setStream k
                  { s.stream k with
                    current := none
                    kept := (s.stream k).kept ++ (handed
                      ++ report (headerRef k c) 0x30 { status := .done }) }).settle))
        ∧ (∀ d : Delays, (s.head h).link.state = .on → target = .off → (s.head h).link.delays = some d → d.light = 0 →
          0 < d.signal →
          ∃ u : State,
            u = (s.setHead h
                  { s.head h with
                    scan := { (s.head h).scan with sent := [], shown := [] }
                    link := { (s.head h).link with
                      state := .quiescing, timer := some d.signal, target := .off, pending := none
                      held := (match (s.head h).light.pending with
                        | some old =>
                          [completionOf old 0x31
                            { status := .superseded, valueA := BitVec.ofNat 32 (s.head h).light.level } none]
                        | none => []) }
                    light := { (s.head h).light with level := 0, ramping := false, pending := none } }).scanStopped h
              ∧ exec (.link k) s
                = .next ((u.setHead h
                      { u.head h with
                        link := { (u.head h).link with pending := some (headerRef k c) } }).setStream k
                    { u.stream k with current := none, kept := (u.stream k).kept ++ handed }).settle)
        ∧ ∀ d : Delays, (s.head h).link.state = .on → target = .off → (s.head h).link.delays = some d → 0 < d.light →
          exec (.link k) s
            = .next ((s.setHead h
                  { s.head h with
                    link := { (s.head h).link with
                      state := .darkening, timer := some d.light, target := .off
                      pending := some (headerRef k c)
                      held := (match (s.head h).light.pending with
                        | some old =>
                          [completionOf old 0x31
                            { status := .superseded, valueA := BitVec.ofNat 32 (s.head h).light.level } none]
                        | none => []) }
                    light := { (s.head h).light with level := 0, ramping := false, pending := none } }).setStream k
                { s.stream k with current := none, kept := (s.stream k).kept ++ handed }).settle)
    ∧ ∀ (slots : List (List Byte)) (h : HeadId) (target : LinkTarget), linkFields slots = some (h, target) ↔
        h.val = recordField slots 0x03 1 ∧ (if target = .on then 1 else 0) = recordField slots 0x10 1

/-- A LIGHT of the holder stores target, dim and step and supersedes a pending LIGHT at the level that stands; outside ON it
is DONE with value 0; in ON without dim the level is set at once, at the target it is DONE, and else it ramps and becomes
the pending LIGHT. Which fields pass: any target level, a dim code of 0 or 1, a step above 0. -/
def Obligations.LightRecordsSetTheLevel : Prop :=
  (∀ (k : StreamId) (s : State) (c : CurrentRecord) (r : LightRecord), s.takeUp k .light = some c →
    lightFields c.slots = some r → (s.head r.head).lease.holder = some k →
    ∃ handed : List Completion,
      handed = (s.head r.head).link.held
          ++ (match (s.head r.head).light.pending with
            | some old =>
              [completionOf old 0x31
                { status := .superseded, valueA := BitVec.ofNat 32 (s.head r.head).light.level } none]
            | none => [])
        ∧ ∃ (light : Light) (own : List Completion),
          light.target = r.target ∧ light.dim = r.dim ∧ light.step = r.step
            ∧ ((s.head r.head).link.state ≠ .on →
                light.level = (s.head r.head).light.level ∧ light.ramping = (s.head r.head).light.ramping
                  ∧ light.pending = none
                  ∧ own = report (headerRef k c) 0x31 { status := .done, valueA := 0 })
            ∧ ((s.head r.head).link.state = .on →
                (r.dim = false ∨ (s.head r.head).light.level = r.target →
                  light.level = r.target ∧ light.ramping = false ∧ light.pending = none
                    ∧ own = report (headerRef k c) 0x31
                        { status := .done, valueA := BitVec.ofNat 32 r.target })
                ∧ (r.dim = true → (s.head r.head).light.level ≠ r.target →
                  light.level = (s.head r.head).light.level ∧ light.ramping = true
                    ∧ light.pending = some (headerRef k c) ∧ own = []))
            ∧ exec (.light k) s
              = .next ((s.setHead r.head
                    { s.head r.head with
                      light := light, link := { (s.head r.head).link with held := [] } }).setStream k
                  { s.stream k with current := none, kept := (s.stream k).kept ++ (handed ++ own) }).settle)
    ∧ ∀ (slots : List (List Byte)) (r : LightRecord), lightFields slots = some r ↔
        r.head.val = recordField slots 0x03 1 ∧ r.target = recordField slots 0x10 1
          ∧ (if r.dim = true then 1 else 0) = recordField slots 0x11 1 ∧ r.step = recordField slots 0x12 1 ∧ 1 ≤ r.step

/-- A WAIT whose condition holds is DONE at once, with the frame counter for FRAME and NOT_SCANNING where the head does not
scan; otherwise the stream waits. A NOTE is DONE at once. Which forms pass: FRAME and RETIRED with a head, JOBS. -/
def Obligations.WaitsAndNotes : Prop :=
  (∀ (k : StreamId) (s : State) (c : CurrentRecord),
    (s.takeUp k .note = some c → exec (.note k) s = .next (s.recordDone k c .note { status := .done }).settle)
    ∧ (∀ (h : HeadId) (f : Word), s.takeUp k .wait = some c → waitFields c.slots = some (.frame h f) →
      ((s.head h).scanning = false →
        exec (.wait k) s
          = .next (s.recordDone k c .wait
              { status := .done, valueA := (s.head h).scan.frame, flags := { notScanning := true } }).settle)
      ∧ ((s.head h).scanning = true → f.toNat ≤ (s.head h).scan.frame.toNat →
        exec (.wait k) s
          = .next (s.recordDone k c .wait { status := .done, valueA := (s.head h).scan.frame }).settle)
      ∧ ((s.head h).scanning = true → (s.head h).scan.frame.toNat < f.toNat →
        exec (.wait k) s = .next (s.recordHeld k c .waitCondition).settle))
    ∧ (∀ h : HeadId, s.takeUp k .wait = some c → waitFields c.slots = some (.retired h) →
      ((∀ e ∈ (s.head h).present.entries, e.ref.stream ≠ k) →
        exec (.wait k) s = .next (s.recordDone k c .wait { status := .done }).settle)
      ∧ ((∃ e ∈ (s.head h).present.entries, e.ref.stream = k) →
        exec (.wait k) s = .next (s.recordHeld k c .waitCondition).settle))
    ∧ (s.takeUp k .wait = some c → waitFields c.slots = some .jobs →
      ((∀ j ∈ s.jobs, j.ref.stream ≠ k) →
        exec (.wait k) s = .next (s.recordDone k c .wait { status := .done }).settle)
      ∧ ((∃ j ∈ s.jobs, j.ref.stream = k) →
        exec (.wait k) s = .next (s.recordHeld k c .waitCondition).settle)))
    ∧ ∀ slots : List (List Byte),
        (∀ (h : HeadId) (f : Word), waitFields slots = some (.frame h f) ↔
          recordField slots 0x10 1 = 0 ∧ h.val = recordField slots 0x03 1
            ∧ f = BitVec.ofNat 32 (recordField slots 0x14 4))
        ∧ (∀ h : HeadId, waitFields slots = some (.retired h) ↔
          recordField slots 0x10 1 = 1 ∧ h.val = recordField slots 0x03 1)
        ∧ (waitFields slots = some .jobs ↔ recordField slots 0x10 1 = 2)

/-! ## The engine -/

/-- A gate evaluated: bypassed where its head does not scan; on a scanning head its target is fixed, with the frame counter
added for RELATIVE, and the gate opens where the scan position has reached it. Evaluation is made once.
The engine's choice: the oldest QUEUED job with no older job of its own stream in the list and no CLOSED gate; it
answers none exactly where there is no such job. The free engine of a RUNNING device makes that job RUNNING and starts it.
The start: a WINDOW job writes its window into its context, the cursor at the start corner, and ends DONE; another job ends
NO_WINDOW on an UNSET context, and else begins in mode NEW at the start corner, in CONTINUE where the cursor stands, with its
first pixel, or ends at an ENDED cursor, with all its count as overrun. -/
def Obligations.GatesAndTheEnginesChoice : Prop :=
  (∀ (j : Job) (g : Gate) (heads : Two Head), j.gate = some g → j.gateState = .closed → j.state = .queued →
      (j.target ≠ none → j.evaluateGate heads = j)
      ∧ (j.target = none →
        ((heads.get g.head).scanning = false →
          j.evaluateGate heads = { j with gateState := .opened, bypassed := true })
        ∧ ((heads.get g.head).scanning = true →
          ∃ f : Word, f = (if g.relative = true then (heads.get g.head).scan.frame + g.frame else g.frame)
            ∧ j.evaluateGate heads
              = { j with
                  target := some (f, g.line)
                  gateState :=
                    if f.toNat < (heads.get g.head).scan.frame.toNat
                        ∨ (f = (heads.get g.head).scan.frame ∧ g.line ≤ (heads.get g.head).scan.line)
                    then .opened else .closed })))
    ∧ (∀ jobs : List Job,
      (∀ (before after : List Job) (j : Job), jobs = before ++ j :: after → j.state = .queued → j.gateState ≠ .closed →
        (∀ i ∈ before, i.ref.stream ≠ j.ref.stream) →
        (∀ (b a : List Job) (i : Job), before = b ++ i :: a →
          ¬ (i.state = .queued ∧ i.gateState ≠ .closed ∧ ∀ q ∈ b, q.ref.stream ≠ i.ref.stream)) →
        runOldestEligible [] jobs = some (before ++ { j with state := .running } :: after))
      ∧ (runOldestEligible [] jobs = none →
        ∀ (before after : List Job) (j : Job), jobs = before ++ j :: after →
          ¬ (j.state = .queued ∧ j.gateState ≠ .closed ∧ ∀ i ∈ before, i.ref.stream ≠ j.ref.stream)))
    ∧ (∀ s : State,
      (s.regs.device ≠ .running ∨ s.jobs.any Job.holdsEngine = true ∨ runOldestEligible [] s.jobs = none →
        s.engineChoose = none)
      ∧ ∀ jobs : List Job, s.regs.device = .running → s.jobs.any Job.holdsEngine = false →
          runOldestEligible [] s.jobs = some jobs →
          s.engineChoose
            = some ({ s with
                jobs := jobs
                engine := { processed := 0, written := 0, phase := .idle, ahead := [] } } : State).startJob)
    ∧ ∀ (s : State) (j : Job), s.runningJob = some j → s.engine.processed = 0 → s.engine.written = 0 →
      (∀ (c : ContextId) (w : Window), j.work = .window c w →
        s.startJob = (s.setContext j.ref.stream c (.set w (some w.corner))).endJob { status := .done })
      ∧ ((∀ (c : ContextId) (w : Window), j.work ≠ .window c w) →
        (s.context j.ref.stream j.work.context = .unset → s.startJob = s.failJob .noWindow 0)
        ∧ ∀ (w : Window) (p : Option Position), s.context j.ref.stream j.work.context = .set w p →
          ∃ (q : Option Position) (u : State),
            q = (if j.work.mode = .fresh then some w.corner else p)
              ∧ u = s.setContext j.ref.stream j.work.context (.set w q)
              ∧ (q ≠ none → (∀ n : Nat, j.work.count? = some n → 1 ≤ n) →
                s.startJob = { u with engine := { u.engine with phase := j.work.nextPhase } })
              ∧ (q = none → j.work.count? = none →
                s.startJob = u.endJob { status := .done, flags := { gateBypassed := j.bypassed } })
              ∧ ∀ n : Nat, q = none → j.work.count? = some n → 1 ≤ n →
                s.startJob
                  = u.endJob { status := .done, valueB := BitVec.ofNat 32 n
                               flags := { overrun := true, gateBypassed := j.bypassed } })

/-- The memory port serves the engine's write of a pixel: the pixel at the cursor takes the value, the cursor steps, the
pixel counts as processed and written; then the next pixel is begun, or the job ends: at its count, or at an ENDED cursor
with the overrun. -/
def Obligations.ServedWritesProcessPixels : Prop :=
  ∀ (s : State) (p : Pixel) (j : Job) (w : Window) (pos : Position), s.active = true → s.engine.phase = .write p →
    s.runningJob = some j → s.context j.ref.stream j.work.context = .set w (some pos) →
    ∃ u : State,
      u = { s.setContext j.ref.stream j.work.context (.set w (w.stepFrom pos)) with
            panel := s.panel.write pos.cell p
            engine := { s.engine with
              processed := s.engine.processed + 1, written := s.engine.written + 1, phase := .idle } }
        ∧ (∀ n : Nat, j.work.count? = some n →
          (n ≤ s.engine.processed + 1 →
            exec .engineAccessServed s
              = .next (u.endJob
                  { status := .done, valueA := BitVec.ofNat 32 (s.engine.written + 1)
                    flags := { gateBypassed := j.bypassed } }).settle)
          ∧ (s.engine.processed + 1 < n → w.stepFrom pos = none →
            exec .engineAccessServed s
              = .next (u.endJob
                  { status := .done, valueA := BitVec.ofNat 32 (s.engine.written + 1)
                    valueB := BitVec.ofNat 32 (n - (s.engine.processed + 1))
                    flags := { overrun := true, gateBypassed := j.bypassed } }).settle)
          ∧ (s.engine.processed + 1 < n → w.stepFrom pos ≠ none →
            exec .engineAccessServed s
              = .next { u with engine := { u.engine with phase := j.work.nextPhase } }.settle))
        ∧ (j.work.count? = none →
          (w.stepFrom pos = none →
            exec .engineAccessServed s
              = .next (u.endJob
                  { status := .done, valueA := BitVec.ofNat 32 (s.engine.written + 1)
                    flags := { gateBypassed := j.bypassed } }).settle)
          ∧ (w.stepFrom pos ≠ none →
            exec .engineAccessServed s
              = .next { u with engine := { u.engine with phase := j.work.nextPhase } }.settle))

/-- The source pixels of a TRANSFER in a settled part: the answer for the next pixel is widened and presented for writing,
or, where the key skips it, passed over with the cursor stepped, where the job may end: at its count, or at an ENDED cursor
with the overrun; answers that have come in for later pixels are then taken in their turn; the answer for a later pixel is kept until its turn (the model's inference, log 17). -/
def Obligations.SourceAnswersAreTaken : Prop :=
  ∀ (s : State) (word : Word) (n : Nat) (j : Job) (c : ContextId) (m : Mode) (source : Address) (f : Format)
    (count : Nat) (run : Option Run) (key : Option Key) (w : Window) (pos : Position), s.quiescent →
    s.active = true → s.engine.phase = .source → s.runningJob = some j →
    j.work = .transfer c m source f count run key → s.context j.ref.stream c = .set w (some pos) →
    s.sourceExpected n = true →
    (n = s.engine.processed + 1 → keySkips key (widenPixel f word) = false →
      exec (.sourceReadAnswer n (.data word)) s
        = .next { s with engine := { s.engine with phase := .write (widenPixel f word) } })
    ∧ (n = s.engine.processed + 1 → keySkips key (widenPixel f word) = true → s.engine.ahead = [] →
      s.engine.processed + 1 < count → w.stepFrom pos ≠ none →
      exec (.sourceReadAnswer n (.data word)) s
        = .next { s.setContext j.ref.stream c (.set w (w.stepFrom pos)) with
            engine := { s.engine with processed := s.engine.processed + 1 } })
    ∧ (n = s.engine.processed + 1 → keySkips key (widenPixel f word) = true → s.engine.processed + 1 < count →
      w.stepFrom pos ≠ none →
      ∃ u : State,
        u = { s.setContext j.ref.stream c (.set w (w.stepFrom pos)) with
              engine := { s.engine with processed := s.engine.processed + 1 } }
          ∧ exec (.sourceReadAnswer n (.data word)) s = .next u.settle
          ∧ (sparseRead s.engine.ahead (n + 1) = none → u.takeAhead = none)
          ∧ (∀ answer : Option Word, sparseRead s.engine.ahead (n + 1) = some answer →
            ∃ v : State,
              v = { u with engine := { u.engine with ahead := sparseErase s.engine.ahead (n + 1) } }
                ∧ u.react = u.takeAhead
                ∧ (answer = none → u.takeAhead = some (v.failJob .sourceError s.engine.written))
                ∧ ∀ next : Word, answer = some next →
                  (keySkips key (widenPixel f next) = false →
                    u.takeAhead = some { v with engine := { v.engine with phase := .write (widenPixel f next) } })
                  ∧ (keySkips key (widenPixel f next) = true → u.takeAhead = some (v.pixelDone false).nextPixel)))
    ∧ (n = s.engine.processed + 1 → keySkips key (widenPixel f word) = true →
      ∃ u : State,
        u = { s.setContext j.ref.stream c (.set w (w.stepFrom pos)) with
              engine := { s.engine with processed := s.engine.processed + 1, phase := .idle } }
          ∧ (count ≤ s.engine.processed + 1 →
            exec (.sourceReadAnswer n (.data word)) s
              = .next (u.endJob
                  { status := .done, valueA := BitVec.ofNat 32 s.engine.written
                    flags := { gateBypassed := j.bypassed } }).settle)
          ∧ (s.engine.processed + 1 < count → w.stepFrom pos = none →
            exec (.sourceReadAnswer n (.data word)) s
              = .next (u.endJob
                  { status := .done, valueA := BitVec.ofNat 32 s.engine.written
                    valueB := BitVec.ofNat 32 (count - (s.engine.processed + 1))
                    flags := { overrun := true, gateBypassed := j.bypassed } }).settle))
    ∧ (n ≠ s.engine.processed + 1 →
      exec (.sourceReadAnswer n (.data word)) s
        = .next { s with engine := { s.engine with ahead := sparseWrite s.engine.ahead n (some word) } })

/-- A READBACK: the served read presents the raw pixel at the cursor as the write of the next word, at the destination address
of its pixel number, in four bytes, the least significant (blue) lowest and the highest zero, nothing else changed; the
accepted word processes the pixel, and panel memory is unchanged. The word read back as a source pixel of format X8R8G8B8 is
the same pixel. -/
def Obligations.ReadbackWordsAreWritten : Prop :=
  ∀ (s : State) (j : Job) (c : ContextId) (m : Mode) (destination : Address) (count : Nat) (w : Window)
    (pos : Position), s.active = true → s.runningJob = some j → j.work = .readback c m destination count →
    s.context j.ref.stream c = .set w (some pos) →
    (s.engine.phase = .read →
      exec .engineAccessServed s
        = .next { s with
            engine := { s.engine with
              phase := .word
                { address := destination + BitVec.ofNat 64 (4 * s.engine.processed)
                  bytes := [(s.panel.read pos.cell).extractLsb' 0 8, (s.panel.read pos.cell).extractLsb' 8 8
                    , (s.panel.read pos.cell).extractLsb' 16 8, 0] } } })
    ∧ (∀ p : Pixel, (readbackWord p).extractLsb' 24 8 = 0 ∧ (readbackWord p).extractLsb' 0 24 = p
      ∧ fieldAt (readbackBytes p) 0 4 = (readbackWord p).toNat
      ∧ widenPixel .x8r8g8b8 (BitVec.ofNat 32 (fieldAt (readbackBytes p) 0 4)) = p)
    ∧ ∀ write : HostWrite, s.engine.phase = .word write →
      ∃ u : State,
        u = { s.setContext j.ref.stream c (.set w (w.stepFrom pos)) with
              engine := { s.engine with
                processed := s.engine.processed + 1, written := s.engine.written + 1, phase := .idle } }
          ∧ (count ≤ s.engine.processed + 1 →
            exec (.readbackWordAnswer .accepted) s
              = .next (u.endJob
                  { status := .done, valueA := BitVec.ofNat 32 (s.engine.written + 1)
                    flags := { gateBypassed := j.bypassed } }).settle)
          ∧ (s.engine.processed + 1 < count → w.stepFrom pos = none →
            exec (.readbackWordAnswer .accepted) s
              = .next (u.endJob
                  { status := .done, valueA := BitVec.ofNat 32 (s.engine.written + 1)
                    valueB := BitVec.ofNat 32 (count - (s.engine.processed + 1))
                    flags := { overrun := true, gateBypassed := j.bypassed } }).settle)
          ∧ (s.engine.processed + 1 < count → w.stepFrom pos ≠ none →
            exec (.readbackWordAnswer .accepted) s
              = .next { u with engine := { u.engine with phase := .read } }.settle)

/-- A bus error on the next source pixel or on a READBACK word halts the job's stream at the slot after the job's record:
its current record is dropped, its contexts and leases stay, its other jobs are ENDED, its unlatched entries of the failed
batch and later ones are gone, its waiting CLAIM and palette read are withdrawn.
What such an end is: the job is ENDED with the status, or with CANCELLED where its stream is already HALTED, with the pixels
written as value A; the stream's QUEUED jobs are ENDED CANCELLED, with GATE_BYPASSED where their gate was bypassed (the
model's reading, log 12); its unlatched entries of the failed batch and later ones
leave their queues with ABANDONED completions, placed in queue order (the model's choice, log 28); a stream already HALTED
keeps its halt point, current record and indices. A pending LINK or LIGHT of the stream among the slots from the halt point up
to where the fetch index stood is marked as one whose slot is read again (the model's own, log 27). -/
def Obligations.JobErrorsHaltTheStream : Prop :=
  (∀ (s : State) (j : Job) (r : Ring) (i : Instr), s.quiescent → s.active = true → s.oneEngineJob →
    s.runningJob = some j → (s.stream j.ref.stream).ring = some r → (s.stream j.ref.stream).halt = none →
    (i = .readbackWordAnswer .busError ∧ (∃ write : HostWrite, s.engine.phase = .word write)
      ∨ i = .sourceReadAnswer (s.engine.processed + 1) .busError ∧ s.engine.phase = .source
        ∧ s.sourceExpected (s.engine.processed + 1) = true) →
    ∃ t : State, exec i s = .next t ∧ t = (s.failJob .sourceError s.engine.written).settle
      ∧ (t.stream j.ref.stream).halt = some ((j.ref.ringIndex + j.slots) % r.size)
      ∧ (t.stream j.ref.stream).ring = some { r with fetch := (j.ref.ringIndex + j.slots) % r.size }
      ∧ (t.stream j.ref.stream).current = none ∧ (t.stream j.ref.stream).batch = (s.stream j.ref.stream).batch
      ∧ (∀ c : ContextId, t.context j.ref.stream c = s.context j.ref.stream c)
      ∧ (∀ q ∈ t.jobs, q.ref.stream = j.ref.stream → q.isEnded = true)
      ∧ (∀ a : Nat, t.panel.read a = s.panel.read a)
      ∧ ∀ h : HeadId,
          (t.head h).lease.holder = (s.head h).lease.holder
            ∧ (∀ w ∈ (t.head h).lease.waiters, w.ref.stream ≠ j.ref.stream)
            ∧ (∀ p : PaletteRead, (t.head h).staging.reading = some p → p.ref.stream ≠ j.ref.stream)
            ∧ ∀ e ∈ (t.head h).present.entries, e.ref.stream = j.ref.stream → e.unlatched = true →
                ((s.stream j.ref.stream).batch - e.batch).toNat > ((s.stream j.ref.stream).batch - j.batch).toNat)
    ∧ ∀ (s : State) (j : Job) (status : Status) (written : Nat), s.runningJob = some j →
      ∃ (t : State) (gone : Entry → Bool), s.failJob status written = t
        ∧ (∀ e : Entry, gone e = true ↔ e.unlatched = true ∧ e.ref.stream = j.ref.stream
            ∧ ((s.stream j.ref.stream).batch - e.batch).toNat ≤ ((s.stream j.ref.stream).batch - j.batch).toNat)
        ∧ t.jobs
          = s.jobs.map (fun q =>
              if q.state = .running then
                { q with
                  state := .ended
                    { status := if (s.stream j.ref.stream).halt = none then status else .cancelled
                      valueA := BitVec.ofNat 32 written, flags := { gateBypassed := j.bypassed } } true }
              else if q.state = .queued ∧ q.ref.stream = j.ref.stream then
                { q with
                  state := .ended { status := .cancelled, flags := { gateBypassed := q.bypassed } } false }
              else q)
        ∧ t.contexts = s.contexts ∧ t.panel = s.panel
        ∧ t.engine = { processed := 0, written := 0, phase := .idle, ahead := [] }
        ∧ ((s.stream j.ref.stream).halt ≠ none → t.streams = s.streams)
        ∧ (∀ r : Ring, (s.stream j.ref.stream).halt = none → (s.stream j.ref.stream).ring = some r →
          t.streams
            = s.streams.set j.ref.stream
                { s.stream j.ref.stream with
                  current := none
                  ring := some { r with fetch := (j.ref.ringIndex + j.slots) % r.size }
                  halt := some ((j.ref.ringIndex + j.slots) % r.size) })
        ∧ ∀ h : HeadId,
            (∀ ref : RecordRef, (s.head h).link.pending = some ref ∨ (s.head h).light.pending = some ref →
              ∃ again : Bool,
                (again = true ↔ ref.stream = j.ref.stream ∧ (s.stream j.ref.stream).halt = none
                  ∧ ∃ r : Ring, (s.stream j.ref.stream).ring = some r
                    ∧ (ref.ringIndex + r.size - (j.ref.ringIndex + j.slots) % r.size) % r.size
                      < (r.fetch + r.size - (j.ref.ringIndex + j.slots) % r.size) % r.size)
                ∧ ((s.head h).link.pending = some ref →
                  (t.head h).link.pending = some { ref with rewound := again || ref.rewound })
                ∧ ((s.head h).light.pending = some ref →
                  (t.head h).light.pending = some { ref with rewound := again || ref.rewound }))
            ∧ (t.head h).present.entries = (s.head h).present.entries.filter (fun e => !gone e)
              ∧ (t.head h).present.outbox
                = (s.head h).present.outbox
                  ++ ((s.head h).present.entries.filter gone).map (fun e =>
                      completionOf e.ref 0x24 { status := .abandoned, valueB := BitVec.ofNat 32 e.missed } (some h))

/-! ## Presentation -/

/-- A latch step: the prefix is the run of ready entries, each past its not-before frame, from the oldest unlatched entry
on; the target is its first entry, moved on while the next is LATEST (so of QUEUE, QUEUE, LATEST it is the first, the
model's choice between R117 and R118, log 31); the entries moved from are SKIPPED; the target's snapshot becomes the active set, with the staging palette where one of them carries PAL. With an empty prefix the oldest
unlatched entry's missed count is raised, to 255 at most, and nothing else changes.
The same step where the oldest unlatched entry cannot be taken: its missed count alone is raised.
A step of the immediate evaluation: the same with every READY entry eligible whatever its not-before frame, with NOT_SCANNING
on the target and each skipped entry, so that the target's completion is never suppressed; and where the oldest unlatched
entry is not READY nothing changes. -/
def Obligations.LatchStepsTakeTheTarget : Prop :=
  (∀ (hd : Head) (h : HeadId) (settled skipped rest : List Entry) (target : Entry),
      (∀ e ∈ settled, e.unlatched = false) →
      (∀ e ∈ skipped ++ [target], e.state = .ready
        ∧ (e.notBefore = 0 ∨ e.notBefore.toNat ≤ hd.scan.frame.toNat)) →
      (∀ e ∈ (skipped ++ [target]).tail, e.policy = .latest) →
      (∀ e ∈ rest.head?, ¬ (e.policy = .latest ∧ e.state = .ready
        ∧ (e.notBefore = 0 ∨ e.notBefore.toNat ≤ hd.scan.frame.toNat))) →
      hd.present.entries = settled ++ skipped ++ target :: rest →
      ∃ (copies : Bool) (flags : Flags), (copies = true ↔ ∃ e ∈ skipped ++ [target], e.pal = true)
        ∧ flags = { palette := copies }
        ∧ hd.latchStep h .blanking
          = { hd with
              present := { hd.present with
                entries := settled ++ skipped.map (fun e => { e with state := .skipped })
                  ++ (if target.ref.silent = true ∧ copies = false then [] else [{ target with state := .latched }])
                  ++ rest
                outbox := hd.present.outbox
                  ++ skipped.map (fun e => completionOf e.ref 0x24
                      { status := .skipped, valueA := hd.scan.frame, valueB := BitVec.ofNat 32 e.missed } (some h))
                  ++ report target.ref 0x24
                      { status := .done, valueA := hd.scan.frame, valueB := BitVec.ofNat 32 target.missed
                        flags := flags } (some h) }
              scan := { hd.scan with
                active := target.snapshot
                palette := if copies = true then hd.staging.palette else hd.scan.palette } })
    ∧ (∀ (hd : Head) (h : HeadId) (settled rest : List Entry) (first : Entry),
      (∀ e ∈ settled, e.unlatched = false) → first.unlatched = true →
      ¬ (first.state = .ready ∧ (first.notBefore = 0 ∨ first.notBefore.toNat ≤ hd.scan.frame.toNat)) →
      hd.present.entries = settled ++ first :: rest →
      hd.latchStep h .blanking
        = { hd with
            present := { hd.present with
              entries := settled ++ { first with missed := if first.missed < 255 then first.missed + 1 else 255 } :: rest } })
    ∧ (∀ (hd : Head) (h : HeadId) (settled skipped rest : List Entry) (target : Entry),
      (∀ e ∈ settled, e.unlatched = false) → (∀ e ∈ skipped ++ [target], e.state = .ready) →
      (∀ e ∈ (skipped ++ [target]).tail, e.policy = .latest) →
      (∀ e ∈ rest.head?, ¬ (e.policy = .latest ∧ e.state = .ready)) →
      hd.present.entries = settled ++ skipped ++ target :: rest →
      ∃ copies : Bool, (copies = true ↔ ∃ e ∈ skipped ++ [target], e.pal = true)
        ∧ hd.latchStep h .immediate
          = { hd with
              present := { hd.present with
                entries := settled ++ skipped.map (fun e => { e with state := .skipped })
                  ++ { target with state := .latched } :: rest
                outbox := hd.present.outbox
                  ++ skipped.map (fun e => completionOf e.ref 0x24
                      { status := .skipped, valueA := hd.scan.frame, valueB := BitVec.ofNat 32 e.missed
                        flags := { notScanning := true } } (some h))
                  ++ [completionOf target.ref 0x24
                      { status := .done, valueA := hd.scan.frame, valueB := BitVec.ofNat 32 target.missed
                        flags := { notScanning := true, palette := copies } } (some h)] }
              scan := { hd.scan with
                active := target.snapshot
                palette := if copies = true then hd.staging.palette else hd.scan.palette } })
    ∧ ∀ (hd : Head) (h : HeadId) (settled rest : List Entry),
      (∀ e ∈ settled, e.unlatched = false) → (∀ e ∈ rest.head?, e.unlatched = true ∧ e.state ≠ .ready) →
      hd.present.entries = settled ++ rest → hd.latchStep h .immediate = hd

/-- A line start of a scanning head: the line before has ended whole, its waiting scan reads served at this event from panel
memory as it stands (the model's choice, log 15), the next begins, or line 0 after the last, and the gates whose target is
reached open, in FAULT too (the model's choice, log 19). At line V_ACT the frame counter is raised, the head's latch step and
ramp step are made, in FAULT neither, and its FRAME cause is set where the Setup Table enables it. What a gate that opens
there brings about (jobs that start, end and are removed, one after another) comes before the latch step, in part or whole,
or after it: how many of the reactions come first is free (the model's choice, log 2).
The gates that open: exactly the CLOSED ones on the head with a fixed target that the scan position has reached. -/
def Obligations.LineStartsMoveTheScan : Prop :=
  (∀ (h : HeadId) (s : State) (timing : Timing), (s.head h).scanning = true → (s.head h).scan.timing = some timing →
    ∃ (line : Nat) (sc : Scan) (moved : State),
      line = (if (s.head h).scan.line + 1 < timing.vAct + timing.vBlank then (s.head h).scan.line + 1 else 0)
        ∧ sc
          = ({ (s.head h).scan with
              frame := if line = timing.vAct then (s.head h).scan.frame + 1 else (s.head h).scan.frame
              shown := (s.head h).scan.wholeLine s.panel } : Scan).beginLine line
        ∧ moved = { s.setHead h { s.head h with scan := sc } with jobs := openGates h sc s.jobs }
        ∧ (line ≠ timing.vAct → exec (.lineStart h) s = .next moved.settle)
        ∧ (line = timing.vAct →
          ∃ (u : State) (cause : Causes),
            (openGates h sc s.jobs = s.jobs → u = moved)
              ∧ (openGates h sc s.jobs ≠ s.jobs →
                ∃ n : Nat, n ≤ moved.workLeft
                  ∧ (moved.workLeft = 0 ∧ u = moved
                    ∨ 0 < moved.workLeft ∧ u = ({ moved with choices := moved.choices + 1 } : State).settleFor n))
              ∧ (cause = if timing.frameCause = true then u.regs.cause ||| (0x004#9 <<< h.val) else u.regs.cause)
              ∧ exec (.lineStart h) s
                = .next { u.setHead h
                      (if s.regs.device = Device.fault then u.head h
                      else ((u.head h).latchStep h .blanking).ramp) with
                    regs := { u.regs with cause := cause } }.settle))
    ∧ ∀ (h : HeadId) (sc : Scan) (jobs : List Job),
      (openGates h sc jobs).length = jobs.length
        ∧ ∀ (n : Nat) (j : Job), jobs[n]? = some j →
          ∃ opens : Bool,
            (opens = true ↔ ∃ (g : Gate) (f : Word) (l : Nat), j.gate = some g ∧ g.head = h ∧ j.gateState = .closed
              ∧ j.target = some (f, l) ∧ (f.toNat < sc.frame.toNat ∨ f = sc.frame ∧ l ≤ sc.line))
              ∧ (openGates h sc jobs)[n]? = some (if opens = true then { j with gateState := .opened } else j)

/-- The Scan Unit at a line start: the counter takes the line; an active line that no band covers sends the background on
every column at once, other lines have sent nothing yet (values sent are the model's view of the link, log 15).
A served scan read of a covered active line sends the next column's output value, formed from the pixel the band maps
to, by its use, the palette and the mode; nothing else changes. A line that ends has sent its H_ACT values: at its end the
reads that still wait are served, in ascending column order, from panel memory as it stands (the model's choice, log 15).
That a served read is one of the line being scanned, so that a covered line has sent nothing at its start, is the model's
choice too (log 14; the memory port may serve reads before the line's start). -/
def Obligations.LinesAreSentColumnByColumn : Prop :=
  (∀ (sc : Scan) (timing : Timing) (line : Nat), sc.timing = some timing →
      (sc.beginLine line).line = line ∧ (sc.beginLine line).frame = sc.frame
        ∧ (sc.beginLine line).active = sc.active ∧ (sc.beginLine line).palette = sc.palette
        ∧ (sc.beginLine line).timing = sc.timing ∧ (sc.beginLine line).shown = sc.shown
        ∧ (line < timing.vAct → (∀ b ∈ sc.active.bands, b.covers line = false) →
            (sc.beginLine line).sent
              = List.replicate timing.hAct (reduceOutput sc.active.mode (directComponents sc.active.background)))
        ∧ (timing.vAct ≤ line ∨ (∃ b ∈ sc.active.bands, b.covers line = true) → (sc.beginLine line).sent = []))
    ∧ (∀ (h : HeadId) (s : State) (timing : Timing) (b : Band), (s.head h).scanning = true →
      (s.head h).scan.timing = some timing → (s.head h).scan.line < timing.vAct →
      (s.head h).scan.sent.length < timing.hAct →
      (s.head h).scan.active.bands.find? (fun b => b.covers (s.head h).scan.line) = some b →
      exec (.scanReadServed h) s
        = .next (s.setHead h
            { s.head h with
              scan := { (s.head h).scan with
                sent := (s.head h).scan.sent
                  ++ [outputOf b.use (s.head h).scan.active.mode (s.head h).scan.palette
                      (s.panel.read
                        (2048 * (b.memBase + ((s.head h).scan.line - b.screenFirst + b.scroll) % b.memExtent)
                          + (b.colBase + (s.head h).scan.sent.length) % 2048))] } }))
    ∧ ∀ (sc : Scan) (timing : Timing) (m : Panel), sc.timing = some timing →
      (∀ b : Band, sc.line < timing.vAct → sc.active.bands.find? (fun b => b.covers sc.line) = some b →
        sc.wholeLine m
            = sc.sent
              ++ (List.range' sc.sent.length (timing.hAct - sc.sent.length)).map (fun x =>
                  outputOf b.use sc.active.mode sc.palette
                    (m.read
                      (2048 * (b.memBase + (sc.line - b.screenFirst + b.scroll) % b.memExtent)
                        + (b.colBase + x) % 2048)))
          ∧ (sc.sent.length ≤ timing.hAct → (sc.wholeLine m).length = timing.hAct))
      ∧ (timing.vAct ≤ sc.line ∨ (∀ b ∈ sc.active.bands, b.covers sc.line = false) → sc.wholeLine m = sc.sent)

/-- A ramp from one level to another with a step takes the distance over the step, rounded up, blanking starts, and ends
exactly there; before that it has not arrived.
The ramp step of a blanking start: while the link is ON and ramping is yes the level moves by the step toward the stored
target, never past it; arrived there, ramping becomes no and a pending LIGHT is DONE with the target as value A, its
completion held; in every other state nothing changes. -/
def Obligations.RampsEndExactly : Prop :=
  (∀ level target step n : Nat, 1 ≤ step →
    ((fun l => rampToward l target step)^[n] level = target
      ↔ (target - level + (level - target) + step - 1) / step ≤ n))
    ∧ ∀ hd : Head,
      (hd.link.state ≠ .on ∨ hd.light.ramping = false → hd.ramp = hd)
      ∧ (hd.link.state = .on → hd.light.ramping = true →
        ∃ level : Nat,
          level = (if hd.light.level < hd.light.target then min hd.light.target (hd.light.level + hd.light.step)
            else max hd.light.target (hd.light.level - hd.light.step))
            ∧ (level ≠ hd.light.target → hd.ramp = { hd with light := { hd.light with level := level } })
            ∧ (level = hd.light.target → hd.light.pending = none →
              hd.ramp = { hd with light := { hd.light with level := hd.light.target, ramping := false } })
            ∧ ∀ ref : RecordRef, level = hd.light.target → hd.light.pending = some ref →
              hd.ramp
                = { hd with
                    light := { hd.light with level := hd.light.target, ramping := false, pending := none }
                    link := { hd.link with
                      held := hd.link.held
                        ++ report ref 0x31 { status := .done, valueA := BitVec.ofNat 32 hd.light.target } } })

/-! ## Time and links -/

/-- A millisecond mark: every waiter's remaining time and every running step timer falls by one, UNLIMITED and idle stay;
in FAULT nothing moves. What an earlier mark brought to 0 is due: a timed step, a waiter. It ends by its own command
LINK_STEP_END or WAITER_EXPIRY, and what those have not taken is taken before the next mark counts, by the same effect, one after
another in an order that is free (log 2), so that nothing due outlasts it (the model's choice, log 13).
A waiter whose remaining time has reached 0 expires: it leaves the list, the lease stays, and its stream is HALTED with
CLAIM_TIMEOUT at the slot after the CLAIM. Where none is due the command changes nothing (the model's choice, log 4). -/
def Obligations.WaitersCountDownAndExpire : Prop :=
  (∀ s : State,
      (s.regs.device = .fault → exec .millisecondMark s = .next s)
      ∧ (s.regs.device ≠ .fault → s.due = [] → exec .millisecondMark s = .next s.ticked)
      ∧ (s.regs.device ≠ .fault →
        (s.takeAllDue s.due.length).due = [] ∧ exec .millisecondMark s = .next (s.takeAllDue s.due.length).ticked)
      ∧ (∀ n : Nat, s.due = [] → s.takeAllDue n = s)
      ∧ (∀ n : Nat, s.due ≠ [] →
        ∃ (d : Due) (u v : State), d ∈ s.due ∧ (u = s ∨ u = { s with choices := s.choices + 1 }) ∧ u.takeDue d = some v
          ∧ v.due.length < s.due.length ∧ s.takeAllDue (n + 1) = v.takeAllDue n)
      ∧ (∀ d ∈ s.due, ∃ v : State, s.takeDue d = some v)
      ∧ (∀ (h : HeadId) (v : State), s.takeDue (.step h) = some v → exec (.linkStepEnd h) s = .next v)
      ∧ (∀ (h : HeadId) (k : StreamId) (v : State), s.takeDue (.waiter h k) = some v →
        exec (.waiterExpiry h k) s = .next v)
      ∧ (∀ h : HeadId, s.due = [.step h] →
        ∃ u : State, exec (.linkStepEnd h) s = .next u ∧ exec .millisecondMark s = .next u.ticked)
      ∧ (∀ (h : HeadId) (k : StreamId), s.due = [.waiter h k] →
        ∃ u : State, exec (.waiterExpiry h k) s = .next u ∧ exec .millisecondMark s = .next u.ticked))
    ∧ (∀ s : State, s.ticked = { s with heads := s.ticked.heads }
      ∧ ∀ h : HeadId, s.ticked.head h
        = { s.head h with
            lease := { (s.head h).lease with
              waiters := (s.head h).lease.waiters.map (fun w =>
                { w with remaining := match w.remaining with
                    | some n => some (n - 1)
                    | none => none }) }
            link := { (s.head h).link with timer := match (s.head h).link.timer with
                | some n => some (n - 1)
                | none => none } })
    ∧ (∀ (s : State) (h : HeadId),
      (.step h ∈ s.due ↔ s.regs.device ≠ .fault ∧ (s.head h).link.timer = some 0 ∧ (s.head h).link.state ≠ .off
        ∧ (s.head h).link.state ≠ .on)
      ∧ ∀ k : StreamId, .waiter h k ∈ s.due ↔ s.active = true
        ∧ ∃ w ∈ (s.head h).lease.waiters, w.ref.stream = k ∧ w.remaining = some 0)
    ∧ (∀ (h : HeadId) (k : StreamId) (s : State), .waiter h k ∉ s.due → exec (.waiterExpiry h k) s = .next s)
    ∧ (∀ (h : HeadId) (k : StreamId) (s : State) (w : Waiter) (c : CurrentRecord) (r : Ring), s.active = true →
      w ∈ (s.head h).lease.waiters → w.remaining = some 0 →
      (∀ v ∈ (s.head h).lease.waiters, v.ref.stream = k → v = w) → w.ref = headerRef k c →
      (s.stream k).current = some c → (s.stream k).ring = some r → 1 ≤ declaredSlots c.slots →
      declaredSlots c.slots ≤ 4 →
      exec (.waiterExpiry h k) s
        = .next ((s.setHead h
              { s.head h with
                lease := { (s.head h).lease with
                  waiters := (s.head h).lease.waiters.filter (fun v => decide (v.ref.stream ≠ k)) } }).recordHalted k r c
            .claim .claimTimeout).settle)

/-- The end of a timed step whose timer has reached 0, where the step it leads to, if any, has a delay above 0: POWERING goes on to SIGNALLING, where the scan
starts at line 0, or back to UNPOWERING; SIGNALLING goes on to ON, where the level starts and a pending LINK is DONE, or to
QUIESCING, where DARKENING goes too and the scan stops; QUIESCING to UNPOWERING; UNPOWERING to OFF, where a pending LINK is
DONE, or through OFF to POWERING. Entries to ON and OFF set the LINK cause.
With a signal delay of 0 POWERING goes on through SIGNALLING into ON, and DARKENING through QUIESCING, where the scan stops,
into UNPOWERING (other passages through delays of 0 are left out here). -/
def Obligations.LinkStepsEnd : Prop :=
  (∀ (h : HeadId) (s : State) (d : Delays), s.regs.device ≠ .fault → (s.head h).link.timer = some 0 →
    (s.head h).link.delays = some d →
    ((s.head h).link.state = .powering → (s.head h).link.target = .on → 0 < d.signal →
      exec (.linkStepEnd h) s
        = .next (s.setHead h
            { s.head h with
              link := { (s.head h).link with state := .signalling, timer := some d.signal }
              scan := (s.head h).scan.beginLine 0 }).settle)
    ∧ ((s.head h).link.state = .powering ∧ (s.head h).link.target = .off ∨ (s.head h).link.state = .quiescing →
      0 < d.supply →
      exec (.linkStepEnd h) s
        = .next (s.setHead h
            { s.head h with link := { (s.head h).link with state := .unpowering, timer := some d.supply } }).settle)
    ∧ ((s.head h).link.state = .signalling → (s.head h).link.target = .on →
      exec (.linkStepEnd h) s
        = .next { s.setHead h
              { s.head h with
                link := { (s.head h).link with
                  state := .on, timer := none, pending := none
                  held := (s.head h).link.held
                    ++ (match (s.head h).link.pending with
                      | some ref => report ref 0x30 { status := .done }
                      | none => []) }
                light :=
                  if (s.head h).light.dim = true ∧ (s.head h).light.target ≠ 0 then
                    { (s.head h).light with level := 0, ramping := true }
                  else { (s.head h).light with level := (s.head h).light.target, ramping := false } } with
            regs := { s.regs with cause := s.regs.cause ||| (0x010#9 <<< h.val) } }.settle)
    ∧ ((s.head h).link.state = .darkening ∨ (s.head h).link.state = .signalling ∧ (s.head h).link.target = .off →
      0 < d.signal →
      exec (.linkStepEnd h) s
        = .next ((s.setHead h
            { s.head h with
              link := { (s.head h).link with state := .quiescing, timer := some d.signal }
              scan := { (s.head h).scan with sent := [], shown := [] } }).scanStopped h).settle)
    ∧ ((s.head h).link.state = .unpowering → (s.head h).link.target = .off →
      exec (.linkStepEnd h) s
        = .next { s.setHead h
              { s.head h with
                link := { (s.head h).link with
                  state := .off, timer := none, pending := none
                  held := (s.head h).link.held
                    ++ (match (s.head h).link.pending with
                      | some ref => report ref 0x30 { status := .done }
                      | none => []) } } with
            regs := { s.regs with cause := s.regs.cause ||| (0x010#9 <<< h.val) } }.settle)
    ∧ ((s.head h).link.state = .unpowering → (s.head h).link.target = .on → 0 < d.supply →
      exec (.linkStepEnd h) s
        = .next { s.setHead h
              { s.head h with
                link := { (s.head h).link with state := .powering, timer := some d.supply } } with
            regs := { s.regs with cause := s.regs.cause ||| (0x010#9 <<< h.val) } }.settle))
    ∧ ∀ (h : HeadId) (s : State) (d : Delays), s.regs.device ≠ .fault → (s.head h).link.timer = some 0 →
      (s.head h).link.delays = some d → d.signal = 0 →
      ((s.head h).link.state = .powering → (s.head h).link.target = .on →
        exec (.linkStepEnd h) s
          = .next { s.setHead h
                { s.head h with
                  scan := (s.head h).scan.beginLine 0
                  link := { (s.head h).link with
                    state := .on, timer := none, pending := none
                    held := (s.head h).link.held
                      ++ (match (s.head h).link.pending with
                        | some ref => report ref 0x30 { status := .done }
                        | none => []) }
                  light :=
                    if (s.head h).light.dim = true ∧ (s.head h).light.target ≠ 0 then
                      { (s.head h).light with level := 0, ramping := true }
                    else { (s.head h).light with level := (s.head h).light.target, ramping := false } } with
              regs := { s.regs with cause := s.regs.cause ||| (0x010#9 <<< h.val) } }.settle)
      ∧ ((s.head h).link.state = .darkening → 0 < d.supply →
        ∃ u : State,
          u = (s.setHead h
                { s.head h with
                  link := { (s.head h).link with state := .quiescing, timer := some 0 }
                  scan := { (s.head h).scan with sent := [], shown := [] } }).scanStopped h
            ∧ exec (.linkStepEnd h) s
              = .next (u.setHead h
                  { u.head h with
                    link := { (u.head h).link with state := .unpowering, timer := some d.supply } }).settle)

/-- When a head has stopped scanning, its CLOSED gates with a fixed target are open with the bypassed mark, no WAIT FRAME on
it still waits, and no ready entry stands at the front of its queue. -/
def Obligations.ScanStopsAreTold : Prop :=
  ∀ (h : HeadId) (s : State), s.active = true → (s.head h).scanning = false →
    (s.scanStopped h).jobs
        = s.jobs.map (fun j =>
            if j.gate.map (fun g => g.head) = some h ∧ j.gateState = .closed ∧ j.target ≠ none then
              { j with gateState := .opened, bypassed := true }
            else j)
      ∧ (∀ (k : StreamId) (c : CurrentRecord) (f : Word), ((s.scanStopped h).stream k).current = some c →
          c.phase = .waitCondition → waitFields c.slots ≠ some (.frame h f))
      ∧ readyRun ((s.scanStopped h).head h).present.entries .immediate ((s.scanStopped h).head h).scan.frame = []

/-! ## Completions -/

/-- An accepted completion write: the entry leaves the list, the producer index and lap bit advance (also onto an index that
RETIRE named meanwhile, the model's choice, log 30), a halting status sets
COMPLETION and ERROR, another with NOTIFY sets COMPLETION, and of a commit completion's head an ABANDONED entry's place is
freed, or the LATCHED or SKIPPED entry leaves whose completion it was.
The writer issues the write of the oldest entry, at the entry the producer index names, laid out with the lap bit as it
stands, exactly where the part is active, the ring loaded, the list not empty, no write outstanding and the next index not the
retire index. -/
def Obligations.CompletionWritesFollowTheRing : Prop :=
  (∀ (s : State) (write : HostWrite) (c : Completion) (rest : List Completion) (r : CompletionRing),
      s.writer.write = some write → s.writer.outbound = c :: rest → s.writer.ring = some r → r.producer < r.size →
      ∃ (cause : Causes) (heads : Two Head),
        (cause = if c.outcome.status.halting = true then s.regs.cause ||| 0x003#9
          else if c.notify = true then s.regs.cause ||| 0x001#9 else s.regs.cause)
          ∧ (c.origin = none → heads = s.heads)
          ∧ (∀ h : HeadId, c.origin = some h →
            heads = s.heads.set h
              { s.head h with
                present :=
                  if c.outcome.status = .abandoned then
                    { (s.head h).present with abandoned := (s.head h).present.abandoned - 1 }
                  else
                    { (s.head h).present with
                      entries := (s.head h).present.entries.eraseP (fun e =>
                        !e.unlatched && decide (e.ref.stream = c.stream ∧ e.ref.ringIndex = c.ringIndex
                          ∧ e.ref.reading = c.reading)) } })
          ∧ exec (.completionWriteAnswer .accepted) s
            = .next { s with
                regs := { s.regs with cause := cause }
                writer := { outbound := rest, write := none
                            ring := some { r with
                              producer := if r.producer + 1 = r.size then 0 else r.producer + 1
                              lap := if r.producer + 1 = r.size then !r.lap else r.lap } }
                heads := heads }.settle)
    ∧ (∀ s : State, s.active = false ∨ s.writer.ring = none ∨ s.writer.write ≠ none → s.issueWrite = none)
    ∧ (∀ (s : State) (r : CompletionRing), s.active = true → s.writer.ring = some r → s.writer.write = none →
      (s.writer.outbound = [] → s.issueWrite = none)
      ∧ ∀ (c : Completion) (rest : List Completion), s.writer.outbound = c :: rest →
        ((r.producer + 1) % r.size = r.retire → s.issueWrite = none)
        ∧ ((r.producer + 1) % r.size ≠ r.retire →
          s.issueWrite
            = some { s with writer := { s.writer with
                write := some { address := r.base + BitVec.ofNat 64 (16 * r.producer), bytes := c.bytes r.lap } } }))

/-- A record's completion is suppressed exactly where SILENT is set, its status DONE and no flag set; a placed one names the
record and its outcome.
A job that ends DONE leaves the list at once where its completion is suppressed: SILENT and no flag; otherwise it stays,
ENDED with that outcome, and keeps the engine busy.
A removal: each WAITING entry whose stream has no job of its batch or an earlier one left is READY, and the gate of each
stream's oldest job is evaluated; no more.
A placement: at the tail of the outbound list, of class OTHER only with fewer than 8 of it; the job list places its oldest
ENDED job, which leaves, a Sequencer and a Link Controller their oldest completion, where no earlier reading is owed before
it, and none otherwise; so a Present Unit, whose ABANDONED completions that wait are passed (the model's choice, log 27). An
earlier reading of the same slot is owed while an ENDED job of it stands in
the list, a completion of it is to be placed, or a LINK or LIGHT of it is pending whose slot is read again after a job-error
halt (the model's inference, log 27). The next placement is one of those that can be made, which one is free (log 2), and none
is made exactly where none can be. -/
def Obligations.SilenceAndTheEndsOfJobs : Prop :=
  (∀ (ref : RecordRef) (kind : Byte) (o : Outcome) (origin : Option HeadId),
      (ref.silent = true ∧ o.status = .done
          ∧ o.flags = { overrun := false, gateBypassed := false, alreadyHeld := false, partialEntry := false
                        notScanning := false, palette := false }
        → report ref kind o origin = [])
      ∧ (¬ (ref.silent = true ∧ o.status = .done
          ∧ o.flags = { overrun := false, gateBypassed := false, alreadyHeld := false, partialEntry := false
                        notScanning := false, palette := false })
        → report ref kind o origin
          = [{ stream := ref.stream, kind := kind, outcome := o, tag := ref.tag, ringIndex := ref.ringIndex
               notify := ref.notify, origin := origin, reading := ref.reading }]))
    ∧ (∀ (s : State) (j : Job) (o : Outcome), s.runningJob = some j →
      (j.ref.silent = true → o.status = .done → o.flags = {} →
        ∃ jobs : List Job, (s.endJob o).jobs = jobs
          ∧ jobs.map (fun q => (q.ref, q.work, q.state))
            = (s.jobs.filter (fun q => decide (q.state ≠ .running))).map (fun q => (q.ref, q.work, q.state)))
      ∧ (j.ref.silent = false ∨ o.status ≠ .done ∨ o.flags ≠ {} →
        s.endJob o
          = { s with
              engine := { processed := 0, written := 0, phase := .idle, ahead := [] }
              jobs := s.jobs.map (fun q => if q.state = .running then { q with state := .ended o true } else q) }))
    ∧ (∀ (s : State) (jobs : List Job),
      ∃ t : State, s.jobsRemoved jobs = t ∧ t = { s with jobs := t.jobs, heads := t.heads }
        ∧ t.jobs.length = jobs.length
        ∧ (∀ (before after : List Job) (j : Job), jobs = before ++ j :: after →
          t.jobs[before.length]?
            = some (if ∃ q ∈ before, q.ref.stream = j.ref.stream then j else j.evaluateGate s.heads))
        ∧ ∀ h : HeadId,
          t.head h = { s.head h with present := { (s.head h).present with entries := (t.head h).present.entries } }
            ∧ (t.head h).present.entries
              = (s.head h).present.entries.map (fun e =>
                  if e.state = .waiting ∧ (∀ j ∈ jobs, j.ref.stream = e.ref.stream →
                      ((s.stream e.ref.stream).batch - j.batch).toNat
                        < ((s.stream e.ref.stream).batch - e.batch).toNat) then
                    { e with state := .ready }
                  else e))
    ∧ (∀ (s : State) (others : Nat),
      others = (s.writer.outbound.filter (fun c => decide (c.origin = none))).length →
      (∀ (before after : List Job) (j : Job) (o : Machine.Outcome) (b : Bool) (c : Completion),
        s.jobs = before ++ j :: after → (∀ q ∈ before, q.isEnded = false) → j.state = .ended o b →
        c = completionOf j.ref j.work.kind.code o none →
        (others < 8 → s.owed c = false →
          s.placeFrom .jobList
            = some (({ s with writer := { s.writer with outbound := s.writer.outbound ++ [c] } } : State).jobsRemoved
              (before ++ after)))
        ∧ (8 ≤ others ∨ s.owed c = true → s.placeFrom .jobList = none))
      ∧ ((∀ q ∈ s.jobs, q.isEnded = false) → s.placeFrom .jobList = none)
      ∧ (∀ k : StreamId,
        (∀ (c : Completion) (rest : List Completion), (s.stream k).kept = c :: rest →
          (others < 8 → s.owed c = false →
            s.placeFrom (.sequencer k)
              = some { s.setStream k { s.stream k with kept := rest } with
                  writer := { s.writer with outbound := s.writer.outbound ++ [c] } })
          ∧ (8 ≤ others ∨ s.owed c = true → s.placeFrom (.sequencer k) = none))
        ∧ ((s.stream k).kept = [] → s.placeFrom (.sequencer k) = none))
      ∧ ∀ h : HeadId,
        (∀ (c : Completion) (rest : List Completion), (s.head h).link.held = c :: rest →
          (others < 8 → s.owed c = false →
            s.placeFrom (.linkController h)
              = some { s.setHead h { s.head h with link := { (s.head h).link with held := rest } } with
                  writer := { s.writer with outbound := s.writer.outbound ++ [c] } })
          ∧ (8 ≤ others ∨ s.owed c = true → s.placeFrom (.linkController h) = none))
        ∧ ((s.head h).link.held = [] → s.placeFrom (.linkController h) = none)
        ∧ (∀ (before rest : List Completion) (c : Completion),
          (s.head h).present.outbox = before ++ c :: rest → (∀ d ∈ before, s.owed d = true) →
          ((∀ d ∈ before, d.outcome.status = .abandoned) → s.owed c = false →
            s.placeFrom (.presentUnit h)
              = some { s.setHead h { s.head h with present := { (s.head h).present with outbox := before ++ rest } } with
                  writer := { s.writer with outbound := s.writer.outbound ++ [c] } })
          ∧ (c.outcome.status ≠ .abandoned → s.owed c = true → s.placeFrom (.presentUnit h) = none))
        ∧ ((∀ d ∈ (s.head h).present.outbox, s.owed d = true) → s.placeFrom (.presentUnit h) = none))
    ∧ (∀ (s : State) (c : Completion),
      s.owed c = true
        ↔ (∃ j ∈ s.jobs, j.isEnded = true ∧ j.ref.stream = c.stream ∧ j.ref.ringIndex = c.ringIndex
              ∧ j.ref.reading < c.reading)
          ∨ (∃ d : Completion,
              ((∃ k : StreamId, d ∈ (s.stream k).kept)
                  ∨ ∃ h : HeadId, d ∈ (s.head h).link.held ∨ d ∈ (s.head h).present.outbox)
                ∧ d.stream = c.stream ∧ d.ringIndex = c.ringIndex ∧ d.reading < c.reading)
          ∨ ∃ (h : HeadId) (ref : RecordRef),
              ((s.head h).link.pending = some ref ∨ (s.head h).light.pending = some ref) ∧ ref.rewound = true
                ∧ ref.stream = c.stream ∧ ref.ringIndex = c.ringIndex ∧ ref.reading < c.reading)
    ∧ ∀ s : State,
      (s.placeNext = none ↔ s.active = false ∨ ∀ p : Placer, s.placeFrom p = none)
        ∧ ∀ t : State, s.placeNext = some t →
          ∃ p : Placer, s.placeFrom p = some t ∨ ({ s with choices := s.choices + 1 } : State).placeFrom p = some t

end
end

