-- ==== Sys2Proof/Laws/State.lean ====
section
/-! SUPPORT. One lemma per field per update of the state, true by rfl, and the read-after-write laws of the families of
four and two, so that no later proof unfolds a record update. -/

namespace Sys2Proof

/-! ## Families of four and two -/

@[simp] theorem Four.get_set_same {α : Type} (x : Four α) (i : Fin 4) (v : α) : (x.set i v).get i = v := by
  fin_cases i <;> rfl

theorem Four.get_set {α : Type} (x : Four α) (i j : Fin 4) (v : α) :
    (x.set i v).get j = if j = i then v else x.get j := by
  fin_cases i <;> fin_cases j <;> rfl

@[simp] theorem Four.get_set_ne {α : Type} (x : Four α) {i j : Fin 4} (v : α) (h : j ≠ i) :
    (x.set i v).get j = x.get j := by
  rw [Four.get_set, if_neg h]

@[simp] theorem Four.set_get {α : Type} (x : Four α) (i : Fin 4) : x.set i (x.get i) = x := by
  fin_cases i <;> rfl

@[simp] theorem Four.get_all {α : Type} (v : α) (i : Fin 4) : (Four.all v).get i = v := by
  fin_cases i <;> rfl

@[simp] theorem Two.get_set_same {α : Type} (x : Two α) (i : Fin 2) (v : α) : (x.set i v).get i = v := by
  fin_cases i <;> rfl

theorem Two.get_set {α : Type} (x : Two α) (i j : Fin 2) (v : α) :
    (x.set i v).get j = if j = i then v else x.get j := by
  fin_cases i <;> fin_cases j <;> rfl

@[simp] theorem Two.get_set_ne {α : Type} (x : Two α) {i j : Fin 2} (v : α) (h : j ≠ i) :
    (x.set i v).get j = x.get j := by
  rw [Two.get_set, if_neg h]

@[simp] theorem Two.set_get {α : Type} (x : Two α) (i : Fin 2) : x.set i (x.get i) = x := by
  fin_cases i <;> rfl

@[simp] theorem Two.get_map {α β : Type} (f : α → β) (x : Two α) (i : Fin 2) : (x.map f).get i = f (x.get i) := by
  fin_cases i <;> rfl

@[simp] theorem Two.get_all {α : Type} (v : α) (i : Fin 2) : (Two.all v).get i = v := by
  fin_cases i <;> rfl

@[simp] theorem Two.get_zero {α : Type} (x : Two α) : x.get 0 = x.at0 := rfl

@[simp] theorem Two.get_one {α : Type} (x : Two α) : x.get 1 = x.at1 := rfl

namespace Machine

/-! ## One stream, head or context after one is replaced -/

@[simp] theorem State.stream_setStream_same (s : State) (k : StreamId) (x : Stream) : (s.setStream k x).stream k = x :=
  Four.get_set_same _ _ _

theorem State.stream_setStream (s : State) (k j : StreamId) (x : Stream) :
    (s.setStream k x).stream j = if j = k then x else s.stream j :=
  Four.get_set _ _ _ _

@[simp] theorem State.head_setHead_same (s : State) (h : HeadId) (x : Head) : (s.setHead h x).head h = x :=
  Two.get_set_same _ _ _

theorem State.head_setHead (s : State) (h i : HeadId) (x : Head) :
    (s.setHead h x).head i = if i = h then x else s.head i :=
  Two.get_set _ _ _ _

theorem State.context_setContext (s : State) (k j : StreamId) (c d : ContextId) (x : Context) :
    (s.setContext k c x).context j d = if j = k ∧ d = c then x else s.context j d := by
  unfold State.context State.setContext
  simp only [Four.get_set]
  by_cases hk : j = k
  · subst hk
    by_cases hd : d = c <;> simp [hd]
  · simp [hk]

@[simp] theorem State.context_setContext_same (s : State) (k : StreamId) (c : ContextId) (x : Context) :
    (s.setContext k c x).context k c = x := by
  rw [State.context_setContext, if_pos ⟨rfl, rfl⟩]

@[simp] theorem State.head_setStream (s : State) (k : StreamId) (x : Stream) (h : HeadId) :
    (s.setStream k x).head h = s.head h := rfl

@[simp] theorem State.stream_setHead (s : State) (h : HeadId) (x : Head) (k : StreamId) :
    (s.setHead h x).stream k = s.stream k := rfl

@[simp] theorem State.stream_setContext (s : State) (k j : StreamId) (c : ContextId) (x : Context) :
    (s.setContext k c x).stream j = s.stream j := rfl

@[simp] theorem State.head_setContext (s : State) (k : StreamId) (c : ContextId) (x : Context) (h : HeadId) :
    (s.setContext k c x).head h = s.head h := rfl

@[simp] theorem State.context_setStream (s : State) (k j : StreamId) (x : Stream) (c : ContextId) :
    (s.setStream k x).context j c = s.context j c := rfl

@[simp] theorem State.context_setHead (s : State) (h : HeadId) (x : Head) (j : StreamId) (c : ContextId) :
    (s.setHead h x).context j c = s.context j c := rfl

/-! ## What `setStream` leaves alone -/

@[simp] theorem State.setStream_regs (s : State) (k : StreamId) (x : Stream) : (s.setStream k x).regs = s.regs := rfl

@[simp] theorem State.setStream_loader (s : State) (k : StreamId) (x : Stream) : (s.setStream k x).loader = s.loader := rfl

@[simp] theorem State.setStream_fetch (s : State) (k : StreamId) (x : Stream) : (s.setStream k x).fetch = s.fetch := rfl

@[simp] theorem State.setStream_contexts (s : State) (k : StreamId) (x : Stream) : (s.setStream k x).contexts = s.contexts := rfl

@[simp] theorem State.setStream_jobs (s : State) (k : StreamId) (x : Stream) : (s.setStream k x).jobs = s.jobs := rfl

@[simp] theorem State.setStream_engine (s : State) (k : StreamId) (x : Stream) : (s.setStream k x).engine = s.engine := rfl

@[simp] theorem State.setStream_panel (s : State) (k : StreamId) (x : Stream) : (s.setStream k x).panel = s.panel := rfl

@[simp] theorem State.setStream_heads (s : State) (k : StreamId) (x : Stream) : (s.setStream k x).heads = s.heads := rfl

@[simp] theorem State.setStream_writer (s : State) (k : StreamId) (x : Stream) : (s.setStream k x).writer = s.writer := rfl

@[simp] theorem State.setStream_choices (s : State) (k : StreamId) (x : Stream) : (s.setStream k x).choices = s.choices := rfl
@[simp] theorem State.setStream_slotReads (s : State) (k : StreamId) (x : Stream) : (s.setStream k x).slotReads = s.slotReads := rfl

@[simp] theorem State.setStream_pending (s : State) (k : StreamId) (x : Stream) : (s.setStream k x).pending = s.pending := rfl

/-! ## What `setHead` leaves alone -/

@[simp] theorem State.setHead_regs (s : State) (h : HeadId) (x : Head) : (s.setHead h x).regs = s.regs := rfl

@[simp] theorem State.setHead_loader (s : State) (h : HeadId) (x : Head) : (s.setHead h x).loader = s.loader := rfl

@[simp] theorem State.setHead_fetch (s : State) (h : HeadId) (x : Head) : (s.setHead h x).fetch = s.fetch := rfl

@[simp] theorem State.setHead_streams (s : State) (h : HeadId) (x : Head) : (s.setHead h x).streams = s.streams := rfl

@[simp] theorem State.setHead_contexts (s : State) (h : HeadId) (x : Head) : (s.setHead h x).contexts = s.contexts := rfl

@[simp] theorem State.setHead_jobs (s : State) (h : HeadId) (x : Head) : (s.setHead h x).jobs = s.jobs := rfl

@[simp] theorem State.setHead_engine (s : State) (h : HeadId) (x : Head) : (s.setHead h x).engine = s.engine := rfl

@[simp] theorem State.setHead_panel (s : State) (h : HeadId) (x : Head) : (s.setHead h x).panel = s.panel := rfl

@[simp] theorem State.setHead_writer (s : State) (h : HeadId) (x : Head) : (s.setHead h x).writer = s.writer := rfl

@[simp] theorem State.setHead_choices (s : State) (h : HeadId) (x : Head) : (s.setHead h x).choices = s.choices := rfl
@[simp] theorem State.setHead_slotReads (s : State) (h : HeadId) (x : Head) : (s.setHead h x).slotReads = s.slotReads := rfl

@[simp] theorem State.setHead_pending (s : State) (h : HeadId) (x : Head) : (s.setHead h x).pending = s.pending := rfl

/-! ## What `setContext` leaves alone -/

@[simp] theorem State.setContext_regs (s : State) (k : StreamId) (c : ContextId) (x : Context) : (s.setContext k c x).regs = s.regs := rfl

@[simp] theorem State.setContext_loader (s : State) (k : StreamId) (c : ContextId) (x : Context) : (s.setContext k c x).loader = s.loader := rfl

@[simp] theorem State.setContext_fetch (s : State) (k : StreamId) (c : ContextId) (x : Context) : (s.setContext k c x).fetch = s.fetch := rfl

@[simp] theorem State.setContext_streams (s : State) (k : StreamId) (c : ContextId) (x : Context) : (s.setContext k c x).streams = s.streams := rfl

@[simp] theorem State.setContext_jobs (s : State) (k : StreamId) (c : ContextId) (x : Context) : (s.setContext k c x).jobs = s.jobs := rfl

@[simp] theorem State.setContext_engine (s : State) (k : StreamId) (c : ContextId) (x : Context) : (s.setContext k c x).engine = s.engine := rfl

@[simp] theorem State.setContext_panel (s : State) (k : StreamId) (c : ContextId) (x : Context) : (s.setContext k c x).panel = s.panel := rfl

@[simp] theorem State.setContext_heads (s : State) (k : StreamId) (c : ContextId) (x : Context) : (s.setContext k c x).heads = s.heads := rfl

@[simp] theorem State.setContext_writer (s : State) (k : StreamId) (c : ContextId) (x : Context) : (s.setContext k c x).writer = s.writer := rfl

@[simp] theorem State.setContext_choices (s : State) (k : StreamId) (c : ContextId) (x : Context) : (s.setContext k c x).choices = s.choices := rfl
@[simp] theorem State.setContext_slotReads (s : State) (k : StreamId) (c : ContextId) (x : Context) : (s.setContext k c x).slotReads = s.slotReads := rfl

@[simp] theorem State.setContext_pending (s : State) (k : StreamId) (c : ContextId) (x : Context) : (s.setContext k c x).pending = s.pending := rfl

/-! ## What `setDevice` leaves alone -/

@[simp] theorem State.setDevice_loader (s : State) (d : Device) : (s.setDevice d).loader = s.loader := rfl

@[simp] theorem State.setDevice_fetch (s : State) (d : Device) : (s.setDevice d).fetch = s.fetch := rfl

@[simp] theorem State.setDevice_streams (s : State) (d : Device) : (s.setDevice d).streams = s.streams := rfl

@[simp] theorem State.setDevice_contexts (s : State) (d : Device) : (s.setDevice d).contexts = s.contexts := rfl

@[simp] theorem State.setDevice_jobs (s : State) (d : Device) : (s.setDevice d).jobs = s.jobs := rfl

@[simp] theorem State.setDevice_engine (s : State) (d : Device) : (s.setDevice d).engine = s.engine := rfl

@[simp] theorem State.setDevice_panel (s : State) (d : Device) : (s.setDevice d).panel = s.panel := rfl

@[simp] theorem State.setDevice_heads (s : State) (d : Device) : (s.setDevice d).heads = s.heads := rfl

@[simp] theorem State.setDevice_writer (s : State) (d : Device) : (s.setDevice d).writer = s.writer := rfl

@[simp] theorem State.setDevice_choices (s : State) (d : Device) : (s.setDevice d).choices = s.choices := rfl
@[simp] theorem State.setDevice_slotReads (s : State) (d : Device) : (s.setDevice d).slotReads = s.slotReads := rfl

@[simp] theorem State.setDevice_pending (s : State) (d : Device) : (s.setDevice d).pending = s.pending := rfl

/-! ## What `raise` leaves alone -/

@[simp] theorem State.raise_loader (s : State) (c : Cause) : (s.raise c).loader = s.loader := rfl

@[simp] theorem State.raise_fetch (s : State) (c : Cause) : (s.raise c).fetch = s.fetch := rfl

@[simp] theorem State.raise_streams (s : State) (c : Cause) : (s.raise c).streams = s.streams := rfl

@[simp] theorem State.raise_contexts (s : State) (c : Cause) : (s.raise c).contexts = s.contexts := rfl

@[simp] theorem State.raise_jobs (s : State) (c : Cause) : (s.raise c).jobs = s.jobs := rfl

@[simp] theorem State.raise_engine (s : State) (c : Cause) : (s.raise c).engine = s.engine := rfl

@[simp] theorem State.raise_panel (s : State) (c : Cause) : (s.raise c).panel = s.panel := rfl

@[simp] theorem State.raise_heads (s : State) (c : Cause) : (s.raise c).heads = s.heads := rfl

@[simp] theorem State.raise_writer (s : State) (c : Cause) : (s.raise c).writer = s.writer := rfl

@[simp] theorem State.raise_choices (s : State) (c : Cause) : (s.raise c).choices = s.choices := rfl
@[simp] theorem State.raise_slotReads (s : State) (c : Cause) : (s.raise c).slotReads = s.slotReads := rfl

@[simp] theorem State.raise_pending (s : State) (c : Cause) : (s.raise c).pending = s.pending := rfl

/-! ## What `setPhase` leaves alone -/

@[simp] theorem State.setPhase_regs (s : State) (k : StreamId) (p : RecordPhase) : (s.setPhase k p).regs = s.regs := rfl

@[simp] theorem State.setPhase_loader (s : State) (k : StreamId) (p : RecordPhase) : (s.setPhase k p).loader = s.loader := rfl

@[simp] theorem State.setPhase_fetch (s : State) (k : StreamId) (p : RecordPhase) : (s.setPhase k p).fetch = s.fetch := rfl

@[simp] theorem State.setPhase_contexts (s : State) (k : StreamId) (p : RecordPhase) : (s.setPhase k p).contexts = s.contexts := rfl

@[simp] theorem State.setPhase_jobs (s : State) (k : StreamId) (p : RecordPhase) : (s.setPhase k p).jobs = s.jobs := rfl

@[simp] theorem State.setPhase_engine (s : State) (k : StreamId) (p : RecordPhase) : (s.setPhase k p).engine = s.engine := rfl

@[simp] theorem State.setPhase_panel (s : State) (k : StreamId) (p : RecordPhase) : (s.setPhase k p).panel = s.panel := rfl

@[simp] theorem State.setPhase_heads (s : State) (k : StreamId) (p : RecordPhase) : (s.setPhase k p).heads = s.heads := rfl

@[simp] theorem State.setPhase_writer (s : State) (k : StreamId) (p : RecordPhase) : (s.setPhase k p).writer = s.writer := rfl

@[simp] theorem State.setPhase_choices (s : State) (k : StreamId) (p : RecordPhase) : (s.setPhase k p).choices = s.choices := rfl
@[simp] theorem State.setPhase_slotReads (s : State) (k : StreamId) (p : RecordPhase) : (s.setPhase k p).slotReads = s.slotReads := rfl

@[simp] theorem State.setPhase_pending (s : State) (k : StreamId) (p : RecordPhase) : (s.setPhase k p).pending = s.pending := rfl

/-! ## What `dropCurrent` leaves alone -/

@[simp] theorem State.dropCurrent_regs (s : State) (k : StreamId) : (s.dropCurrent k).regs = s.regs := rfl

@[simp] theorem State.dropCurrent_loader (s : State) (k : StreamId) : (s.dropCurrent k).loader = s.loader := rfl

@[simp] theorem State.dropCurrent_fetch (s : State) (k : StreamId) : (s.dropCurrent k).fetch = s.fetch := rfl

@[simp] theorem State.dropCurrent_contexts (s : State) (k : StreamId) : (s.dropCurrent k).contexts = s.contexts := rfl

@[simp] theorem State.dropCurrent_jobs (s : State) (k : StreamId) : (s.dropCurrent k).jobs = s.jobs := rfl

@[simp] theorem State.dropCurrent_engine (s : State) (k : StreamId) : (s.dropCurrent k).engine = s.engine := rfl

@[simp] theorem State.dropCurrent_panel (s : State) (k : StreamId) : (s.dropCurrent k).panel = s.panel := rfl

@[simp] theorem State.dropCurrent_heads (s : State) (k : StreamId) : (s.dropCurrent k).heads = s.heads := rfl

@[simp] theorem State.dropCurrent_writer (s : State) (k : StreamId) : (s.dropCurrent k).writer = s.writer := rfl

@[simp] theorem State.dropCurrent_choices (s : State) (k : StreamId) : (s.dropCurrent k).choices = s.choices := rfl
@[simp] theorem State.dropCurrent_slotReads (s : State) (k : StreamId) : (s.dropCurrent k).slotReads = s.slotReads := rfl

@[simp] theorem State.dropCurrent_pending (s : State) (k : StreamId) : (s.dropCurrent k).pending = s.pending := rfl

/-! ## What `finishAs` leaves alone -/

@[simp] theorem State.finishAs_regs (s : State) (k : StreamId) (ref : RecordRef) (kind : Byte) (o : Outcome) : (s.finishAs k ref kind o).regs = s.regs := rfl

@[simp] theorem State.finishAs_loader (s : State) (k : StreamId) (ref : RecordRef) (kind : Byte) (o : Outcome) : (s.finishAs k ref kind o).loader = s.loader := rfl

@[simp] theorem State.finishAs_fetch (s : State) (k : StreamId) (ref : RecordRef) (kind : Byte) (o : Outcome) : (s.finishAs k ref kind o).fetch = s.fetch := rfl

@[simp] theorem State.finishAs_contexts (s : State) (k : StreamId) (ref : RecordRef) (kind : Byte) (o : Outcome) : (s.finishAs k ref kind o).contexts = s.contexts := rfl

@[simp] theorem State.finishAs_jobs (s : State) (k : StreamId) (ref : RecordRef) (kind : Byte) (o : Outcome) : (s.finishAs k ref kind o).jobs = s.jobs := rfl

@[simp] theorem State.finishAs_engine (s : State) (k : StreamId) (ref : RecordRef) (kind : Byte) (o : Outcome) : (s.finishAs k ref kind o).engine = s.engine := rfl

@[simp] theorem State.finishAs_panel (s : State) (k : StreamId) (ref : RecordRef) (kind : Byte) (o : Outcome) : (s.finishAs k ref kind o).panel = s.panel := rfl

@[simp] theorem State.finishAs_heads (s : State) (k : StreamId) (ref : RecordRef) (kind : Byte) (o : Outcome) : (s.finishAs k ref kind o).heads = s.heads := rfl

@[simp] theorem State.finishAs_writer (s : State) (k : StreamId) (ref : RecordRef) (kind : Byte) (o : Outcome) : (s.finishAs k ref kind o).writer = s.writer := rfl

@[simp] theorem State.finishAs_choices (s : State) (k : StreamId) (ref : RecordRef) (kind : Byte) (o : Outcome) : (s.finishAs k ref kind o).choices = s.choices := rfl
@[simp] theorem State.finishAs_slotReads (s : State) (k : StreamId) (ref : RecordRef) (kind : Byte) (o : Outcome) : (s.finishAs k ref kind o).slotReads = s.slotReads := rfl

@[simp] theorem State.finishAs_pending (s : State) (k : StreamId) (ref : RecordRef) (kind : Byte) (o : Outcome) : (s.finishAs k ref kind o).pending = s.pending := rfl

/-! ## What `handKept` leaves alone -/

@[simp] theorem State.handKept_regs (s : State) (k : StreamId) (cs : List Completion) : (s.handKept k cs).regs = s.regs := rfl

@[simp] theorem State.handKept_loader (s : State) (k : StreamId) (cs : List Completion) : (s.handKept k cs).loader = s.loader := rfl

@[simp] theorem State.handKept_fetch (s : State) (k : StreamId) (cs : List Completion) : (s.handKept k cs).fetch = s.fetch := rfl

@[simp] theorem State.handKept_contexts (s : State) (k : StreamId) (cs : List Completion) : (s.handKept k cs).contexts = s.contexts := rfl

@[simp] theorem State.handKept_jobs (s : State) (k : StreamId) (cs : List Completion) : (s.handKept k cs).jobs = s.jobs := rfl

@[simp] theorem State.handKept_engine (s : State) (k : StreamId) (cs : List Completion) : (s.handKept k cs).engine = s.engine := rfl

@[simp] theorem State.handKept_panel (s : State) (k : StreamId) (cs : List Completion) : (s.handKept k cs).panel = s.panel := rfl

@[simp] theorem State.handKept_heads (s : State) (k : StreamId) (cs : List Completion) : (s.handKept k cs).heads = s.heads := rfl

@[simp] theorem State.handKept_writer (s : State) (k : StreamId) (cs : List Completion) : (s.handKept k cs).writer = s.writer := rfl

@[simp] theorem State.handKept_choices (s : State) (k : StreamId) (cs : List Completion) : (s.handKept k cs).choices = s.choices := rfl
@[simp] theorem State.handKept_slotReads (s : State) (k : StreamId) (cs : List Completion) : (s.handKept k cs).slotReads = s.slotReads := rfl

@[simp] theorem State.handKept_pending (s : State) (k : StreamId) (cs : List Completion) : (s.handKept k cs).pending = s.pending := rfl

/-! ## What `jobsRemoved` leaves alone -/

@[simp] theorem State.jobsRemoved_regs (s : State) (jobs : List Job) : (s.jobsRemoved jobs).regs = s.regs := rfl

@[simp] theorem State.jobsRemoved_loader (s : State) (jobs : List Job) : (s.jobsRemoved jobs).loader = s.loader := rfl

@[simp] theorem State.jobsRemoved_fetch (s : State) (jobs : List Job) : (s.jobsRemoved jobs).fetch = s.fetch := rfl

@[simp] theorem State.jobsRemoved_streams (s : State) (jobs : List Job) : (s.jobsRemoved jobs).streams = s.streams := rfl

@[simp] theorem State.jobsRemoved_contexts (s : State) (jobs : List Job) : (s.jobsRemoved jobs).contexts = s.contexts := rfl

@[simp] theorem State.jobsRemoved_engine (s : State) (jobs : List Job) : (s.jobsRemoved jobs).engine = s.engine := rfl

@[simp] theorem State.jobsRemoved_panel (s : State) (jobs : List Job) : (s.jobsRemoved jobs).panel = s.panel := rfl

@[simp] theorem State.jobsRemoved_writer (s : State) (jobs : List Job) : (s.jobsRemoved jobs).writer = s.writer := rfl

@[simp] theorem State.jobsRemoved_choices (s : State) (jobs : List Job) : (s.jobsRemoved jobs).choices = s.choices := rfl
@[simp] theorem State.jobsRemoved_slotReads (s : State) (jobs : List Job) : (s.jobsRemoved jobs).slotReads = s.slotReads := rfl

@[simp] theorem State.jobsRemoved_pending (s : State) (jobs : List Job) : (s.jobsRemoved jobs).pending = s.pending := rfl

/-! ## What `haltByJob` leaves alone -/

@[simp] theorem State.haltByJob_regs (s : State) (k : StreamId) (point : Nat) : (s.haltByJob k point).regs = s.regs := rfl

@[simp] theorem State.haltByJob_loader (s : State) (k : StreamId) (point : Nat) : (s.haltByJob k point).loader = s.loader := rfl

@[simp] theorem State.haltByJob_contexts (s : State) (k : StreamId) (point : Nat) : (s.haltByJob k point).contexts = s.contexts := rfl

@[simp] theorem State.haltByJob_jobs (s : State) (k : StreamId) (point : Nat) : (s.haltByJob k point).jobs = s.jobs := rfl

@[simp] theorem State.haltByJob_engine (s : State) (k : StreamId) (point : Nat) : (s.haltByJob k point).engine = s.engine := rfl

@[simp] theorem State.haltByJob_panel (s : State) (k : StreamId) (point : Nat) : (s.haltByJob k point).panel = s.panel := rfl

@[simp] theorem State.haltByJob_writer (s : State) (k : StreamId) (point : Nat) : (s.haltByJob k point).writer = s.writer := rfl

@[simp] theorem State.haltByJob_choices (s : State) (k : StreamId) (point : Nat) : (s.haltByJob k point).choices = s.choices := rfl
@[simp] theorem State.haltByJob_slotReads (s : State) (k : StreamId) (point : Nat) : (s.haltByJob k point).slotReads = s.slotReads := rfl

@[simp] theorem State.haltByJob_pending (s : State) (k : StreamId) (point : Nat) : (s.haltByJob k point).pending = s.pending := rfl

/-! ## What `abandonFrom` leaves alone -/

@[simp] theorem State.abandonFrom_regs (s : State) (k : StreamId) (first : Option Word) : (s.abandonFrom k first).regs = s.regs := rfl

@[simp] theorem State.abandonFrom_loader (s : State) (k : StreamId) (first : Option Word) : (s.abandonFrom k first).loader = s.loader := rfl

@[simp] theorem State.abandonFrom_fetch (s : State) (k : StreamId) (first : Option Word) : (s.abandonFrom k first).fetch = s.fetch := rfl

@[simp] theorem State.abandonFrom_streams (s : State) (k : StreamId) (first : Option Word) : (s.abandonFrom k first).streams = s.streams := rfl

@[simp] theorem State.abandonFrom_contexts (s : State) (k : StreamId) (first : Option Word) : (s.abandonFrom k first).contexts = s.contexts := rfl

@[simp] theorem State.abandonFrom_jobs (s : State) (k : StreamId) (first : Option Word) : (s.abandonFrom k first).jobs = s.jobs := rfl

@[simp] theorem State.abandonFrom_engine (s : State) (k : StreamId) (first : Option Word) : (s.abandonFrom k first).engine = s.engine := rfl

@[simp] theorem State.abandonFrom_panel (s : State) (k : StreamId) (first : Option Word) : (s.abandonFrom k first).panel = s.panel := rfl

@[simp] theorem State.abandonFrom_writer (s : State) (k : StreamId) (first : Option Word) : (s.abandonFrom k first).writer = s.writer := rfl

@[simp] theorem State.abandonFrom_choices (s : State) (k : StreamId) (first : Option Word) : (s.abandonFrom k first).choices = s.choices := rfl
@[simp] theorem State.abandonFrom_slotReads (s : State) (k : StreamId) (first : Option Word) : (s.abandonFrom k first).slotReads = s.slotReads := rfl

@[simp] theorem State.abandonFrom_pending (s : State) (k : StreamId) (first : Option Word) : (s.abandonFrom k first).pending = s.pending := rfl

/-! ## What is left alone where a case decides -/


@[simp] theorem State.finish_regs (s : State) (k : StreamId) (o : Outcome) : (s.finish k o).regs = s.regs := by
  unfold State.finish; split <;> rfl

@[simp] theorem State.finish_loader (s : State) (k : StreamId) (o : Outcome) : (s.finish k o).loader = s.loader := by
  unfold State.finish; split <;> rfl

@[simp] theorem State.finish_fetch (s : State) (k : StreamId) (o : Outcome) : (s.finish k o).fetch = s.fetch := by
  unfold State.finish; split <;> rfl

@[simp] theorem State.finish_contexts (s : State) (k : StreamId) (o : Outcome) : (s.finish k o).contexts = s.contexts := by
  unfold State.finish; split <;> rfl

@[simp] theorem State.finish_jobs (s : State) (k : StreamId) (o : Outcome) : (s.finish k o).jobs = s.jobs := by
  unfold State.finish; split <;> rfl

@[simp] theorem State.finish_engine (s : State) (k : StreamId) (o : Outcome) : (s.finish k o).engine = s.engine := by
  unfold State.finish; split <;> rfl

@[simp] theorem State.finish_panel (s : State) (k : StreamId) (o : Outcome) : (s.finish k o).panel = s.panel := by
  unfold State.finish; split <;> rfl

@[simp] theorem State.finish_heads (s : State) (k : StreamId) (o : Outcome) : (s.finish k o).heads = s.heads := by
  unfold State.finish; split <;> rfl

@[simp] theorem State.finish_writer (s : State) (k : StreamId) (o : Outcome) : (s.finish k o).writer = s.writer := by
  unfold State.finish; split <;> rfl

@[simp] theorem State.finish_choices (s : State) (k : StreamId) (o : Outcome) : (s.finish k o).choices = s.choices := by
  unfold State.finish; split <;> rfl
@[simp] theorem State.finish_slotReads (s : State) (k : StreamId) (o : Outcome) : (s.finish k o).slotReads = s.slotReads := by
  unfold State.finish; split <;> rfl

@[simp] theorem State.finish_pending (s : State) (k : StreamId) (o : Outcome) : (s.finish k o).pending = s.pending := by
  unfold State.finish; split <;> rfl

@[simp] theorem State.writeAtCursor_regs (s : State) (p : Pixel) : (s.writeAtCursor p).regs = s.regs := by
  unfold State.writeAtCursor; split <;> rfl

@[simp] theorem State.writeAtCursor_loader (s : State) (p : Pixel) : (s.writeAtCursor p).loader = s.loader := by
  unfold State.writeAtCursor; split <;> rfl

@[simp] theorem State.writeAtCursor_fetch (s : State) (p : Pixel) : (s.writeAtCursor p).fetch = s.fetch := by
  unfold State.writeAtCursor; split <;> rfl

@[simp] theorem State.writeAtCursor_streams (s : State) (p : Pixel) : (s.writeAtCursor p).streams = s.streams := by
  unfold State.writeAtCursor; split <;> rfl

@[simp] theorem State.writeAtCursor_contexts (s : State) (p : Pixel) : (s.writeAtCursor p).contexts = s.contexts := by
  unfold State.writeAtCursor; split <;> rfl

@[simp] theorem State.writeAtCursor_jobs (s : State) (p : Pixel) : (s.writeAtCursor p).jobs = s.jobs := by
  unfold State.writeAtCursor; split <;> rfl

@[simp] theorem State.writeAtCursor_engine (s : State) (p : Pixel) : (s.writeAtCursor p).engine = s.engine := by
  unfold State.writeAtCursor; split <;> rfl

@[simp] theorem State.writeAtCursor_heads (s : State) (p : Pixel) : (s.writeAtCursor p).heads = s.heads := by
  unfold State.writeAtCursor; split <;> rfl

@[simp] theorem State.writeAtCursor_writer (s : State) (p : Pixel) : (s.writeAtCursor p).writer = s.writer := by
  unfold State.writeAtCursor; split <;> rfl

@[simp] theorem State.writeAtCursor_choices (s : State) (p : Pixel) : (s.writeAtCursor p).choices = s.choices := by
  unfold State.writeAtCursor; split <;> rfl
@[simp] theorem State.writeAtCursor_slotReads (s : State) (p : Pixel) : (s.writeAtCursor p).slotReads = s.slotReads := by
  unfold State.writeAtCursor; split <;> rfl

@[simp] theorem State.writeAtCursor_pending (s : State) (p : Pixel) : (s.writeAtCursor p).pending = s.pending := by
  unfold State.writeAtCursor; split <;> rfl

@[simp] theorem State.pixelDone_regs (s : State) (wrote : Bool) : (s.pixelDone wrote).regs = s.regs := by
  unfold State.pixelDone; split <;> rfl

@[simp] theorem State.pixelDone_loader (s : State) (wrote : Bool) : (s.pixelDone wrote).loader = s.loader := by
  unfold State.pixelDone; split <;> rfl

@[simp] theorem State.pixelDone_fetch (s : State) (wrote : Bool) : (s.pixelDone wrote).fetch = s.fetch := by
  unfold State.pixelDone; split <;> rfl

@[simp] theorem State.pixelDone_streams (s : State) (wrote : Bool) : (s.pixelDone wrote).streams = s.streams := by
  unfold State.pixelDone; split <;> rfl

@[simp] theorem State.pixelDone_jobs (s : State) (wrote : Bool) : (s.pixelDone wrote).jobs = s.jobs := by
  unfold State.pixelDone; split <;> rfl

@[simp] theorem State.pixelDone_panel (s : State) (wrote : Bool) : (s.pixelDone wrote).panel = s.panel := by
  unfold State.pixelDone; split <;> rfl

@[simp] theorem State.pixelDone_heads (s : State) (wrote : Bool) : (s.pixelDone wrote).heads = s.heads := by
  unfold State.pixelDone; split <;> rfl

@[simp] theorem State.pixelDone_writer (s : State) (wrote : Bool) : (s.pixelDone wrote).writer = s.writer := by
  unfold State.pixelDone; split <;> rfl

@[simp] theorem State.pixelDone_choices (s : State) (wrote : Bool) : (s.pixelDone wrote).choices = s.choices := by
  unfold State.pixelDone; split <;> rfl
@[simp] theorem State.pixelDone_slotReads (s : State) (wrote : Bool) : (s.pixelDone wrote).slotReads = s.slotReads := by
  unfold State.pixelDone; split <;> rfl

@[simp] theorem State.pixelDone_pending (s : State) (wrote : Bool) : (s.pixelDone wrote).pending = s.pending := by
  unfold State.pixelDone; split <;> rfl

@[simp] theorem State.handOn_regs (s : State) (h : HeadId) (b : Bool) : (s.handOn h b).regs = s.regs := by
  unfold State.handOn; dsimp only; split <;> rfl

@[simp] theorem State.handOn_loader (s : State) (h : HeadId) (b : Bool) : (s.handOn h b).loader = s.loader := by
  unfold State.handOn; dsimp only; split <;> rfl

@[simp] theorem State.handOn_fetch (s : State) (h : HeadId) (b : Bool) : (s.handOn h b).fetch = s.fetch := by
  unfold State.handOn; dsimp only; split <;> rfl

@[simp] theorem State.handOn_contexts (s : State) (h : HeadId) (b : Bool) : (s.handOn h b).contexts = s.contexts := by
  unfold State.handOn; dsimp only; split <;> rfl

@[simp] theorem State.handOn_jobs (s : State) (h : HeadId) (b : Bool) : (s.handOn h b).jobs = s.jobs := by
  unfold State.handOn; dsimp only; split <;> rfl

@[simp] theorem State.handOn_engine (s : State) (h : HeadId) (b : Bool) : (s.handOn h b).engine = s.engine := by
  unfold State.handOn; dsimp only; split <;> rfl

@[simp] theorem State.handOn_panel (s : State) (h : HeadId) (b : Bool) : (s.handOn h b).panel = s.panel := by
  unfold State.handOn; dsimp only; split <;> rfl

@[simp] theorem State.handOn_writer (s : State) (h : HeadId) (b : Bool) : (s.handOn h b).writer = s.writer := by
  unfold State.handOn; dsimp only; split <;> rfl

@[simp] theorem State.handOn_choices (s : State) (h : HeadId) (b : Bool) : (s.handOn h b).choices = s.choices := by
  unfold State.handOn; dsimp only; split <;> rfl
@[simp] theorem State.handOn_slotReads (s : State) (h : HeadId) (b : Bool) : (s.handOn h b).slotReads = s.slotReads := by
  unfold State.handOn; dsimp only; split <;> rfl

@[simp] theorem State.handOn_pending (s : State) (h : HeadId) (b : Bool) : (s.handOn h b).pending = s.pending := by
  unfold State.handOn; dsimp only; split <;> rfl

@[simp] theorem State.endJob_regs (s : State) (o : Outcome) : (s.endJob o).regs = s.regs := by
  unfold State.endJob; split
  · rfl
  · split <;> rfl

@[simp] theorem State.endJob_loader (s : State) (o : Outcome) : (s.endJob o).loader = s.loader := by
  unfold State.endJob; split
  · rfl
  · split <;> rfl

@[simp] theorem State.endJob_fetch (s : State) (o : Outcome) : (s.endJob o).fetch = s.fetch := by
  unfold State.endJob; split
  · rfl
  · split <;> rfl

@[simp] theorem State.endJob_streams (s : State) (o : Outcome) : (s.endJob o).streams = s.streams := by
  unfold State.endJob; split
  · rfl
  · split <;> rfl

@[simp] theorem State.endJob_contexts (s : State) (o : Outcome) : (s.endJob o).contexts = s.contexts := by
  unfold State.endJob; split
  · rfl
  · split <;> rfl

@[simp] theorem State.endJob_panel (s : State) (o : Outcome) : (s.endJob o).panel = s.panel := by
  unfold State.endJob; split
  · rfl
  · split <;> rfl

@[simp] theorem State.endJob_writer (s : State) (o : Outcome) : (s.endJob o).writer = s.writer := by
  unfold State.endJob; split
  · rfl
  · split <;> rfl

@[simp] theorem State.endJob_choices (s : State) (o : Outcome) : (s.endJob o).choices = s.choices := by
  unfold State.endJob; split
  · rfl
  · split <;> rfl
@[simp] theorem State.endJob_slotReads (s : State) (o : Outcome) : (s.endJob o).slotReads = s.slotReads := by
  unfold State.endJob; split
  · rfl
  · split <;> rfl

@[simp] theorem State.endJob_pending (s : State) (o : Outcome) : (s.endJob o).pending = s.pending := by
  unfold State.endJob; split
  · rfl
  · split <;> rfl

@[simp] theorem State.nextPixel_regs (s : State) : (s.nextPixel).regs = s.regs := by
  unfold State.nextPixel; dsimp only; repeat' split
  all_goals first | rfl | exact State.endJob_regs _ _

@[simp] theorem State.nextPixel_loader (s : State) : (s.nextPixel).loader = s.loader := by
  unfold State.nextPixel; dsimp only; repeat' split
  all_goals first | rfl | exact State.endJob_loader _ _

@[simp] theorem State.nextPixel_fetch (s : State) : (s.nextPixel).fetch = s.fetch := by
  unfold State.nextPixel; dsimp only; repeat' split
  all_goals first | rfl | exact State.endJob_fetch _ _

@[simp] theorem State.nextPixel_streams (s : State) : (s.nextPixel).streams = s.streams := by
  unfold State.nextPixel; dsimp only; repeat' split
  all_goals first | rfl | exact State.endJob_streams _ _

@[simp] theorem State.nextPixel_contexts (s : State) : (s.nextPixel).contexts = s.contexts := by
  unfold State.nextPixel; dsimp only; repeat' split
  all_goals first | rfl | exact State.endJob_contexts _ _

@[simp] theorem State.nextPixel_panel (s : State) : (s.nextPixel).panel = s.panel := by
  unfold State.nextPixel; dsimp only; repeat' split
  all_goals first | rfl | exact State.endJob_panel _ _

@[simp] theorem State.nextPixel_writer (s : State) : (s.nextPixel).writer = s.writer := by
  unfold State.nextPixel; dsimp only; repeat' split
  all_goals first | rfl | exact State.endJob_writer _ _

@[simp] theorem State.nextPixel_choices (s : State) : (s.nextPixel).choices = s.choices := by
  unfold State.nextPixel; dsimp only; repeat' split
  all_goals first | rfl | exact State.endJob_choices _ _
@[simp] theorem State.nextPixel_slotReads (s : State) : (s.nextPixel).slotReads = s.slotReads := by
  unfold State.nextPixel; dsimp only; repeat' split
  all_goals first | rfl | exact State.endJob_slotReads _ _

@[simp] theorem State.nextPixel_pending (s : State) : (s.nextPixel).pending = s.pending := by
  unfold State.nextPixel; dsimp only; repeat' split
  all_goals first | rfl | exact State.endJob_pending _ _

@[simp] theorem State.failJob_regs (s : State) (st : Status) (n : Nat) : (s.failJob st n).regs = s.regs := by
  unfold State.failJob; split
  · rfl
  · dsimp only; split <;> rfl

@[simp] theorem State.failJob_loader (s : State) (st : Status) (n : Nat) : (s.failJob st n).loader = s.loader := by
  unfold State.failJob; split
  · rfl
  · dsimp only; split <;> rfl

@[simp] theorem State.failJob_contexts (s : State) (st : Status) (n : Nat) : (s.failJob st n).contexts = s.contexts := by
  unfold State.failJob; split
  · rfl
  · dsimp only; split <;> rfl

@[simp] theorem State.failJob_panel (s : State) (st : Status) (n : Nat) : (s.failJob st n).panel = s.panel := by
  unfold State.failJob; split
  · rfl
  · dsimp only; split <;> rfl

@[simp] theorem State.failJob_writer (s : State) (st : Status) (n : Nat) : (s.failJob st n).writer = s.writer := by
  unfold State.failJob; split
  · rfl
  · dsimp only; split <;> rfl

@[simp] theorem State.failJob_choices (s : State) (st : Status) (n : Nat) : (s.failJob st n).choices = s.choices := by
  unfold State.failJob; split
  · rfl
  · dsimp only; split <;> rfl
@[simp] theorem State.failJob_slotReads (s : State) (st : Status) (n : Nat) : (s.failJob st n).slotReads = s.slotReads := by
  unfold State.failJob; split
  · rfl
  · dsimp only; split <;> rfl

@[simp] theorem State.failJob_pending (s : State) (st : Status) (n : Nat) : (s.failJob st n).pending = s.pending := by
  unfold State.failJob; split
  · rfl
  · dsimp only; split <;> rfl

@[simp] theorem State.landPixel_regs (s : State) : (s.landPixel).regs = s.regs := by
  unfold State.landPixel; split <;> simp

@[simp] theorem State.landPixel_loader (s : State) : (s.landPixel).loader = s.loader := by
  unfold State.landPixel; split <;> simp

@[simp] theorem State.landPixel_fetch (s : State) : (s.landPixel).fetch = s.fetch := by
  unfold State.landPixel; split <;> simp

@[simp] theorem State.landPixel_streams (s : State) : (s.landPixel).streams = s.streams := by
  unfold State.landPixel; split <;> simp

@[simp] theorem State.landPixel_jobs (s : State) : (s.landPixel).jobs = s.jobs := by
  unfold State.landPixel; split <;> simp

@[simp] theorem State.landPixel_heads (s : State) : (s.landPixel).heads = s.heads := by
  unfold State.landPixel; split <;> simp

@[simp] theorem State.landPixel_writer (s : State) : (s.landPixel).writer = s.writer := by
  unfold State.landPixel; split <;> simp

@[simp] theorem State.landPixel_choices (s : State) : (s.landPixel).choices = s.choices := by
  unfold State.landPixel; split <;> simp
@[simp] theorem State.landPixel_slotReads (s : State) : (s.landPixel).slotReads = s.slotReads := by
  unfold State.landPixel; split <;> simp

@[simp] theorem State.landPixel_pending (s : State) : (s.landPixel).pending = s.pending := by
  unfold State.landPixel; split <;> simp

@[simp] theorem State.stopEngine_regs (s : State) : (s.stopEngine).regs = s.regs := by
  unfold State.stopEngine; dsimp only; split
  · split <;> simp
  · rfl

@[simp] theorem State.stopEngine_loader (s : State) : (s.stopEngine).loader = s.loader := by
  unfold State.stopEngine; dsimp only; split
  · split <;> simp
  · rfl

@[simp] theorem State.stopEngine_fetch (s : State) : (s.stopEngine).fetch = s.fetch := by
  unfold State.stopEngine; dsimp only; split
  · split <;> simp
  · rfl

@[simp] theorem State.stopEngine_streams (s : State) : (s.stopEngine).streams = s.streams := by
  unfold State.stopEngine; dsimp only; split
  · split <;> simp
  · rfl

@[simp] theorem State.stopEngine_jobs (s : State) : (s.stopEngine).jobs = s.jobs := by
  unfold State.stopEngine; dsimp only; split
  · split <;> simp
  · rfl

@[simp] theorem State.stopEngine_heads (s : State) : (s.stopEngine).heads = s.heads := by
  unfold State.stopEngine; dsimp only; split
  · split <;> simp
  · rfl

@[simp] theorem State.stopEngine_writer (s : State) : (s.stopEngine).writer = s.writer := by
  unfold State.stopEngine; dsimp only; split
  · split <;> simp
  · rfl

@[simp] theorem State.stopEngine_pending (s : State) : (s.stopEngine).pending = s.pending := by
  unfold State.stopEngine; dsimp only; split
  · split <;> simp
  · rfl

end Machine

end Sys2Proof
end

