-- ==== Sys2Proof/Laws/Ops.lean ====
section
/-! SUPPORT. What each shared operation can do, said once: sparse data and panel memory (read after write, canonical
form), the job list operations (lengths, streams, states), the end of a current record, room and suppression. -/

namespace Sys2Proof

/-! ## Sparse data -/

variable {α : Type}

theorem sparseRead_write (l : Sparse α) (a b : Nat) (x : α) :
    sparseRead (sparseWrite l a x) b = if b = a then some x else sparseRead l b := by
  induction l with
  | nil => rfl
  | cons c rest ih =>
    obtain ⟨k, v⟩ := c
    unfold sparseWrite
    by_cases h1 : a < k
    · rw [if_pos h1]; rfl
    · rw [if_neg h1]
      by_cases h2 : a = k
      · subst h2
        rw [if_pos rfl]
        by_cases hb : b = a <;> simp [sparseRead, hb]
      · rw [if_neg h2]
        by_cases hb : b = k
        · subst hb
          have hne : ¬ b = a := fun h => h2 h.symm
          simp [sparseRead, hne]
        · simp only [sparseRead, if_neg hb, ih]

/-- Writing a key that is not listed and erasing it again leaves the data as it was. -/
theorem sparseErase_write (l : Sparse α) (a : Nat) (x : α) (h : sparseRead l a = none) :
    sparseErase (sparseWrite l a x) a = l := by
  induction l with
  | nil => simp [sparseWrite, sparseErase]
  | cons c rest ih =>
    obtain ⟨k, v⟩ := c
    have hk : ¬ a = k := by
      intro e
      simp [sparseRead, e] at h
    simp only [sparseRead, if_neg hk] at h
    unfold sparseWrite
    by_cases h1 : a < k
    · rw [if_pos h1]; simp [sparseErase]
    · rw [if_neg h1, if_neg hk]; simp [sparseErase, hk, ih h]

theorem sparseErase_length (l : Sparse α) (a : Nat) (x : α) (h : sparseRead l a = some x) :
    (sparseErase l a).length + 1 = l.length := by
  induction l with
  | nil => simp [sparseRead] at h
  | cons c rest ih =>
    obtain ⟨k, v⟩ := c
    by_cases hk : a = k
    · simp [sparseErase, hk]
    · simp only [sparseRead, if_neg hk] at h
      simp [sparseErase, hk, ih h]

/-- A write keeps keys strictly rising. -/
theorem sparseFrom_write (l : Sparse α) (n a : Nat) (x : α) (hn : n ≤ a) (h : sparseFrom n l = true) :
    sparseFrom n (sparseWrite l a x) = true := by
  induction l generalizing n with
  | nil => simp [sparseWrite, sparseFrom, hn]
  | cons c rest ih =>
    obtain ⟨k, v⟩ := c
    simp only [sparseFrom, Bool.and_eq_true, decide_eq_true_eq] at h
    unfold sparseWrite
    by_cases h1 : a < k
    · rw [if_pos h1]
      simp only [sparseFrom, Bool.and_eq_true, decide_eq_true_eq]
      exact ⟨hn, by omega, h.2⟩
    · rw [if_neg h1]
      by_cases h2 : a = k
      · subst h2
        rw [if_pos rfl]
        simpa [sparseFrom] using h
      · rw [if_neg h2]
        simp only [sparseFrom, Bool.and_eq_true, decide_eq_true_eq]
        exact ⟨h.1, ih (k + 1) (by omega) h.2⟩

theorem sparseWrite_all (p : Nat × α → Bool) (l : Sparse α) (a : Nat) (x : α) (hx : p (a, x) = true)
    (h : l.all p = true) : (sparseWrite l a x).all p = true := by
  induction l with
  | nil => simp [sparseWrite, hx]
  | cons c rest ih =>
    obtain ⟨k, v⟩ := c
    simp only [List.all_cons, Bool.and_eq_true] at h
    unfold sparseWrite
    by_cases h1 : a < k
    · rw [if_pos h1]; simp [hx, h.1, h.2]
    · rw [if_neg h1]
      by_cases h2 : a = k
      · rw [if_pos h2]; simp [hx, h.2]
      · rw [if_neg h2]; simp only [List.all_cons, Bool.and_eq_true]; exact ⟨h.1, ih h.2⟩

namespace Machine

/-! ## Panel memory -/

/-- Reading after writing a cell of the store. -/
theorem Panel.read_write (m : Panel) (a b : Nat) (p : Pixel) (ha : a < panelCells) :
    (m.write a p).read b = if b = a then p else m.read b := by
  unfold Panel.write Panel.read
  rw [if_pos ha]
  simp only [sparseRead_write]
  by_cases hb : b = a <;> simp [hb]

/-- Panel memory's one writing operation keeps its canonical form. -/
theorem Panel.write_wf (m : Panel) (a : Nat) (p : Pixel) (h : m.wf = true) : (m.write a p).wf = true := by
  unfold Panel.write
  split
  · rename_i ha
    simp only [Panel.wf, Bool.and_eq_true] at h ⊢
    exact ⟨sparseFrom_write _ _ _ _ (Nat.zero_le _) h.1, sparseWrite_all _ _ _ _ (by simpa using ha) h.2⟩
  · exact h

theorem Panel.write_powerOns (m : Panel) (a : Nat) (p : Pixel) : (m.write a p).powerOns = m.powerOns := by
  unfold Panel.write; split <;> rfl

/-- Power-on reset leaves panel memory in its canonical form. -/
theorem Panel.empty_wf (n : Nat) : ({ powerOns := n, cells := [] } : Panel).wf = true := rfl

/-! ## The job list -/

@[simp] theorem endRunningIn_length (jobs : List Job) (o : Outcome) : (endRunningIn jobs o).length = jobs.length := by
  simp [endRunningIn]

@[simp] theorem cancelQueued_length (jobs : List Job) (k : StreamId) : (cancelQueued jobs k).length = jobs.length := by
  simp [cancelQueued]

@[simp] theorem openGates_length (h : HeadId) (sc : Scan) (jobs : List Job) :
    (openGates h sc jobs).length = jobs.length := by
  simp [openGates]

@[simp] theorem bypassGates_length (h : HeadId) (jobs : List Job) : (bypassGates h jobs).length = jobs.length := by
  simp [bypassGates]

/-- The evaluation of a gate changes the gate's part of a job alone. -/
theorem Job.evaluateGate_same (j : Job) (heads : Two Head) :
    (j.evaluateGate heads).ref = j.ref ∧ (j.evaluateGate heads).work = j.work ∧ (j.evaluateGate heads).state = j.state
      ∧ (j.evaluateGate heads).slots = j.slots ∧ (j.evaluateGate heads).batch = j.batch
      ∧ (j.evaluateGate heads).gate = j.gate := by
  unfold Job.evaluateGate
  split
  · exact ⟨rfl, rfl, rfl, rfl, rfl, rfl⟩
  · split
    · dsimp only; split <;> exact ⟨rfl, rfl, rfl, rfl, rfl, rfl⟩
    · exact ⟨rfl, rfl, rfl, rfl, rfl, rfl⟩

/-- What does not look at a job's gate is not changed by the evaluation of gates. -/
theorem evaluateGates_map {β : Type} (f : Job → β) (hf : ∀ (j : Job) (heads : Two Head), f (j.evaluateGate heads) = f j)
    (heads : Two Head) (seen : List StreamId) (jobs : List Job) :
    (evaluateGates heads seen jobs).map f = jobs.map f := by
  induction jobs generalizing seen with
  | nil => rfl
  | cons j rest ih =>
    unfold evaluateGates
    simp only [List.map_cons, ih]
    split
    · rfl
    · rw [hf]

@[simp] theorem evaluateGates_length (heads : Two Head) (seen : List StreamId) (jobs : List Job) :
    (evaluateGates heads seen jobs).length = jobs.length := by
  have h := congrArg List.length (evaluateGates_map (fun _ => ()) (fun _ _ => rfl) heads seen jobs)
  simpa using h

/-- The choice of the engine makes one QUEUED job RUNNING, in its place. -/
theorem runOldestEligible_split (seen : List StreamId) (jobs out : List Job)
    (h : runOldestEligible seen jobs = some out) :
    ∃ (before after : List Job) (j : Job), jobs = before ++ j :: after ∧ j.state = .queued
      ∧ out = before ++ { j with state := .running } :: after := by
  induction jobs generalizing seen out with
  | nil => simp [runOldestEligible] at h
  | cons j rest ih =>
    unfold runOldestEligible at h
    split at h
    · rename_i hc
      have hq : j.state = .queued := by
        simp only [Bool.and_eq_true, Job.isQueued, decide_eq_true_eq] at hc
        exact hc.1.1
      cases h
      exact ⟨[], rest, j, rfl, hq, rfl⟩
    · cases hr : runOldestEligible (j.ref.stream :: seen) rest with
      | none => rw [hr] at h; simp at h
      | some r =>
        rw [hr] at h
        simp only [Option.map_some, Option.some.injEq] at h
        obtain ⟨b, a, q, h1, h2, h3⟩ := ih _ _ hr
        exact ⟨j :: b, a, q, by rw [h1]; rfl, h2, by rw [← h, h3]; rfl⟩

/-- The completion of the oldest ENDED job, whose place alone is given up. -/
theorem takeEnded_split (jobs out : List Job) (c : Completion) (h : takeEnded jobs = some (c, out)) :
    ∃ (before after : List Job) (j : Job) (o : Outcome) (b : Bool), jobs = before ++ j :: after
      ∧ j.state = .ended o b ∧ out = before ++ after ∧ c = completionOf j.ref j.work.kind.code o none
      ∧ ∀ q ∈ before, q.isEnded = false := by
  induction jobs generalizing out with
  | nil => simp [takeEnded] at h
  | cons j rest ih =>
    unfold takeEnded at h
    split at h
    · rename_i o b hs
      cases h
      exact ⟨[], _, j, o, b, rfl, hs, rfl, rfl, by simp⟩
    · rename_i hs
      cases hr : takeEnded rest with
      | none => rw [hr] at h; simp at h
      | some r =>
        rw [hr] at h
        simp only [Option.map_some, Option.some.injEq, Prod.mk.injEq] at h
        obtain ⟨b, a, q, o, e, h1, h2, h3, h4, h5⟩ := ih r.2 (by rw [hr, ← h.1])
        refine ⟨j :: b, a, q, o, e, by rw [h1]; rfl, h2, by rw [← h.2, h3]; rfl, h4, ?_⟩
        intro x hx
        rcases List.mem_cons.1 hx with rfl | hx
        · unfold Job.isEnded
          split
          · rename_i o' e' hs'; exact absurd hs' (hs o' e')
          · rfl
          · rfl
        · exact h5 x hx

/-! ## Reports -/

/-- An outcome with another status than DONE is never suppressed (R151). -/
theorem report_of_ne_done (ref : RecordRef) (kind : Byte) (o : Outcome) (origin : Option HeadId)
    (h : o.status ≠ .done) : report ref kind o origin = [completionOf ref kind o origin] := by
  simp [report, suppressed, h]

theorem report_length_le (ref : RecordRef) (kind : Byte) (o : Outcome) (origin : Option HeadId) :
    (report ref kind o origin).length ≤ 1 := by
  unfold report; split <;> simp

theorem report_origin (ref : RecordRef) (kind : Byte) (o : Outcome) (origin : Option HeadId) (c : Completion)
    (h : c ∈ report ref kind o origin) : c.origin = origin := by
  unfold report at h
  split at h
  · simp at h
  · simp only [List.mem_singleton] at h; rw [h]; rfl

theorem report_status (ref : RecordRef) (kind : Byte) (o : Outcome) (origin : Option HeadId) (c : Completion)
    (h : c ∈ report ref kind o origin) : c.outcome = o := by
  unfold report at h
  split at h
  · simp at h
  · simp only [List.mem_singleton] at h; rw [h]; rfl

/-! ## Streams -/

@[simp] theorem Stream.haltAt_kept (st : Stream) (n : Nat) : (st.haltAt n).kept = st.kept := rfl

@[simp] theorem Stream.haltAt_current (st : Stream) (n : Nat) : (st.haltAt n).current = st.current := rfl

@[simp] theorem Stream.haltAt_batch (st : Stream) (n : Nat) : (st.haltAt n).batch = st.batch := rfl

@[simp] theorem Stream.haltAt_halt (st : Stream) (n : Nat) : (st.haltAt n).halt = some n := rfl

/-- The end of a current record empties its buffer and keeps its completion. -/
theorem State.finishAs_stream (s : State) (k : StreamId) (ref : RecordRef) (kind : Byte) (o : Outcome) :
    ((s.finishAs k ref kind o).stream k).current = none
      ∧ ((s.finishAs k ref kind o).stream k).kept = (s.stream k).kept ++ report ref kind o
      ∧ ((s.finishAs k ref kind o).stream k).batch = (s.stream k).batch := by
  unfold State.finishAs
  simp only [State.stream_setStream_same]
  split <;> exact ⟨rfl, rfl, rfl⟩

theorem State.finishAs_stream_ne (s : State) (k j : StreamId) (ref : RecordRef) (kind : Byte) (o : Outcome)
    (h : j ≠ k) : (s.finishAs k ref kind o).stream j = s.stream j := by
  unfold State.finishAs
  rw [State.stream_setStream, if_neg h]

/-- A current record that ends is named by its own header. -/
theorem State.finish_of_current (s : State) (k : StreamId) (o : Outcome) (c : CurrentRecord)
    (h : (s.stream k).current = some c) :
    s.finish k o = s.finishAs k (headerRef k c) (kindByte c.slots) o := by
  unfold State.finish; rw [h]

/-! ## Heads -/

@[simp] theorem Head.reload_present (hd : Head) (b : Bool) : (hd.reload b).present = hd.present := by
  unfold Head.reload; dsimp only; split <;> split <;> rfl

@[simp] theorem Head.reload_lease (hd : Head) (b : Bool) : (hd.reload b).lease = hd.lease := by
  unfold Head.reload; dsimp only; split <;> split <;> rfl

@[simp] theorem Head.reload_scan (hd : Head) (b : Bool) : (hd.reload b).scan = hd.scan := by
  unfold Head.reload; dsimp only; split <;> split <;> rfl

@[simp] theorem Head.reload_link (hd : Head) (b : Bool) : (hd.reload b).link = hd.link := by
  unfold Head.reload; dsimp only; split <;> split <;> rfl

@[simp] theorem Head.reload_light (hd : Head) (b : Bool) : (hd.reload b).light = hd.light := by
  unfold Head.reload; dsimp only; split <;> split <;> rfl

@[simp] theorem Head.reload_reading (hd : Head) (b : Bool) : (hd.reload b).staging.reading = hd.staging.reading := by
  unfold Head.reload; dsimp only; split <;> split <;> rfl

@[simp] theorem Head.withdraw_present (hd : Head) (k : StreamId) : (hd.withdraw k).present = hd.present := rfl

@[simp] theorem Head.withdraw_scan (hd : Head) (k : StreamId) : (hd.withdraw k).scan = hd.scan := rfl

@[simp] theorem Head.withdraw_link (hd : Head) (k : StreamId) : (hd.withdraw k).link = hd.link := rfl

@[simp] theorem Head.withdraw_holder (hd : Head) (k : StreamId) : (hd.withdraw k).lease.holder = hd.lease.holder := rfl

/-- The abandonment of a palette read changes the staging set's buffer alone. -/
theorem Head.abandonRead_same (hd : Head) (k : StreamId) :
    (hd.abandonRead k).present = hd.present ∧ (hd.abandonRead k).scan = hd.scan ∧ (hd.abandonRead k).link = hd.link
      ∧ (hd.abandonRead k).light = hd.light ∧ (hd.abandonRead k).lease = hd.lease
      ∧ (hd.abandonRead k).staging.picture = hd.staging.picture
      ∧ (hd.abandonRead k).staging.palette = hd.staging.palette
      ∧ (hd.abandonRead k).staging.dirty = hd.staging.dirty := by
  unfold Head.abandonRead
  split
  · split <;> exact ⟨rfl, rfl, rfl, rfl, rfl, rfl, rfl, rfl⟩
  · exact ⟨rfl, rfl, rfl, rfl, rfl, rfl, rfl, rfl⟩

/-- A latch step changes the present queue and the active set alone. -/
theorem Head.latchStep_same (hd : Head) (h : HeadId) (kind : LatchKind) :
    (hd.latchStep h kind).lease = hd.lease ∧ (hd.latchStep h kind).staging = hd.staging
      ∧ (hd.latchStep h kind).link = hd.link ∧ (hd.latchStep h kind).light = hd.light
      ∧ (hd.latchStep h kind).scan.frame = hd.scan.frame ∧ (hd.latchStep h kind).scan.line = hd.scan.line
      ∧ (hd.latchStep h kind).scan.timing = hd.scan.timing ∧ (hd.latchStep h kind).scan.sent = hd.scan.sent
      ∧ (hd.latchStep h kind).scan.shown = hd.scan.shown := by
  unfold Head.latchStep
  dsimp only
  split
  · split <;> exact ⟨rfl, rfl, rfl, rfl, rfl, rfl, rfl, rfl, rfl⟩
  · exact ⟨rfl, rfl, rfl, rfl, rfl, rfl, rfl, rfl, rfl⟩

/-- A ramp step changes the backlight record and the held completions alone. -/
theorem Head.ramp_same (hd : Head) :
    hd.ramp.lease = hd.lease ∧ hd.ramp.staging = hd.staging ∧ hd.ramp.present = hd.present ∧ hd.ramp.scan = hd.scan
      ∧ hd.ramp.link.state = hd.link.state ∧ hd.ramp.link.target = hd.link.target
      ∧ hd.ramp.link.timer = hd.link.timer ∧ hd.ramp.link.pending = hd.link.pending := by
  unfold Head.ramp
  dsimp only
  split
  · split
    · split <;> exact ⟨rfl, rfl, rfl, rfl, rfl, rfl, rfl, rfl⟩
    · exact ⟨rfl, rfl, rfl, rfl, rfl, rfl, rfl, rfl⟩
  · exact ⟨rfl, rfl, rfl, rfl, rfl, rfl, rfl, rfl⟩

/-- A job-error halt marks the pending LINK and LIGHT of a head and changes nothing else of it. -/
theorem Head.rewindBy_same (hd : Head) (k : StreamId) (point : Nat) (ring : Option Ring) :
    (hd.rewindBy k point ring).lease = hd.lease ∧ (hd.rewindBy k point ring).staging = hd.staging
      ∧ (hd.rewindBy k point ring).present = hd.present ∧ (hd.rewindBy k point ring).scan = hd.scan
      ∧ (hd.rewindBy k point ring).link.state = hd.link.state ∧ (hd.rewindBy k point ring).link.target = hd.link.target
      ∧ (hd.rewindBy k point ring).link.timer = hd.link.timer ∧ (hd.rewindBy k point ring).link.held = hd.link.held
      ∧ (hd.rewindBy k point ring).light.level = hd.light.level
      ∧ (hd.rewindBy k point ring).light.ramping = hd.light.ramping := by
  unfold Head.rewindBy
  split <;> exact ⟨rfl, rfl, rfl, rfl, rfl, rfl, rfl, rfl, rfl, rfl⟩

/-- The mark changes no field of a reference that a completion takes. -/
theorem RecordRef.rewind_report (ref : RecordRef) (k : StreamId) (point fetch size : Nat) (kind : Byte) (o : Outcome)
    (origin : Option HeadId) :
    report (ref.rewind k point fetch size) kind o origin = report ref kind o origin := by
  unfold RecordRef.rewind; split <;> rfl

end Machine

end Sys2Proof
end

