-- ==== Sys2Proof/Laws/Settle.lean ====
section
/-! SUPPORT. The inductions over settling, packaged once: what one reaction can be, what is kept by every reaction is kept
by settling, and settling ends where a measure falls with every reaction. -/

namespace Sys2Proof.Machine

/-- A choice among tries changes the count of choices alone. -/
theorem State.pick_state (s : State) (n : Nat) :
    (s.pick n).2 = s ∨ (s.pick n).2 = { s with choices := s.choices + 1 } := by
  unfold State.pick; split
  · exact Or.inl rfl
  · exact Or.inr rfl

/-- A choice among one or more tries names one of them. -/
theorem State.pick_lt (s : State) (n : Nat) (hn : 0 < n) : (s.pick n).1 < n := by
  unfold State.pick; split
  · exact hn
  · exact Nat.mod_lt _ hn

/-- The first reaction that has something to do is one of the reactions. -/
theorem firstReaction_some (fs : List (State → Option State)) (s t : State) (h : firstReaction fs s = some t) :
    ∃ f ∈ fs, f s = some t := by
  induction fs with
  | nil => simp [firstReaction] at h
  | cons f rest ih =>
    unfold firstReaction at h
    split at h
    · rename_i u hu
      cases h
      exact ⟨f, List.mem_cons_self, hu⟩
    · obtain ⟨g, hg, e⟩ := ih h
      exact ⟨g, List.mem_cons_of_mem _ hg, e⟩

/-- The reactions, by name. -/
theorem reactions_cases (f : State → Option State) (hf : f ∈ reactions) :
    f = State.reachStopped ∨ (∃ h : HeadId, f = State.latchNow h) ∨ f = State.takeAhead ∨ f = State.actNext
      ∨ f = State.issueWrite := by
  simp only [reactions, List.mem_cons, List.not_mem_nil, or_false] at hf
  rcases hf with h | h | h | h | h | h <;> subst h <;> first | exact Or.inr (Or.inl ⟨_, rfl⟩) | simp

/-- What a free choice among some tries answers: the outcome of one that has something to do, from the state or from the
state with the choice counted. -/
theorem pick_filter_some {α : Type} (f : State → α → Option State) (l : List α) (d : α) (s t : State)
    (h : (if (l.filter (fun a => (f s a).isSome)).isEmpty = true then none
      else f (s.pick (l.filter (fun a => (f s a).isSome)).length).2
        ((l.filter (fun a => (f s a).isSome)).getD (s.pick (l.filter (fun a => (f s a).isSome)).length).1 d)) = some t) :
    ∃ a ∈ l, (f s a).isSome = true
      ∧ (f s a = some t ∨ f { s with choices := s.choices + 1 } a = some t) := by
  split at h
  · cases h
  · rename_i hne
    have hlt : (s.pick (l.filter (fun a => (f s a).isSome)).length).1 < (l.filter (fun a => (f s a).isSome)).length := by
      refine State.pick_lt s _ (List.length_pos_iff.mpr ?_)
      intro e
      exact hne (by rw [e]; rfl)
    have hm := List.getElem_mem hlt
    have hg := List.getD_eq_getElem (l.filter (fun a => (f s a).isSome)) d hlt
    rw [hg] at h
    rw [List.mem_filter] at hm
    refine ⟨_, hm.1, hm.2, ?_⟩
    rcases State.pick_state s (l.filter (fun a => (f s a).isSome)).length with e | e
    · exact Or.inl (by rw [e] at h; exact h)
    · exact Or.inr (by rw [e] at h; exact h)

/-- What a try of the part can be. -/
theorem State.tryNext_some (s t : State) (h : s.tryNext = some t) :
    ∃ a ∈ allTries, (s.attempt a).isSome = true
      ∧ (s.attempt a = some t ∨ State.attempt { s with choices := s.choices + 1 } a = some t) :=
  pick_filter_some State.attempt allTries .engine s t h

/-- What an act of the part can be: a try, a placement or a grant, from the state or from the state with the choice
counted. -/
theorem State.actNext_some (s t : State) (h : s.actNext = some t) :
    ∃ f ∈ acts, (f s).isSome = true ∧ (f s = some t ∨ f { s with choices := s.choices + 1 } = some t) :=
  @pick_filter_some (State → Option State) (fun s f => f s) acts State.tryNext s t h

/-- The completion a list yields: one that may be placed, before which stand only such as may not and are passed. -/
theorem takeOldest_split (free passed : Completion → Bool) (l out : List Completion) (c : Completion)
    (h : takeOldest free passed l = some (c, out)) :
    ∃ before after : List Completion, l = before ++ c :: after ∧ out = before ++ after ∧ free c = true
      ∧ ∀ d ∈ before, free d = false ∧ passed d = true := by
  induction l generalizing out with
  | nil => simp [takeOldest] at h
  | cons x rest ih =>
    unfold takeOldest at h
    split at h
    · rename_i hx
      cases h
      exact ⟨[], rest, rfl, rfl, hx, by simp⟩
    · rename_i hx
      split at h
      · rename_i hp
        cases hr : takeOldest free passed rest with
        | none => rw [hr] at h; simp at h
        | some r =>
          rw [hr] at h
          simp only [Option.map_some, Option.some.injEq, Prod.mk.injEq] at h
          obtain ⟨b, a, h1, h2, h3, h4⟩ := ih r.2 (by rw [hr, ← h.1])
          refine ⟨x :: b, a, by rw [h1]; rfl, by rw [← h.2, h2]; rfl, h3, ?_⟩
          intro d hd
          rcases List.mem_cons.1 hd with rfl | hd
          · exact ⟨by simpa using hx, hp⟩
          · exact h4 d hd
      · cases h

/-- A list that may place a completion, and passes all that stand before it, yields that one. -/
theorem takeOldest_append (free passed : Completion → Bool) (before after : List Completion) (c : Completion)
    (hb : ∀ d ∈ before, free d = false ∧ passed d = true) (hc : free c = true) :
    takeOldest free passed (before ++ c :: after) = some (c, before ++ after) := by
  induction before with
  | nil => simp [takeOldest, hc]
  | cons x rest ih =>
    have hx := hb x List.mem_cons_self
    simp [takeOldest, hx.1, hx.2, ih (fun d hd => hb d (List.mem_cons_of_mem _ hd))]

/-- A list kept strictly oldest first yields nothing where its oldest completion may not be placed. -/
theorem takeOldest_strict (free : Completion → Bool) (c : Completion) (rest : List Completion) :
    takeOldest free (fun _ => false) (c :: rest) = if free c then some (c, rest) else none := by
  simp [takeOldest]

/-- A list yields nothing where one that may not be placed nor passed stands behind others that may not be placed. -/
theorem takeOldest_blocked (free passed : Completion → Bool) (before after : List Completion) (c : Completion)
    (hb : ∀ d ∈ before, free d = false) (hc : free c = false) (hp : passed c = false) :
    takeOldest free passed (before ++ c :: after) = none := by
  induction before with
  | nil => simp [takeOldest, hc, hp]
  | cons x rest ih =>
    have hx := hb x List.mem_cons_self
    simp [takeOldest, hx, ih (fun d hd => hb d (List.mem_cons_of_mem _ hd))]

/-- A list none of which may be placed yields nothing. -/
theorem takeOldest_none (free passed : Completion → Bool) (l : List Completion) (h : ∀ c ∈ l, free c = false) :
    takeOldest free passed l = none := by
  induction l with
  | nil => rfl
  | cons x rest ih =>
    have hx := h x List.mem_cons_self
    simp [takeOldest, hx, ih (fun d hd => h d (List.mem_cons_of_mem _ hd))]

/-- What a block's placement can be: its next completion, for which its class has room. -/
theorem State.placeFrom_some (s t : State) (p : Placer) (h : s.placeFrom p = some t) :
    ∃ c : Completion, s.nextFrom p = some (c, t) ∧ (p.commits = true ∨ otherRoom s.writer.outbound = true) := by
  unfold State.placeFrom at h
  split at h
  · rename_i c u hn
    split at h
    · rename_i hc
      cases h
      exact ⟨c, hn, by simpa using hc⟩
    · cases h
  · cases h

/-- The completion a block would place is one before which no earlier reading is owed, and it stands at the tail of the
outbound list once it is placed. -/
theorem State.nextFrom_some (s t : State) (p : Placer) (c : Completion) (h : s.nextFrom p = some (c, t)) :
    s.owed c = false ∧ t.writer = { s.writer with outbound := s.writer.outbound ++ [c] } := by
  cases p <;> simp only [State.nextFrom] at h <;> split at h
  · rename_i d jobs hd
    split at h
    · rename_i hf
      cases h
      exact ⟨by simpa using hf, rfl⟩
    · cases h
  · cases h
  all_goals first
    | cases h; done
    | rename_i hd
      cases h
      obtain ⟨_, _, _, _, hf, _⟩ := takeOldest_split _ _ _ _ _ hd
      exact ⟨by simpa using hf, rfl⟩

/-- What a placement of the part can be. -/
theorem State.placeNext_some (s t : State) (h : s.placeNext = some t) :
    s.active = true ∧ ∃ p ∈ allPlacers, (s.placeFrom p).isSome = true
      ∧ (s.placeFrom p = some t ∨ State.placeFrom { s with choices := s.choices + 1 } p = some t) := by
  unfold State.placeNext at h
  split at h
  · rename_i ha
    exact ⟨ha, pick_filter_some State.placeFrom allPlacers .jobList s t h⟩
  · cases h

/-- No reaction has anything to do exactly where each of them has nothing to do. -/
theorem firstReaction_none (fs : List (State → Option State)) (s : State) :
    firstReaction fs s = none ↔ ∀ f ∈ fs, f s = none := by
  induction fs with
  | nil => simp [firstReaction]
  | cons f rest ih =>
    unfold firstReaction
    cases hf : f s with
    | some t => simp [hf]
    | none => simp [hf, ih]

/-- What one reaction of the part can be. -/
theorem State.react_some (s t : State) (h : s.react = some t) : ∃ f ∈ reactions, f s = some t :=
  firstReaction_some _ _ _ h

/-- The part has settled exactly where each reaction has nothing to do. -/
theorem State.react_none (s : State) : s.react = none ↔ ∀ f ∈ reactions, f s = none :=
  firstReaction_none _ _

/-- A relation to the state at the start that every reaction keeps holds after at most `n` reactions. -/
theorem State.settleFor_keeps (P : State → Prop) (h : ∀ f ∈ reactions, ∀ s t, f s = some t → P s → P t) (n : Nat)
    (s : State) (hs : P s) : P (s.settleFor n) := by
  induction n generalizing s with
  | zero => exact hs
  | succ n ih =>
    unfold State.settleFor
    split
    · rename_i t ht
      obtain ⟨f, hf, e⟩ := State.react_some _ _ ht
      exact ih t (h f hf s t e hs)
    · exact hs

/-- What every reaction keeps, settling keeps. -/
theorem State.settle_keeps (P : State → Prop) (h : ∀ f ∈ reactions, ∀ s t, f s = some t → P s → P t) (s : State)
    (hs : P s) : P s.settle :=
  State.settleFor_keeps P h _ s hs

/-- A settled state settles to itself. -/
theorem State.settleFor_of_quiet (n : Nat) (s : State) (h : s.react = none) : s.settleFor n = s := by
  cases n with
  | zero => rfl
  | succ n => unfold State.settleFor; rw [h]

theorem State.settle_of_quiet (s : State) (h : s.react = none) : s.settle = s :=
  State.settleFor_of_quiet _ s h

/-- Where the work left falls with every reaction, so many reactions as there is work left settle the part. -/
theorem State.settleFor_quiet (h : ∀ s t : State, s.react = some t → t.workLeft < s.workLeft) (n : Nat) (s : State)
    (hn : s.workLeft ≤ n) : (s.settleFor n).react = none := by
  induction n generalizing s with
  | zero =>
    unfold State.settleFor
    cases hr : s.react with
    | none => rfl
    | some t => have := h s t hr; omega
  | succ n ih =>
    unfold State.settleFor
    split
    · rename_i t ht
      have := h s t ht
      exact ih t (by omega)
    · assumption

end Sys2Proof.Machine
end

