-- ==== Sys2Proof/Laws/Events.lean ====
section
/-! SUPPORT. What the shared operations of the events can do, said once: the end of a line, the gates that open at a
blanking start, the mark of the timebase and what it makes due. -/

namespace Sys2Proof.Machine

/-! ## Lines -/

/-- A covered active line ends with one value for each column (R96, R100). -/
theorem Scan.wholeLine_length (sc : Scan) (m : Panel) (t : Timing) (b : Band) (ht : sc.timing = some t)
    (hl : sc.line < t.vAct) (hb : bandAt sc.active.bands sc.line = some b) (hs : sc.sent.length ≤ t.hAct) :
    (sc.wholeLine m).length = t.hAct := by
  unfold Scan.wholeLine
  simp only [ht, if_pos hl, hb, List.length_append, List.length_map, List.length_range']
  omega

/-- The end of a line changes the values shown alone. -/
theorem Scan.endLine_same (sc : Scan) (m : Panel) :
    (sc.endLine m).line = sc.line ∧ (sc.endLine m).frame = sc.frame ∧ (sc.endLine m).timing = sc.timing
      ∧ (sc.endLine m).active = sc.active ∧ (sc.endLine m).palette = sc.palette ∧ (sc.endLine m).sent = sc.sent :=
  ⟨rfl, rfl, rfl, rfl, rfl, rfl⟩

/-! ## Blanking starts -/

@[simp] theorem State.gatesFirst_false (s : State) : s.gatesFirst false = s := rfl

/-- Where a gate has opened, some of the reactions it brings about are made before the latch step. -/
theorem State.gatesFirst_true (s : State) :
    ∃ n : Nat, n ≤ s.workLeft ∧ s.gatesFirst true = (s.pick (s.workLeft + 1)).2.settleFor n := by
  have h := State.pick_lt s (s.workLeft + 1) (Nat.succ_pos _)
  exact ⟨(s.pick (s.workLeft + 1)).1, by omega, rfl⟩

/-! ## Completion writes -/

/-- A written completion's entry leaves at most; the others stay in their order. -/
theorem dropWritten_sublist (c : Completion) (es : List Entry) : (dropWritten c es).Sublist es := by
  induction es with
  | nil => exact List.Sublist.refl _
  | cons e rest ih =>
    unfold dropWritten
    split
    · exact List.sublist_cons_self e rest
    · exact List.Sublist.cons_cons e ih

/-! ## The timebase -/

@[simp] theorem Waiter.tick_ref (w : Waiter) : w.tick.ref = w.ref := rfl

@[simp] theorem Head.tick_holder (hd : Head) : hd.tick.lease.holder = hd.lease.holder := rfl

@[simp] theorem Head.tick_scan (hd : Head) : hd.tick.scan = hd.scan := rfl

@[simp] theorem Head.tick_present (hd : Head) : hd.tick.present = hd.present := rfl

@[simp] theorem Head.tick_staging (hd : Head) : hd.tick.staging = hd.staging := rfl

@[simp] theorem Head.tick_light (hd : Head) : hd.tick.light = hd.light := rfl

@[simp] theorem Head.tick_linkState (hd : Head) : hd.tick.link.state = hd.link.state := rfl

@[simp] theorem State.ticked_head (s : State) (h : HeadId) : s.ticked.head h = (s.head h).tick := by
  match h with
  | 0 => rfl
  | 1 => rfl

/-- Each end that a mark makes due is the effect of its own command. -/
theorem execLinkStepEnd_of_due (h : HeadId) (s t : State) (e : s.takeDue (.step h) = some t) :
    execLinkStepEnd h s = .next t := by
  show Host.Outcome.next (((s.takeDue (.step h))).getD s) = _
  rw [e]; rfl

theorem execWaiterExpiry_of_due (h : HeadId) (k : StreamId) (s t : State) (e : s.takeDue (.waiter h k) = some t) :
    execWaiterExpiry h k s = .next t := by
  show Host.Outcome.next (((s.takeDue (.waiter h k))).getD s) = _
  rw [e]; rfl

/-- With nothing due nothing is taken. -/
theorem State.takeAllDue_of_none (n : Nat) (s : State) (h : s.due = []) : s.takeAllDue n = s := by
  cases n with
  | zero => rfl
  | succ n => unfold State.takeAllDue; rw [h]; rfl

/-- What every end that is due keeps, and a choice, the taking of all of them keeps. -/
theorem State.takeAllDue_keeps (P : State → Prop) (hc : ∀ s : State, P s → P { s with choices := s.choices + 1 })
    (hd : ∀ (s t : State) (d : Due), s.takeDue d = some t → P s → P t) (n : Nat) (s : State) (hs : P s) :
    P (s.takeAllDue n) := by
  induction n generalizing s with
  | zero => exact hs
  | succ n ih =>
    unfold State.takeAllDue
    split
    · exact hs
    · apply ih
      have hp : P (s.pick s.due.length).2 := by
        rcases State.pick_state s s.due.length with e | e
        · rw [e]; exact hs
        · rw [e]; exact hc s hs
      cases e : (s.pick s.due.length).2.takeDue (s.due.getD (s.pick s.due.length).1 (.step 0)) with
      | none => exact hp
      | some t => exact hd _ _ _ e hp

end Sys2Proof.Machine
end

