-- ==== Sys2Proof/Tests/Slice0.lean ====
section
/-! SUPPORT. Tests of the model on small states: expected values are the manual's own worked examples and tables, named in
each comment, or are worked out by hand from the rule named; and witnesses that the hypotheses of each statement are met
together, clause by clause, at boundary values where a clause has a range. -/

namespace Sys2Proof.Tests

open Sys2Proof Sys2Proof.Machine

set_option Elab.async false

/-! ## Small states -/

/-- A ring of 16 slots at 1000h times one more than the stream's number, stream 3 URGENT. -/
def ringOf (k : StreamId) : Ring :=
  { base := BitVec.ofNat 64 (0x1000 * (k.val + 1)), size := 16, fetchClass := if k = 3 then .urgent else .normal
    post := 0, fetch := 0 }

/-- An enabled stream with nothing posted. -/
def idleStream (k : StreamId) : Stream := { Stream.disabled with ring := some (ringOf k) }

/-- A small timing. -/
def timing : Timing := { hAct := 16, vAct := 16, vBlank := 2, linePeriod := 1000, frameCause := true }

/-- The delays of section 7.6. -/
def delays : Delays := { supply := 20, signal := 10, light := 5 }

/-- A loaded head with its link OFF. -/
def darkHead : Head :=
  { Head.atPowerOn with
    scan := { Head.atPowerOn.scan with timing := some timing }, link := { Link.off with delays := some delays } }

/-- A loaded head with its link ON, at a frame and a line. -/
def litHead (frame : Word) (line : Nat) : Head :=
  { darkHead with
    scan := { darkHead.scan with frame := frame, line := line }, link := { darkHead.link with state := .on, target := .on } }

/-- A completion ring of 16 entries. -/
def completionRing : CompletionRing := { base := 0x8000, size := 16, producer := 0, lap := true, retire := 0 }

/-- A part that has loaded a Setup Table with all four streams. -/
def live : State :=
  { State.reset with
    regs := { Registers.atPowerOn with device := .running }
    streams := ⟨idleStream 0, idleStream 1, idleStream 2, idleStream 3⟩
    heads := .all darkHead
    writer := { Writer.empty with ring := some completionRing } }

/-- The same in another device state. -/
def inState (d : Device) : State := { live with regs := { live.regs with device := d } }

/-- The part with both heads replaced. -/
def withHeads (a b : Head) : State := { live with heads := ⟨a, b⟩ }

/-- A head whose lease a stream holds. -/
def heldBy (hd : Head) (k : StreamId) : Head := { hd with lease := { hd.lease with holder := some k } }

/-- One byte of a slot that holds fields given as offset, size and value. -/
def slotByte (fields : List (Nat × Nat × Nat)) (i : Nat) : Byte :=
  match fields.find? (fun f => decide (f.1 ≤ i) && decide (i < f.1 + f.2.1)) with
  | some f => BitVec.ofNat 8 (f.2.2 / 256 ^ (i - f.1))
  | none => 0

/-- A slot that holds fields. -/
def slotOf (fields : List (Nat × Nat × Nat)) : List Byte := (List.range 64).map (slotByte fields)

/-- The first slot of a record: kind, slot count, flags, head or context byte, tag 0A01h, and its fields. -/
def firstSlot (kind count flags unit : Nat) (fields : List (Nat × Nat × Nat)) : List Byte :=
  slotOf ([(0, 1, kind), (1, 1, count), (2, 1, flags), (3, 1, unit), (4, 2, 0x0A01)] ++ fields)

/-- The part in which stream `k` has read a whole record from slot 0 on. -/
def withRecord (s : State) (k : StreamId) (slots : List (List Byte)) : State :=
  s.setStream k
    { s.stream k with
      ring := some { ringOf k with post := slots.length, fetch := slots.length }
      current := some { index := 0, slots := slots, phase := .whole } }

/-- The record of stream `k` in such a part. -/
def recordOf (slots : List (List Byte)) : CurrentRecord := { index := 0, slots := slots, phase := .whole }

/-- A command answers a next state of which something holds. -/
def after (i : Instr) (s : State) (p : State → Bool) : Bool :=
  match exec i s with
  | .next t => p t
  | .fault _ => false
  | .refused _ => false

/-- The completions placed or written by a state, with what was being written first. -/
def outcomes (s : State) : List Machine.Outcome := s.writer.outbound.map (fun c => c.outcome)

/-! ## Well-formed commands: an ill-formed one for each check -/

theorem test_wf_other_place_refused : (Instr.registerWriteOther 0x1C#6 0).wellFormed = false := by decide +kernel
theorem test_wf_other_control_code_refused : (Instr.registerWriteOther 0x04#6 3).wellFormed = false := by decide +kernel
theorem test_wf_other_accepted : (Instr.registerWriteOther 0x04#6 6).wellFormed = true
    ∧ (Instr.registerWriteOther 0x24#6 1).wellFormed = true := by decide +kernel
theorem test_wf_setup_length_refused : (Instr.setupReadAnswer (.data [0, 0])).wellFormed = false := by decide +kernel
theorem test_wf_slot_length_refused : (Instr.slotReadAnswer (.data (List.replicate 65 0))).wellFormed = false := by
  decide +kernel
theorem test_wf_palette_component_refused : (Instr.paletteReadAnswer 0 768 .busError).wellFormed = false := by
  decide +kernel
theorem test_wf_source_pixel_refused : (Instr.sourceReadAnswer 0 .busError).wellFormed = false
    ∧ (Instr.sourceReadAnswer 4194305 .busError).wellFormed = false := by decide +kernel

/-! ## Window writes, from the bits of R172 -/

/-- CONTROL, command code 4 in bits 3..0 and stream 2 in bits 9..8; and code 5 with stream 3, unassigned bits set. -/
theorem test_decode_control : decodeWindowWrite 0x04#6 0x00000204#32 = .resume 2
    ∧ decodeWindowWrite 0x04#6 0xFFFFFFF5#32 = .flush 3 ∧ decodeWindowWrite 0x04#6 0x00000001#32 = .start
    ∧ decodeWindowWrite 0x04#6 0x00000006#32 = .registerWriteOther 0x04#6 6 := by decide +kernel

/-- The other writable registers stand at 0Ch, 10h, 14h, 18h, 1Ch and 20h. -/
theorem test_decode_registers : decodeWindowWrite 0x0C#6 7 = .causeWrite 7
    ∧ decodeWindowWrite 0x10#6 7 = .causeEnableWrite 7 ∧ decodeWindowWrite 0x14#6 7 = .setupAddressWrite .low 7
    ∧ decodeWindowWrite 0x18#6 7 = .setupAddressWrite .high 7 ∧ decodeWindowWrite 0x1C#6 7 = .post 7
    ∧ decodeWindowWrite 0x20#6 7 = .retire 7 := by decide +kernel

/-! ## Tables and worked examples of the manual -/

/-- The widenings worked out after R28. -/
theorem test_widen_sources : widenPixel .r4g4b4 0x0A5C = 0xAA55CC#24 ∧ widenPixel .r4g4b4 0xFA5C = 0xAA55CC#24
    ∧ widenPixel .r5g6b5 0x7BEF = 0x7B7D7B#24 ∧ widenPixel .r5g6b5 0xF800 = 0xFF0000#24
    ∧ widenPixel .r6g6b6 0x0003F000 = 0xFF0000#24 ∧ widenPixel .x8r8g8b8 0x12345678 = 0x345678#24
    ∧ widenPixel .i8 0x9D = 0x00009D#24 := by decide +kernel

/-- R30: the source 001Fh of R5G6B5 matches the key 0000FFh with mask FFFFFFh. -/
theorem test_key_matches_widened :
    ({ key := 0x0000FF, mask := 0xFFFFFF, sense := .skipMatch } : Key).skips (widenPixel .r5g6b5 0x001F) = true := by
  decide +kernel

/-- The reductions worked out after R99, for FF8000h and 404040h through a DIRECT band. -/
theorem test_reduce_direct :
    outputOf .direct .full Palette.zero 0xFF8000 = .colour 1023 514 0
      ∧ outputOf .direct .depth6 Palette.zero 0xFF8000 = .colour 63 32 0
      ∧ outputOf .direct .monoLuma Palette.zero 0xFF8000 = .grey 608
      ∧ outputOf .direct .monoEven Palette.zero 0xFF8000 = .grey 512
      ∧ outputOf .direct .monoGreen Palette.zero 0xFF8000 = .grey 514
      ∧ outputOf .direct .monoLuma Palette.zero 0x404040 = .grey 257 := by decide +kernel

/-- The same for components 300, 600, 900. -/
theorem test_reduce_indexed :
    reduceOutput .depth6 { red := 300, green := 600, blue := 900 } = .colour 18 37 56
      ∧ reduceOutput .monoLuma { red := 300, green := 600, blue := 900 } = .grey 543
      ∧ reduceOutput .monoEven { red := 300, green := 600, blue := 900 } = .grey 600 := by decide +kernel

/-- The window of section 1.7.1. -/
def window171 : Window :=
  { xStart := 10, xEnd := 12, yStart := 5, yEnd := 6, order := .rowFirst, xDir := .dec, yDir := .inc }

/-- The window of section 1.7.2. -/
def window172 : Window := { window171 with order := .columnFirst, xDir := .inc, yDir := .dec }

/-- The positions a window visits from its start corner, at most `n`. -/
def visits (w : Window) : Nat → Option Position → List (Nat × Nat)
  | 0, _ => []
  | _, none => []
  | n + 1, some p => (p.column, p.line) :: visits w n (w.stepFrom p)

/-- The visits of sections 1.7.1 and 1.7.2, after which the cursor is ENDED. -/
theorem test_visits :
    visits window171 9 (some window171.corner) = [(12, 5), (11, 5), (10, 5), (12, 6), (11, 6), (10, 6)]
      ∧ visits window172 9 (some window172.corner) = [(10, 6), (10, 5), (11, 6), (11, 5), (12, 6), (12, 5)] := by
  decide +kernel

/-- The bands of section 5.8.2. -/
def bands582 : List Band :=
  [{ screenFirst := 0, lineCount := 456, memBase := 100, memExtent := 456, scroll := 24, colBase := 0, use := .direct },
    { screenFirst := 464, lineCount := 16, memBase := 1000, memExtent := 16, scroll := 0, colBase := 0, use := .indexed }]

/-- The memory lines of the table of section 5.8.2; line 460 shows the background. -/
theorem test_bands : [0, 431, 432, 455, 460, 470].map (fun y => (bandAt bands582 y).map (fun b => b.memoryLine y))
    = [some 124, some 555, some 100, some 123, none, some 1006] := by decide +kernel

/-- Section 5.8.3: columns 447 and 448 of a band at col_base 1600. -/
theorem test_columns : ({ screenFirst := 0, lineCount := 300, memBase := 0, memExtent := 300, scroll := 0
                          colBase := 1600, use := .direct } : Band).memoryColumn 447 = 2047
    ∧ ({ screenFirst := 0, lineCount := 300, memBase := 0, memExtent := 300, scroll := 0
         colBase := 1600, use := .direct } : Band).memoryColumn 448 = 0 := by decide +kernel

/-- The ramps of section 7.6.1. -/
theorem test_ramp : [0, 48, 96, 144, 192].map (fun l => rampToward l 200 48) = [48, 96, 144, 192, 200]
    ∧ [200, 152, 104, 56].map (fun l => rampToward l 40 48) = [152, 104, 56, 40] := by decide +kernel

/-- IDENT reads 02410898h (R172). -/
theorem test_ident : live.readRegister 0x00#6 = 0x02410898#32 := by decide +kernel

/-- STATUS in RUNNING with both links OFF and four IDLE streams: device state 2, stream codes 1 (R172). -/
theorem test_status : live.readRegister 0x08#6 = 0x11110002#32 := by decide +kernel

/-! ## One step of each command -/

/-- R170: everything at its reset value, panel memory unknown anew. -/
theorem test_power_on : after .powerOnReset (inState .fault)
    (fun t => decide (t.regs.device = .idle) && decide (t.panel.powerOns = 1) && (t.stream 0).ring.isNone) = true := by
  decide +kernel

/-- Section 9.10: START with the address 0001_0000h. -/
theorem test_start_loads : after .start { State.reset with regs := { Registers.atPowerOn with setupLo := 0x00010000 } }
    (fun t => decide (t.regs.device = .loading)
      && decide (t.loader.map (fun l => l.readAddress) = some 0x00010000#64)) = true := by decide +kernel

/-- R163: an address that is no multiple of 64 ends the START at once with TABLE_ALIGN, code 1, and the cause SETUP. -/
theorem test_start_unaligned : after .start { State.reset with regs := { Registers.atPowerOn with setupLo := 0x20 } }
    (fun t => decide (t.readRegister 0x08#6 = 0x00000010#32) && decide (t.regs.cause = 0x100#9)) = true := by decide +kernel

/-- A FILL of count 2 of stream 1 running on context 2, its first pixel presented. -/
def filling : State :=
  { live.setContext 1 2 (.set window171 (some { column := 12, line := 5 })) with
    jobs := [{ newJob { stream := 1, tag := 7, notify := false, silent := false, ringIndex := 3 } 1
                 (.fill 2 .fresh 0x0000FF 2) none 0 with state := .running }]
    engine := { Engine.free with phase := .write 0x0000FF } }

/-- Section 9.10: STOP with a job RUNNING: STOPPING, and every enabled stream shows STOPPED, code 4. -/
theorem test_stop_stopping : after .stop filling (fun t => decide (t.readRegister 0x08#6 = 0x44440003#32)) = true := by
  decide +kernel

/-- R167: STOP with no job: STOPPED in the same event. -/
theorem test_stop_stopped : after .stop live (fun t => decide (t.regs.device = .stopped)) = true := by decide +kernel

/-- R168: RESET keeps CAUSE_ENABLE and the active set, and clears the causes. -/
theorem test_reset : after .reset
    { (inState .fault) with
      regs := { live.regs with device := .fault, cause := 2, causeEnable := 0x102 }
      heads := .all { litHead 7 3 with scan := { (litHead 7 3).scan with active := ⟨bands582, 9, .depth6⟩ } } }
    (fun t => decide (t.regs.device = .idle) && decide (t.regs.cause = 0) && decide (t.regs.causeEnable = 0x102)
      && decide ((t.head 1).staging.picture.bands = bands582) && decide ((t.head 1).scan.frame = 0)) = true := by
  decide +kernel

/-- Section 9.10: RESUME of a DISABLED stream sets CONTROL_REFUSED, bit 7. -/
theorem test_resume_refused : after (.resume 1) { live with streams := ⟨idleStream 0, .disabled, idleStream 2, .disabled⟩ }
    (fun t => decide (t.regs.cause = 0x080#9)) = true := by decide +kernel

/-- Stream 1 of section 3.11.1, HALTED at slot 2 with one slot posted. -/
def halted311 : State :=
  live.setStream 1 { idleStream 1 with ring := some { ringOf 1 with fetch := 2, post := 3 }, halt := some 2, batch := 3 }

/-- Section 3.11.1: RESUME 1; the stream is RUNNING and slot 2 is read, at the ring's base plus 128. -/
theorem test_resume : after (.resume 1) halted311
    (fun t => decide (t.streamCode 1 = .running)
      && decide (t.fetch.read = some { stream := 1, address := 0x2080, discard := false })) = true := by decide +kernel

/-- R63: FLUSH of the halted stream: fetch index at the post index, batch counter 0. -/
theorem test_flush : after (.flush 1) halted311
    (fun t => decide (t.streamCode 1 = .idle) && decide ((t.stream 1).batch = 0)
      && decide ((t.stream 1).ring.map (fun r => r.fetch) = some 3)) = true := by decide +kernel

/-- Section 3.11.1: POST 0 to stream 1 with the fetch index at 14: a read of slot 14 is issued. -/
theorem test_post : after (.post 0x00010000)
    (live.setStream 1 { idleStream 1 with ring := some { ringOf 1 with fetch := 14, post := 14 } })
    (fun t => decide (t.streamCode 1 = .running)
      && decide (t.fetch.read = some { stream := 1, address := 0x2380, discard := false })) = true := by decide +kernel

/-- R46: the index 16 is rejected in a ring of 16 slots. -/
theorem test_post_rejected : after (.post 0x00010010) live
    (fun t => decide (t.regs.cause = 0x040#9) && decide (t.streams = live.streams)) = true := by decide +kernel

/-- A completion of stream 0, tag 5, ring index 6. -/
def completion (kind : Byte) (status : Status) (notify : Bool) (origin : Option HeadId) : Completion :=
  { stream := 0, kind := kind, outcome := { status := status }, tag := 5, ringIndex := 6, notify := notify, origin := origin }

/-- Section 8.7 when P1 and S1 wait at producer 15 with the retire index at 0, head 0 with its LATCHED entry. -/
def full87 : State :=
  { live with
    heads :=
      ⟨{ darkHead with
          present := { Present.empty with
            entries := [{ ref := { stream := 0, tag := 5, notify := false, silent := false, ringIndex := 6 }
                          policy := .queue, notBefore := 0, missed := 0, snapshot := .black, pal := false, batch := 0
                          state := .latched }] } }, darkHead⟩
    writer := { outbound := [completion 0x24 .done false (some 0), completion 0x02 .sourceError false none]
                ring := some { completionRing with producer := 15 }, write := none } }

/-- Section 8.7: RETIRE 10 lets the write of P1 be issued, at entry 15. -/
theorem test_retire : after (.retire 10) full87
    (fun t => decide (t.writer.write.map (fun w => w.address) = some 0x80F0#64)) = true := by decide +kernel

/-- R149: a RETIRE of the ring's size is rejected. -/
theorem test_retire_rejected : after (.retire 16) full87 (fun t => decide (t.regs.cause = 0x040#9)) = true := by
  decide +kernel

/-- Section 8.7 after that write was issued. -/
def writing87 : State :=
  { full87 with
    writer := { full87.writer with
      ring := some { completionRing with producer := 15, retire := 10 }
      write := some { address := 0x80F0, bytes := (completion 0x24 .done false (some 0)).bytes true } } }

/-- Section 8.7: P1 is written; the producer wraps, the lap bit flips, the LATCHED entry leaves its queue, and S1 is written
next at entry 0, with lap bit 0 and status 87h. -/
theorem test_completion_written : after (.completionWriteAnswer .accepted) writing87
    (fun t => decide (t.writer.ring.map (fun r => (r.producer, r.lap)) = some (0, false))
      && (t.head 0).present.entries.isEmpty && decide (t.regs.cause = 0)
      && decide (t.writer.write.map (fun w => (w.address, w.bytes.take 4)) = some (0x8000, [0x00, 0x02, 0x87, 0x00]))) = true := by
  decide +kernel

/-- R152: a bus error on a completion write leads to FAULT, detail 1, with the cause ERROR. -/
theorem test_completion_fault : after (.completionWriteAnswer .busError) writing87
    (fun t => decide (t.readRegister 0x08#6 = 0x11110015#32) && decide (t.regs.cause = 2)) = true := by decide +kernel

/-- Section 9.10: the host clears SETUP by writing a one to bit 8, and the line is deasserted. -/
theorem test_cause_write : after (.causeWrite 0x100)
    { State.reset with regs := { Registers.atPowerOn with cause := 0x102, causeEnable := 0x100 } }
    (fun t => decide (t.regs.cause = 2) && !interruptLine t) = true := by decide +kernel

/-- R155: enabling a cause that is set asserts the line at once; bits 31..9 are ignored. -/
theorem test_cause_enable_write : after (.causeEnableWrite 0xFFFFFE02)
    { State.reset with regs := { Registers.atPowerOn with cause := 2 } }
    (fun t => decide (t.readRegister 0x10#6 = 2) && interruptLine t) = true := by decide +kernel

/-- R160: SETUP_HI gives bits 63..32. -/
theorem test_setup_address : after (.setupAddressWrite .high 0x00000001) live
    (fun t => decide (t.setupAddress = 0x0000000100000000#64)) = true := by decide +kernel

/-- R161: command code 6 names no command. -/
theorem test_other_control : after (.registerWriteOther 0x04#6 6) live (fun t => decide (t.regs.cause = 0x080#9)) = true := by
  decide +kernel

/-- R157: a write to an address that names no register has no effect. -/
theorem test_other_nowhere : after (.registerWriteOther 0x24#6 1) live (fun t => decide (t.regs = live.regs)) = true := by
  decide +kernel

/-- The four quarters of section 9.10's table, stream 2 with a size: streams 0 and 2 enabled. -/
def tableQuarters (size : Nat) : List (List Byte) :=
  [slotOf [(0x00, 8, 0x1000), (0x08, 2, 16), (0x0B, 1, 1), (0x20, 8, 0x2000), (0x28, 2, size), (0x2B, 1, 1)],
    slotOf [(0x00, 8, 0x8000), (0x08, 2, 16), (0x20, 2, 640), (0x22, 2, 480), (0x24, 2, 20), (0x26, 2, 33333)],
    slotOf [(0x00, 2, 640), (0x02, 2, 480), (0x04, 2, 20), (0x06, 2, 33333)], slotOf []]

/-- LOADING with three quarters read. -/
def loading (size : Nat) : State :=
  { State.reset with
    regs := { Registers.atPowerOn with device := .loading, setupLo := 0x00010000 }
    loader := some { address := 0x00010000, quarters := (tableQuarters size).take 3 } }

/-- Section 9.10: stream 2's size of 48 is no power of two: IDLE with STREAM2, code 5, and SETUP. -/
theorem test_setup_fails : after (.setupReadAnswer (.data (slotOf []))) (loading 48)
    (fun t => decide (t.readRegister 0x08#6 = 0x00000050#32) && decide (t.regs.cause = 0x100#9)) = true := by decide +kernel

/-- Section 9.10: with 64 slots the part is RUNNING, and the streams show IDLE, DISABLED, IDLE, DISABLED. -/
theorem test_setup_loads : after (.setupReadAnswer (.data (slotOf []))) (loading 64)
    (fun t => decide (t.readRegister 0x08#6 = 0x01010002#32)) = true := by decide +kernel

/-- Section 3.11.1 with the read of a slot outstanding. -/
def reading311 (fetch post : Nat) : State :=
  { live.setStream 1 { idleStream 1 with ring := some { ringOf 1 with fetch := fetch, post := post }, batch := 3 } with
    fetch := { FetchUnit.atReset with read := some { stream := 1, address := 0x2000, discard := false } } }

/-- Section 3.11.1: slot 15 answered, the first of a TRANSFER of two slots: WAITING POSTING, code 8. -/
theorem test_slot_waits_posting : after (.slotReadAnswer (.data (firstSlot 0x02 2 0 0 [(0x12, 1, 4)]))) (reading311 15 0)
    (fun t => decide (t.streamCode 1 = .waiting .posting) && decide ((t.stream 1).ring.map (fun r => r.fetch) = some 0)) = true := by
  decide +kernel

/-- R46: the first slot of a record of three, one of the other two posted: WAITING POSTING, and the posted one is read (R47). -/
theorem test_partly_posted_waits : after (.slotReadAnswer (.data (firstSlot 0x02 3 0 0 []))) (reading311 15 1)
    (fun t => decide (t.streamCode 1 = .waiting .posting)
      && decide (t.fetch.read = some { stream := 1, address := 0x2000, discard := false })) = true := by decide +kernel

/-- R60: a bus error on a first slot halts the stream one slot on, with kind 0 and tag 0. -/
theorem test_slot_bus_error : after (.slotReadAnswer .busError) (reading311 15 0)
    (fun t => decide ((t.stream 1).halt = some 0)
      && decide (t.writer.outbound.map (fun c => (c.kind, c.tag, c.ringIndex, c.outcome.status))
        = [(0x00#8, 0#16, 15, Status.fetchError)])) = true := by decide +kernel

/-! ## Record commands -/

/-- A WINDOW record of section 1.7.1 on context 2, with an x_start. -/
def windowSlot (xStart : Nat) : List Byte :=
  firstSlot 0x01 1 0 2 [(0x10, 2, xStart), (0x12, 2, 12), (0x14, 2, 5), (0x16, 2, 6), (0x18, 1, 0), (0x19, 1, 1)]

/-- Section 1.7.1: the WINDOW runs at once on the free engine and sets the cursor to (12, 5). -/
theorem test_window : after (.window 1) (withRecord live 1 [windowSlot 10])
    (fun t => decide (t.context 1 2 = .set window171 (some { column := 12, line := 5 }))
      && decide (outcomes t = [{ status := .done }])) = true := by decide +kernel

/-- Section 3.11.1: a WINDOW whose x_start is greater than its x_end ends BAD_FIELD and halts at the next slot. -/
theorem test_window_bad : after (.window 1) (withRecord live 1 [windowSlot 13])
    (fun t => decide ((t.stream 1).halt = some 1) && decide (outcomes t = [{ status := .badField }])) = true := by
  decide +kernel

/-- A TRANSFER record of a context: mode, format R5G6B5, count and source. -/
def transferSlot (mode count source : Nat) : List Byte :=
  firstSlot 0x02 1 0 2 [(0x10, 1, mode), (0x11, 1, 1), (0x14, 4, count), (0x18, 8, source)]

/-- R13: the job is added, runs, finds its context UNSET and ends NO_WINDOW; its stream halts after the record. -/
theorem test_transfer_no_window : after (.transfer 1) (withRecord live 1 [transferSlot 0 5 0x2000])
    (fun t => decide ((t.stream 1).halt = some 1) && decide (outcomes t = [{ status := .noWindow }])) = true := by
  decide +kernel

/-- R27: a source address of an R5G6B5 TRANSFER is a multiple of 2. -/
theorem test_transfer_alignment : after (.transfer 1) (withRecord live 1 [transferSlot 0 5 0x2001])
    (fun t => decide (outcomes t = [{ status := .badField }])) = true := by decide +kernel

/-- A context at a cursor, in stream 1. -/
def placed (cursor : Option Position) : State := live.setContext 1 2 (.set window171 cursor)

/-- Section 1.7.1: a FILL, CONTINUE, of count 0 at an ENDED cursor ends DONE, values 0, no flag. -/
theorem test_fill_ended : after (.fill 1)
    (withRecord (placed none) 1 [firstSlot 0x03 1 0 2 [(0x10, 1, 1), (0x14, 4, 0), (0x18, 4, 0xFF)]])
    (fun t => decide (outcomes t = [{ status := .done }]) && t.jobs.isEmpty) = true := by decide +kernel

/-- R33: a FILL gated on a head that is not scanning runs with the bypassed mark. -/
theorem test_fill_gated : after (.fill 1)
    (withRecord (placed none) 1 [firstSlot 0x03 2 0 2 [(0x10, 1, 1), (0x12, 1, 4)], slotOf [(0x10, 1, 1), (0x12, 2, 17)]])
    (fun t => decide (outcomes t = [{ status := .done, flags := { gateBypassed := true } }])) = true := by decide +kernel

/-- R32: a READBACK in mode NEW places the cursor and reads its first pixel. -/
theorem test_readback : after (.readback 1)
    (withRecord (placed none) 1 [firstSlot 0x04 1 0 2 [(0x10, 1, 0), (0x14, 4, 1), (0x18, 8, 0x40)]])
    (fun t => decide (t.engine.phase = .read)
      && decide (t.context 1 2 = .set window171 (some { column := 12, line := 5 }))) = true := by decide +kernel

/-- Section 4.7.1: head 1 held by stream 0; a CLAIM of stream 2 with wait and 5 ms joins the waiters. -/
theorem test_claim_waits : after (.claim 2)
    (withRecord (withHeads darkHead (heldBy darkHead 0)) 2 [firstSlot 0x10 1 0 1 [(0x10, 1, 1), (0x12, 2, 5)]])
    (fun t => decide ((t.head 1).lease.waiters.map (fun w => (w.ref.stream, w.remaining)) = [(2, some 5)])
      && decide (t.streamCode 2 = .waiting .lease)) = true := by decide +kernel

/-- Section 4.7.1: a CLAIM of stream 1 without wait is refused and halts the stream. -/
theorem test_claim_refused : after (.claim 1)
    (withRecord (withHeads darkHead (heldBy darkHead 0)) 1 [firstSlot 0x10 1 0 1 []])
    (fun t => decide (t.streamCode 1 = .halted) && decide (outcomes t = [{ status := .claimRefused }])) = true := by
  decide +kernel

/-- Head 1 held by stream 0, stream 2 waiting with 1 ms left, or as given, and an active picture that differs from the
staged one. -/
def leased (remaining : Option Nat) : State :=
  withRecord
    (withHeads darkHead
      { darkHead with
        lease := { holder := some 0
                   waiters := [{ ref := { stream := 2, tag := 0x0A01, notify := false, silent := false, ringIndex := 0 }
                                 remaining := remaining }] }
        staging := { darkHead.staging with picture := ⟨bands582, 1, .full⟩ } })
    2 [firstSlot 0x10 1 0 1 [(0x10, 1, 1), (0x12, 2, 5)]] |>.setPhase 2 .waitLease

/-- Section 4.7.1, the RELEASE taken first: the lease passes to stream 2, whose CLAIM is DONE, after a staging reload
(the RELEASE is SILENT, so that one completion alone is placed). -/
theorem test_release : after (.release 0) (withRecord (leased (some 1)) 0 [firstSlot 0x11 1 2 1 []])
    (fun t => decide ((t.head 1).lease = { holder := some 2, waiters := [] })
      && decide ((t.head 1).staging.picture = .black) && (t.stream 2).current.isNone
      && decide (t.writer.outbound.map (fun c => (c.stream, c.outcome)) = [(2, { status := .done })])) = true := by
  decide +kernel

/-- R74: a RELEASE by a stream that is not the holder ends NOT_OWNER. -/
theorem test_release_not_owner : after (.release 1) (withRecord (leased (some 1)) 1 [firstSlot 0x11 1 0 1 []])
    (fun t => decide (outcomes t = [{ status := .notOwner }]) && decide ((t.head 1).lease.holder = some 0)) = true := by
  decide +kernel

/-- Head 0 held by stream 0. -/
def owned : State := withHeads (heldBy darkHead 0) darkHead

/-- A BANDS record of head 0 with one band over lines 0 to `lines - 1`, scrolled by 3 in 16 memory lines from 100 on. -/
def bandsSlot (lines : Nat) : List Byte :=
  firstSlot 0x20 1 0 0
    [(0x10, 1, 1), (0x14, 4, 0x202020), (0x18, 2, 0), (0x1A, 2, lines), (0x1C, 2, 100), (0x1E, 2, 16), (0x20, 2, 3),
      (0x22, 2, 0x4005)]

/-- The band such a record stages, of INDEXED use and at memory column 5. -/
def stagedBand : Band :=
  { screenFirst := 0, lineCount := 16, memBase := 100, memExtent := 16, scroll := 3, colBase := 5, use := .indexed }

/-- R106, R176: the band table and the background are staged. -/
theorem test_bands_record : after (.bands 0) (withRecord owned 0 [bandsSlot 16])
    (fun t => decide ((t.head 0).staging.picture = ⟨[stagedBand], 0x202020, .full⟩)
      && decide (outcomes t = [{ status := .done }])) = true := by decide +kernel

/-- R105: a band that ends beyond V_ACT, here 16, is refused. -/
theorem test_bands_refused : after (.bands 0) (withRecord owned 0 [bandsSlot 17])
    (fun t => decide (outcomes t = [{ status := .badField }])) = true := by decide +kernel

/-- Head 0 held by stream 0, with that band staged. -/
def staged : State :=
  withHeads (heldBy { darkHead with staging := { darkHead.staging with picture := ⟨[stagedBand], 0x202020, .full⟩ } } 0)
    darkHead

/-- R107: the scroll of a staged band is replaced. -/
theorem test_scroll : after (.scroll 0) (withRecord staged 0 [firstSlot 0x21 1 0 0 [(0x10, 1, 0), (0x12, 2, 15)]])
    (fun t => decide ((t.head 0).staging.picture.bands = [{ stagedBand with scroll := 15 }])) = true := by decide +kernel

/-- R107: a scroll of the region's extent is refused. -/
theorem test_scroll_refused : after (.scroll 0)
    (withRecord staged 0 [firstSlot 0x21 1 0 0 [(0x10, 1, 0), (0x12, 2, 16)]])
    (fun t => decide (outcomes t = [{ status := .badField }])) = true := by decide +kernel

/-- R108: mode code 4 is MONO_GREEN. -/
theorem test_output : after (.output 0) (withRecord staged 0 [firstSlot 0x22 1 0 0 [(0x10, 1, 4)]])
    (fun t => decide ((t.head 0).staging.picture = ⟨[stagedBand], 0x202020, .monoGreen⟩)) = true := by decide +kernel

/-- An unlatched entry of stream 1 with PAL. -/
def palEntry (state : EntryState) : Entry :=
  { ref := { stream := 1, tag := 1, notify := false, silent := false, ringIndex := 0 }, policy := .queue, notBefore := 0
    missed := 0, snapshot := .black, pal := true, batch := 0, state := state }

/-- A PALETTE record of head 1. -/
def paletteSlot (start count : Nat) : List Byte := firstSlot 0x23 1 0 1 [(0x10, 2, start), (0x12, 2, count), (0x18, 8, 0x600)]

/-- Head 1 lit and held by stream 1, with a queue. -/
def lit1 (entries : List Entry) : State :=
  withHeads darkHead (heldBy { litHead 500 3 with present := { Present.empty with entries := entries } } 1)

/-- Section 6.9.2: with P1 READY and PAL in the queue the PALETTE waits, PALETTE_HAZARD. -/
theorem test_palette_hazard : after (.palette 1) (withRecord (lit1 [palEntry .ready]) 1 [paletteSlot 254 5])
    (fun t => decide (t.streamCode 1 = .waiting .paletteHazard)) = true := by decide +kernel

/-- R111: without one its read begins. -/
theorem test_palette : after (.palette 1) (withRecord (lit1 []) 1 [paletteSlot 254 5])
    (fun t => decide (t.streamCode 1 = .waiting .paletteRead)
      && decide ((t.head 1).staging.reading.map (fun r => (r.taken, r.address 4)) = some (5, 0x608#64))) = true := by
  decide +kernel

/-- A palette read of head 1, all components but the last read. -/
def reading (start count taken : Nat) : State :=
  let s := (withRecord (lit1 []) 1 [paletteSlot start count]).setPhase 1 .waitPaletteRead
  s.setHead 1 { s.head 1 with
    staging := { (s.head 1).staging with
      reading := some { ref := { stream := 1, tag := 0x0A01, notify := false, silent := false, ringIndex := 0 }
                        start := start, count := count, source := 0x600
                        buffer := (List.range (taken - 1)).map (fun i => (i, BitVec.ofNat 10 (i + 1))) } } }

/-- Section 6.9.2: start 254, count 5: entry 255's red and green written, A 5, B 0, PARTIAL_ENTRY. -/
theorem test_palette_read : after (.paletteReadAnswer 1 4 (.data 0xFC05)) (reading 254 5 5)
    (fun t => decide ((t.head 1).staging.palette.entry 254 = ⟨1, 2, 3⟩)
      && decide ((t.head 1).staging.palette.entry 255 = ⟨4, 5, 0⟩) && (t.head 1).staging.dirty
      && decide (outcomes t = [{ status := .done, valueA := 5, flags := { partialEntry := true } }])) = true := by
  decide +kernel

/-- Section 6.9.2: start 255, count 5: 3 taken, 2 discarded: A 3, B 2, OVERRUN. -/
theorem test_palette_overrun : after (.paletteReadAnswer 1 2 (.data 3)) (reading 255 5 3)
    (fun t => decide (outcomes t = [{ status := .done, valueA := 3, valueB := 2, flags := { overrun := true } }])) = true := by
  decide +kernel

/-- R114: the entry carries the batch counter's value, which is raised, and is READY with no job in the list. -/
theorem test_present : after (.present 1) (withRecord (lit1 []) 1 [firstSlot 0x24 1 0 1 [(0x10, 1, 1), (0x14, 4, 9)]])
    (fun t => decide ((t.head 1).present.entries.map (fun e => (e.policy, e.notBefore, e.batch, e.state))
        = [(.latest, 9#32, 0#32, .ready)]) && decide ((t.stream 1).batch = 1)) = true := by decide +kernel

/-- R113: a fifth PRESENT waits QUEUE_FULL. -/
theorem test_present_full : after (.present 1)
    (withRecord (lit1 (List.replicate 4 (palEntry .waiting))) 1 [firstSlot 0x24 1 0 1 []])
    (fun t => decide (t.streamCode 1 = .waiting .queueFull) && decide ((t.stream 1).batch = 0)) = true := by decide +kernel

/-- Section 7.6.1: LINK ON from OFF: POWERING with the timer at 20. -/
theorem test_link_on : after (.link 1) (withRecord (withHeads darkHead (heldBy darkHead 1)) 1 [firstSlot 0x30 1 0 1 [(0x10, 1, 1)]])
    (fun t => decide ((t.head 1).link.state = .powering) && decide ((t.head 1).link.timer = some 20)
      && (t.head 1).link.pending.isSome && (t.stream 1).current.isNone && t.writer.outbound.isEmpty) = true := by
  decide +kernel

/-- R141: LINK OFF from ON: DARKENING with the backlight dark. -/
theorem test_link_off : after (.link 1)
    (withRecord (withHeads darkHead (heldBy { litHead 5 5 with light := { Light.dark with level := 200, target := 200 } } 1)) 1
      [firstSlot 0x30 1 0 1 [(0x10, 1, 0)]])
    (fun t => decide ((t.head 1).link.state = .darkening) && decide ((t.head 1).link.timer = some 5)
      && decide ((t.head 1).light.level = 0)) = true := by decide +kernel

/-- A LIGHT record of head 1. -/
def lightSlot (target dim step : Nat) : List Byte :=
  firstSlot 0x31 1 0 1 [(0x10, 1, target), (0x11, 1, dim), (0x12, 1, step)]

/-- Section 7.6.1: LIGHT 200 with dim and step 48 while the link is OFF: DONE, A 0, the backlight record stored. -/
theorem test_light_off : after (.light 1) (withRecord (withHeads darkHead (heldBy darkHead 1)) 1 [lightSlot 200 1 48])
    (fun t => decide (outcomes t = [{ status := .done }])
      && decide ((t.head 1).light = ⟨0, 200, 48, true, false, none⟩)) = true := by decide +kernel

/-- R138: a step of 0 is refused. -/
theorem test_light_refused : after (.light 1) (withRecord (withHeads darkHead (heldBy darkHead 1)) 1 [lightSlot 200 1 0])
    (fun t => decide (outcomes t = [{ status := .badField }])) = true := by decide +kernel

/-- R66: a WAIT FRAME on a head that does not scan is DONE with NOT_SCANNING and the frame counter. -/
theorem test_wait_not_scanning : after (.wait 1) (withRecord live 1 [firstSlot 0x40 1 0 1 [(0x10, 1, 0), (0x14, 4, 9)]])
    (fun t => decide (outcomes t = [{ status := .done, flags := { notScanning := true } }])) = true := by decide +kernel

/-- R66: on a scanning head at frame 500 a WAIT for frame 501 waits. -/
theorem test_wait_frame : after (.wait 1) (withRecord (lit1 []) 1 [firstSlot 0x40 1 0 1 [(0x10, 1, 0), (0x14, 4, 501)]])
    (fun t => decide (t.streamCode 1 = .waiting .waitRecord)) = true := by decide +kernel

/-- R68, R151: a NOTE is DONE with values 0; with SILENT it has no completion. -/
theorem test_note : after (.note 1) (withRecord live 1 [firstSlot 0x41 1 1 0 []])
    (fun t => decide (t.writer.outbound.map (fun c => (c.outcome, c.notify, c.tag))
      = [({ status := .done }, true, 0x0A01#16)])) = true := by decide +kernel
theorem test_note_silent : after (.note 1) (withRecord live 1 [firstSlot 0x41 1 2 0 []])
    (fun t => t.writer.outbound.isEmpty && (t.stream 1).current.isNone) = true := by decide +kernel

/-! ## Events -/

/-- R14: the served write stores the pixel at the cursor, cell 2048 x 5 + 12, and presents the next. -/
theorem test_engine_access : after .engineAccessServed filling
    (fun t => decide (t.panel.read 10252 = 0x0000FF) && decide (t.engine.written = 1)
      && decide (t.cursor = some { column := 11, line := 5 }) && decide (t.engine.phase = .write 0x0000FF)) = true := by
  decide +kernel

/-- A TRANSFER of section 1.7.1, CONTINUE, count 5, of stream 1. -/
def transferring (processed : Nat) (cursor : Position) (phase : EnginePhase) (key : Option Key) : State :=
  { placed (some cursor) with
    jobs := [{ newJob { stream := 1, tag := 7, notify := false, silent := false, ringIndex := 3 } 1
                 (.transfer 2 .resumed 0x2000 .r5g6b5 5 none key) none 0 with state := .running }]
    engine := { Engine.free with processed := processed, written := processed, phase := phase } }

/-- Section 1.7.1: the second TRANSFER writes its second pixel at (10, 6) and ends: A 2, B 3, OVERRUN. -/
theorem test_engine_overrun : after .engineAccessServed
    (transferring 1 { column := 10, line := 6 } (.write 0x123456) none)
    (fun t => decide (outcomes t = [{ status := .done, valueA := 2, valueB := 3, flags := { overrun := true } }])
      && decide (t.context 1 2 = .set window171 none) && t.jobs.isEmpty) = true := by decide +kernel

/-- R30, R28: a source pixel 001Fh is widened and skipped by its key; the cursor steps past it. -/
theorem test_source_skipped : after (.sourceReadAnswer 1 (.data 0x001F))
    (transferring 0 { column := 12, line := 5 } .source (some { key := 0x0000FF, mask := 0xFFFFFF, sense := .skipMatch }))
    (fun t => decide (t.cursor = some { column := 11, line := 5 }) && decide (t.engine.phase = .source)
      && decide (t.engine.written = 0)) = true := by decide +kernel

/-- R38: a bus error on source pixel 2 ends the job SOURCE_ERROR, A 1, and halts the stream after the record at 3. -/
theorem test_source_error : after (.sourceReadAnswer 2 .busError) (transferring 1 { column := 11, line := 5 } .source none)
    (fun t => decide (outcomes t = [{ status := .sourceError, valueA := 1 }]) && decide ((t.stream 1).halt = some 4)) = true := by
  decide +kernel

/-- A READBACK of count 1 of stream 1 with its word on the bus. -/
def readingBack : State :=
  { placed (some { column := 12, line := 5 }) with
    jobs := [{ newJob { stream := 1, tag := 7, notify := false, silent := false, ringIndex := 3 } 1
                 (.readback 2 .resumed 0x40 1) none 0 with state := .running }]
    engine := { Engine.free with phase := .word { address := 0x40, bytes := [0x56, 0x34, 0x12, 0x00] } } }

/-- R32: the pixel at (12, 5), cell 10252, is written to the destination address, the least significant byte lowest. -/
theorem test_readback_read : after .engineAccessServed
    { readingBack with engine := { Engine.free with phase := .read }, panel := { powerOns := 0, cells := [(10252, 0x123456)] } }
    (fun t => decide (t.engine.phase = .word { address := 0x40, bytes := [0x56, 0x34, 0x12, 0x00] })) = true := by
  decide +kernel

/-- R32: the accepted word ends the job, A 1; the word holds zero in bits 31..24. -/
theorem test_readback_word : after (.readbackWordAnswer .accepted) readingBack
    (fun t => decide (outcomes t = [{ status := .done, valueA := 1 }])) = true ∧ readbackWord 0x123456 = 0x00123456#32 := by
  decide +kernel

/-- Section 5.8.1 on a small timing: from line 15 the head starts line 16 = V_ACT, the frame counter rises, FRAME0 is set. -/
theorem test_line_start : after (.lineStart 0) (withHeads (litHead 2041 15) darkHead)
    (fun t => decide ((t.head 0).scan.line = 16) && decide ((t.head 0).scan.frame = 2042)
      && decide (t.regs.cause = 0x004#9)) = true := by decide +kernel

/-- An entry of section 6.9.1, of stream 0. -/
def entry691 (policy : Policy) (missed : Nat) (tag : Tag) : Entry :=
  { palEntry .ready with
    ref := { stream := 0, tag := tag, notify := false, silent := false, ringIndex := 0 }, policy := policy, missed := missed
    pal := false, snapshot := ⟨[], tag.zeroExtend 24, .full⟩ }

/-- Section 6.9.1, the blanking start of frame 503: E2 SKIPPED and E3 LATCHED, both with A 503 and B 0. -/
theorem test_latch : after (.lineStart 0)
    (withHeads { litHead 502 15 with
      present := { Present.empty with entries := [entry691 .queue 0 2, entry691 .latest 0 3] } } darkHead)
    (fun t => decide ((t.head 0).present.entries.map (fun e => e.state) = [.skipped, .latched])
      && decide ((t.head 0).scan.active.background = 3)
      && decide (t.writer.outbound.map (fun c => (c.tag, c.outcome.status, c.outcome.valueA, c.outcome.valueB))
        = [(2#16, .skipped, 503#32, 0#32), (3#16, .done, 503#32, 0#32)])) = true := by decide +kernel

/-- Section 4.7.1, mark 1 of two waiters: 5 becomes 4, UNLIMITED stays. -/
theorem test_mark : after .millisecondMark
    (withHeads darkHead { darkHead with
      lease := { holder := some 0
                 waiters := [⟨(palEntry .ready).ref, some 5⟩, ⟨(palEntry .ready).ref, none⟩] } })
    (fun t => decide ((t.head 1).lease.waiters.map (fun w => w.remaining) = [some 4, none])) = true := by decide +kernel

/-- R73: the CLAIM of stream 2 ends CLAIM_TIMEOUT and the stream halts; the lease stays. -/
theorem test_expiry : after (.waiterExpiry 1 2) (leased (some 0))
    (fun t => decide ((t.head 1).lease = { holder := some 0, waiters := [] }) && decide ((t.stream 2).halt = some 1)
      && decide (outcomes t = [{ status := .claimTimeout }])) = true := by decide +kernel

/-- Head 1 in a timed step whose timer has reached 0, with a LINK of stream 2 pending. -/
def stepping (state : LinkState) (target : LinkTarget) : State :=
  withHeads darkHead
    { darkHead with
      link := { darkHead.link with
        state := state, target := target, timer := some 0
        pending := some { stream := 2, tag := 0x0A01, notify := false, silent := false, ringIndex := 0 } }
      light := { Light.dark with target := 200, step := 48, dim := true } }

/-- Section 7.6.1, mark 20: POWERING ends: SIGNALLING with the timer at 10, the scan at line 0. -/
theorem test_step_signalling : after (.linkStepEnd 1) (stepping .powering .on)
    (fun t => decide ((t.head 1).link.state = .signalling) && decide ((t.head 1).link.timer = some 10)
      && (t.head 1).scanning) = true := by decide +kernel

/-- Section 7.6.1, mark 30: ON with ramping yes, the LINK DONE and the LINK cause of head 1. -/
theorem test_step_on : after (.linkStepEnd 1) (stepping .signalling .on)
    (fun t => decide ((t.head 1).link.state = .on) && (t.head 1).light.ramping && decide ((t.head 1).light.level = 0)
      && decide (t.regs.cause = 0x020#9) && decide (outcomes t = [{ status := .done }])) = true := by decide +kernel

/-- R130: a step that the last mark brought to 0 has ended before the next mark counts: SIGNALLING, its timer from 10 to 9. -/
theorem test_mark_ends_step : after .millisecondMark (stepping .powering .on)
    (fun t => decide ((t.head 1).link.state = .signalling) && decide ((t.head 1).link.timer = some 9)) = true := by
  decide +kernel

/-- The FETCH_ERROR of a later reading of slot 3. -/
def rereadFailed : Completion :=
  { completion 0x00 .fetchError false none with stream := 1, ringIndex := 3, reading := 1 }

/-- R181: seven completions and a cancelled job of slot 3 stand before the FETCH_ERROR of a later reading of that slot. -/
def reread : State :=
  { live.setStream 1 { idleStream 1 with kept := [rereadFailed] } with
    jobs := [{ newJob { stream := 1, tag := 7, notify := false, silent := false, ringIndex := 3 } 1
                 (.fill 2 .fresh 0 2) none 0 with state := .ended { status := .cancelled } false }]
    writer := { live.writer with outbound := List.replicate 7 (completion 0x41 .done false none) } }

/-- R181, R145: in the one place left the job's completion is placed, not the later reading's. -/
theorem test_earlier_reading_first :
    ((reread.settle).writer.outbound.map (fun c => c.outcome.status)).drop 7 = [.cancelled]
      ∧ ((reread.settle).stream 1).kept.length = 1 := by decide +kernel

/-- R96, R100: the first column of a line a DIRECT band covers, formed from the pixel at memory column 5 of line 100. -/
theorem test_scan_read : after (.scanReadServed 0)
    { withHeads { litHead 7 0 with
        scan := { (litHead 7 0).scan with active := ⟨[{ stagedBand with use := .direct, scroll := 0 }], 0, .full⟩ } } darkHead with
      panel := { powerOns := 0, cells := [(204805, 0xFF8000)] } }
    (fun t => decide ((t.head 0).scan.sent = [.colour 1023 514 0])) = true := by decide +kernel

/-- R96, R100: a covered line that ends has had all its 16 values, the one sent and those its waiting reads return. -/
theorem test_line_ends_whole : after (.lineStart 0)
    { withHeads { litHead 7 0 with
        scan := { (litHead 7 0).scan with
          active := ⟨[{ stagedBand with use := .direct, scroll := 0 }], 0, .full⟩, sent := [.grey 9] } } darkHead with
      panel := { powerOns := 0, cells := (List.range 21).map (fun i => (204800 + i, 0xFF8000)) } }
    (fun t => decide ((t.head 0).scan.shown = .grey 9 :: List.replicate 15 (.colour 1023 514 0))
      && decide ((t.head 0).scan.line = 1)) = true := by decide +kernel

/-! ## Witnesses of the hypotheses of the statements -/

theorem test_witness_StepRunsTheFrontCommand :
    ({ live with pending := [.stop, .start] } : State).pending = .stop :: [.start] ∧ live.pending = [] := ⟨rfl, rfl⟩

/-- A settled part with a command waiting. -/
def waiting (s : State) (i : Instr) : State := { s with pending := [i] }

theorem test_witness_StepsKeepQuiescence :
    (waiting live .stop).quiescent ∧ ∃ t : State, step (waiting live .stop) = .next t :=
  ⟨Option.isNone_iff_eq_none.mp (by decide +kernel), _, rfl⟩

theorem test_witness_SettlingLeavesAlone :
    (live.stream 0).current.map (fun c => c.phase) ≠ some .heldQueueFull := by decide +kernel

theorem test_witness_PanelMemoryIsTheEngines :
    (waiting filling .engineAccessServed).panel.wf = true
      ∧ (∃ t : State, step (waiting filling .engineAccessServed) = .next t)
      ∧ Instr.engineAccessServed ≠ .powerOnReset ∧ ∃ t : State, exec .engineAccessServed filling = .next t :=
  ⟨by decide +kernel, ⟨_, rfl⟩, by decide, _, rfl⟩

/-- A queued FILL of a stream. -/
def queuedJob (k : StreamId) : Job :=
  newJob { stream := k, tag := 7, notify := false, silent := false, ringIndex := 3 } 1 (.fill 2 .fresh 0 2) none 0

/-- A full job list, eight jobs of stream 0 and eight of stream 1, the oldest RUNNING. -/
def crowded : State :=
  { filling with
    jobs := { queuedJob 1 with state := .running } :: (List.replicate 7 (queuedJob 1) ++ List.replicate 8 (queuedJob 0)) }

/-- R39, R55: after a removal a record held JOB_SPACE and the start of a NO_WINDOW job of its stream may come in either order.
The addition first: the added job is cancelled with the others; the start first: the held record is dropped, never added. -/
theorem test_addition_meets_halt :
    (let r := withRecord live 1 [windowSlot 10]
     let s := { r.setPhase 1 .heldJobSpace with
                jobs := [{ queuedJob 1 with work := .readback 0 .fresh 0x2000 4 }] }
     (((s.attempt (.job 1)).bind (fun t => t.attempt .engine)).map (fun t => t.jobs.map Job.isEnded)) = some [true, true]
       ∧ ((s.attempt .engine).map (fun t => (t.jobs.map Job.isEnded, (t.stream 1).current.isNone, t.attempt (.job 1))))
         = some ([true], true, none)) := by decide +kernel

theorem test_witness_JobListKeepsItsLaws :
    (waiting crowded .stop).jobsBounded ∧ (waiting crowded .stop).oneEngineJob
      ∧ ∃ t : State, step (waiting crowded .stop) = .next t := by
  refine ⟨?_, ?_, _, rfl⟩
  · unfold State.jobsBounded; decide +kernel
  · unfold State.oneEngineJob; decide +kernel

/-- Head 1 held by stream 0, for which stream 2 waits, in a part with a command waiting. -/
theorem test_witness_JobListKeepsItsLaws_holding :
    (waiting (leased (some 1)) .stop).holdingLaw
      ∧ (∃ w : Waiter, w ∈ ((waiting (leased (some 1)) .stop).head 1).lease.waiters)
      ∧ ∃ t : State, step (waiting (leased (some 1)) .stop) = .next t := by
  refine ⟨⟨?_, ?_, ?_, ?_, ?_⟩, ⟨_, List.mem_singleton.mpr rfl⟩, _, rfl⟩
  · intro read c h; cases h
  · intro h
    match h with
    | 0 => exact ⟨fun _ => rfl, List.Pairwise.nil, fun w hw => absurd hw List.not_mem_nil⟩
    | 1 =>
      refine ⟨?_, by decide +kernel, fun w hw => ?_⟩
      · decide +kernel
      obtain rfl := List.mem_singleton.mp hw
      exact ⟨by decide +kernel, _, rfl, rfl, by decide +kernel⟩
  · intro h
    refine ⟨fun r e => ?_, fun k e => ?_⟩
    · match h with
      | 0 => cases e
      | 1 => cases e
    · exfalso
      rcases e with ⟨c, e, p, _⟩ | ⟨c, e, p, _⟩ <;>
        (match k with
         | 0 => cases e
         | 1 => cases e
         | 2 => cases e; cases p
         | 3 => cases e)
  · unfold State.palettesGuarded; decide +kernel
  · refine ⟨fun e => absurd rfl e, fun e => ?_⟩
    rcases e with e | e <;> cases e

/-- A window that is the whole of panel memory. -/
def whole (order : Order) : Window :=
  { xStart := 0, xEnd := 2047, yStart := 0, yEnd := 2047, order := order, xDir := .inc, yDir := .dec }

theorem test_witness_CursorsStayInside :
    (waiting (filling.setContext 3 3 (.set (whole .rowFirst) (some { column := 2047, line := 0 }))) .stop).cursorsInside
      ∧ ∃ t : State, step (waiting (filling.setContext 3 3 (.set (whole .rowFirst) (some { column := 2047, line := 0 })))
          .stop) = .next t := by
  refine ⟨?_, _, rfl⟩
  unfold State.cursorsInside; decide +kernel

theorem test_witness_OutboundLawIsKept :
    (waiting writing87 (.completionWriteAnswer .accepted)).outboundLaw
      ∧ (waiting writing87 (.completionWriteAnswer .accepted)).queuesOrdered
      ∧ ∃ t : State, step (waiting writing87 (.completionWriteAnswer .accepted)) = .next t := by
  refine ⟨?_, ?_, _, rfl⟩
  · unfold State.outboundLaw State.classesKept State.placesTaken State.othersBounded; decide +kernel
  · unfold State.queuesOrdered; decide +kernel

theorem test_witness_PicturesStayLawful :
    (waiting staged .stop).picturesLawful ∧ (∃ t : State, step (waiting staged .stop) = .next t)
      ∧ (⟨bands582, 0, .full⟩ : Picture).lawful
      ∧ ∃ b ∈ bands582, b.covers 0 = true ∧ b.covers 455 = true ∧ b.covers 456 = false := by
  refine ⟨?_, ⟨_, rfl⟩, ?_, ?_⟩
  · unfold State.picturesLawful Picture.lawful; decide +kernel
  · unfold Picture.lawful; decide +kernel
  · decide +kernel

theorem test_witness_CountersAndEnablesHaveOneOwner :
    Instr.stop.wellFormed = true ∧ Instr.stop ≠ .lineStart 0 ∧ Instr.stop ≠ .reset ∧ Instr.stop ≠ .powerOnReset
      ∧ (∀ v, Instr.stop ≠ .causeEnableWrite v) ∧ (∀ v, Instr.stop ≠ .setupAddressWrite .low v)
      ∧ (∀ v, Instr.stop ≠ .setupAddressWrite .high v) ∧ ∃ t : State, exec .stop live = .next t :=
  ⟨rfl, by simp, by simp, by simp, by simp, by simp, by simp, _, rfl⟩

/-- Each case of one step, and the first and last of the positions. -/
theorem test_witness_RowFirstVisitsLineByLine :
    window171.bounded = true ∧ window171.order = .rowFirst ∧ (whole .rowFirst).bounded = true
      ∧ window171.holds { column := 12, line := 5 } = true ∧ 12 ≠ window171.endColumn
      ∧ window171.holds { column := 10, line := 5 } = true ∧ 10 = window171.endColumn ∧ 5 ≠ window171.endLine
      ∧ window171.holds { column := 10, line := 6 } = true ∧ 6 = window171.endLine
      ∧ 5 < (window171.xEnd - window171.xStart + 1) * (window171.yEnd - window171.yStart + 1) := by decide +kernel

theorem test_witness_ColumnFirstVisitsColumnByColumn :
    window172.bounded = true ∧ window172.order = .columnFirst ∧ (whole .columnFirst).bounded = true
      ∧ window172.holds { column := 10, line := 6 } = true ∧ 6 ≠ window172.endLine
      ∧ window172.holds { column := 10, line := 5 } = true ∧ 5 = window172.endLine ∧ 10 ≠ window172.endColumn
      ∧ window172.holds { column := 12, line := 5 } = true ∧ 12 = window172.endColumn
      ∧ 5 < (window172.xEnd - window172.xStart + 1) * (window172.yEnd - window172.yStart + 1) := by decide +kernel

theorem test_witness_StepsStayInTheWindow :
    (whole .rowFirst).bounded = true ∧ (whole .rowFirst).holds { column := 2047, line := 0 } = true
      ∧ window172.bounded = true ∧ window172.holds { column := 10, line := 6 } = true
      ∧ window172.stepFrom { column := 10, line := 6 } = some { column := 10, line := 5 } := by decide +kernel

/-- A key of each sense, and a mask of zero. -/
theorem test_witness_SourcePixelsAreFoundAndKeyed :
    1 ≤ 1 ∧ ({ key := 1, mask := 3, sense := .skipMatch } : Key).sense = .skipMatch
      ∧ ({ key := 1, mask := 3, sense := .writeMatch } : Key).sense = .writeMatch
      ∧ ({ key := 1, mask := 0, sense := .writeMatch } : Key).mask = 0 := by decide +kernel

theorem test_witness_PixelsBecomeOutputValues :
    (0 ≤ 255 ∧ 255 < 256)
      ∧ (⟨1023, 1023, 1023⟩ : Components).red = (⟨1023, 1023, 1023⟩ : Components).green
      ∧ (⟨1023, 1023, 1023⟩ : Components).green = (⟨1023, 1023, 1023⟩ : Components).blue
      ∧ (⟨1023, 1023, 1023⟩ : Components).red ≤ 1023 := by decide +kernel

/-- The band's first and last line, and the line whose next shows the region's first line again. -/
theorem test_witness_BandsMapInACircle :
    (∀ y ∈ [0, 12, 15], stagedBand.covers y = true) ∧ 1 ≤ stagedBand.memExtent ∧ stagedBand.scroll < stagedBand.memExtent
      ∧ stagedBand.memoryLine 12 + 1 = stagedBand.memBase + stagedBand.memExtent := by decide +kernel

/-- A record of three slots, one read, with two, one and none of the others posted. -/
theorem test_witness_StatusHoldsItsFields_posting :
    (let c : CurrentRecord := ⟨14, [firstSlot 0x02 3 0 0 []], .reading, 0⟩
     c.phase = .reading
       ∧ [1, 0, 15].map (fun post => ({ ringOf 1 with fetch := 15, post := post } : Ring).posted) = [2, 1, 0]
       ∧ declaredSlots c.slots - c.slots.length = 2) := by decide +kernel

/-- A stream in each row of R58's table, and in each phase of a current record. -/
theorem test_witness_StatusHoldsItsFields :
    Stream.disabled.ring = none ∧ (idleStream 1).ring = some (ringOf 1) ∧ (halted311.stream 1).halt ≠ none
      ∧ (idleStream 1).halt = none ∧ Device.running ≠ .stopping ∧ Device.running ≠ .stopped
      ∧ (reread.stream 1).kept ≠ [] ∧ (idleStream 1).kept = [] ∧ (idleStream 1).current = none
      ∧ ∀ p ∈ [RecordPhase.reading, .whole, .heldJobSpace, .heldQueueFull, .heldPaletteHazard, .waitLease,
          .waitPaletteRead, .waitCondition],
        ({ idleStream 1 with current := some ⟨0, [], p, 0⟩ } : Stream).current = some ⟨0, [], p, 0⟩ := by decide +kernel

theorem test_witness_WindowWritesDecode :
    (Instr.resume 3).wellFormed = true ∧ encodeWindowWrite (.resume 3) = some (0x04#6, 0x00000304#32)
      ∧ encodeWindowWrite (.retire 4095) = some (0x20#6, 4095)
      ∧ (0xFFFFFFF4#32).extractLsb' 0 4 = (0x00000304#32).extractLsb' 0 4
      ∧ (0xFFFFFFF4#32).extractLsb' 8 2 = (0x00000304#32).extractLsb' 8 2
      ∧ controlNamesCommand 0xFFFFFFF4#32 = true := by decide +kernel

theorem test_witness_CompletionsAreLaidOut :
    full87.issueWrite.isSome = false
      ∧ { full87 with writer := { full87.writer with ring := some { completionRing with retire := 5 } } }.issueWrite.isSome
        = true
      ∧ full87.writer.outbound
        = completion 0x24 .done false (some 0) :: [completion 0x02 .sourceError false none]
      ∧ (0 < 4096 ∧ 4095 < 4096) := by decide +kernel

/-- CONTROL with no command, STATUS, IDENT, and an address that names no register. -/
theorem test_witness_RegisterWritesTakeEffect :
    (otherPlace 0x04#6 6 = true ∧ otherPlace 0x08#6 6 = true ∧ otherPlace 0x00#6 6 = true ∧ otherPlace 0x24#6 6 = true)
      ∧ State.reset.writer.ring = none ∧ live.writer.ring = some completionRing
      ∧ ∀ o ∈ [0x01#6, 0x03#6, 0x21#6, 0x24#6, 0x3F#6],
          o ∉ [0x00#6, 0x04#6, 0x08#6, 0x0C#6, 0x10#6, 0x14#6, 0x18#6, 0x1C#6, 0x20#6] := by
  decide +kernel

theorem test_witness_ControlCommandsAreTakenOrRefused :
    State.reset.regs.device = .idle ∧ (State.reset.regs.setupHi ++ State.reset.regs.setupLo).toNat % 64 = 0
      ∧ ((0 : Word) ++ (32 : Word)).toNat % 64 ≠ 0 ∧ (inState .stopped).regs.device = .stopped
      ∧ halted311.active = true ∧ (halted311.stream 1).halt.isSome = true
      ∧ live.regs.device ≠ .idle ∧ live.regs.device ≠ .stopped ∧ (inState .stopped).regs.device ≠ .running
      ∧ (inState .fault).active = false ∧ (live.stream 0).halt = none ∧ (State.reset.stream 0).ring = none := by
  decide +kernel

/-- With a job RUNNING, and with none. -/
theorem test_witness_StopReachesStopped : filling.regs.device = .running ∧ live.regs.device = .running := by decide +kernel

theorem test_witness_FlushLeavesTheStreamClean :
    filling.active = true ∧ (filling.stream 1).ring = some (ringOf 1) ∧ filling.oneEngineJob := by
  refine ⟨rfl, rfl, ?_⟩
  unfold State.oneEngineJob; decide +kernel

/-- A stream with a current record, a job RUNNING in the middle of a pixel, one QUEUED, an unlatched entry with PAL on a head
that it holds and for which another stream waits, and a head it neither holds nor has entries on. -/
def flushable : State :=
  let s := withRecord (leased (some 1)) 1 [firstSlot 0x41 1 0 0 []]
  { s.setHead 1
      { s.head 1 with
        lease := { (s.head 1).lease with holder := some 1 }
        present := { Present.empty with entries := [palEntry .waiting] } } with
    jobs := [{ queuedJob 1 with state := .running }, queuedJob 1]
    engine := { Engine.free with phase := .read, written := 1 } }

/-- R41, R63, R124: the QUEUED job and the RUNNING one end CANCELLED, the entry ABANDONED, the record CANCELLED; the CLAIM of
stream 2 is DONE. -/
theorem test_flush_outcomes :
    (let u := flushable.flushed 1
     u.jobs.map (fun j => j.state)
         = [.ended { status := .cancelled, valueA := 1 } true, .ended { status := .cancelled } false]
       ∧ (u.stream 1).kept.map (fun c => (c.kind, c.outcome)) = [(0x41, { status := .cancelled })]
       ∧ (u.head 1).present.outbox.map (fun c => c.outcome) = [{ status := .abandoned }]
       ∧ (u.head 1).lease = { holder := some 2, waiters := [] } ∧ (u.head 1).staging.picture = .black
       ∧ (u.stream 2).kept.map (fun c => c.outcome) = [{ status := .done }]) := by decide +kernel

theorem test_witness_FlushLeavesTheStreamClean_outcomes :
    flushable.active = true ∧ (flushable.stream 1).ring = some { ringOf 1 with post := 1, fetch := 1 }
      ∧ flushable.oneEngineJob ∧ (flushable.stream 1).current.isSome = true
      ∧ (flushable.head 1).lease.holder = some 1 ∧ (flushable.head 1).lease.waiters.isEmpty = false
      ∧ (flushable.head 0).lease.holder ≠ some 1 := by
  refine ⟨by decide +kernel, by decide +kernel, ?_, by decide +kernel, by decide +kernel, by decide +kernel, by decide +kernel⟩
  unfold State.oneEngineJob; decide +kernel

/-- The last index of a ring of 16 entries and the first outside it, and rings that are not there. -/
theorem test_witness_PostAndRetireMoveTheIndices :
    (live.stream ((0x0001000F#32).extractLsb' 16 2).toFin).ring = some (ringOf 1)
      ∧ ((0x0001000F#32).extractLsb' 0 12).toNat < (ringOf 1).size
      ∧ (ringOf 1).size ≤ ((0x00010010#32).extractLsb' 0 12).toNat
      ∧ (State.reset.stream ((0x0001000F#32).extractLsb' 16 2).toFin).ring = none
      ∧ live.writer.ring = some completionRing ∧ ((15#32).extractLsb' 0 12).toNat < completionRing.size
      ∧ completionRing.size ≤ ((16#32).extractLsb' 0 12).toNat ∧ State.reset.writer.ring = none := by decide +kernel

/-- No write presented. -/
theorem test_witness_ResetKeepsThePicture : ∀ p : Pixel, readingBack.engine.phase ≠ .write p := by
  intro p h; cases h

/-- The third quarter, and a fourth with a bad and with a clean table. -/
theorem test_witness_SetupTableLoads :
    (∃ l : SetupLoad, (loading 64).loader = some l ∧ l.quarters.length = 3
        ∧ tableError (l.quarters ++ [slotOf []]) = .none)
      ∧ (∃ l : SetupLoad, (loading 48).loader = some l ∧ l.quarters.length = 3
        ∧ tableError (l.quarters ++ [slotOf []]) ≠ .none)
      ∧ ({ address := 0, quarters := (tableQuarters 64).take 2 } : SetupLoad).quarters.length < 3 :=
  ⟨⟨_, rfl, by decide +kernel, by decide +kernel⟩, ⟨_, rfl, by decide +kernel, by decide +kernel⟩, by decide +kernel⟩

/-- The table with 64 slots: streams 0 and 2 enabled and passing, stream 1 not enabled, the ring and both heads passing. -/
theorem test_witness_SetupTableLoads_fields :
    StreamEnabled (tableQuarters 64) 2 ∧ ¬ StreamEnabled (tableQuarters 64) 1
      ∧ (∀ k : StreamId, StreamEnabled (tableQuarters 64) k → StreamPasses (tableQuarters 64) k)
      ∧ RingPasses (tableQuarters 64) ∧ HeadPasses (tableQuarters 64) 0 ∧ HeadPasses (tableQuarters 64) 1 := by
  have size16 : RingSizePasses 16 := ⟨4, by decide, by decide, rfl⟩
  have size64 : RingSizePasses 64 := ⟨6, by decide, by decide, rfl⟩
  have stream0 : StreamPasses (tableQuarters 64) 0 :=
    ⟨by decide +kernel, (by decide +kernel : tableField (tableQuarters 64) (16 * (0 : StreamId).val + 8) 2 = 16) ▸ size16,
      by decide +kernel⟩
  have stream2 : StreamPasses (tableQuarters 64) 2 :=
    ⟨by decide +kernel, (by decide +kernel : tableField (tableQuarters 64) (16 * (2 : StreamId).val + 8) 2 = 64) ▸ size64,
      by decide +kernel⟩
  have off1 : ¬ StreamEnabled (tableQuarters 64) 1 := by unfold StreamEnabled; decide +kernel
  have off3 : ¬ StreamEnabled (tableQuarters 64) 3 := by unfold StreamEnabled; decide +kernel
  refine ⟨by unfold StreamEnabled; decide +kernel, off1, fun k h => ?_, ⟨by decide +kernel, ?_⟩, ?_, ?_⟩
  · match k with
    | 0 => exact stream0
    | 1 => exact absurd h off1
    | 2 => exact stream2
    | 3 => exact absurd h off3
  · exact (by decide +kernel : tableField (tableQuarters 64) 0x48 2 = 16) ▸ size16
  · unfold HeadPasses; decide +kernel
  · unfold HeadPasses; decide +kernel

theorem test_witness_BusErrorsLeadToFault :
    (loading 64).loader.isSome = true
      ∧ writing87.writer.write.isSome = true
      ∧ writing87.writer.outbound
        = completion 0x24 .done false (some 0) :: [completion 0x02 .sourceError false none] := by decide +kernel

/-- A read to be discarded, a first slot's read, and a read of a record's second slot. -/
theorem test_witness_SlotReadAnswers :
    (reading311 15 0).fetch.read = some { stream := 1, address := 0x2000, discard := false }
      ∧ ((reading311 15 0).stream 1).ring = some { ringOf 1 with fetch := 15, post := 0 }
      ∧ ((reading311 15 0).stream 1).current = none
      ∧ (⟨1, 0x2000, true⟩ : SlotRead).discard = true
      ∧ (let c : CurrentRecord := ⟨15, [firstSlot 0x02 2 0 0 []], .reading, 0⟩
         let s := (reading311 0 3).setStream 1 { (reading311 0 3).stream 1 with current := some c }
         (s.stream 1).current = some c ∧ 1 ≤ declaredSlots c.slots ∧ declaredSlots c.slots ≤ 4) := by decide +kernel

/-- Declared counts 0 and 5; 1 and 4; a record that lacks slots; no kind; a kind whose count suits, and one whose does
not. -/
theorem test_witness_RecordsAreExaminedInOrder :
    ((withRecord live 1 [firstSlot 0x41 0 0 0 []]).stream 1).current = some (recordOf [firstSlot 0x41 0 0 0 []])
      ∧ ((withRecord live 1 [firstSlot 0x41 0 0 0 []]).stream 1).ring = some { ringOf 1 with post := 1, fetch := 1 }
      ∧ declaredSlots [firstSlot 0x41 0 0 0 []] < 1 ∧ 4 < declaredSlots [firstSlot 0x41 5 0 0 []]
      ∧ declaredSlots [firstSlot 0x41 1 0 0 []] = 1 ∧ declaredSlots [firstSlot 0x02 4 0 0 []] = 4
      ∧ [firstSlot 0x02 4 0 0 []].length < declaredSlots [firstSlot 0x02 4 0 0 []]
      ∧ kindOf [firstSlot 0x42 1 0 0 []] = none ∧ kindOf [firstSlot 0x41 1 0 0 []] = some .note
      ∧ slotCountSuits .note [firstSlot 0x41 1 0 0 []] 1 = true ∧ slotCountSuits .note [firstSlot 0x41 2 0 0 []] 2 = false
      ∧ (1 ≤ bandCount [bandsSlot 16] ∧ bandCount [bandsSlot 16] ≤ 8) ∧ bandCount [firstSlot 0x20 1 0 0 []] = 0
      ∧ 8 < bandCount [firstSlot 0x20 2 0 0 [(0x10, 1, 9)]] := by decide +kernel

/-- A NORMAL candidate alone, and an URGENT one beside it. -/
theorem test_witness_GrantsFollowTheClasses :
    halted311.grant = none
      ∧ (halted311.setStream 1 { halted311.stream 1 with halt := none }).grant.isSome = true
      ∧ ((halted311.setStream 1 { halted311.stream 1 with halt := none }).setStream 3
          { idleStream 3 with ring := some { ringOf 3 with post := 1 } }).grant.isSome = true := by decide +kernel

/-- A record taken up; the same record in STOPPING, in STOPPED and in FAULT, of another kind, and of a stream that keeps a
completion. -/
theorem test_witness_RefusedRecordsHalt_takeUp :
    (let slots := [firstSlot 0x41 1 0 0 []]
     (withRecord live 1 slots).takeUp 1 .note = some (recordOf slots)
       ∧ (∀ d ∈ [Device.stopping, .stopped, .fault], (withRecord (inState d) 1 slots).takeUp 1 .note = none)
       ∧ (withRecord live 1 slots).takeUp 1 .wait = none ∧ (withRecord reread 1 slots).takeUp 1 .note = none) := by
  decide +kernel

/-- A WINDOW whose fields fail, and an owner-only SCROLL of a stream that does not hold the head's lease. -/
theorem test_witness_RefusedRecordsHalt :
    (withRecord live 1 [windowSlot 13]).takeUp 1 .window = some (recordOf [windowSlot 13])
      ∧ ((withRecord live 1 [windowSlot 13]).stream 1).ring = some { ringOf 1 with post := 1, fetch := 1 }
      ∧ declaredSlots [windowSlot 13] = 1 ∧ (withRecord live 1 [windowSlot 13]).fieldsPass .window [windowSlot 13] = false
      ∧ (let slots := [firstSlot 0x22 1 0 0 [(0x10, 1, 4)]]
         let s := withRecord owned 1 slots
         s.takeUp 1 .output = some (recordOf slots) ∧ (s.stream 1).ring = some { ringOf 1 with post := 1, fetch := 1 }
           ∧ declaredSlots slots = 1 ∧ Kind.output.holderOnly = true ∧ s.fieldsPass .output slots = true
           ∧ headField slots = some 0 ∧ (s.head 0).lease.holder ≠ some 1) := by decide +kernel

/-- With room, with 16 jobs in the list, and with 8 of the stream. -/
theorem test_witness_JobRecordsJoinTheList :
    Kind.fill ∈ [Kind.window, .transfer, .fill, .readback]
      ∧ (let slots := [firstSlot 0x03 1 0 2 [(0x10, 1, 1)]]
         let s := withRecord live 0 slots
         let full := withRecord crowded 0 slots
         s.takeUp 0 .fill = some (recordOf slots) ∧ full.takeUp 0 .fill = some (recordOf slots)
           ∧ jobFields .fill slots s.heads = some (.fill 2 .resumed 0 0, none)
           ∧ jobFields .fill slots full.heads = some (.fill 2 .resumed 0 0, none)
           ∧ s.jobs.length < 16 ∧ (s.jobs.filter (fun j => decide (j.ref.stream = 0))).length < 8
           ∧ 16 ≤ full.jobs.length ∧ 8 ≤ (full.jobs.filter (fun j => decide (j.ref.stream = 0))).length) := by
  decide +kernel

/-- A FREE head, the stream's own, and another's, with wait and without. -/
theorem test_witness_ClaimsAreDecided :
    (let slots := [firstSlot 0x10 1 0 0 [(0x10, 1, 1), (0x12, 2, 5)]]
     let s := withRecord live 1 slots
     s.takeUp 1 .claim = some (recordOf slots) ∧ claimFields slots = some ⟨0, true, 5⟩ ∧ (s.head 0).lease.holder = none
       ∧ ((withRecord owned 1 slots).head 0).lease.holder = some 0 ∧ (0 : StreamId) ≠ 1
       ∧ (withRecord owned 1 slots).takeUp 1 .claim = some (recordOf slots)
       ∧ ((withRecord owned 0 slots).head 0).lease.holder = some 0
       ∧ (withRecord owned 0 slots).takeUp 0 .claim = some (recordOf slots))
      ∧ (let slots := [firstSlot 0x10 1 0 0 []]
         claimFields slots = some ⟨0, false, 0⟩ ∧ (withRecord owned 1 slots).takeUp 1 .claim = some (recordOf slots)
           ∧ ((withRecord owned 1 slots).stream 1).ring = some { ringOf 1 with post := 1, fetch := 1 }
           ∧ declaredSlots slots = 1) := by decide +kernel

/-- Without a waiter and with one. -/
theorem test_witness_ReleaseHandsOn :
    (let slots := [firstSlot 0x11 1 0 0 []]
     let s := withRecord owned 0 slots
     s.takeUp 0 .release = some (recordOf slots) ∧ headField slots = some 0 ∧ (s.head 0).lease.holder = some 0
       ∧ (s.head 0).lease.waiters = [])
      ∧ (let slots := [firstSlot 0x11 1 0 1 []]
         let s := withRecord (leased none) 0 slots
         s.takeUp 0 .release = some (recordOf slots) ∧ headField slots = some 1 ∧ (s.head 1).lease.holder = some 0
           ∧ (s.head 1).lease.waiters.length = 1) := by decide +kernel

theorem test_witness_StagingRecordsStage :
    (staged.head 0).lease.holder = some 0
      ∧ (withRecord staged 0 [bandsSlot 16]).takeUp 0 .bands = some (recordOf [bandsSlot 16])
      ∧ bandsFields [bandsSlot 16] (withRecord staged 0 [bandsSlot 16]).heads = some (0, [stagedBand], 0x202020)
      ∧ (let slots := [firstSlot 0x21 1 0 0 [(0x10, 1, 0), (0x12, 2, 15)]]
         (withRecord staged 0 slots).takeUp 0 .scroll = some (recordOf slots)
           ∧ scrollFields slots (withRecord staged 0 slots).heads = some (0, 0, 15))
      ∧ (let slots := [firstSlot 0x22 1 0 0 [(0x10, 1, 4)]]
         (withRecord staged 0 slots).takeUp 0 .output = some (recordOf slots)
           ∧ outputFields slots = some (0, .monoGreen)) := by decide +kernel

/-- The hazard and no hazard; a component before the last, the last, and the last entry of a palette. -/
theorem test_witness_PaletteRecordsAreRead :
    (let s := withRecord (lit1 [palEntry .ready]) 1 [paletteSlot 254 5]
     s.takeUp 1 .palette = some (recordOf [paletteSlot 254 5])
       ∧ paletteFields [paletteSlot 254 5] = some ⟨1, 254, 5, 0x600⟩ ∧ (s.head 1).lease.holder = some 1
       ∧ ∃ e ∈ (s.head 1).present.entries, e.unlatched = true ∧ e.pal = true)
      ∧ (let s := withRecord (lit1 [palEntry .latched]) 1 [paletteSlot 254 5]
         s.takeUp 1 .palette = some (recordOf [paletteSlot 254 5]) ∧ (s.head 1).lease.holder = some 1
           ∧ ∀ e ∈ (s.head 1).present.entries, e.unlatched = true → e.pal = false)
      ∧ (reading 254 5 5).active = true
      ∧ ((reading 254 5 5).head 1).staging.reading.map (fun r => (r.start, r.count, r.buffer.length, sparseRead r.buffer 4))
        = some (254, 5, 4, none)
      ∧ ((reading 254 5 2).head 1).staging.reading.map (fun r => (r.start, r.count, r.buffer.length, sparseRead r.buffer 4))
        = some (254, 5, 1, none)
      ∧ 4 < min 5 (3 * (256 - 254)) ∧ 1 + 1 < min 5 (3 * (256 - 254)) ∧ min 5 (3 * (256 - 254)) ≤ 4 + 1
      ∧ 255 + 2 / 3 < 256 := by decide +kernel

/-- Three places taken, and four. -/
theorem test_witness_PresentAddsAnEntry :
    (let slots := [firstSlot 0x24 1 0 1 [(0x10, 1, 1), (0x14, 4, 9)]]
     let s := withRecord (lit1 (List.replicate 3 (palEntry .waiting))) 1 slots
     let full := withRecord (lit1 (List.replicate 4 (palEntry .waiting))) 1 slots
     s.takeUp 1 .present = some (recordOf slots) ∧ full.takeUp 1 .present = some (recordOf slots)
       ∧ presentFields slots = some ⟨1, .latest, 9⟩ ∧ (s.head 1).lease.holder = some 1
       ∧ (full.head 1).lease.holder = some 1
       ∧ (s.head 1).present.entries.length + (s.head 1).present.abandoned < 4
       ∧ 4 ≤ (full.head 1).present.entries.length + (full.head 1).present.abandoned) := by decide +kernel

/-- The target reached, in both stable states; a step running; OFF with target ON; ON with target OFF. -/
theorem test_witness_LinkRecordsSetTheTarget :
    (let on := [firstSlot 0x30 1 0 1 [(0x10, 1, 1)]]
     let off := [firstSlot 0x30 1 0 1 [(0x10, 1, 0)]]
     let dark := withHeads darkHead (heldBy darkHead 1)
     let step := stepping .powering .on
     let busy := step.setHead 1 (heldBy (step.head 1) 1)
     linkFields on = some (1, .on) ∧ linkFields off = some (1, .off)
       ∧ (withRecord dark 1 off).takeUp 1 .link = some (recordOf off) ∧ (dark.head 1).link.state = .off
       ∧ (withRecord (lit1 []) 1 on).takeUp 1 .link = some (recordOf on) ∧ ((lit1 []).head 1).link.state = .on
       ∧ (withRecord busy 1 off).takeUp 1 .link = some (recordOf off) ∧ (busy.head 1).link.state ≠ .off
       ∧ (busy.head 1).link.state ≠ .on
       ∧ (withRecord dark 1 on).takeUp 1 .link = some (recordOf on) ∧ (dark.head 1).link.delays = some delays
       ∧ (withRecord (lit1 []) 1 off).takeUp 1 .link = some (recordOf off)
       ∧ ((lit1 []).head 1).link.delays = some delays ∧ 0 < delays.supply ∧ 0 < delays.light
       ∧ (dark.head 1).lease.holder = some 1 ∧ ((lit1 []).head 1).lease.holder = some 1
       ∧ (busy.head 1).lease.holder = some 1) := by decide +kernel

/-- Delays of 0: of the supply alone and with the signal from OFF to ON, of the light from ON to OFF. -/
theorem test_witness_LinkRecordsSetTheTarget_zero :
    ∀ d ∈ [(⟨0, 10, 5⟩ : Delays), ⟨0, 0, 5⟩, ⟨20, 10, 0⟩],
      (let on := [firstSlot 0x30 1 0 1 [(0x10, 1, 1)]]
       let off := [firstSlot 0x30 1 0 1 [(0x10, 1, 0)]]
       let dark := withHeads darkHead (heldBy { darkHead with link := { darkHead.link with delays := some d } } 1)
       let lit := withHeads darkHead
         (heldBy { litHead 5 5 with link := { (litHead 5 5).link with delays := some d } } 1)
       (withRecord dark 1 on).takeUp 1 .link = some (recordOf on) ∧ linkFields on = some (1, .on)
         ∧ (dark.head 1).lease.holder = some 1 ∧ (dark.head 1).link.state = .off ∧ (dark.head 1).link.delays = some d
         ∧ (withRecord lit 1 off).takeUp 1 .link = some (recordOf off) ∧ linkFields off = some (1, .off)
         ∧ (lit.head 1).lease.holder = some 1 ∧ (lit.head 1).link.state = .on ∧ (lit.head 1).link.delays = some d) := by
  decide +kernel

/-- Outside ON; in ON without dim, at the target, and with a ramp to make. -/
theorem test_witness_LightRecordsSetTheLevel :
    (let dark := withHeads darkHead (heldBy darkHead 1)
     (withRecord dark 1 [lightSlot 200 1 48]).takeUp 1 .light = some (recordOf [lightSlot 200 1 48])
       ∧ lightFields [lightSlot 200 1 48] = some ⟨1, 200, true, 48⟩ ∧ (dark.head 1).lease.holder = some 1
       ∧ (dark.head 1).link.state ≠ .on
       ∧ (withRecord (lit1 []) 1 [lightSlot 200 1 48]).takeUp 1 .light = some (recordOf [lightSlot 200 1 48])
       ∧ ((lit1 []).head 1).link.state = .on ∧ ((lit1 []).head 1).light.level ≠ 200
       ∧ ((lit1 []).head 1).lease.holder = some 1
       ∧ (withRecord (lit1 []) 1 [lightSlot 200 0 48]).takeUp 1 .light = some (recordOf [lightSlot 200 0 48])
       ∧ lightFields [lightSlot 200 0 48] = some ⟨1, 200, false, 48⟩
       ∧ lightFields [lightSlot 0 1 48] = some ⟨1, 0, true, 48⟩ ∧ ((lit1 []).head 1).light.level = 0) := by decide +kernel

/-- A NOTE; a WAIT FRAME on a dark head, on a lit one for its own frame and for the next; RETIRED with and without an entry;
JOBS with and without a job. -/
theorem test_witness_WaitsAndNotes :
    (let note := [firstSlot 0x41 1 0 0 []]
     let frame (f : Nat) := [firstSlot 0x40 1 0 1 [(0x10, 1, 0), (0x14, 4, f)]]
     let retired := [firstSlot 0x40 1 0 1 [(0x10, 1, 1)]]
     let jobs := [firstSlot 0x40 1 0 0 [(0x10, 1, 2)]]
     (withRecord live 1 note).takeUp 1 .note = some (recordOf note)
       ∧ (withRecord live 1 (frame 500)).takeUp 1 .wait = some (recordOf (frame 500))
       ∧ waitFields (frame 500) = some (.frame 1 500) ∧ (live.head 1).scanning = false
       ∧ (withRecord (lit1 []) 1 (frame 500)).takeUp 1 .wait = some (recordOf (frame 500))
       ∧ ((lit1 []).head 1).scanning = true ∧ (500#32).toNat ≤ ((lit1 []).head 1).scan.frame.toNat
       ∧ (withRecord (lit1 []) 1 (frame 501)).takeUp 1 .wait = some (recordOf (frame 501))
       ∧ waitFields (frame 501) = some (.frame 1 501) ∧ ((lit1 []).head 1).scan.frame.toNat < (501#32).toNat
       ∧ (withRecord (lit1 []) 1 retired).takeUp 1 .wait = some (recordOf retired)
       ∧ waitFields retired = some (.retired 1) ∧ (∀ e ∈ ((lit1 []).head 1).present.entries, e.ref.stream ≠ 1)
       ∧ (withRecord (lit1 [palEntry .ready]) 1 retired).takeUp 1 .wait = some (recordOf retired)
       ∧ (∃ e ∈ ((lit1 [palEntry .ready]).head 1).present.entries, e.ref.stream = 1)
       ∧ (withRecord live 1 jobs).takeUp 1 .wait = some (recordOf jobs) ∧ waitFields jobs = some .jobs
       ∧ (∀ j ∈ live.jobs, j.ref.stream ≠ 1)
       ∧ (withRecord filling 1 jobs).takeUp 1 .wait = some (recordOf jobs) ∧ (∃ j ∈ filling.jobs, j.ref.stream = 1)) := by
  decide +kernel

/-- A job of stream 0 with an unevaluated gate on head 0. -/
def gatedJob : Job := newJob (queuedJob 0).ref 2 (queuedJob 0).work (some ⟨0, true, 4, 1⟩) 0

/-- A gate with its target, one without, on a dark and on a lit head; a list with an eligible job behind a closed one, and
a list with none. -/
theorem test_witness_GatesAndTheEnginesChoice :
    gatedJob.gate = some ⟨0, true, 4, 1⟩ ∧ gatedJob.gateState = .closed ∧ gatedJob.state = .queued
      ∧ gatedJob.target = none ∧ ({ gatedJob with target := some (1, 4) } : Job).target ≠ none
      ∧ (live.heads.get 0).scanning = false ∧ ((withHeads (litHead 7 3) darkHead).heads.get 0).scanning = true
      ∧ [gatedJob, queuedJob 1] = [gatedJob] ++ queuedJob 1 :: [] ∧ (queuedJob 1).state = .queued
      ∧ (queuedJob 1).gateState ≠ .closed ∧ (∀ i ∈ [gatedJob], i.ref.stream ≠ (queuedJob 1).ref.stream)
      ∧ runOldestEligible [] [gatedJob] = none := by decide +kernel

/-- The free engine with a job to choose, a busy one, and none to choose; the start of a WINDOW job, of a job on an UNSET
context, on a SET one with a cursor and with an ENDED one, of a FILL of count 0, and a count of 1. -/
theorem test_witness_GatesAndTheEnginesChoice_start :
    (let s := { live with jobs := [queuedJob 1] }
     s.regs.device = .running ∧ s.jobs.any Job.holdsEngine = false ∧ (runOldestEligible [] s.jobs).isSome = true)
      ∧ (inState .stopping).regs.device ≠ .running ∧ filling.jobs.any Job.holdsEngine = true
      ∧ runOldestEligible [] live.jobs = none
      ∧ (∀ work ∈ [JobWork.window 2 window171, .fill 2 .fresh 0 2, .fill 2 .resumed 0 0],
          let j := { queuedJob 1 with work := work, state := .running }
          let s := { live with jobs := [j] }
          s.runningJob = some j ∧ s.engine.processed = 0 ∧ s.engine.written = 0 ∧ s.context 1 2 = .unset
            ∧ (placed none).context 1 2 = .set window171 none
            ∧ (placed (some window171.corner)).context 1 2 = .set window171 (some window171.corner))
      ∧ (JobWork.fill 2 .fresh 0 1).count? = some 1 ∧ 1 ≤ 1 ∧ (JobWork.fill 2 .resumed 0 0).count? = none := by
  decide +kernel

/-- A FILL with a count, at its last pixel and before it; a count beyond the window; a FILL of count 0 at the window's last
position and before it. -/
theorem test_witness_ServedWritesProcessPixels :
    filling.active = true ∧ filling.engine.phase = .write 0x0000FF
      ∧ filling.runningJob = some { queuedJob 1 with work := .fill 2 .fresh 0x0000FF 2, state := .running }
      ∧ filling.context 1 2 = .set window171 (some { column := 12, line := 5 })
      ∧ (JobWork.fill 2 .fresh 0x0000FF 2).count? = some 2 ∧ filling.engine.processed + 1 < 2
      ∧ window171.stepFrom { column := 12, line := 5 } ≠ none
      ∧ (let s := transferring 1 { column := 10, line := 6 } (.write 0x123456) none
         s.active = true ∧ s.engine.phase = .write 0x123456 ∧ s.runningJob.isSome = true
           ∧ s.context 1 2 = .set window171 (some { column := 10, line := 6 }) ∧ s.engine.processed + 1 < 5
           ∧ window171.stepFrom { column := 10, line := 6 } = none)
      ∧ 5 ≤ (transferring 4 { column := 10, line := 6 } (.write 0x123456) none).engine.processed + 1
      ∧ (JobWork.fill 2 .fresh 0x0000FF 0).count? = none := by decide +kernel

/-- The next pixel, kept and skipped by a key, and a later pixel; the part settled. -/
theorem test_witness_SourceAnswersAreTaken :
    (let s := transferring 0 { column := 12, line := 5 } .source
       (some { key := 0x0000FF, mask := 0xFFFFFF, sense := .skipMatch })
     s.active = true ∧ s.engine.phase = .source ∧ s.engine.ahead = [] ∧ s.runningJob.isSome = true
       ∧ s.context 1 2 = .set window171 (some { column := 12, line := 5 }) ∧ s.sourceExpected 1 = true
       ∧ s.sourceExpected 5 = true ∧ 5 ≠ s.engine.processed + 1 ∧ 1 = s.engine.processed + 1 ∧ s.engine.processed + 1 < 5
       ∧ window171.stepFrom { column := 12, line := 5 } ≠ none)
      ∧ keySkips (some { key := 0x0000FF, mask := 0xFFFFFF, sense := .skipMatch }) (widenPixel .r5g6b5 0x001F) = true
      ∧ keySkips (some { key := 0x0000FF, mask := 0xFFFFFF, sense := .skipMatch }) (widenPixel .r5g6b5 0x001E) = false
      ∧ (transferring 0 { column := 12, line := 5 } .source
          (some { key := 0x0000FF, mask := 0xFFFFFF, sense := .skipMatch })).quiescent := by
  refine ⟨?_, ?_, ?_, Option.isNone_iff_eq_none.mp ?_⟩ <;> decide +kernel

/-- A pixel the key skips that is the last of the count, and one after which the cursor is ENDED; the part settled. -/
theorem test_witness_SourceAnswersAreTaken_ends :
    (∀ n ∈ [1, 4],
      let s := transferring n { column := 10, line := 6 } .source
        (some { key := 0x0000FF, mask := 0xFFFFFF, sense := .skipMatch })
      s.react.isNone = true ∧ s.active = true ∧ s.engine.phase = .source ∧ s.runningJob.isSome = true
        ∧ s.context 1 2 = .set window171 (some { column := 10, line := 6 }) ∧ s.sourceExpected (n + 1) = true
        ∧ n + 1 = s.engine.processed + 1)
      ∧ 5 ≤ 4 + 1 ∧ 1 + 1 < 5 ∧ window171.stepFrom { column := 10, line := 6 } = none := by decide +kernel

/-- The key of the tests, which skips the source pixel 001Fh. -/
def blueKey : Key := { key := 0x0000FF, mask := 0xFFFFFF, sense := .skipMatch }

/-- A TRANSFER at its first pixel, the answer for its second come in. -/
def aheadOf (answer : Option Word) : State :=
  { transferring 0 { column := 12, line := 5 } .source (some blueKey) with
    engine := { Engine.free with phase := .source, ahead := [(2, answer)] } }

/-- A pixel the key skips while the next has come in, as a pixel that is written, as one that is skipped and as a bus error;
the part settled. -/
theorem test_witness_SourceAnswersAreTaken_ahead :
    (aheadOf none).active = true ∧ (aheadOf none).engine.phase = .source ∧ (aheadOf none).runningJob.isSome = true
      ∧ (aheadOf none).context 1 2 = .set window171 (some { column := 12, line := 5 })
      ∧ sparseRead (aheadOf none).engine.ahead (1 + 1) = some none
      ∧ sparseRead (aheadOf (some 0x001E)).engine.ahead (1 + 1) = some (some 0x001E)
      ∧ sparseRead (aheadOf (some 0x001F)).engine.ahead (1 + 1) = some (some 0x001F)
      ∧ (aheadOf none).engine.processed + 1 < 5 :=
  ⟨rfl, rfl, rfl, rfl, rfl, rfl, rfl, by decide⟩
theorem test_witness_SourceAnswersAreTaken_ahead_settled :
    (aheadOf (some 0x001E)).react.isNone = true ∧ (aheadOf (some 0x001F)).react.isNone = true
      ∧ (aheadOf none).react.isNone = true ∧ (aheadOf none).sourceExpected 1 = true
      ∧ keySkips (some blueKey) (widenPixel .r5g6b5 0x001F) = true
      ∧ keySkips (some blueKey) (widenPixel .r5g6b5 0x001E) = false
      ∧ window171.stepFrom { column := 12, line := 5 } ≠ none := by decide +kernel

/-- R26, R30: pixel 1 is skipped, and pixel 2, which had come in, is then presented at the next position. -/
theorem test_source_ahead_taken : after (.sourceReadAnswer 1 (.data 0x001F)) (aheadOf (some 0x001E))
    (fun t => decide (t.engine.phase = .write (widenPixel .r5g6b5 0x001E)) && decide (t.engine.ahead = [])
      && decide (t.cursor = some { column := 11, line := 5 })) = true := by decide +kernel

/-- R15, R37: a skipped pixel at the window's last position ends the job: A 1, B 3, OVERRUN. -/
theorem test_skipped_pixel_ends : after (.sourceReadAnswer 2 (.data 0x001F))
    (transferring 1 { column := 10, line := 6 } .source (some { key := 0x0000FF, mask := 0xFFFFFF, sense := .skipMatch }))
    (fun t => decide (outcomes t = [{ status := .done, valueA := 1, valueB := 3, flags := { overrun := true } }])) = true := by
  decide +kernel

/-- A READBACK of count 1 at its read and at its word; of count 2 with positions left and with none. -/
theorem test_witness_ReadbackWordsAreWritten :
    readingBack.active = true
      ∧ readingBack.runningJob = some { queuedJob 1 with work := .readback 2 .resumed 0x40 1, state := .running }
      ∧ readingBack.context 1 2 = .set window171 (some { column := 12, line := 5 })
      ∧ readingBack.engine.phase = .word { address := 0x40, bytes := readbackBytes 0x123456 }
      ∧ ({ readingBack with engine := { readingBack.engine with phase := .read } } : State).engine.phase = .read
      ∧ 1 ≤ readingBack.engine.processed + 1 ∧ readingBack.engine.processed + 1 < 2
      ∧ window171.stepFrom { column := 12, line := 5 } ≠ none ∧ window171.stepFrom { column := 10, line := 6 } = none := by
  decide +kernel

/-- Both errors, each in a settled part with one engine job. -/
theorem test_witness_JobErrorsHaltTheStream :
    (readingBack.quiescent ∧ readingBack.active = true ∧ readingBack.oneEngineJob
        ∧ readingBack.runningJob = some { queuedJob 1 with work := .readback 2 .resumed 0x40 1, state := .running }
        ∧ (readingBack.stream 1).ring = some (ringOf 1) ∧ (readingBack.stream 1).halt = none
        ∧ readingBack.engine.phase = .word { address := 0x40, bytes := readbackBytes 0x123456 })
      ∧ (let s := transferring 1 { column := 11, line := 5 } .source none
         s.quiescent ∧ s.active = true ∧ s.oneEngineJob ∧ s.runningJob.isSome = true
           ∧ (s.stream 1).ring = some (ringOf 1) ∧ (s.stream 1).halt = none ∧ s.engine.phase = .source
           ∧ s.sourceExpected (s.engine.processed + 1) = true) := by
  refine ⟨⟨Option.isNone_iff_eq_none.mp ?_, ?_, ?_, ?_⟩, Option.isNone_iff_eq_none.mp ?_, ?_, ?_, ?_⟩ <;>
    (try unfold State.oneEngineJob) <;> decide +kernel

/-- The running job of a stream that is not HALTED and of one that is. -/
theorem test_witness_JobErrorsHaltTheStream_halted :
    readingBack.runningJob.isSome = true ∧ (readingBack.stream 1).halt = none
      ∧ (readingBack.stream 1).ring = some (ringOf 1)
      ∧ (let s := readingBack.setStream 1 { readingBack.stream 1 with halt := some 2 }
         s.runningJob.isSome = true ∧ (s.stream 1).halt ≠ none) := by decide +kernel

/-- A pending LINK of the failed job's stream in the last slot read again, and in the first that is not. -/
theorem test_witness_JobErrorsHaltTheStream_rewound :
    (let ref : RecordRef := { (queuedJob 1).ref with ringIndex := 7 }
     let s := (readingBack.setStream 1 { readingBack.stream 1 with ring := some { ringOf 1 with fetch := 8, post := 8 } }).setHead
       1 { darkHead with link := { darkHead.link with pending := some ref } }
     s.runningJob.isSome = true ∧ (s.head 1).link.pending = some ref
       ∧ ((s.failJob .sourceError 0).head 1).link.pending = some { ref with rewound := true }
       ∧ { ref with ringIndex := 8 }.rewind 1 4 8 16 = { ref with ringIndex := 8 }
       ∧ { ref with ringIndex := 3 }.rewind 1 4 8 16 = { ref with ringIndex := 3 }) := by decide +kernel

/-- The same entries for the immediate evaluation, one of them before its not-before frame; and an oldest unlatched entry that
is WAITING. -/
theorem test_witness_LatchStepsTakeTheTarget_immediate :
    (let settled := [palEntry .latched]
     let skipped := [{ entry691 .queue 0 2 with notBefore := 503 }]
     let target := entry691 .latest 0 3
     let rest := [palEntry .waiting]
     let hd := { litHead 502 15 with
       present := { Present.empty with entries := settled ++ skipped ++ target :: rest } }
     (∀ e ∈ settled, e.unlatched = false) ∧ (∀ e ∈ skipped ++ [target], e.state = .ready)
       ∧ (∀ e ∈ (skipped ++ [target]).tail, e.policy = .latest)
       ∧ (∀ e ∈ rest.head?, ¬ (e.policy = .latest ∧ e.state = .ready))
       ∧ hd.present.entries = settled ++ skipped ++ target :: rest
       ∧ (∀ e ∈ rest.head?, e.unlatched = true ∧ e.state ≠ .ready)
       ∧ ({ hd with present := { Present.empty with entries := settled ++ rest } } : Head).present.entries
         = settled ++ rest) := by decide +kernel

/-- A LATCHED entry, two ready entries the second of which is LATEST, and one that is not ready; and an oldest unlatched
entry whose not-before frame is one beyond the counter. -/
theorem test_witness_LatchStepsTakeTheTarget :
    (let settled := [palEntry .latched]
     let skipped := [entry691 .queue 0 2]
     let target := entry691 .latest 0 3
     let rest := [palEntry .waiting]
     let hd := { litHead 502 15 with
       present := { Present.empty with entries := settled ++ skipped ++ target :: rest } }
     (∀ e ∈ settled, e.unlatched = false)
       ∧ (∀ e ∈ skipped ++ [target], e.state = .ready
          ∧ (e.notBefore = 0 ∨ e.notBefore.toNat ≤ hd.scan.frame.toNat))
       ∧ (∀ e ∈ (skipped ++ [target]).tail, e.policy = .latest)
       ∧ (∀ e ∈ rest.head?, ¬ (e.policy = .latest ∧ e.state = .ready
          ∧ (e.notBefore = 0 ∨ e.notBefore.toNat ≤ hd.scan.frame.toNat)))
       ∧ hd.present.entries = settled ++ skipped ++ target :: rest)
      ∧ (let first := { entry691 .queue 255 2 with notBefore := 503 }
         first.unlatched = true ∧ ¬ (first.state = .ready
           ∧ (first.notBefore = 0 ∨ first.notBefore.toNat ≤ (litHead 502 15).scan.frame.toNat))) := by decide +kernel

/-- Line 14 to 15, line 15 to V_ACT, and line 17, the last, to 0. -/
theorem test_witness_LineStartsMoveTheScan :
    (∀ line ∈ [14, 15, 17], ((withHeads (litHead 7 line) darkHead).head 0).scanning = true
        ∧ ((withHeads (litHead 7 line) darkHead).head 0).scan.timing = some timing)
      ∧ (if 15 + 1 < timing.vAct + timing.vBlank then 15 + 1 else 0) = timing.vAct
      ∧ (if 17 + 1 < timing.vAct + timing.vBlank then 17 + 1 else 0) ≠ timing.vAct := by decide +kernel

/-- A blanking start at which a gate opens, and one at which it does not. -/
theorem test_witness_LineStartsMoveTheScan_gates :
    (let opens : Job := { gatedJob with target := some (8, 16) }
     let waits : Job := { gatedJob with target := some (8, 17) }
     let sc := { (litHead 8 16).scan with shown := [] }
     openGates 0 sc [opens] ≠ [opens] ∧ openGates 0 sc [waits] = [waits] ∧ [opens][0]? = some opens) := by decide +kernel

/-- A covered line and its last column; a line no band covers; a blanking line. -/
theorem test_witness_LinesAreSentColumnByColumn :
    (let hd := { litHead 7 15 with
       scan := { (litHead 7 15).scan with active := ⟨[stagedBand], 0, .full⟩, sent := List.replicate 15 (.grey 0) } }
     hd.scanning = true ∧ hd.scan.timing = some timing ∧ hd.scan.line < timing.vAct ∧ hd.scan.sent.length < timing.hAct
       ∧ hd.scan.active.bands.find? (fun b => b.covers hd.scan.line) = some stagedBand
       ∧ ∃ b ∈ hd.scan.active.bands, b.covers 15 = true)
      ∧ (∀ b ∈ (litHead 7 15).scan.active.bands, b.covers 15 = false) ∧ 15 < timing.vAct ∧ timing.vAct ≤ 16 := by
  decide +kernel

/-- A step of 1 and of 255; a link that is OFF, one that is ON without a ramp, and one with a ramp that arrives, with a
pending LIGHT or without, or does not arrive. -/
theorem test_witness_RampsEndExactly :
    (1 ≤ 1 ∧ 1 ≤ 255)
      ∧ darkHead.link.state ≠ .on ∧ (litHead 7 3).light.ramping = false ∧ (litHead 7 3).link.state = .on
      ∧ ({ Light.dark with ramping := true, target := 200, step := 48 } : Light).ramping = true
      ∧ min 200 (0 + 48) ≠ 200 ∧ min 200 (192 + 48) = 200 ∧ Light.dark.pending = none := by decide +kernel

/-- A mark outside FAULT and in it; a waiter whose time is 0, the only one of its stream. -/
theorem test_witness_WaitersCountDownAndExpire :
    live.regs.device ≠ .fault ∧ (inState .fault).regs.device = .fault
      ∧ (let s := leased (some 0)
         let c := { recordOf [firstSlot 0x10 1 0 1 [(0x10, 1, 1), (0x12, 2, 5)]] with phase := .waitLease }
         let w : Waiter := ⟨headerRef 2 c, some 0⟩
         s.active = true ∧ w ∈ (s.head 1).lease.waiters
           ∧ (∀ v ∈ (s.head 1).lease.waiters, v.ref.stream = 2 → v = w) ∧ w.ref = headerRef 2 c
           ∧ (s.stream 2).current = some c ∧ (s.stream 2).ring = some { ringOf 2 with post := 1, fetch := 1 }
           ∧ declaredSlots c.slots = 1) := by decide +kernel

/-- Nothing due; a step alone; a waiter alone. -/
theorem test_witness_WaitersCountDownAndExpire_due :
    live.due = [] ∧ (stepping .powering .on).due = [.step 1] ∧ (leased (some 0)).due = [.waiter 1 2] := by decide +kernel

/-- A step and a waiter due together; a waiter that is not due. -/
theorem test_witness_WaitersCountDownAndExpire_two :
    ((leased (some 0)).setHead 0 ((stepping .powering .on).head 1)).due = [.step 0, .waiter 1 2]
      ∧ ((leased (some 0)).setHead 0 ((stepping .powering .on).head 1)).regs.device ≠ .fault
      ∧ .waiter 1 2 ∉ (leased (some 1)).due := by decide +kernel

/-- R73, R130: of a step and a waiter due together either may be taken first, and then the other is still due. -/
theorem test_two_due :
    (let s := (leased (some 0)).setHead 0 ((stepping .powering .on).head 1)
     ((s.takeDue (.step 0)).map (fun t => t.due)) = some [.waiter 1 2]
       ∧ ((s.takeDue (.waiter 1 2)).map (fun t => t.due)) = some [.step 0]) := by decide +kernel

/-- A signal delay of 0, in POWERING and in DARKENING. -/
theorem test_witness_LinkStepsEnd_zero :
    ∀ p ∈ [(LinkState.powering, LinkTarget.on), (.darkening, .off)],
      (let s := (stepping p.1 p.2).setHead 1
         { (stepping p.1 p.2).head 1 with
           link := { ((stepping p.1 p.2).head 1).link with delays := some ⟨20, 0, 5⟩ } }
       s.regs.device ≠ .fault ∧ (s.head 1).link.timer = some 0 ∧ (s.head 1).link.delays = some ⟨20, 0, 5⟩
         ∧ (s.head 1).link.state = p.1 ∧ (s.head 1).link.target = p.2) ∧ (0 : Nat) < 20 := by decide +kernel

/-- A supply delay of 0 where no supply step is met. -/
theorem test_witness_LinkStepsEnd_supply :
    ∀ p ∈ [(LinkState.powering, LinkTarget.on), (.signalling, .on), (.darkening, .off), (.signalling, .off),
        (.unpowering, .off)],
      (let s := (stepping p.1 p.2).setHead 1
         { (stepping p.1 p.2).head 1 with
           link := { ((stepping p.1 p.2).head 1).link with delays := some ⟨0, 10, 5⟩ } }
       s.regs.device ≠ .fault ∧ (s.head 1).link.timer = some 0 ∧ (s.head 1).link.delays = some ⟨0, 10, 5⟩
         ∧ (s.head 1).link.state = p.1 ∧ (s.head 1).link.target = p.2) ∧ (0 : Nat) < 10 := by decide +kernel

/-- Every step and target. -/
theorem test_witness_LinkStepsEnd :
    ∀ p ∈ [(LinkState.powering, LinkTarget.on), (.powering, .off), (.quiescing, .on), (.signalling, .on),
        (.darkening, .off), (.signalling, .off), (.unpowering, .off), (.unpowering, .on)],
      (stepping p.1 p.2).regs.device ≠ .fault ∧ ((stepping p.1 p.2).head 1).link.timer = some 0
        ∧ ((stepping p.1 p.2).head 1).link.delays = some delays ∧ 0 < delays.supply ∧ 0 < delays.signal
        ∧ ((stepping p.1 p.2).head 1).link.state = p.1 ∧ ((stepping p.1 p.2).head 1).link.target = p.2 := by decide +kernel

theorem test_witness_ScanStopsAreTold :
    (stepping .quiescing .off).active = true ∧ ((stepping .quiescing .off).head 1).scanning = false := by decide +kernel

/-- A device that is not active, no ring loaded, a write outstanding. -/
theorem test_witness_CompletionWritesFollowTheRing_none :
    (inState .fault).active = false ∧ State.reset.writer.ring = none ∧ writing87.writer.write ≠ none := by decide +kernel

/-- The last entry of a ring; no room and room for a write; an empty list. -/
theorem test_witness_CompletionWritesFollowTheRing :
    writing87.writer.write.isSome = true
      ∧ writing87.writer.outbound
        = completion 0x24 .done false (some 0) :: [completion 0x02 .sourceError false none]
      ∧ writing87.writer.ring = some { completionRing with producer := 15, retire := 10 } ∧ 15 < completionRing.size
      ∧ full87.active = true ∧ full87.writer.ring = some { completionRing with producer := 15 }
      ∧ full87.writer.write = none ∧ (15 + 1) % 16 = 0 ∧ (15 + 1) % 16 ≠ 10 ∧ live.writer.outbound = []
      ∧ live.writer.ring = some completionRing ∧ live.writer.write = none := by decide +kernel

/-- A list that a removal leaves; an ENDED job behind one that is not; a completion kept, one held and one in an outbox, with
seven of class OTHER and with eight, with an earlier reading owed and without. -/
theorem test_witness_SilenceAndTheEndsOfJobs_placed :
    (let ended := { queuedJob 1 with state := .ended { status := .cancelled } false }
     [queuedJob 0, ended] = [queuedJob 0] ++ ended :: [] ∧ (∀ q ∈ [queuedJob 0], q.isEnded = false)
       ∧ (∀ q ∈ crowded.jobs, q.isEnded = false))
      ∧ (reread.stream 1).kept = [rereadFailed]
      ∧ (reread.writer.outbound.filter (fun c => decide (c.origin = none))).length = 7
      ∧ (List.replicate 8 (completion 0x41 .done false none)).length = 8
      ∧ reread.owed rereadFailed = true ∧ reread.owed { rereadFailed with reading := 0 } = false
      ∧ reread.owed (completion 0x30 .done false none) = false
      ∧ reread.owed { rereadFailed with reading := 2 } = true
      ∧ ({ darkHead with link := { darkHead.link with held := [completion 0x30 .done false none] } } : Head).link.held
        = [completion 0x30 .done false none]
      ∧ ({ darkHead with present := { Present.empty with outbox := [completion 0x24 .done false (some 0)] } }
          : Head).present.outbox = [completion 0x24 .done false (some 0)]
      ∧ reread.placeNext.isSome = true := by decide +kernel

/-- R181: a COMMIT completion of a later reading waits for the CANCELLED job and for the kept completion of earlier ones; one
behind it passes it where it is ABANDONED, and waits where it is of a latch step. The completion of a later reading waits for
a pending LINK whose slot is read again, and not where it is not. -/
theorem test_witness_SilenceAndTheEndsOfJobs_owed :
    (let commit := fun status => { completion 0x24 status false (some 0) with stream := 1, ringIndex := 3, reading := 2 }
     let other := completion 0x24 .done false (some 0)
     let s := fun status =>
       reread.setHead 0 { darkHead with present := { Present.empty with outbox := [commit status, other] } }
     let ref : RecordRef := { (queuedJob 1).ref with rewound := true }
     let pending := live.setHead 0 { darkHead with link := { darkHead.link with pending := some ref } }
     let plain := live.setHead 0 { darkHead with link := { darkHead.link with pending := some (queuedJob 1).ref } }
     (∀ status ∈ [Status.abandoned, .skipped],
        ((s status).head 0).present.outbox = [commit status] ++ other :: []
          ∧ (∀ d ∈ [commit status], (s status).owed d = true) ∧ (s status).owed other = false)
       ∧ (((s .abandoned).placeFrom (.presentUnit 0)).map (fun t => (t.head 0).present.outbox)) = some [commit .abandoned]
       ∧ (s .skipped).placeFrom (.presentUnit 0) = none
       ∧ pending.owed rereadFailed = true ∧ plain.owed rereadFailed = false) := by decide +kernel

/-- R136: a LINK DONE held behind a LIGHT SUPERSEDED that waits for an earlier reading (R181) is not placed before it; once
none is owed, the LIGHT is placed first. -/
theorem test_held_oldest_first :
    (let light := { completion 0x31 .superseded false none with stream := 1, ringIndex := 3, reading := 1 }
     let link := completion 0x30 .done false none
     let hd := { darkHead with link := { darkHead.link with held := [light, link] } }
     (reread.setHead 0 hd).placeFrom (.linkController 0) = none
       ∧ (((live.setHead 0 hd).placeFrom (.linkController 0)).map (fun t => (t.head 0).link.held)) = some [link]) := by
  decide +kernel

/-- R117: of ready entries QUEUE, QUEUE, LATEST the first is latched and none skipped; of QUEUE, LATEST the second. -/
theorem test_latch_stops_at_queue :
    skipCount [entry691 .queue 0 1, entry691 .queue 0 2, entry691 .latest 0 3] = 0
      ∧ skipCount [entry691 .queue 0 2, entry691 .latest 0 3] = 1 := by decide +kernel

/-- A SILENT record DONE without a flag; one with a flag; a RUNNING job of each sort. -/
theorem test_witness_SilenceAndTheEndsOfJobs :
    (let ref : RecordRef := { (palEntry .ready).ref with silent := true }
     ref.silent = true ∧ ({ status := .done } : Machine.Outcome).flags = {}
       ∧ ({ status := .done, flags := { overrun := true } } : Machine.Outcome).flags ≠ {})
      ∧ filling.runningJob = some { queuedJob 1 with work := .fill 2 .fresh 0x0000FF 2, state := .running }
      ∧ (queuedJob 1).ref.silent = false
      ∧ (let j := { queuedJob 1 with ref := { (queuedJob 1).ref with silent := true }, state := .running }
         ({ filling with jobs := [j] } : State).runningJob = some j ∧ j.ref.silent = true) := by decide +kernel

end Sys2Proof.Tests
end

