-- ==== Sys2Proof/Proofs/Windows.lean ====
section
/-! SUPPORT. Windows and cursors: the two directions of an axis, one step of the cursor in ROW_FIRST, and the exchange of
columns and lines, which carries every fact about ROW_FIRST over to COLUMN_FIRST. -/

namespace Sys2Proof.Machine

set_option Elab.async false

/-! ## One axis -/

/-- The `i`th number from the first bound on, in a direction. -/
def Direction.nth (d : Direction) (low high i : Nat) : Nat :=
  match d with
  | .inc => low + i
  | .dec => high - i

@[simp] theorem Direction.nth_zero (d : Direction) (low high : Nat) : d.nth low high 0 = d.first low high := by
  cases d <;> rfl

theorem Direction.nth_eq_ite (d : Direction) (low high i : Nat) :
    d.nth low high i = if d = .inc then low + i else high - i := by
  cases d <;> rfl

theorem Direction.first_eq_ite (d : Direction) (low high : Nat) :
    d.first low high = if d = .inc then low else high := by
  cases d <;> rfl

theorem Direction.last_eq_ite (d : Direction) (low high : Nat) :
    d.last low high = if d = .inc then high else low := by
  cases d <;> rfl

theorem Direction.step_eq_ite (d : Direction) (n : Nat) : d.step n = if d = .inc then n + 1 else n - 1 := by
  cases d <;> rfl

theorem Direction.nth_eq_last (d : Direction) {low high i : Nat} (h : low ≤ high) (hi : i ≤ high - low) :
    d.nth low high i = d.last low high ↔ i = high - low := by
  cases d <;> simp only [Direction.nth, Direction.last] <;> omega

theorem Direction.step_nth (d : Direction) {low high i : Nat} (_hi : i < high - low) :
    d.step (d.nth low high i) = d.nth low high (i + 1) := by
  cases d <;> simp only [Direction.nth, Direction.step] <;> omega

theorem Direction.left_first (d : Direction) (low high : Nat) : d.left low high (d.first low high) = high - low := by
  cases d <;> rfl

theorem Direction.left_last (d : Direction) (low high : Nat) : d.left low high (d.last low high) = 0 := by
  cases d <;> simp [Direction.left, Direction.last]

/-- Short of the last bound, a step brings a number nearer to it by one. -/
theorem Direction.left_step (d : Direction) {low high n : Nat} (h1 : low ≤ n) (h2 : n ≤ high)
    (hn : n ≠ d.last low high) : d.left low high (d.step n) + 1 = d.left low high n := by
  cases d <;> simp only [Direction.left, Direction.last, Direction.step] at hn ⊢ <;> omega

/-- Short of the last bound, a step stays within the bounds. -/
theorem Direction.step_mem (d : Direction) {low high n : Nat} (h1 : low ≤ n) (h2 : n ≤ high)
    (hn : n ≠ d.last low high) : low ≤ d.step n ∧ d.step n ≤ high := by
  cases d <;> simp only [Direction.last, Direction.step] at hn ⊢ <;> omega

theorem Direction.first_mem (d : Direction) {low high : Nat} (h : low ≤ high) :
    low ≤ d.first low high ∧ d.first low high ≤ high := by
  cases d <;> simp only [Direction.first] <;> omega

/-! ## Bounds -/

theorem Window.bounded_iff (w : Window) :
    w.bounded = true ↔ w.xStart ≤ w.xEnd ∧ w.xEnd < panelSide ∧ w.yStart ≤ w.yEnd ∧ w.yEnd < panelSide := by
  simp only [Window.bounded, Bool.and_eq_true, decide_eq_true_eq, and_assoc]

theorem Window.holds_iff (w : Window) (p : Position) :
    w.holds p = true ↔ w.xStart ≤ p.column ∧ p.column ≤ w.xEnd ∧ w.yStart ≤ p.line ∧ p.line ≤ w.yEnd := by
  simp only [Window.holds, Bool.and_eq_true, decide_eq_true_eq, and_assoc]

/-- The start corner lies inside its window. -/
theorem Window.holds_corner (w : Window) (hw : w.bounded = true) : w.holds w.corner = true := by
  obtain ⟨hx, _, hy, _⟩ := w.bounded_iff.mp hw
  obtain ⟨hx1, hx2⟩ := w.xDir.first_mem hx
  obtain ⟨hy1, hy2⟩ := w.yDir.first_mem hy
  exact (w.holds_iff _).mpr ⟨hx1, hx2, hy1, hy2⟩

/-! ## One step in ROW_FIRST (R10) -/

theorem Window.stepFrom_inRow (w : Window) (p : Position) (ho : w.order = .rowFirst) (hc : p.column ≠ w.endColumn) :
    w.stepFrom p = some { column := w.xDir.step p.column, line := p.line } := by
  simp [Window.stepFrom, ho, hc]

theorem Window.stepFrom_nextRow (w : Window) (p : Position) (ho : w.order = .rowFirst) (hc : p.column = w.endColumn)
    (hl : p.line ≠ w.endLine) :
    w.stepFrom p = some { column := w.corner.column, line := w.yDir.step p.line } := by
  simp [Window.stepFrom, ho, hc, hl, Window.corner]

theorem Window.stepFrom_lastRow (w : Window) (p : Position) (ho : w.order = .rowFirst) (hc : p.column = w.endColumn)
    (hl : p.line = w.endLine) : w.stepFrom p = none := by
  simp [Window.stepFrom, ho, hc, hl]

/-- The positions left in ROW_FIRST: the whole rows behind the cursor's, and what is left of its own row. -/
theorem Window.remaining_rowFirst (w : Window) (p : Position) (ho : w.order = .rowFirst) :
    w.remaining (some p)
      = w.yDir.left w.yStart w.yEnd p.line * (w.xEnd - w.xStart + 1) + w.xDir.left w.xStart w.xEnd p.column + 1 := by
  simp only [Window.remaining, ho]

/-! ## Columns and lines exchanged -/

/-- A position with column and line exchanged. -/
def Position.transposed (p : Position) : Position := { column := p.line, line := p.column }

/-- The other order. -/
def Order.other : Order → Order
  | .rowFirst => .columnFirst
  | .columnFirst => .rowFirst

/-- A window with columns and lines exchanged. -/
def Window.transposed (w : Window) : Window :=
  { xStart := w.yStart, xEnd := w.yEnd, yStart := w.xStart, yEnd := w.xEnd, order := w.order.other, xDir := w.yDir
    yDir := w.xDir }

@[simp] theorem Position.transposed_transposed (p : Position) : p.transposed.transposed = p := rfl

theorem Window.corner_transposed (w : Window) : w.transposed.corner = w.corner.transposed := rfl

theorem Window.bounded_transposed (w : Window) (hw : w.bounded = true) : w.transposed.bounded = true := by
  obtain ⟨hx, hx', hy, hy'⟩ := w.bounded_iff.mp hw
  exact w.transposed.bounded_iff.mpr ⟨hy, hy', hx, hx'⟩

theorem Window.holds_transposed (w : Window) (p : Position) : w.transposed.holds p.transposed = w.holds p := by
  refine Bool.eq_iff_iff.mpr ?_
  rw [Window.holds_iff, Window.holds_iff]
  simp only [Window.transposed, Position.transposed]
  tauto

theorem Window.transposed_rowFirst (w : Window) (ho : w.order = .columnFirst) : w.transposed.order = .rowFirst := by
  simp [Window.transposed, ho, Order.other]

/-- A step in the exchanged window is the exchanged step. -/
theorem Window.stepFrom_transposed (w : Window) (p : Position) :
    w.transposed.stepFrom p.transposed = (w.stepFrom p).map Position.transposed := by
  cases ho : w.order with
  | rowFirst =>
    by_cases hc : p.column = w.endColumn <;> by_cases hl : p.line = w.endLine <;>
      simp_all [Window.stepFrom, Window.transposed, Order.other, Position.transposed, Window.endColumn, Window.endLine,
        Window.startColumn, Window.startLine]
  | columnFirst =>
    by_cases hc : p.column = w.endColumn <;> by_cases hl : p.line = w.endLine <;>
      simp_all [Window.stepFrom, Window.transposed, Order.other, Position.transposed, Window.endColumn, Window.endLine,
        Window.startColumn, Window.startLine]

theorem Window.remaining_transposed (w : Window) (p : Option Position) :
    w.transposed.remaining (p.map Position.transposed) = w.remaining p := by
  cases p with
  | none => rfl
  | some p =>
    cases ho : w.order <;> simp [Window.remaining, Window.transposed, Order.other, Position.transposed, ho]

/-- The whole visit of the exchanged window is the exchanged visit. -/
theorem Window.visit_transposed (w : Window) (n : Nat) :
    (fun c : Option Position => c.bind w.transposed.stepFrom)^[n] (some w.transposed.corner)
      = ((fun c : Option Position => c.bind w.stepFrom)^[n] (some w.corner)).map Position.transposed := by
  have h : Function.Semiconj (Option.map Position.transposed) (fun c : Option Position => c.bind w.stepFrom)
      (fun c : Option Position => c.bind w.transposed.stepFrom) := by
    intro c
    cases c with
    | none => rfl
    | some p => exact (w.stepFrom_transposed p).symm
  exact ((h.iterate_right n).eq (some w.corner)).symm

/-! ## The whole visit in ROW_FIRST -/

/-- The position in column `i` of row `j`, both counted from the start corner in the two directions. -/
def Window.place (w : Window) (i j : Nat) : Position :=
  { column := w.xDir.nth w.xStart w.xEnd i, line := w.yDir.nth w.yStart w.yEnd j }

theorem Window.place_zero (w : Window) : w.place 0 0 = w.corner := by
  simp [Window.place, Window.corner, Window.startColumn, Window.startLine]

theorem Window.stepFrom_place_inRow (w : Window) (ho : w.order = .rowFirst) (hw : w.bounded = true) {i j : Nat}
    (hi : i < w.xEnd - w.xStart) : w.stepFrom (w.place i j) = some (w.place (i + 1) j) := by
  obtain ⟨hx, _, _, _⟩ := w.bounded_iff.mp hw
  have hc : (w.place i j).column ≠ w.endColumn := fun e => by
    have := (w.xDir.nth_eq_last hx (by omega)).mp e
    omega
  rw [w.stepFrom_inRow _ ho hc]
  simp only [Window.place, w.xDir.step_nth hi]

theorem Window.stepFrom_place_nextRow (w : Window) (ho : w.order = .rowFirst) (hw : w.bounded = true) {j : Nat}
    (hj : j < w.yEnd - w.yStart) : w.stepFrom (w.place (w.xEnd - w.xStart) j) = some (w.place 0 (j + 1)) := by
  obtain ⟨hx, _, hy, _⟩ := w.bounded_iff.mp hw
  have hl : (w.place (w.xEnd - w.xStart) j).line ≠ w.endLine := fun e => by
    have := (w.yDir.nth_eq_last hy (by omega)).mp e
    omega
  rw [w.stepFrom_nextRow _ ho ((w.xDir.nth_eq_last hx le_rfl).mpr rfl) hl]
  simp [Window.place, w.yDir.step_nth hj, Window.corner, Window.startColumn]

theorem Window.stepFrom_place_last (w : Window) (ho : w.order = .rowFirst) (hw : w.bounded = true) :
    w.stepFrom (w.place (w.xEnd - w.xStart) (w.yEnd - w.yStart)) = none := by
  obtain ⟨hx, _, hy, _⟩ := w.bounded_iff.mp hw
  exact w.stepFrom_lastRow _ ho ((w.xDir.nth_eq_last hx le_rfl).mpr rfl) ((w.yDir.nth_eq_last hy le_rfl).mpr rfl)

/-- The `n`th position of the visit lies in column `n mod width` of row `n div width`. -/
theorem Window.visit_rowFirst (w : Window) (ho : w.order = .rowFirst) (hw : w.bounded = true) (n : Nat)
    (hn : n < (w.xEnd - w.xStart + 1) * (w.yEnd - w.yStart + 1)) :
    (fun c : Option Position => c.bind w.stepFrom)^[n] (some w.corner)
      = some (w.place (n % (w.xEnd - w.xStart + 1)) (n / (w.xEnd - w.xStart + 1))) := by
  induction n with
  | zero => simp [w.place_zero]
  | succ n ih =>
    rw [Function.iterate_succ_apply', ih (by omega), Option.bind_some]
    set m := w.xEnd - w.xStart with hm
    have hmod : n % (m + 1) < m + 1 := Nat.mod_lt _ (Nat.succ_pos _)
    have hdiv := Nat.div_add_mod n (m + 1)
    by_cases hi : n % (m + 1) < m
    · have hn1 : n + 1 = (m + 1) * (n / (m + 1)) + (n % (m + 1) + 1) := by omega
      have h1 : (n + 1) % (m + 1) = n % (m + 1) + 1 := by
        conv_lhs => rw [hn1]
        rw [Nat.mul_add_mod, Nat.mod_eq_of_lt (by omega)]
      have h2 : (n + 1) / (m + 1) = n / (m + 1) := by
        conv_lhs => rw [hn1]
        rw [Nat.mul_add_div (Nat.succ_pos m), Nat.div_eq_of_lt (by omega : n % (m + 1) + 1 < m + 1), Nat.add_zero]
      rw [w.stepFrom_place_inRow ho hw hi, h1, h2]
    · have hlast : n % (m + 1) = m := by omega
      have hd : m + 1 ∣ n + 1 := ⟨n / (m + 1) + 1, by rw [Nat.mul_add, Nat.mul_one]; omega⟩
      have h2 : (n + 1) / (m + 1) = n / (m + 1) + 1 := Nat.succ_div_of_dvd hd
      have hj : n / (m + 1) < w.yEnd - w.yStart := by
        have : (n + 1) / (m + 1) < w.yEnd - w.yStart + 1 := Nat.div_lt_of_lt_mul hn
        omega
      rw [hlast, w.stepFrom_place_nextRow ho hw hj, Nat.mod_eq_zero_of_dvd hd, h2]

/-- After the last position the cursor is ENDED. -/
theorem Window.visit_rowFirst_ends (w : Window) (ho : w.order = .rowFirst) (hw : w.bounded = true) :
    (fun c : Option Position => c.bind w.stepFrom)^[(w.xEnd - w.xStart + 1) * (w.yEnd - w.yStart + 1)] (some w.corner)
      = none := by
  have hsize : (w.xEnd - w.xStart + 1) * (w.yEnd - w.yStart + 1)
      = ((w.xEnd - w.xStart) + (w.xEnd - w.xStart + 1) * (w.yEnd - w.yStart)) + 1 := by ring
  rw [hsize, Function.iterate_succ_apply', w.visit_rowFirst ho hw _ (by omega), Nat.add_mul_mod_self_left,
    Nat.add_mul_div_left _ _ (Nat.succ_pos _), Nat.mod_eq_of_lt (Nat.lt_succ_self _),
    Nat.div_eq_of_lt (Nat.lt_succ_self _), Nat.zero_add]
  exact w.stepFrom_place_last ho hw

/-! ## A step stays inside and uses up one position -/

/-- In ROW_FIRST a step stays inside the window and uses up one position. -/
theorem Window.stepFrom_rowFirst_spec (w : Window) (ho : w.order = .rowFirst) (hw : w.bounded = true) (p : Position)
    (hp : w.holds p = true) :
    (∀ q : Position, w.stepFrom p = some q → w.holds q = true)
      ∧ w.remaining (w.stepFrom p) + 1 = w.remaining (some p) := by
  obtain ⟨hx, _, hy, _⟩ := w.bounded_iff.mp hw
  obtain ⟨hx1, hx2, hy1, hy2⟩ := (w.holds_iff p).mp hp
  by_cases hc : p.column = w.endColumn
  · have hc0 : w.xDir.left w.xStart w.xEnd p.column = 0 := by rw [hc]; exact w.xDir.left_last _ _
    by_cases hl : p.line = w.endLine
    · have hl0 : w.yDir.left w.yStart w.yEnd p.line = 0 := by rw [hl]; exact w.yDir.left_last _ _
      rw [w.stepFrom_lastRow p ho hc hl, w.remaining_rowFirst p ho, hc0, hl0]
      simp [Window.remaining]
    · have hstep := w.yDir.left_step hy1 hy2 hl
      have hfirst : w.xDir.left w.xStart w.xEnd w.corner.column = w.xEnd - w.xStart := w.xDir.left_first _ _
      obtain ⟨hf1, hf2⟩ := w.xDir.first_mem hx
      obtain ⟨hs1, hs2⟩ := w.yDir.step_mem hy1 hy2 hl
      rw [w.stepFrom_nextRow p ho hc hl]
      refine ⟨fun q hq => ?_, ?_⟩
      · cases hq
        exact (w.holds_iff _).mpr ⟨hf1, hf2, hs1, hs2⟩
      · rw [w.remaining_rowFirst _ ho, w.remaining_rowFirst p ho, hc0, ← hstep, hfirst]
        ring
  · have hstep := w.xDir.left_step hx1 hx2 hc
    obtain ⟨hs1, hs2⟩ := w.xDir.step_mem hx1 hx2 hc
    rw [w.stepFrom_inRow p ho hc]
    refine ⟨fun q hq => ?_, ?_⟩
    · cases hq
      exact (w.holds_iff _).mpr ⟨hs1, hs2, hy1, hy2⟩
    · rw [w.remaining_rowFirst _ ho, w.remaining_rowFirst p ho, ← hstep]
      rfl

/-- A step from a position inside a window stays inside or ends, and uses up one position (R12, R15). -/
theorem Window.stepFrom_spec (w : Window) (hw : w.bounded = true) (p : Position) (hp : w.holds p = true) :
    (∀ q : Position, w.stepFrom p = some q → w.holds q = true)
      ∧ w.remaining (w.stepFrom p) + 1 = w.remaining (some p) := by
  cases ho : w.order with
  | rowFirst => exact w.stepFrom_rowFirst_spec ho hw p hp
  | columnFirst =>
    obtain ⟨hin, hrem⟩ := w.transposed.stepFrom_rowFirst_spec (w.transposed_rowFirst ho) (w.bounded_transposed hw)
      p.transposed (by rw [w.holds_transposed]; exact hp)
    rw [w.stepFrom_transposed] at hin hrem
    refine ⟨fun q hq => ?_, ?_⟩
    · rw [← w.holds_transposed]
      exact hin _ (by rw [hq]; rfl)
    · rw [w.remaining_transposed] at hrem
      rw [hrem]
      exact w.remaining_transposed (some p)

/-- At the start corner every position of the window remains. -/
theorem Window.remaining_corner (w : Window) :
    w.remaining (some w.corner) = (w.xEnd - w.xStart + 1) * (w.yEnd - w.yStart + 1) := by
  have hx := w.xDir.left_first w.xStart w.xEnd
  have hy := w.yDir.left_first w.yStart w.yEnd
  cases ho : w.order <;>
    simp only [Window.remaining, ho, Window.corner, Window.startColumn, Window.startLine, hx, hy] <;> ring

/-! ## Cursors inside their windows -/

/-- A cursor placed by a job's mode stays inside its window. -/
theorem Context.wf_placed (c : Context) (m : Mode) (h : c.wf = true) : (c.placed m).wf = true := by
  cases c with
  | unset => rfl
  | set w p =>
    have hw : w.bounded = true := by
      cases p with
      | none => exact h
      | some p => exact (Bool.and_eq_true_iff.mp h).1
    cases m with
    | fresh => simp [Context.placed, Context.wf, hw, w.holds_corner hw]
    | resumed => exact h

/-- A stepped cursor stays inside its window or is ENDED. -/
theorem Context.wf_stepped (c : Context) (h : c.wf = true) : c.stepped.wf = true := by
  match c, h with
  | .unset, _ => rfl
  | .set w none, h => exact h
  | .set w (some p), h =>
    obtain ⟨hw, hp⟩ := Bool.and_eq_true_iff.mp h
    have hin := (w.stepFrom_spec hw p hp).1
    cases hq : w.stepFrom p with
    | none => simpa [Context.stepped, hq, Context.wf] using hw
    | some q => simp [Context.stepped, hq, Context.wf, hw, hin q hq]

/-- A window with its cursor at the start corner is well formed. -/
theorem Context.wf_corner (w : Window) (hw : w.bounded = true) : (Context.set w (some w.corner)).wf = true := by
  simp [Context.wf, hw, w.holds_corner hw]

/-! ## The statements about windows -/

/-- Settles O13, by the two directions. -/
theorem startCornerByDirections : Obligations.StartCornerByDirections := by
  intro w
  exact ⟨w.xDir.first_eq_ite _ _, w.yDir.first_eq_ite _ _, w.xDir.last_eq_ite _ _, w.yDir.last_eq_ite _ _, fun _ => rfl⟩

/-- Settles O14: the cases of one step, and the visit by induction on the number of steps. -/
theorem rowFirstVisitsLineByLine : Obligations.RowFirstVisitsLineByLine := by
  intro w hw ho
  refine ⟨fun p _ => ⟨fun hc => ?_, fun hc hl => ?_, w.stepFrom_lastRow p ho⟩, fun n hn => ?_,
    w.visit_rowFirst_ends ho hw⟩
  · rw [w.stepFrom_inRow p ho hc, Direction.step_eq_ite]
  · rw [w.stepFrom_nextRow p ho hc hl, Direction.step_eq_ite]
  · rw [w.visit_rowFirst ho hw n hn, Window.place, Direction.nth_eq_ite, Direction.nth_eq_ite]

/-- The step of a COLUMN_FIRST window, from that of the exchanged one. -/
theorem Window.stepFrom_of_transposed (w : Window) (p : Position) (q : Option Position)
    (h : w.transposed.stepFrom p.transposed = q) : w.stepFrom p = q.map Position.transposed := by
  rw [← h, w.stepFrom_transposed, Option.map_map]
  exact Option.map_id'.symm ▸ rfl

/-- Settles O15: the exchanged window is ROW_FIRST. -/
theorem columnFirstVisitsColumnByColumn : Obligations.ColumnFirstVisitsColumnByColumn := by
  intro w hw ho
  obtain ⟨hstep, hvisit, hends⟩ :=
    rowFirstVisitsLineByLine w.transposed (w.bounded_transposed hw) (w.transposed_rowFirst ho)
  refine ⟨fun p hp => ?_, fun n hn => ?_, ?_⟩
  · obtain ⟨hin, hnext, hlast⟩ := hstep p.transposed (by rw [w.holds_transposed]; exact hp)
    exact ⟨fun hl => w.stepFrom_of_transposed p _ (hin hl), fun hl hc => w.stepFrom_of_transposed p _ (hnext hl hc),
      fun hl hc => w.stepFrom_of_transposed p _ (hlast hl hc)⟩
  · have hv := hvisit n (by rw [Nat.mul_comm]; exact hn)
    rw [w.visit_transposed, Option.map_eq_some_iff] at hv
    obtain ⟨q, hq, hqt⟩ := hv
    rw [hq, ← q.transposed_transposed, hqt]
    rfl
  · rw [w.visit_transposed, Option.map_eq_none_iff] at hends
    rw [Nat.mul_comm]
    exact hends

/-- Settles O16: a step keeps to the window, and its positions are at most 2048 x 2048. -/
theorem stepsStayInTheWindow : Obligations.StepsStayInTheWindow := by
  intro w hw
  obtain ⟨hx, hx', hy, hy'⟩ := w.bounded_iff.mp hw
  refine ⟨w.stepFrom_spec hw, w.remaining_corner, ?_, ?_⟩
  · rw [w.remaining_corner]
    exact Nat.mul_pos (Nat.succ_pos _) (Nat.succ_pos _)
  · rw [w.remaining_corner]
    simp only [panelSide] at hx' hy'
    calc (w.xEnd - w.xStart + 1) * (w.yEnd - w.yStart + 1) ≤ 2048 * 2048 := Nat.mul_le_mul (by omega) (by omega)
      _ = 4194304 := rfl

end Sys2Proof.Machine
end

