-- ==== Sys2Proof/Proofs/PowerOn.lean ====
section
/-! SUPPORT. The state after power-on reset: it is lawful, and every register holds the value the manual gives. -/

namespace Sys2Proof.Machine

set_option Elab.async false

@[simp] theorem State.reset_stream (k : StreamId) : State.reset.stream k = Stream.disabled := Four.get_all _ _

@[simp] theorem State.reset_head (h : HeadId) : State.reset.head h = Head.atPowerOn := Two.get_all _ _

@[simp] theorem State.reset_context (k : StreamId) (c : ContextId) : State.reset.context k c = .unset := by
  unfold State.context
  exact (congrArg (fun x : Four Context => x.get c) (Four.get_all _ k)).trans (Four.get_all _ c)

theorem Picture.black_lawful : Picture.black.lawful := by
  refine ⟨by decide, rfl, fun b hb => ?_⟩
  cases hb

/-- After power-on the part does nothing until a command comes: it is neither RUNNING, STOPPING nor STOPPED, and no job
waits. -/
theorem State.reset_quiescent : State.reset.quiescent := by
  unfold State.quiescent
  rw [State.react_none]
  decide

theorem State.reset_jobsBounded : State.reset.jobsBounded := ⟨by decide, fun _ => Nat.zero_le _⟩

theorem State.reset_cursorsInside : State.reset.cursorsInside :=
  ⟨fun k c => by rw [State.reset_context]; rfl, fun _ hj => by cases hj⟩

theorem State.reset_outboundLaw : State.reset.outboundLaw := by
  refine ⟨⟨fun h c hc => ?_, fun k c hc => ?_, fun h c hc => ?_⟩, fun h => ?_, Nat.zero_le _⟩
  · rw [State.reset_head] at hc; cases hc
  · rw [State.reset_stream] at hc; cases hc
  · rw [State.reset_head] at hc; cases hc
  · unfold State.commitsOf
    rw [State.reset_head]
    exact ⟨by decide, rfl, List.Perm.refl _⟩

theorem State.reset_queuesOrdered : State.reset.queuesOrdered := fun h => by
  rw [State.reset_head]; exact List.Pairwise.nil

theorem State.reset_picturesLawful : State.reset.picturesLawful := fun h => by
  rw [State.reset_head]
  exact ⟨Picture.black_lawful, Picture.black_lawful, fun e he => by cases he⟩

/-- No stream has a current record after power-on. -/
theorem State.reset_currentIn (k : StreamId) (p : RecordPhase) (h : HeadId) : ¬ State.reset.currentIn k p h := by
  rintro ⟨c, hc, _⟩
  rw [State.reset_stream] at hc
  cases hc

theorem State.reset_holdingLaw : State.reset.holdingLaw := by
  refine ⟨fun read c hr => (by cases hr), fun h => ?_, fun h => ?_, fun h => ?_, fun hl => absurd rfl hl,
    fun _ h => ?_⟩
  · rw [State.reset_head]
    exact ⟨fun _ => rfl, List.nodup_nil, fun w hw => by cases hw⟩
  · rw [State.reset_head]
    refine ⟨fun r hr => (by cases hr), fun k hk => ?_⟩
    exact absurd hk (not_or.mpr ⟨State.reset_currentIn k _ h, State.reset_currentIn k _ h⟩)
  · rw [State.reset_head]
    exact ⟨by decide, fun _ => ⟨rfl, rfl⟩⟩
  · rw [State.reset_head]
    exact ⟨rfl, rfl⟩

/-- Settles O6, law by law. -/
theorem powerOnIsLawful : Obligations.PowerOnIsLawful :=
  ⟨Panel.empty_wf 0, State.reset_jobsBounded, Nat.zero_le 1, State.reset_cursorsInside, State.reset_outboundLaw,
    State.reset_queuesOrdered, State.reset_picturesLawful, State.reset_holdingLaw, State.reset_quiescent⟩

/-- Settles O30: the state after power-on reset is `State.reset` but for panel memory and what is the model's own. -/
theorem powerOnResetsEverything : Obligations.PowerOnResetsEverything := by
  intro s
  have hstream : ∀ k : StreamId, s.afterPowerOn.stream k = Stream.disabled := State.reset_stream
  have hhead : ∀ h : HeadId, s.afterPowerOn.head h = Head.atPowerOn := State.reset_head
  refine ⟨s.afterPowerOn, rfl, rfl, rfl, rfl, rfl, rfl, rfl, rfl, rfl, rfl, hstream, State.reset_context, rfl, rfl, rfl,
    rfl, fun h => ?_, rfl⟩
  rw [hhead]
  refine ⟨rfl, rfl, rfl, rfl, rfl, rfl, fun i => ?_, rfl, rfl, rfl, rfl, rfl, rfl⟩
  simp [Head.atPowerOn, Palette.zero, Vector.get_eq_getElem]

end Sys2Proof.Machine
end

