-- ==== Sys2Proof/Proofs/Moves.lean ====
section
/-! SUPPORT. What one reaction is made of: free choices counted, one act that starts it (a latch step, an answer taken, a
record dispatched, a job chosen, a completion placed, a request issued), and what the engine then does in the same event.
What every such move keeps, settling keeps. -/

namespace Sys2Proof.Machine

set_option Elab.async false

/-! ## The moves -/

/-- What may accompany an act of settling: a free choice is counted, or the engine goes on with its RUNNING job. -/
inductive Follows : State → State → Prop where
  | choose (s : State) : Follows s { s with choices := s.choices + 1 }
  | phase (s : State) (p : EnginePhase) : Follows s { s with engine := { s.engine with phase := p } }
  | pixelDone (s : State) (wrote : Bool) : Follows s (s.pixelDone wrote)
  | endJob (s : State) (o : Outcome) : Follows s (s.endJob o)
  | failJob (s : State) (status : Status) (written : Nat) : Follows s (s.failJob status written)
  | window (s : State) (j : Job) (c : ContextId) (w : Window) (hj : s.runningJob = some j) (hw : j.work = .window c w) :
      Follows s (s.setContext j.ref.stream c (.set w (some w.corner)))
  | placed (s : State) (j : Job) (m : Mode) (hj : s.runningJob = some j) :
      Follows s (s.setContext j.ref.stream j.work.context ((s.context j.ref.stream j.work.context).placed m))

/-- The act that starts a reaction. -/
inductive Starts : State → State → Prop where
  | stop (s : State) (hd : s.regs.device = .stopping) (hq : s.jobs.all Job.isQueued = true) :
      Starts s (s.setDevice .stopped)
  | latch (s : State) (h : HeadId) (ha : s.active = true) (hs : (s.head h).scanning = false)
      (hr : readyRun (s.head h).present.entries .immediate (s.head h).scan.frame ≠ []) :
      Starts s (s.setHead h ((s.head h).latchStep h .immediate))
  | answer (s : State) (n : Nat) (a : Option Word) (hr : sparseRead s.engine.ahead n = some a) :
      Starts s { s with engine := { s.engine with ahead := sparseErase s.engine.ahead n } }
  | wait (s : State) (k : StreamId) (c : CurrentRecord) (o : Outcome) (hc : (s.stream k).current = some c)
      (hp : c.phase = .waitCondition) (ho : o.status = .done) : Starts s (s.finish k o)
  | present (s t : State) (k : StreamId) (hp : s.inPhase k .heldQueueFull = true) (ht : s.dispatchPresent k = some t) :
      Starts s t
  | palette (s t : State) (k : StreamId) (hp : s.inPhase k .heldPaletteHazard = true)
      (ht : s.dispatchPalette k = some t) : Starts s t
  | job (s t : State) (k : StreamId) (hp : s.inPhase k .heldJobSpace = true) (ht : s.dispatchJob k = some t) : Starts s t
  | engine (s : State) (jobs : List Job) (hn : s.jobs.any Job.holdsEngine = false)
      (hj : runOldestEligible [] s.jobs = some jobs) : Starts s { s with jobs := jobs, engine := .free }
  | place (s t : State) (p : Placer) (ht : s.placeFrom p = some t) : Starts s t
  | grant (s t : State) (ht : s.grant = some t) : Starts s t
  | write (s t : State) (ht : s.issueWrite = some t) : Starts s t

/-- Any number of moves that accompany an act. -/
abbrev FollowsAll : State → State → Prop := Relation.ReflTransGen Follows

/-- One act of settling with all that accompanies it. -/
def Moves (s t : State) : Prop := ∃ u v : State, FollowsAll s u ∧ Starts u v ∧ FollowsAll v t

theorem Moves.of_starts {s t : State} (h : Starts s t) : Moves s t := ⟨s, t, .refl, h, .refl⟩

theorem Moves.choose {s t : State} (h : Moves { s with choices := s.choices + 1 } t) : Moves s t := by
  obtain ⟨u, v, hu, huv, hv⟩ := h
  exact ⟨u, v, .head (.choose s) hu, huv, hv⟩

/-! ## The engine's part of a reaction -/

/-- The cursor of the RUNNING job is the one of its context. -/
theorem State.cursor_of_set (s : State) (j : Job) (w : Window) (p : Option Position) (hj : s.runningJob = some j)
    (hc : s.context j.ref.stream j.work.context = .set w p) : s.cursor = p := by
  simp only [State.cursor, hj, hc]

theorem State.cursor_of_unset (s : State) (j : Job) (hj : s.runningJob = some j)
    (hc : s.context j.ref.stream j.work.context = .unset) : s.cursor = none := by
  simp only [State.cursor, hj, hc]

theorem State.nextPixel_idle (s : State) (h : s.runningJob = none) : s.nextPixel = s := by
  simp only [State.nextPixel, h]

/-- At its count a job ends (R37). -/
theorem State.nextPixel_atCount (s : State) (j : Job) (n : Nat) (hj : s.runningJob = some j)
    (hn : j.work.count? = some n) (h : n ≤ s.engine.processed) :
    s.nextPixel = s.endJob (doneOutcome j.bypassed s.engine.written 0) := by
  simp only [State.nextPixel, hj, hn, if_pos h]

/-- At an ENDED cursor a job with a count ends with what is left of it as overrun (R15). -/
theorem State.nextPixel_overrun (s : State) (j : Job) (n : Nat) (hj : s.runningJob = some j)
    (hn : j.work.count? = some n) (h : s.engine.processed < n) (hc : s.cursor = none) :
    s.nextPixel = s.endJob (doneOutcome j.bypassed s.engine.written (n - s.engine.processed)) := by
  cases hx : s.context j.ref.stream j.work.context with
  | unset => simp [State.nextPixel, hj, hn, Nat.not_le.mpr h, hx]
  | set w p =>
    obtain rfl : p = none := (s.cursor_of_set j w p hj hx).symm.trans hc
    simp [State.nextPixel, hj, hn, Nat.not_le.mpr h, hx]

/-- At an ENDED cursor a job without a count ends. -/
theorem State.nextPixel_windowEnd (s : State) (j : Job) (hj : s.runningJob = some j) (hn : j.work.count? = none)
    (hc : s.cursor = none) : s.nextPixel = s.endJob (doneOutcome j.bypassed s.engine.written 0) := by
  cases hx : s.context j.ref.stream j.work.context with
  | unset => simp [State.nextPixel, hj, hn, hx]
  | set w p =>
    obtain rfl : p = none := (s.cursor_of_set j w p hj hx).symm.trans hc
    simp [State.nextPixel, hj, hn, hx]

/-- Short of its count and of an ENDED cursor the engine takes up the job's next pixel. -/
theorem State.nextPixel_begins (s : State) (j : Job) (hj : s.runningJob = some j)
    (hn : ∀ n : Nat, j.work.count? = some n → s.engine.processed < n) (hc : s.cursor ≠ none) :
    s.nextPixel = { s with engine := { s.engine with phase := j.work.nextPhase } } := by
  cases hx : s.context j.ref.stream j.work.context with
  | unset => exact absurd (s.cursor_of_unset j hj hx) hc
  | set w p =>
    cases p with
    | none => exact absurd (s.cursor_of_set j w none hj hx) hc
    | some p =>
      cases hcount : j.work.count? with
      | none => simp [State.nextPixel, hj, hcount, hx]
      | some n => simp [State.nextPixel, hj, hcount, Nat.not_le.mpr (hn n hcount), hx]

theorem State.nextPixel_follows (s : State) : FollowsAll s s.nextPixel := by
  cases hj : s.runningJob with
  | none => rw [s.nextPixel_idle hj]
  | some j =>
    by_cases hcount : ∃ n : Nat, j.work.count? = some n ∧ n ≤ s.engine.processed
    · obtain ⟨n, hn, hle⟩ := hcount
      rw [s.nextPixel_atCount j n hj hn hle]
      exact .single (.endJob s _)
    · have hlt : ∀ n : Nat, j.work.count? = some n → s.engine.processed < n :=
        fun n hn => Nat.not_le.mp fun hle => hcount ⟨n, hn, hle⟩
      by_cases hc : s.cursor = none
      · cases hn : j.work.count? with
        | none => rw [s.nextPixel_windowEnd j hj hn hc]; exact .single (.endJob s _)
        | some n => rw [s.nextPixel_overrun j n hj hn (hlt n hn) hc]; exact .single (.endJob s _)
      · rw [s.nextPixel_begins j hj hlt hc]
        exact .single (.phase s _)

theorem State.startJob_follows (s : State) : FollowsAll s s.startJob := by
  unfold State.startJob
  split
  · exact .refl
  · rename_i j hj
    split
    · rename_i c w hw
      exact .tail (.single (.window s j c w hj hw)) (.endJob _ _)
    · split
      · exact .single (.failJob s _ _)
      · exact .trans (.single (.placed s j _ hj)) (State.nextPixel_follows _)

theorem State.takeSource_follows (s : State) (answer : Option Word) : FollowsAll s (s.takeSource answer) := by
  unfold State.takeSource
  split
  · exact .refl
  · split
    · split
      · exact .single (.failJob s _ _)
      · split
        · exact .trans (.single (.pixelDone s false)) (State.nextPixel_follows _)
        · exact .single (.phase s _)
    · exact .refl

/-! ## What the reactions are -/

theorem State.takeAhead_some (s t : State) (h : s.takeAhead = some t) :
    s.active = true ∧ s.engine.phase = .source
      ∧ ∃ a : Option Word, sparseRead s.engine.ahead (s.engine.processed + 1) = some a
        ∧ t = ({ s with engine := { s.engine with
                  ahead := sparseErase s.engine.ahead (s.engine.processed + 1) } } : State).takeSource a := by
  unfold State.takeAhead at h
  split at h
  · rename_i hc
    obtain ⟨ha, hp⟩ := Bool.and_eq_true_iff.mp hc
    split at h
    · rename_i a hr
      cases h
      exact ⟨ha, of_decide_eq_true hp, a, hr, rfl⟩
    · cases h
  · cases h

theorem State.waitOutcome_status (s : State) (k : StreamId) (form : WaitForm) (o : Outcome)
    (h : s.waitOutcome k form = some o) : o.status = .done := by
  cases form with
  | frame hd f =>
    simp only [State.waitOutcome] at h
    split at h
    · cases h; rfl
    · split at h
      · cases h; rfl
      · cases h
  | retired hd => simp only [State.waitOutcome] at h; split at h <;> cases h; rfl
  | jobs => simp only [State.waitOutcome] at h; split at h <;> cases h; rfl

theorem State.waitReached_some (s : State) (k : StreamId) (o : Outcome) (h : s.waitReached k = some o) :
    o.status = .done ∧ ∃ c : CurrentRecord, (s.stream k).current = some c ∧ c.phase = .waitCondition := by
  unfold State.waitReached at h
  split at h
  · rename_i c hc
    split at h
    · rename_i hp
      split at h
      · exact ⟨State.waitOutcome_status s k _ o h, c, hc, hp⟩
      · cases h
    · cases h
  · cases h

theorem State.completeWait_some (s t : State) (k : StreamId) (h : State.completeWait k s = some t) :
    ∃ (c : CurrentRecord) (o : Outcome), (s.stream k).current = some c ∧ c.phase = .waitCondition ∧ o.status = .done
      ∧ t = s.finish k o := by
  unfold State.completeWait at h
  split at h
  · obtain ⟨o, ho, rfl⟩ := Option.map_eq_some_iff.mp h
    obtain ⟨hdone, c, hc, hp⟩ := s.waitReached_some k o ho
    exact ⟨c, o, hc, hp, hdone, rfl⟩
  · cases h

theorem State.engineChoose_some (s t : State) (h : s.engineChoose = some t) :
    s.regs.device = .running ∧ s.jobs.any Job.holdsEngine = false
      ∧ ∃ jobs : List Job, runOldestEligible [] s.jobs = some jobs
        ∧ t = ({ s with jobs := jobs, engine := .free } : State).startJob := by
  unfold State.engineChoose at h
  split at h
  · rename_i hc
    obtain ⟨hr, hn⟩ := Bool.and_eq_true_iff.mp hc
    split at h
    · rename_i jobs hj
      cases h
      exact ⟨of_decide_eq_true hr, by simpa using hn, jobs, hj, rfl⟩
    · cases h
  · cases h

/-- A try is one act, followed by the start of a job where the engine has chosen one. -/
theorem State.attempt_moves (s t : State) (a : Try) (h : s.attempt a = some t) : Moves s t := by
  cases a with
  | wait k =>
    obtain ⟨c, o, hc, hp, ho, rfl⟩ := s.completeWait_some t k h
    exact .of_starts (.wait s k c o hc hp ho)
  | present k =>
    simp only [State.attempt, State.retryPresent] at h
    split at h
    · rename_i hc; exact .of_starts (.present s t k (Bool.and_eq_true_iff.mp hc).2 h)
    · cases h
  | palette k =>
    simp only [State.attempt, State.retryPalette] at h
    split at h
    · rename_i hc; exact .of_starts (.palette s t k (Bool.and_eq_true_iff.mp hc).2 h)
    · cases h
  | job k =>
    simp only [State.attempt, State.retryJob] at h
    split at h
    · rename_i hc; exact .of_starts (.job s t k (Bool.and_eq_true_iff.mp hc).2 h)
    · cases h
  | engine =>
    obtain ⟨_, hn, jobs, hj, rfl⟩ := s.engineChoose_some t h
    exact ⟨s, _, .refl, .engine s jobs hn hj, State.startJob_follows _⟩

theorem State.tryNext_moves (s t : State) (h : s.tryNext = some t) : Moves s t := by
  obtain ⟨a, _, _, e | e⟩ := s.tryNext_some t h
  · exact s.attempt_moves t a e
  · exact .choose (State.attempt_moves _ t a e)

theorem State.placeNext_moves (s t : State) (h : s.placeNext = some t) : Moves s t := by
  obtain ⟨_, p, _, _, e | e⟩ := s.placeNext_some t h
  · exact .of_starts (.place s t p e)
  · exact .choose (.of_starts (.place _ t p e))

theorem acts_moves (f : State → Option State) (hf : f ∈ acts) (s t : State) (h : f s = some t) : Moves s t := by
  simp only [acts, List.mem_cons, List.not_mem_nil, or_false] at hf
  rcases hf with rfl | rfl | rfl
  · exact s.tryNext_moves t h
  · exact s.placeNext_moves t h
  · exact .of_starts (.grant s t h)

theorem State.latchNow_moves (h : HeadId) (s t : State) (e : State.latchNow h s = some t) : Starts s t := by
  simp only [State.latchNow] at e
  split at e
  · rename_i hc
    simp only [Bool.and_eq_true, Bool.not_eq_true', List.isEmpty_eq_false_iff] at hc
    cases e
    exact .latch s h hc.1.1 hc.1.2 hc.2
  · cases e

/-- Every reaction is one act with what accompanies it. -/
theorem reaction_moves (f : State → Option State) (hf : f ∈ reactions) (s t : State) (h : f s = some t) : Moves s t := by
  rcases reactions_cases f hf with rfl | ⟨hd, rfl⟩ | rfl | rfl | rfl
  · unfold State.reachStopped at h
    split at h
    · rename_i hc; cases h; exact .of_starts (.stop s hc.1 hc.2)
    · cases h
  · exact .of_starts (State.latchNow_moves hd s t h)
  · obtain ⟨_, _, a, hr, rfl⟩ := s.takeAhead_some t h
    exact ⟨s, _, .refl, .answer s _ a hr, State.takeSource_follows _ a⟩
  · obtain ⟨g, hg, _, e | e⟩ := s.actNext_some t h
    · exact acts_moves g hg s t e
    · exact .choose (acts_moves g hg _ t e)
  · exact .of_starts (.write s t h)

/-! ## Inductions over moves -/

theorem FollowsAll.keeps (P : State → Prop) (hf : ∀ s t, Follows s t → P s → P t) {s t : State} (h : FollowsAll s t)
    (hs : P s) : P t := by
  induction h with
  | refl => exact hs
  | tail _ e ih => exact hf _ _ e ih

theorem Moves.keeps (P : State → Prop) (hf : ∀ s t, Follows s t → P s → P t) (hm : ∀ s t, Starts s t → P s → P t)
    {s t : State} (h : Moves s t) (hs : P s) : P t := by
  obtain ⟨u, v, hu, huv, hv⟩ := h
  exact hv.keeps P hf (hm u v huv (hu.keeps P hf hs))

/-- What every move keeps, any number of reactions keeps. -/
theorem State.settleFor_keeps_of_moves (P : State → Prop) (hf : ∀ s t, Follows s t → P s → P t)
    (hm : ∀ s t, Starts s t → P s → P t) (n : Nat) (s : State) (hs : P s) : P (s.settleFor n) :=
  State.settleFor_keeps P (fun f hr s t e => (reaction_moves f hr s t e).keeps P hf hm) n s hs

/-- What every move keeps, settling keeps. -/
theorem State.settle_keeps_of_moves (P : State → Prop) (hf : ∀ s t, Follows s t → P s → P t)
    (hm : ∀ s t, Starts s t → P s → P t) (s : State) (hs : P s) : P s.settle :=
  State.settleFor_keeps_of_moves P hf hm _ s hs

/-! ## What the acts answer -/

theorem State.inPhase_iff (s : State) (k : StreamId) (p : RecordPhase) :
    s.inPhase k p = true ↔ ∃ c : CurrentRecord, (s.stream k).current = some c ∧ c.phase = p := by
  unfold State.inPhase
  split
  · rename_i c hc
    rw [decide_eq_true_iff, hc]
    exact ⟨fun h => ⟨c, rfl, h⟩, fun ⟨_, e, h⟩ => by cases e; exact h⟩
  · rename_i hc
    exact ⟨fun h => (by cases h), fun ⟨_, e, _⟩ => (by rw [hc] at e; cases e)⟩

theorem State.dispatchPresent_some (s t : State) (k : StreamId) (h : s.dispatchPresent k = some t) :
    ∃ (c : CurrentRecord) (r : PresentRecord) (u : State) (e : Entry), (s.stream k).current = some c
      ∧ presentFields c.slots = some r ∧ (s.head r.head).present.places < queuePlaces
      ∧ u = s.setStream k { s.stream k with current := none, batch := (s.stream k).batch + 1 }
      ∧ e = (newEntry (headerRef k c) r (s.head r.head) (s.stream k).batch).evaluated u.jobs u.streams
      ∧ t = u.setHead r.head
          { s.head r.head with
            present := { (s.head r.head).present with entries := (s.head r.head).present.entries ++ [e] }
            staging := { (s.head r.head).staging with dirty := false } } := by
  unfold State.dispatchPresent at h
  split at h
  · cases h
  · rename_i c hc
    split at h
    · cases h
    · rename_i r hr
      dsimp only at h
      split at h
      · rename_i hp
        cases h
        exact ⟨c, r, _, _, hc, hr, hp, rfl, rfl, rfl⟩
      · cases h

theorem State.dispatchPalette_some (s t : State) (k : StreamId) (h : s.dispatchPalette k = some t) :
    ∃ (c : CurrentRecord) (r : PaletteRecord) (read : PaletteRead), (s.stream k).current = some c
      ∧ paletteFields c.slots = some r ∧ (s.head r.head).present.hazard = false ∧ read.ref = headerRef k c
      ∧ t = (s.setHead r.head
          { s.head r.head with staging := { (s.head r.head).staging with reading := some read } }).setPhase k
            .waitPaletteRead := by
  unfold State.dispatchPalette at h
  split at h
  · cases h
  · rename_i c hc
    split at h
    · cases h
    · rename_i r hr
      dsimp only at h
      split at h
      · cases h
      · rename_i hz
        cases h
        exact ⟨c, r, _, hc, hr, by simpa using hz, rfl, rfl⟩

theorem State.dispatchJob_some (s t : State) (k : StreamId) (h : s.dispatchJob k = some t) :
    ∃ (c : CurrentRecord) (kind : Kind) (work : JobWork) (gate : Option Gate), (s.stream k).current = some c
      ∧ kindOf c.slots = some kind ∧ jobFields kind c.slots s.heads = some (work, gate) ∧ roomFor s.jobs k = true
      ∧ t = { s.dropCurrent k with
          jobs := evaluateGates s.heads []
            (s.jobs ++ [newJob (headerRef k c) (declaredSlots c.slots) work gate (s.stream k).batch]) } := by
  unfold State.dispatchJob at h
  split at h
  · cases h
  · rename_i c hc
    split at h
    · cases h
    · rename_i kind hk
      split at h
      · cases h
      · rename_i work gate hf
        split at h
        · rename_i hroom
          cases h
          exact ⟨c, kind, work, gate, hc, hk, hf, hroom, rfl⟩
        · cases h

/-- What a block's placement changes: the outbound list gains the completion, which leaves the block's own list. -/
theorem State.placeFrom_cases (s t : State) (p : Placer) (h : s.placeFrom p = some t) :
    (∃ (c : Completion) (jobs : List Job), takeEnded s.jobs = some (c, jobs) ∧ t = (s.place [c]).jobsRemoved jobs)
      ∨ (∃ (k : StreamId) (c : Completion) (before after : List Completion),
          (s.stream k).kept = before ++ c :: after
            ∧ t = (s.setStream k { s.stream k with kept := before ++ after }).place [c])
      ∨ (∃ (i : HeadId) (c : Completion) (before after : List Completion),
          (s.head i).link.held = before ++ c :: after
            ∧ t = (s.setHead i { s.head i with link := { (s.head i).link with held := before ++ after } }).place [c])
      ∨ ∃ (i : HeadId) (c : Completion) (before after : List Completion),
          (s.head i).present.outbox = before ++ c :: after
            ∧ t = (s.setHead i
                { s.head i with present := { (s.head i).present with outbox := before ++ after } }).place [c] := by
  obtain ⟨c, hn, _⟩ := s.placeFrom_some t p h
  cases p with
  | jobList =>
    simp only [State.nextFrom] at hn
    split at hn
    · rename_i d jobs hd
      split at hn
      · cases hn; exact .inl ⟨_, jobs, hd, rfl⟩
      · cases hn
    · cases hn
  | sequencer k =>
    simp only [State.nextFrom] at hn
    split at hn
    · rename_i d rest hd
      cases hn
      obtain ⟨b, a, hl, rfl, _⟩ := takeOldest_split _ _ _ _ _ hd
      exact .inr (.inl ⟨k, _, b, a, hl, rfl⟩)
    · cases hn
  | linkController i =>
    simp only [State.nextFrom] at hn
    split at hn
    · rename_i d rest hd
      cases hn
      obtain ⟨b, a, hl, rfl, _⟩ := takeOldest_split _ _ _ _ _ hd
      exact .inr (.inr (.inl ⟨i, _, b, a, hl, rfl⟩))
    · cases hn
  | presentUnit i =>
    simp only [State.nextFrom] at hn
    split at hn
    · rename_i d rest hd
      cases hn
      obtain ⟨b, a, hl, rfl, _⟩ := takeOldest_split _ _ _ _ _ hd
      exact .inr (.inr (.inr ⟨i, _, b, a, hl, rfl⟩))
    · cases hn

theorem State.issueSlot_some (s t : State) (k : StreamId) (f : FetchUnit) (h : s.issueSlot k f = some t) :
    ∃ read : SlotRead, t = { s with fetch := { f with read := some read } } := by
  unfold State.issueSlot at h
  split at h
  · cases h; exact ⟨_, rfl⟩
  · cases h

/-- A grant issues a slot read where none is outstanding, and changes the Fetch Unit alone. -/
theorem State.grant_some (s t : State) (h : s.grant = some t) :
    s.fetch.read = none ∧ ∃ (f : FetchUnit) (read : SlotRead), f.read = some read ∧ t = { s with fetch := f } := by
  have hread : s.fetch.read = none := by
    unfold State.grant at h
    split at h
    · rename_i hc; exact Option.isNone_iff_eq_none.mp (Bool.and_eq_true_iff.mp hc).2
    · cases h
  have hissue : ∃ (k : StreamId) (f : FetchUnit), s.issueSlot k f = some t := by
    unfold State.grant at h
    split at h
    · split at h
      · exact ⟨_, _, h⟩
      · split at h
        · exact ⟨_, _, h⟩
        · exact ⟨_, _, h⟩
      · exact ⟨_, _, h⟩
      · cases h
    · cases h
  obtain ⟨k, f, hs⟩ := hissue
  obtain ⟨read, rfl⟩ := s.issueSlot_some t k f hs
  exact ⟨hread, _, read, rfl, rfl⟩

/-- An issued completion write stands as the one outstanding, and changes the writer alone. -/
theorem State.issueWrite_some (s t : State) (h : s.issueWrite = some t) :
    s.writer.write = none ∧ ∃ w : HostWrite, t = { s with writer := { s.writer with write := some w } } := by
  unfold State.issueWrite at h
  split at h
  · rename_i hc
    have hw : s.writer.write = none := Option.isNone_iff_eq_none.mp (Bool.and_eq_true_iff.mp hc).2
    split at h
    · split at h
      · cases h; exact ⟨hw, _, rfl⟩
      · cases h
    · cases h
  · cases h

end Sys2Proof.Machine
end

