-- ==== Sys2Proof/Proofs/Settling.lean ====
section
/-! SUPPORT. What settling leaves alone, as a relation between the state before and after that every move of a reaction
keeps: of the state's own fields, of each stream, and of each head. -/

namespace Sys2Proof.Machine

set_option Elab.async false

/-! ## The relation -/

/-- What is left alone of a ring: all but the fetch index. -/
def Ring.fixed (r : Ring) : Address × Nat × FetchClass × Nat := (r.base, r.size, r.fetchClass, r.post)

/-- The stream holds a PRESENT held QUEUE_FULL. -/
def Stream.presentHeld (st : Stream) : Prop := st.current.map (fun c => c.phase) = some .heldQueueFull

/-- What settling leaves alone of a stream: its ring but for the fetch index, and its batch counter where no PRESENT is held
QUEUE_FULL; and it holds no PRESENT that was not held before. -/
structure Stream.SettlesTo (a b : Stream) : Prop where
  ring : b.ring.map Ring.fixed = a.ring.map Ring.fixed
  held : b.presentHeld → a.presentHeld
  batch : ¬ a.presentHeld → b.batch = a.batch

/-- A reference but for the mark of a rewound slot. -/
def RecordRef.unmarked (ref : RecordRef) : RecordRef := { ref with rewound := false }

/-- What settling leaves alone of a head. -/
structure Head.SettlesTo (a b : Head) : Prop where
  holder : b.lease.holder = a.lease.holder
  light : b.light = { a.light with pending := b.light.pending }
  link : b.link = { a.link with held := b.link.held, pending := b.link.pending }
  lightPending : b.light.pending.map RecordRef.unmarked = a.light.pending.map RecordRef.unmarked
  linkPending : b.link.pending.map RecordRef.unmarked = a.link.pending.map RecordRef.unmarked
  line : b.scan.line = a.scan.line
  frame : b.scan.frame = a.scan.frame
  timing : b.scan.timing = a.scan.timing
  sent : b.scan.sent = a.scan.sent
  shown : b.scan.shown = a.scan.shown

/-- What settling leaves alone. -/
structure State.SettlesTo (s t : State) : Prop where
  panel : t.panel = s.panel
  loader : t.loader = s.loader
  pending : t.pending = s.pending
  slotReads : t.slotReads = s.slotReads
  regs : t.regs = { s.regs with device := t.regs.device }
  ring : t.writer.ring = s.writer.ring
  stream : ∀ k : StreamId, (s.stream k).SettlesTo (t.stream k)
  head : ∀ h : HeadId, (s.head h).SettlesTo (t.head h)

theorem Stream.SettlesTo.refl (a : Stream) : a.SettlesTo a := ⟨rfl, id, fun _ => rfl⟩

theorem Stream.SettlesTo.trans {a b c : Stream} (h : a.SettlesTo b) (g : b.SettlesTo c) : a.SettlesTo c :=
  ⟨g.ring.trans h.ring, fun hc => h.held (g.held hc), fun ha => (g.batch (fun hb => ha (h.held hb))).trans (h.batch ha)⟩

theorem Head.SettlesTo.refl (a : Head) : a.SettlesTo a := ⟨rfl, rfl, rfl, rfl, rfl, rfl, rfl, rfl, rfl, rfl⟩

theorem Head.SettlesTo.trans {a b c : Head} (h : a.SettlesTo b) (g : b.SettlesTo c) : a.SettlesTo c where
  holder := g.holder.trans h.holder
  light := by rw [g.light, h.light]
  link := by rw [g.link, h.link]
  lightPending := g.lightPending.trans h.lightPending
  linkPending := g.linkPending.trans h.linkPending
  line := g.line.trans h.line
  frame := g.frame.trans h.frame
  timing := g.timing.trans h.timing
  sent := g.sent.trans h.sent
  shown := g.shown.trans h.shown

theorem State.SettlesTo.refl (s : State) : s.SettlesTo s :=
  ⟨rfl, rfl, rfl, rfl, rfl, rfl, fun _ => .refl _, fun _ => .refl _⟩

theorem State.SettlesTo.trans {s t u : State} (h : s.SettlesTo t) (g : t.SettlesTo u) : s.SettlesTo u where
  panel := g.panel.trans h.panel
  loader := g.loader.trans h.loader
  pending := g.pending.trans h.pending
  slotReads := g.slotReads.trans h.slotReads
  regs := by rw [g.regs, h.regs]
  ring := g.ring.trans h.ring
  stream k := (h.stream k).trans (g.stream k)
  head i := (h.head i).trans (g.head i)

/-! ## Streams -/

/-- A stream whose current record is gone and whose ring at most reads elsewhere. -/
theorem Stream.SettlesTo.of_empty {a b : Stream} (hr : b.ring.map Ring.fixed = a.ring.map Ring.fixed)
    (hc : b.current = none) (hb : b.batch = a.batch) : a.SettlesTo b :=
  ⟨hr, fun h => by simp [Stream.presentHeld, hc] at h, fun _ => hb⟩

theorem Stream.SettlesTo.of_kept (a : Stream) (kept : List Completion) : a.SettlesTo { a with kept := kept } :=
  ⟨rfl, id, fun _ => rfl⟩

theorem Stream.haltAt_fixed (st : Stream) (point : Nat) :
    (st.haltAt point).ring.map Ring.fixed = st.ring.map Ring.fixed := by
  simp only [Stream.haltAt, Option.map_map]
  rfl

theorem State.SettlesTo.setStream {s : State} {k : StreamId} {x : Stream} (h : (s.stream k).SettlesTo x) :
    s.SettlesTo (s.setStream k x) := by
  refine ⟨rfl, rfl, rfl, rfl, rfl, rfl, fun j => ?_, fun _ => .refl _⟩
  rw [State.stream_setStream]
  split
  · rename_i e; exact e ▸ h
  · exact .refl _

theorem State.SettlesTo.setHead {s : State} {i : HeadId} {x : Head} (h : (s.head i).SettlesTo x) :
    s.SettlesTo (s.setHead i x) := by
  refine ⟨rfl, rfl, rfl, rfl, rfl, rfl, fun _ => .refl _, fun j => ?_⟩
  rw [State.head_setHead]
  split
  · rename_i e; exact e ▸ h
  · exact .refl _

/-- The end of a current record settles its stream. -/
theorem State.finishAs_settlesTo (s : State) (k : StreamId) (ref : RecordRef) (kind : Byte) (o : Outcome) :
    s.SettlesTo (s.finishAs k ref kind o) := by
  refine .setStream ?_
  split
  · exact .of_empty (Stream.haltAt_fixed _ _) rfl rfl
  · exact .of_empty rfl rfl rfl

theorem State.finish_settlesTo (s : State) (k : StreamId) (o : Outcome) : s.SettlesTo (s.finish k o) := by
  unfold State.finish
  split
  · exact s.finishAs_settlesTo _ _ _ _
  · exact .refl s

theorem State.dropCurrent_settlesTo (s : State) (k : StreamId) : s.SettlesTo (s.dropCurrent k) :=
  .setStream (.of_empty rfl rfl rfl)

/-- A phase other than held QUEUE_FULL settles its stream. -/
theorem State.setPhase_settlesTo (s : State) (k : StreamId) (p : RecordPhase) (hp : p ≠ .heldQueueFull) :
    s.SettlesTo (s.setPhase k p) := by
  refine .setStream ⟨rfl, fun h => ?_, fun _ => rfl⟩
  cases hc : (s.stream k).current <;> simp_all [Stream.presentHeld]

/-! ## Heads -/

/-- A head of which lease holder, link, backlight and scan counters stand settles. -/
theorem Head.SettlesTo.of_same {a b : Head} (hh : b.lease.holder = a.lease.holder) (hl : b.light = a.light)
    (hk : b.link = a.link) (hs : b.scan = a.scan) : a.SettlesTo b := by
  refine ⟨hh, ?_, ?_, ?_, ?_, ?_, ?_, ?_, ?_, ?_⟩ <;> simp only [hl, hk, hs]

theorem Head.latchStep_settlesTo (hd : Head) (h : HeadId) (kind : LatchKind) : hd.SettlesTo (hd.latchStep h kind) := by
  obtain ⟨hlease, _, hlink, hlight, hframe, hline, htiming, hsent, hshown⟩ := hd.latchStep_same h kind
  exact ⟨by rw [hlease], by rw [hlight], by rw [hlink], by rw [hlight], by rw [hlink], hline, hframe, htiming, hsent,
    hshown⟩

theorem Head.withdraw_settlesTo (hd : Head) (k : StreamId) : hd.SettlesTo (hd.withdraw k) :=
  .of_same rfl rfl rfl rfl

theorem Head.abandonRead_settlesTo (hd : Head) (k : StreamId) : hd.SettlesTo (hd.abandonRead k) := by
  obtain ⟨_, hscan, hlink, hlight, hlease, _⟩ := hd.abandonRead_same k
  exact .of_same (by rw [hlease]) hlight hlink hscan

theorem RecordRef.rewind_unmarked (ref : RecordRef) (k : StreamId) (point fetch size : Nat) :
    (ref.rewind k point fetch size).unmarked = ref.unmarked := by
  unfold RecordRef.rewind
  split <;> rfl

theorem Head.rewindBy_settlesTo (hd : Head) (k : StreamId) (point : Nat) (ring : Option Ring) :
    hd.SettlesTo (hd.rewindBy k point ring) := by
  cases ring with
  | none => exact .refl hd
  | some r =>
    refine ⟨rfl, rfl, rfl, ?_, ?_, rfl, rfl, rfl, rfl, rfl⟩ <;>
      · simp only [Head.rewindBy, Head.rewind, Option.map_map]
        congr 1
        funext ref
        exact ref.rewind_unmarked _ _ _ _

theorem Head.reload_settlesTo (hd : Head) (b : Bool) : hd.SettlesTo (hd.reload b) :=
  .of_same (by rw [Head.reload_lease]) (hd.reload_light b) (hd.reload_link b) (hd.reload_scan b)

theorem Head.abandonAndReload_settlesTo (hd : Head) (h : HeadId) (k : StreamId) (counter : Word) (first : Option Word) :
    hd.SettlesTo (hd.abandonAndReload h k counter first) := by
  have habandon : hd.SettlesTo (hd.abandon h k counter first) := .of_same rfl rfl rfl rfl
  unfold Head.abandonAndReload
  dsimp only
  split
  · exact habandon
  · exact habandon.trans (Head.reload_settlesTo _ _)

/-- A change of heads alone. -/
theorem State.SettlesTo.of_heads {s : State} {heads : Two Head} (h : ∀ i : HeadId, (s.head i).SettlesTo (heads.get i)) :
    s.SettlesTo { s with heads := heads } :=
  ⟨rfl, rfl, rfl, rfl, rfl, rfl, fun _ => .refl _, h⟩

/-- A change of the heads by one function. -/
theorem State.SettlesTo.of_mapHeads {s : State} {f : Head → Head} (h : ∀ hd : Head, hd.SettlesTo (f hd)) :
    s.SettlesTo { s with heads := s.heads.map f } :=
  .of_heads fun i => by rw [Two.get_map]; exact h _

/-- A change of contexts, jobs, engine, Fetch Unit and choices alone. -/
theorem State.SettlesTo.of_engine (s : State) (contexts : Four (Four Context)) (jobs : List Job) (engine : Engine)
    (fetch : FetchUnit) (choices : Nat) :
    s.SettlesTo { s with contexts := contexts, jobs := jobs, engine := engine, fetch := fetch, choices := choices } :=
  ⟨rfl, rfl, rfl, rfl, rfl, rfl, fun _ => .refl _, fun _ => .refl _⟩

/-! ## Ends of jobs -/

theorem State.jobsRemoved_settlesTo (s : State) (jobs : List Job) : s.SettlesTo (s.jobsRemoved jobs) :=
  (State.SettlesTo.of_mapHeads (f := fun hd => { hd with present := hd.present.evaluated jobs s.streams })
    fun _ => .of_same rfl rfl rfl rfl).trans (.of_engine _ _ _ _ _ _)

theorem State.endJob_settlesTo (s : State) (o : Outcome) : s.SettlesTo (s.endJob o) := by
  unfold State.endJob
  split
  · exact .refl s
  · split
    · exact .trans (.of_engine s s.contexts s.jobs .free s.fetch s.choices) (State.jobsRemoved_settlesTo _ _)
    · exact .of_engine s _ _ _ _ _

theorem State.haltByJob_settlesTo (s : State) (k : StreamId) (point : Nat) : s.SettlesTo (s.haltByJob k point) := by
  have hstream : s.SettlesTo (s.setStream k ({ s.stream k with current := none }.haltAt ((s.stream k).wrap point))) :=
    .setStream (.of_empty (Stream.haltAt_fixed _ _) rfl rfl)
  refine hstream.trans (.trans (.of_mapHeads (f := fun hd =>
    ((hd.withdraw k).abandonRead k).rewindBy k point (s.stream k).ring) fun hd => ?_) (.of_engine _ _ _ _ _ _))
  exact ((hd.withdraw_settlesTo k).trans (Head.abandonRead_settlesTo _ k)).trans (Head.rewindBy_settlesTo _ k _ _)

theorem State.abandonFrom_settlesTo (s : State) (k : StreamId) (first : Option Word) :
    s.SettlesTo (s.abandonFrom k first) := by
  refine .of_heads fun i => ?_
  match i with
  | 0 => exact Head.abandonAndReload_settlesTo _ _ _ _ _
  | 1 => exact Head.abandonAndReload_settlesTo _ _ _ _ _

theorem State.failJob_settlesTo (s : State) (status : Status) (written : Nat) :
    s.SettlesTo (s.failJob status written) := by
  unfold State.failJob
  split
  · exact .refl s
  · dsimp only
    refine .trans ?_ (State.abandonFrom_settlesTo _ _ _)
    split
    · exact .of_engine s _ _ _ _ _
    · exact .trans (.of_engine s _ _ _ _ _) (State.haltByJob_settlesTo _ _ _)

theorem State.pixelDone_settlesTo (s : State) (wrote : Bool) : s.SettlesTo (s.pixelDone wrote) := by
  unfold State.pixelDone
  split
  · exact .refl s
  · exact .of_engine s _ _ _ _ _

/-! ## Moves -/

theorem Follows.settlesTo {s t : State} (h : Follows s t) : s.SettlesTo t := by
  cases h with
  | choose => exact .of_engine s _ _ _ _ _
  | phase p => exact .of_engine s _ _ _ _ _
  | pixelDone wrote => exact s.pixelDone_settlesTo wrote
  | endJob o => exact s.endJob_settlesTo o
  | failJob status written => exact s.failJob_settlesTo status written
  | window j c w _ _ => exact .of_engine s _ _ _ _ _
  | placed j m _ => exact .of_engine s _ _ _ _ _

/-- The queue gains an entry and palette-dirty is cleared: nothing else of the head changes. -/
theorem State.dispatchPresent_settlesTo (s t : State) (k : StreamId) (hp : (s.stream k).presentHeld)
    (h : s.dispatchPresent k = some t) : s.SettlesTo t := by
  obtain ⟨c, r, u, e, _, _, _, rfl, _, rfl⟩ := s.dispatchPresent_some t k h
  have hstream : (s.stream k).SettlesTo { s.stream k with current := none, batch := (s.stream k).batch + 1 } :=
    ⟨rfl, fun hb => by simp [Stream.presentHeld] at hb, fun hn => absurd hp hn⟩
  refine .trans (.setStream hstream) (.setHead ?_)
  exact .of_same rfl rfl rfl rfl

theorem State.dispatchPalette_settlesTo (s t : State) (k : StreamId) (h : s.dispatchPalette k = some t) :
    s.SettlesTo t := by
  obtain ⟨_, r, read, _, _, _, _, rfl⟩ := s.dispatchPalette_some t k h
  refine .trans (.setHead ?_) (State.setPhase_settlesTo _ k .waitPaletteRead (by decide))
  exact .of_same rfl rfl rfl rfl

theorem State.dispatchJob_settlesTo (s t : State) (k : StreamId) (h : s.dispatchJob k = some t) : s.SettlesTo t := by
  obtain ⟨_, _, _, _, _, _, _, _, rfl⟩ := s.dispatchJob_some t k h
  exact .trans (s.dropCurrent_settlesTo k) (.of_engine _ _ _ _ _ _)

theorem State.place_settlesTo (s : State) (cs : List Completion) : s.SettlesTo (s.place cs) :=
  ⟨rfl, rfl, rfl, rfl, rfl, rfl, fun _ => .refl _, fun _ => .refl _⟩

theorem State.placeFrom_settlesTo (s t : State) (p : Placer) (h : s.placeFrom p = some t) : s.SettlesTo t := by
  rcases s.placeFrom_cases t p h with ⟨_, _, _, rfl⟩ | ⟨_, _, _, _, _, rfl⟩ | ⟨_, _, _, _, _, rfl⟩
    | ⟨_, _, _, _, _, rfl⟩
  · exact .trans (s.place_settlesTo _) (State.jobsRemoved_settlesTo _ _)
  · exact .trans (.setStream (.of_kept _ _)) (State.place_settlesTo _ _)
  · refine .trans (.setHead ?_) (State.place_settlesTo _ _)
    exact ⟨rfl, rfl, rfl, rfl, rfl, rfl, rfl, rfl, rfl, rfl⟩
  · refine .trans (.setHead ?_) (State.place_settlesTo _ _)
    exact .of_same rfl rfl rfl rfl

theorem State.inPhase_presentHeld (s : State) (k : StreamId) (h : s.inPhase k .heldQueueFull = true) :
    (s.stream k).presentHeld := by
  obtain ⟨c, hc, hp⟩ := (s.inPhase_iff k _).mp h
  simp [Stream.presentHeld, hc, hp]

theorem Starts.settlesTo {s t : State} (h : Starts s t) : s.SettlesTo t := by
  cases h with
  | stop _ _ => exact ⟨rfl, rfl, rfl, rfl, rfl, rfl, fun _ => .refl _, fun _ => .refl _⟩
  | latch i _ _ _ => exact .setHead (Head.latchStep_settlesTo _ _ _)
  | answer n a _ => exact .of_engine s _ _ _ _ _
  | wait k c o _ _ _ => exact s.finish_settlesTo k o
  | present _ k hp ht => exact s.dispatchPresent_settlesTo t k (s.inPhase_presentHeld k hp) ht
  | palette _ k _ ht => exact s.dispatchPalette_settlesTo t k ht
  | job _ k _ ht => exact s.dispatchJob_settlesTo t k ht
  | engine jobs _ _ => exact .of_engine s _ _ _ _ _
  | place _ p ht => exact s.placeFrom_settlesTo t p ht
  | grant _ ht =>
    obtain ⟨_, f, read, _, rfl⟩ := s.grant_some t ht
    exact .of_engine s _ _ _ _ _
  | write _ ht =>
    obtain ⟨_, w, rfl⟩ := s.issueWrite_some t ht
    exact ⟨rfl, rfl, rfl, rfl, rfl, rfl, fun _ => .refl _, fun _ => .refl _⟩

theorem State.settleFor_settlesTo (s : State) (n : Nat) : s.SettlesTo (s.settleFor n) :=
  State.settleFor_keeps_of_moves s.SettlesTo (fun _ _ m h => h.trans m.settlesTo) (fun _ _ m h => h.trans m.settlesTo) n s
    (.refl s)

theorem State.settle_settlesTo (s : State) : s.SettlesTo s.settle := s.settleFor_settlesTo _

/-- Settles O5: each part is a field of the relation that settling keeps. -/
theorem settlingLeavesAlone : Obligations.SettlingLeavesAlone := by
  intro s
  have h := s.settle_settlesTo
  refine ⟨h.panel, h.loader, h.pending, h.slotReads, h.regs, h.ring, fun k => ⟨(h.stream k).ring, (h.stream k).batch⟩,
    fun i => ?_⟩
  have hi := h.head i
  exact ⟨hi.holder, hi.light, hi.link, hi.lightPending, hi.linkPending, hi.line, hi.frame, hi.timing, hi.sent, hi.shown⟩

end Sys2Proof.Machine
end

