-- ==== Sys2Proof/Proofs/JobRecords.lean ====
section
/-! SUPPORT. The fields of the pixel job records: what each code names, what each part of a record passes, and so which job a
record asks for; and what a job record does when its stream's Sequencer takes it up. -/

namespace Sys2Proof.Machine

set_option Elab.async false

/-! ## Codes -/

theorem contextField_eq_some (slots : List (List Byte)) (c : ContextId) :
    contextField slots = some c ↔ c.val = recordField slots 0x03 1 := by
  unfold contextField unitByte
  split <;> rename_i h <;> fin_cases c <;> simp_all <;> omega

theorem orderOf_eq_some (n : Nat) (o : Order) : orderOf n = some o ↔ o.code = n := by
  unfold orderOf
  split <;> cases o <;> simp_all [Order.code] <;> omega

theorem directionOf_eq_some (n : Nat) (d : Direction) : directionOf n = some d ↔ d.code = n := by
  unfold directionOf
  split <;> cases d <;> simp_all [Direction.code] <;> omega

theorem modeOf_eq_some (n : Nat) (m : Mode) : modeOf n = some m ↔ m.code = n := by
  unfold modeOf
  split <;> cases m <;> simp_all [Mode.code] <;> omega

theorem formatOf_eq_some (n : Nat) (f : Format) : formatOf n = some f ↔ f.code = n := by
  unfold formatOf
  split <;> cases f <;> simp_all [Format.code] <;> omega

theorem senseOf_eq_some (n : Nat) (k : KeySense) : senseOf n = some k ↔ k.code = n := by
  unfold senseOf
  split <;> cases k <;> simp_all [KeySense.code] <;> omega

/-! ## Parts -/

/-- The run part that passes is the one the record carries (R25, R29). -/
theorem runFields_eq_some (slots : List (List Byte)) (f : Format) (run : Option Run) :
    runFields slots f = some run ↔ RunPart slots f run := by
  have hmark : runMark slots = (recordField slots 0x12 1).testBit 0 := rfl
  unfold runFields RunPart
  rw [← hmark]
  cases hm : runMark slots with
  | false =>
    rw [if_neg (by simp)]
    constructor
    · rintro ⟨⟩
      exact ⟨rfl, fun r hr => by cases hr⟩
    · rintro ⟨h, _⟩
      rw [Option.isSome_eq_false_iff.mp h.symm |> Option.isNone_iff_eq_none.mp]
  | true =>
    rw [if_pos rfl]
    constructor
    · intro h
      split at h
      · rename_i hc
        cases h
        exact ⟨rfl, fun r hr => by cases hr; exact ⟨rfl, hc.1, hc.2.1, rfl, hc.2.2⟩⟩
      · cases h
    · rintro ⟨h, hr⟩
      obtain ⟨r, rfl⟩ := Option.isSome_iff_exists.mp h.symm
      obtain ⟨hl, h1, h2, hs, ha⟩ := hr r rfl
      rw [if_pos ⟨hl ▸ h1, hl ▸ h2, hs ▸ ha⟩, ← hl, ← hs]

/-- The key part that passes is the one the record carries (R25, R30). -/
theorem keyFields_eq_some (slots : List (List Byte)) (key : Option Key) :
    keyFields slots = some key ↔ KeyPart slots key := by
  have hmark : keyMark slots = (recordField slots 0x12 1).testBit 1 := rfl
  unfold keyFields KeyPart
  rw [← hmark]
  cases hm : keyMark slots with
  | false =>
    rw [if_neg (by simp)]
    constructor
    · rintro ⟨⟩
      exact ⟨rfl, fun r hr => by cases hr⟩
    · rintro ⟨h, _⟩
      rw [Option.isSome_eq_false_iff.mp h.symm |> Option.isNone_iff_eq_none.mp]
  | true =>
    rw [if_pos rfl]
    constructor
    · intro h
      split at h
      · rename_i sense hs
        cases h
        exact ⟨rfl, fun q hq => by cases hq; exact ⟨rfl, rfl, (senseOf_eq_some _ _).mp hs⟩⟩
      · cases h
    · rintro ⟨h, hq⟩
      obtain ⟨q, rfl⟩ := Option.isSome_iff_exists.mp h.symm
      obtain ⟨hk, hmask, hs⟩ := hq q rfl
      rw [(senseOf_eq_some _ _).mpr hs, ← hk, ← hmask]

/-- A gate on one head passes where its line lies in the frame of the head's timing. -/
theorem gateFor_eq_some (slots : List (List Byte)) (heads : Two Head) (h : HeadId) (gate : Option Gate) :
    gateFields.gateFor slots heads h = some gate ↔
      ∃ t : Timing, (heads.get h).scan.timing = some t ∧ recordField slots 0x52 2 < t.vAct + t.vBlank
        ∧ gate = some { head := h, relative := recordBit slots 0x51 0, line := recordField slots 0x52 2
                        frame := BitVec.ofNat 32 (recordField slots 0x54 4) } := by
  unfold gateFields.gateFor
  cases ht : (heads.get h).scan.timing with
  | none => simp
  | some t =>
    by_cases hl : recordField slots 0x52 2 < t.vAct + t.vBlank
    · simp [hl, eq_comm]
    · simp [hl]

/-- The head a gate part names. -/
theorem gateHead_eq_some (slots : List (List Byte)) (heads : Two Head) (gate : Option Gate) :
    (match recordField slots 0x50 1 with
      | 0 => gateFields.gateFor slots heads 0
      | 1 => gateFields.gateFor slots heads 1
      | _ => none) = some gate ↔
      ∃ h : HeadId, h.val = recordField slots 0x50 1 ∧ gateFields.gateFor slots heads h = some gate := by
  split
  · rename_i h0; simp [h0]
  · rename_i h1; simp [h1, Fin.exists_fin_two]
  · rename_i h0 h1
    constructor
    · intro h; cases h
    · rintro ⟨h, hv, _⟩
      fin_cases h
      · exact absurd hv.symm h0
      · exact absurd hv.symm h1

/-- The gate part that passes is the one the record carries (R25, R33). -/
theorem gateFields_eq_some (slots : List (List Byte)) (heads : Two Head) (gate : Option Gate) :
    gateFields slots heads = some gate ↔ GatePart slots heads gate := by
  have hmark : gateMark slots = (recordField slots 0x12 1).testBit 2 := rfl
  unfold gateFields GatePart
  rw [← hmark]
  cases hm : gateMark slots with
  | false =>
    rw [if_neg (by simp)]
    constructor
    · rintro ⟨⟩
      exact ⟨rfl, fun r hr => by cases hr⟩
    · rintro ⟨h, _⟩
      rw [Option.isSome_eq_false_iff.mp h.symm |> Option.isNone_iff_eq_none.mp]
  | true =>
    rw [if_pos rfl]
    refine (gateHead_eq_some slots heads gate).trans ?_
    constructor
    · rintro ⟨h, hv, hg⟩
      obtain ⟨t, ht, hl, rfl⟩ := (gateFor_eq_some slots heads h gate).mp hg
      exact ⟨rfl, fun g hg => by cases hg; exact ⟨hv, rfl, rfl, rfl, t, ht, hl⟩⟩
    · rintro ⟨h, hg⟩
      obtain ⟨⟨i, rel, line, frame⟩, rfl⟩ := Option.isSome_iff_exists.mp h.symm
      obtain ⟨hv, rfl, rfl, rfl, t, ht, hlt⟩ := hg _ rfl
      exact ⟨i, hv, (gateFor_eq_some slots heads i _).mpr ⟨t, ht, hlt, rfl⟩⟩

/-! ## Records -/

/-- The WINDOW job that a record asks for (R7). -/
theorem jobFields_window (slots : List (List Byte)) (heads : Two Head) (p : JobWork × Option Gate) :
    jobFields .window slots heads = some p ↔
      ∃ (c : ContextId) (w : Window), p = (.window c w, none) ∧ c.val = recordField slots 0x03 1
        ∧ w.xStart = recordField slots 0x10 2 ∧ w.xEnd = recordField slots 0x12 2
        ∧ w.yStart = recordField slots 0x14 2 ∧ w.yEnd = recordField slots 0x16 2
        ∧ w.order.code = recordField slots 0x18 1 ∧ w.xDir.code = recordField slots 0x19 1
        ∧ w.yDir.code = recordField slots 0x1A 1
        ∧ w.xStart ≤ w.xEnd ∧ w.xEnd ≤ 2047 ∧ w.yStart ≤ w.yEnd ∧ w.yEnd ≤ 2047 := by
  simp only [jobFields, windowFields, Option.map_eq_some_iff, Option.bind_eq_bind, Option.bind_eq_some_iff,
    Option.ite_none_right_eq_some, Option.some.injEq, contextField_eq_some, orderOf_eq_some, directionOf_eq_some]
  constructor
  · rintro ⟨work, ⟨c, hc, o, ho, dx, hdx, dy, hdy, ⟨hx, hx', hy, hy'⟩, rfl⟩, rfl⟩
    exact ⟨c, _, rfl, hc, rfl, rfl, rfl, rfl, ho, hdx, hdy, hx, Nat.le_pred_of_lt hx', hy, Nat.le_pred_of_lt hy'⟩
  · rintro ⟨c, ⟨x1, x2, y1, y2, o, dx, dy⟩, rfl, hc, rfl, rfl, rfl, rfl, ho, hdx, hdy, hx, hx', hy, hy'⟩
    exact ⟨_, ⟨c, hc, o, ho, dx, hdx, dy, hdy, ⟨hx, Nat.lt_succ_of_le hx', hy, Nat.lt_succ_of_le hy'⟩, rfl⟩, rfl⟩

/-- The TRANSFER job that a record asks for (R25). -/
theorem jobFields_transfer (slots : List (List Byte)) (heads : Two Head) (p : JobWork × Option Gate) :
    jobFields .transfer slots heads = some p ↔
      ∃ (c : ContextId) (m : Mode) (f : Format) (n : Nat) (run : Option Run) (key : Option Key) (gate : Option Gate),
        p = (.transfer c m (BitVec.ofNat 64 (recordField slots 0x18 8)) f n run key, gate)
          ∧ c.val = recordField slots 0x03 1 ∧ m.code = recordField slots 0x10 1 ∧ f.code = recordField slots 0x11 1
          ∧ n = recordField slots 0x14 4 ∧ 1 ≤ n ∧ n ≤ 4194304 ∧ recordField slots 0x18 8 % f.alignment = 0
          ∧ RunPart slots f run ∧ KeyPart slots key ∧ GatePart slots heads gate := by
  simp only [jobFields, transferFields, Option.bind_eq_bind, Option.bind_eq_some_iff, Option.ite_none_right_eq_some,
    Option.some.injEq, contextField_eq_some, modeOf_eq_some, formatOf_eq_some, runFields_eq_some, keyFields_eq_some,
    gateFields_eq_some]
  constructor
  · rintro ⟨c, hc, m, hm, f, hf, run, hrun, key, hkey, gate, hgate, ⟨hn, hn', ha⟩, rfl⟩
    exact ⟨c, m, f, _, run, key, gate, rfl, hc, hm, hf, rfl, hn, hn', ha, hrun, hkey, hgate⟩
  · rintro ⟨c, m, f, _, run, key, gate, rfl, hc, hm, hf, rfl, hn, hn', ha, hrun, hkey, hgate⟩
    exact ⟨c, hc, m, hm, f, hf, run, hrun, key, hkey, gate, hgate, ⟨hn, hn', ha⟩, rfl⟩

/-- The FILL job that a record asks for (R25). -/
theorem jobFields_fill (slots : List (List Byte)) (heads : Two Head) (p : JobWork × Option Gate) :
    jobFields .fill slots heads = some p ↔
      ∃ (c : ContextId) (m : Mode) (n : Nat) (gate : Option Gate),
        p = (.fill c m (BitVec.ofNat 24 (recordField slots 0x18 4)) n, gate)
          ∧ c.val = recordField slots 0x03 1 ∧ m.code = recordField slots 0x10 1 ∧ n = recordField slots 0x14 4
          ∧ n ≤ 4194304 ∧ GatePart slots heads gate := by
  simp only [jobFields, fillFields, Option.bind_eq_bind, Option.bind_eq_some_iff, Option.ite_none_right_eq_some,
    Option.some.injEq, contextField_eq_some, modeOf_eq_some, gateFields_eq_some]
  constructor
  · rintro ⟨c, hc, m, hm, gate, hgate, hn, rfl⟩
    exact ⟨c, m, _, gate, rfl, hc, hm, rfl, hn, hgate⟩
  · rintro ⟨c, m, _, gate, rfl, hc, hm, rfl, hn, hgate⟩
    exact ⟨c, hc, m, hm, gate, hgate, hn, rfl⟩

/-- The READBACK job that a record asks for (R25). -/
theorem jobFields_readback (slots : List (List Byte)) (heads : Two Head) (p : JobWork × Option Gate) :
    jobFields .readback slots heads = some p ↔
      ∃ (c : ContextId) (m : Mode) (n : Nat) (gate : Option Gate),
        p = (.readback c m (BitVec.ofNat 64 (recordField slots 0x18 8)) n, gate)
          ∧ c.val = recordField slots 0x03 1 ∧ m.code = recordField slots 0x10 1 ∧ n = recordField slots 0x14 4
          ∧ 1 ≤ n ∧ n ≤ 4194304 ∧ recordField slots 0x18 8 % 4 = 0 ∧ GatePart slots heads gate := by
  simp only [jobFields, readbackFields, Option.bind_eq_bind, Option.bind_eq_some_iff, Option.ite_none_right_eq_some,
    Option.some.injEq, contextField_eq_some, modeOf_eq_some, gateFields_eq_some]
  constructor
  · rintro ⟨c, hc, m, hm, gate, hgate, ⟨hn, hn', ha⟩, rfl⟩
    exact ⟨c, m, _, gate, rfl, hc, hm, rfl, hn, hn', ha, hgate⟩
  · rintro ⟨c, m, _, gate, rfl, hc, hm, rfl, hn, hn', ha, hgate⟩
    exact ⟨c, hc, m, hm, gate, hgate, ⟨hn, hn', ha⟩, rfl⟩

/-- The window of every job a record asks for lies in panel memory. -/
theorem jobFields_windowBounded (kind : Kind) (slots : List (List Byte)) (heads : Two Head) (work : JobWork)
    (gate : Option Gate) (h : jobFields kind slots heads = some (work, gate)) (j : Job) (hj : j.work = work) :
    j.windowBounded = true := by
  cases kind with
  | window =>
    obtain ⟨c, w, hp, _, _, _, _, _, _, _, _, hx, hx', hy, hy'⟩ := (jobFields_window slots heads _).mp h
    cases hp
    simp only [Job.windowBounded, hj]
    exact w.bounded_iff.mpr ⟨hx, Nat.lt_succ_of_le hx', hy, Nat.lt_succ_of_le hy'⟩
  | transfer =>
    obtain ⟨_, _, _, _, _, _, _, hp, _⟩ := (jobFields_transfer slots heads _).mp h
    cases hp
    simp only [Job.windowBounded, hj]
  | fill =>
    obtain ⟨_, _, _, _, hp, _⟩ := (jobFields_fill slots heads _).mp h
    cases hp
    simp only [Job.windowBounded, hj]
  | readback =>
    obtain ⟨_, _, _, _, hp, _⟩ := (jobFields_readback slots heads _).mp h
    cases hp
    simp only [Job.windowBounded, hj]
  | _ => cases h

/-! ## Taking up a record -/

/-- What a taken up record is: the whole record of its kind in the stream's buffer. -/
theorem State.takeUp_some (s : State) (k : StreamId) (kind : Kind) (c : CurrentRecord)
    (h : s.takeUp k kind = some c) :
    s.regs.device = .running ∧ (s.stream k).halt = none ∧ (s.stream k).kept = [] ∧ (s.stream k).current = some c
      ∧ c.phase = .whole ∧ kindOf c.slots = some kind := by
  simp only [State.takeUp] at h
  split at h
  · rename_i hc
    simp only [State.running, Bool.and_eq_true, decide_eq_true_eq, Option.isNone_iff_eq_none, List.isEmpty_iff] at hc
    split at h
    · rename_i d hd
      split at h
      · rename_i hp
        cases h
        exact ⟨hc.1.1.1, hc.1.2, hc.2, hd, hp⟩
      · cases h
    · cases h
  · cases h

theorem roomFor_iff (jobs : List Job) (k : StreamId) :
    roomFor jobs k = true ↔ jobs.length < 16 ∧ (jobs.filter (fun j => decide (j.ref.stream = k))).length < 8 := by
  simp only [roomFor, Bool.and_eq_true, decide_eq_true_eq]
  exact Iff.rfl

theorem State.setPhase_eq_recordHeld (s : State) (k : StreamId) (c : CurrentRecord) (p : RecordPhase)
    (hc : (s.stream k).current = some c) : s.setPhase k p = s.recordHeld k c p := by
  simp only [State.setPhase, State.recordHeld, hc, Option.map_some]

/-- A job record that passes joins the list where there is room, and is held JOB_SPACE where there is none. -/
theorem State.takeJob_eq (s : State) (k : StreamId) (kind : Kind) (c : CurrentRecord) (work : JobWork)
    (gate : Option Gate) (hup : s.takeUp k kind = some c) (hf : jobFields kind c.slots s.heads = some (work, gate)) :
    s.takeJob k kind
      = if roomFor s.jobs k then
          ({ s.dropCurrent k with
            jobs := evaluateGates s.heads []
              (s.jobs ++ [newJob (headerRef k c) (declaredSlots c.slots) work gate (s.stream k).batch]) } : State).settle
        else (s.recordHeld k c .heldJobSpace).settle := by
  obtain ⟨_, _, _, hc, _, hk⟩ := s.takeUp_some k kind c hup
  have hd : s.dispatchJob k
      = if roomFor s.jobs k then
          some { s.dropCurrent k with
            jobs := evaluateGates s.heads []
              (s.jobs ++ [newJob (headerRef k c) (declaredSlots c.slots) work gate (s.stream k).batch]) }
        else none := by
    simp only [State.dispatchJob, hc, hk, hf]
  by_cases hroom : roomFor s.jobs k = true
  · simp only [State.takeJob, hup, hf, hd, if_pos hroom]
  · simp only [State.takeJob, hup, hf, hd, if_neg hroom, s.setPhase_eq_recordHeld k c _ hc]

/-- The four job record commands. -/
theorem exec_jobCommand (kind : Kind) (hk : kind ∈ [Kind.window, .transfer, .fill, .readback]) (k : StreamId)
    (s : State) : exec (kind.command k) s = .next (s.takeJob k kind) := by
  simp only [List.mem_cons, List.not_mem_nil, or_false] at hk
  rcases hk with rfl | rfl | rfl | rfl <;> rfl

/-- Settles O38: whether there is room decides, and each kind's fields are read by its own lemma. -/
theorem jobRecordsJoinTheList : Obligations.JobRecordsJoinTheList := by
  refine ⟨fun kind k s c work gate hk hup hf => ?_, fun slots heads p =>
    ⟨jobFields_window slots heads p, jobFields_transfer slots heads p, jobFields_fill slots heads p,
      jobFields_readback slots heads p⟩⟩
  rw [exec_jobCommand kind hk, s.takeJob_eq k kind c work gate hup hf]
  refine ⟨fun hroom => ?_, fun hfull => ?_⟩
  · rw [if_pos ((roomFor_iff _ _).mpr hroom)]
    rfl
  · rw [if_neg (fun h => by have := (roomFor_iff _ _).mp h; omega)]

end Sys2Proof.Machine
end

