-- ==== Sys2Proof/Proofs/Cursors.lean ====
section
/-! SUPPORT. Windows, cursors and panel memory under the moves of a reaction: which operations touch the contexts, what each
keeps of the job list's work, and that none of settling writes a pixel. -/

namespace Sys2Proof.Machine

set_option Elab.async false

/-! ## The work of the job list -/

@[simp] theorem evaluateGates_work (heads : Two Head) (seen : List StreamId) (jobs : List Job) :
    (evaluateGates heads seen jobs).map Job.work = jobs.map Job.work :=
  evaluateGates_map Job.work (fun j hds => (j.evaluateGate_same hds).2.1) heads seen jobs

/-- A change of some jobs that keeps their work keeps that of the list. -/
theorem map_work_of_same (jobs : List Job) (f : Job → Job) (hf : ∀ j, (f j).work = j.work) :
    (jobs.map f).map Job.work = jobs.map Job.work := by
  rw [List.map_map]
  exact List.map_congr_left fun j _ => hf j

@[simp] theorem endRunningIn_work (jobs : List Job) (o : Outcome) :
    (endRunningIn jobs o).map Job.work = jobs.map Job.work :=
  map_work_of_same jobs _ fun j => by split <;> rfl

@[simp] theorem cancelQueued_work (jobs : List Job) (k : StreamId) :
    (cancelQueued jobs k).map Job.work = jobs.map Job.work :=
  map_work_of_same jobs _ fun j => by split <;> rfl

@[simp] theorem openGates_work (h : HeadId) (sc : Scan) (jobs : List Job) :
    (openGates h sc jobs).map Job.work = jobs.map Job.work :=
  map_work_of_same jobs _ fun j => by split <;> rfl

@[simp] theorem bypassGates_work (h : HeadId) (jobs : List Job) :
    (bypassGates h jobs).map Job.work = jobs.map Job.work :=
  map_work_of_same jobs _ fun j => by split <;> rfl

theorem runOldestEligible_work (seen : List StreamId) (jobs out : List Job)
    (h : runOldestEligible seen jobs = some out) : out.map Job.work = jobs.map Job.work := by
  obtain ⟨before, after, j, rfl, _, rfl⟩ := runOldestEligible_split seen jobs out h
  simp

theorem takeEnded_work (jobs out : List Job) (c : Completion) (h : takeEnded jobs = some (c, out)) :
    out.map Job.work ⊆ jobs.map Job.work := by
  obtain ⟨before, after, j, _, _, rfl, _, rfl, _⟩ := takeEnded_split jobs out c h
  exact List.map_subset _ ((List.Sublist.refl before).append (List.sublist_cons_self j after)).subset

/-! ## Cursors inside their windows -/

theorem Job.windowBounded_congr {i j : Job} (h : i.work = j.work) : i.windowBounded = j.windowBounded := by
  unfold Job.windowBounded
  rw [h]

/-- Contexts that stay, and no new work in the list, keep every cursor inside. -/
theorem State.cursorsInside.of_same {s t : State} (h : s.cursorsInside) (hc : t.contexts = s.contexts)
    (hj : t.jobs.map Job.work ⊆ s.jobs.map Job.work) : t.cursorsInside := by
  refine ⟨fun k c => ?_, fun j hjt => ?_⟩
  · have := h.1 k c
    rwa [State.context, ← hc] at this
  · obtain ⟨i, his, hij⟩ := List.mem_map.mp (hj (List.mem_map_of_mem hjt))
    rw [← Job.windowBounded_congr hij]
    exact h.2 i his

theorem State.cursorsInside.setContext {s : State} (h : s.cursorsInside) (k : StreamId) (c : ContextId) (x : Context)
    (hx : x.wf = true) : (s.setContext k c x).cursorsInside := by
  refine ⟨fun i d => ?_, h.2⟩
  rw [State.context_setContext]
  split
  · exact hx
  · exact h.1 i d

/-! ## Each operation -/

theorem State.runningJob_mem (s : State) (j : Job) (h : s.runningJob = some j) : j ∈ s.jobs :=
  List.mem_of_find?_eq_some h

theorem State.endJob_work (s : State) (o : Outcome) : (s.endJob o).jobs.map Job.work ⊆ s.jobs.map Job.work := by
  unfold State.endJob
  split
  · exact List.Subset.refl _
  · split
    · simp only [State.jobsRemoved, evaluateGates_work]
      exact List.map_subset _ List.filter_sublist.subset
    · simp only [endRunningIn_work]
      exact List.Subset.refl _

theorem State.failJob_work (s : State) (status : Status) (written : Nat) :
    (s.failJob status written).jobs.map Job.work = s.jobs.map Job.work := by
  unfold State.failJob
  split
  · rfl
  · dsimp only
    split <;> simp

theorem Follows.cursorsInside {s t : State} (m : Follows s t) (h : s.cursorsInside) : t.cursorsInside := by
  cases m with
  | choose => exact h.of_same rfl (List.Subset.refl _)
  | phase p => exact h.of_same rfl (List.Subset.refl _)
  | pixelDone wrote =>
    unfold State.pixelDone
    split
    · exact h
    · exact (h.setContext _ _ _ (Context.wf_stepped _ (h.1 _ _))).of_same rfl (List.Subset.refl _)
  | endJob o => exact h.of_same (s.endJob_contexts o) (s.endJob_work o)
  | failJob status written =>
    exact h.of_same (s.failJob_contexts status written) (List.Perm.of_eq (s.failJob_work status written)).subset
  | window j c w hj hw =>
    have hb := h.2 j (s.runningJob_mem j hj)
    simp only [Job.windowBounded, hw] at hb
    exact h.setContext _ _ _ (Context.wf_corner w hb)
  | placed j m hj => exact h.setContext _ _ _ (Context.wf_placed _ m (h.1 _ _))

theorem FollowsAll.cursorsInside {s t : State} (m : FollowsAll s t) (h : s.cursorsInside) : t.cursorsInside :=
  m.keeps State.cursorsInside (fun _ _ m h => m.cursorsInside h) h

theorem State.dispatchPresent_same (s t : State) (k : StreamId) (h : s.dispatchPresent k = some t) :
    t.contexts = s.contexts ∧ t.jobs = s.jobs := by
  obtain ⟨_, _, _, _, _, _, _, rfl, _, rfl⟩ := s.dispatchPresent_some t k h
  exact ⟨rfl, rfl⟩

theorem State.dispatchPalette_same (s t : State) (k : StreamId) (h : s.dispatchPalette k = some t) :
    t.contexts = s.contexts ∧ t.jobs = s.jobs := by
  obtain ⟨_, _, _, _, _, _, _, rfl⟩ := s.dispatchPalette_some t k h
  exact ⟨rfl, rfl⟩

/-- A job record brings a window that lies in panel memory. -/
theorem State.dispatchJob_cursorsInside (s t : State) (k : StreamId) (ht : s.dispatchJob k = some t)
    (h : s.cursorsInside) : t.cursorsInside := by
  obtain ⟨c, kind, work, gate, _, _, hf, _, rfl⟩ := s.dispatchJob_some t k ht
  refine ⟨h.1, fun j hj => ?_⟩
  obtain ⟨i, hi, hij⟩ : ∃ i ∈ s.jobs ++ [newJob (headerRef k c) (declaredSlots c.slots) work gate (s.stream k).batch],
      i.work = j.work := by
    rw [← List.mem_map, ← evaluateGates_work s.heads []]
    exact List.mem_map_of_mem hj
  rw [← Job.windowBounded_congr hij]
  rcases List.mem_append.mp hi with hi | hi
  · exact h.2 i hi
  · obtain rfl := List.mem_singleton.mp hi
    exact jobFields_windowBounded kind c.slots s.heads work gate hf _ rfl

theorem State.placeFrom_same (s t : State) (p : Placer) (h : s.placeFrom p = some t) :
    t.contexts = s.contexts ∧ t.jobs.map Job.work ⊆ s.jobs.map Job.work := by
  rcases s.placeFrom_cases t p h with ⟨c, jobs, hj, rfl⟩ | ⟨_, _, _, _, _, rfl⟩ | ⟨_, _, _, _, _, rfl⟩
    | ⟨_, _, _, _, _, rfl⟩
  · refine ⟨rfl, ?_⟩
    simp only [State.jobsRemoved, evaluateGates_work]
    exact takeEnded_work _ _ c hj
  all_goals exact ⟨rfl, List.Subset.refl _⟩

theorem Starts.cursorsInside {s t : State} (m : Starts s t) (h : s.cursorsInside) : t.cursorsInside := by
  cases m with
  | stop _ _ => exact h.of_same rfl (List.Subset.refl _)
  | latch i _ _ _ => exact h.of_same rfl (List.Subset.refl _)
  | answer n a _ => exact h.of_same rfl (List.Subset.refl _)
  | wait k c o _ _ _ => exact h.of_same (s.finish_contexts k o) (by rw [s.finish_jobs]; exact List.Subset.refl _)
  | present _ k _ ht =>
    obtain ⟨hc, hj⟩ := s.dispatchPresent_same t k ht
    exact h.of_same hc (by rw [hj]; exact List.Subset.refl _)
  | palette _ k _ ht =>
    obtain ⟨hc, hj⟩ := s.dispatchPalette_same t k ht
    exact h.of_same hc (by rw [hj]; exact List.Subset.refl _)
  | job _ k _ ht => exact s.dispatchJob_cursorsInside t k ht h
  | engine jobs _ hj => exact h.of_same rfl (List.Perm.of_eq (runOldestEligible_work _ _ _ hj)).subset
  | place _ p ht =>
    obtain ⟨hc, hj⟩ := s.placeFrom_same t p ht
    exact h.of_same hc hj
  | grant _ ht =>
    obtain ⟨_, _, _, _, rfl⟩ := s.grant_some t ht
    exact h.of_same rfl (List.Subset.refl _)
  | write _ ht =>
    obtain ⟨_, _, rfl⟩ := s.issueWrite_some t ht
    exact h.of_same rfl (List.Subset.refl _)

/-! ## Steps that write no pixel -/

/-- No pixel is written, and every cursor stays inside its window. -/
structure State.KeepsPixels (s t : State) : Prop where
  panel : t.panel = s.panel
  cursors : s.cursorsInside → t.cursorsInside

theorem State.KeepsPixels.refl (s : State) : s.KeepsPixels s := ⟨rfl, id⟩

theorem State.KeepsPixels.trans {s t u : State} (h : s.KeepsPixels t) (g : t.KeepsPixels u) : s.KeepsPixels u :=
  ⟨g.panel.trans h.panel, fun hs => g.cursors (h.cursors hs)⟩

/-- What touches neither panel memory, nor contexts, nor the work of the job list. -/
theorem State.KeepsPixels.of_same {s t : State} (hp : t.panel = s.panel) (hc : t.contexts = s.contexts)
    (hj : t.jobs.map Job.work = s.jobs.map Job.work) : s.KeepsPixels t :=
  ⟨hp, fun h => h.of_same hc (List.Perm.of_eq hj).subset⟩

theorem FollowsAll.keepsPixels {s t : State} (m : FollowsAll s t) : s.KeepsPixels t :=
  ⟨m.keeps (fun u => u.panel = s.panel) (fun _ _ m h => m.settlesTo.panel.trans h) rfl, m.cursorsInside⟩

theorem State.settleFor_keepsPixels (s : State) (n : Nat) : s.KeepsPixels (s.settleFor n) :=
  ⟨(s.settleFor_settlesTo n).panel,
    State.settleFor_keeps_of_moves _ (fun _ _ m h => m.cursorsInside h) (fun _ _ m h => m.cursorsInside h) n s⟩

theorem State.settle_keepsPixels (s : State) : s.KeepsPixels s.settle := s.settleFor_keepsPixels _

/-- What keeps pixels still does once it has settled. -/
theorem State.KeepsPixels.settle {s t : State} (h : s.KeepsPixels t) : s.KeepsPixels t.settle :=
  h.trans t.settle_keepsPixels

end Sys2Proof.Machine
end

