-- ==== Sys2Proof/Proofs/PanelMemory.lean ====
section
/-! SUPPORT. What each command does to panel memory, windows and cursors: the commands that stop or serve the engine may
write the pixel whose write is presented, the others write none; and every one of them keeps the cursors inside. -/

namespace Sys2Proof.Machine

set_option Elab.async false

/-! ## At most the presented write is made -/

/-- Panel memory stays, or the pixel at the cursor takes the value that the engine presents; and every cursor stays inside
its window. -/
structure State.PixelStep (s t : State) : Prop where
  panel : t.panel = s.panel
    ∨ ∃ (p : Pixel) (pos : Position), s.engine.phase = .write p ∧ s.cursor = some pos
        ∧ t.panel = s.panel.write pos.cell p
  cursors : s.cursorsInside → t.cursorsInside

theorem State.PixelStep.of_keeps {s t : State} (h : s.KeepsPixels t) : s.PixelStep t := ⟨.inl h.panel, h.cursors⟩

theorem State.PixelStep.refl (s : State) : s.PixelStep s := .of_keeps (.refl s)

/-- What keeps pixels from a state with the same panel memory, contexts and work of the job list. -/
theorem State.KeepsPixels.after {s t u : State} (g : t.KeepsPixels u) (hp : t.panel = s.panel)
    (hc : t.contexts = s.contexts) (hj : t.jobs.map Job.work = s.jobs.map Job.work) : s.KeepsPixels u :=
  .trans (.of_same hp hc hj) g

theorem State.PixelStep.andThen {s t u : State} (h : s.PixelStep t) (g : t.KeepsPixels u) : s.PixelStep u := by
  refine ⟨?_, fun hs => g.cursors (h.cursors hs)⟩
  rw [g.panel]
  exact h.panel

/-- A step from a state with the same panel memory, contexts, jobs and phase is one from the state itself. -/
theorem State.PixelStep.of_start {s s' t : State} (h : s'.PixelStep t) (hp : s'.panel = s.panel)
    (hc : s'.contexts = s.contexts) (hj : s'.jobs = s.jobs) (he : s'.engine.phase = s.engine.phase) : s.PixelStep t := by
  have hcur : s'.cursor = s.cursor := by
    simp only [State.cursor, State.runningJob, State.context, hc, hj]
  refine ⟨?_, fun hs => h.cursors (hs.of_same hc (by rw [hj]; exact List.Subset.refl _))⟩
  rw [← hp, ← he, ← hcur]
  exact h.panel

theorem State.writeAtCursor_pixelStep (s : State) (p : Pixel) (hp : s.engine.phase = .write p) :
    s.PixelStep (s.writeAtCursor p) := by
  refine ⟨?_, fun hs => hs.of_same (s.writeAtCursor_contexts p) (by rw [s.writeAtCursor_jobs]; exact List.Subset.refl _)⟩
  cases hc : s.cursor with
  | none => exact .inl (by simp only [State.writeAtCursor, hc])
  | some pos => exact .inr ⟨p, pos, hp, rfl, by simp only [State.writeAtCursor, hc]⟩

theorem State.pixelDone_keepsPixels (s : State) (wrote : Bool) : s.KeepsPixels (s.pixelDone wrote) :=
  FollowsAll.keepsPixels (.single (.pixelDone s wrote))

theorem State.nextPixel_keepsPixels (s : State) : s.KeepsPixels s.nextPixel := s.nextPixel_follows.keepsPixels

theorem State.failJob_keepsPixels (s : State) (status : Status) (written : Nat) :
    s.KeepsPixels (s.failJob status written) :=
  FollowsAll.keepsPixels (.single (.failJob s status written))

theorem State.landPixel_pixelStep (s : State) : s.PixelStep s.landPixel := by
  unfold State.landPixel
  split
  · rename_i p hp; exact (s.writeAtCursor_pixelStep p hp).andThen (State.pixelDone_keepsPixels _ _)
  · exact .of_keeps (s.pixelDone_keepsPixels true)
  all_goals exact .refl s

/-- A stop at a pixel boundary writes the presented pixel or does not. -/
theorem State.stopEngine_pixelStep (s : State) : s.PixelStep s.stopEngine := by
  unfold State.stopEngine
  dsimp only
  refine State.PixelStep.andThen (t := if s.engine.phase.inPixel then
    (if Config.finishesPixel s.choices then State.landPixel { s with choices := s.choices + 1 }
      else { s with choices := s.choices + 1 }) else s) ?_ (.of_same rfl rfl rfl)
  split
  · split
    · exact (State.landPixel_pixelStep { s with choices := s.choices + 1 }).of_start rfl rfl rfl rfl
    · exact .of_keeps (.of_same rfl rfl rfl)
  · exact .refl s

theorem State.enterFault_pixelStep (s : State) (origin : FaultOrigin) : s.PixelStep (s.enterFault origin) :=
  s.stopEngine_pixelStep.andThen (.of_same rfl rfl rfl)

theorem State.afterReset_pixelStep (s : State) : s.PixelStep s.afterReset :=
  ⟨s.stopEngine_pixelStep.panel, fun _ => State.reset_cursorsInside.of_same rfl (List.Subset.refl _)⟩

/-! ## FLUSH -/

theorem State.handOn_keepsPixels (s : State) (h : HeadId) (b : Bool) : s.KeepsPixels (s.handOn h b) :=
  .of_same (s.handOn_panel h b) (s.handOn_contexts h b) (by rw [s.handOn_jobs])

theorem State.finish_keepsPixels (s : State) (k : StreamId) (o : Outcome) : s.KeepsPixels (s.finish k o) :=
  .of_same (s.finish_panel k o) (s.finish_contexts k o) (by rw [s.finish_jobs])

@[simp] theorem State.stopEngine_runningJob (s : State) : s.stopEngine.runningJob = s.runningJob := by
  simp only [State.runningJob, s.stopEngine_jobs]

/-- A FLUSH of the RUNNING job's stream stops the engine and ends the job CANCELLED. -/
theorem State.flushJobs_running (s : State) (k : StreamId) (j : Job) (hj : s.runningJob = some j)
    (hk : j.ref.stream = k) :
    s.flushJobs k
      = { s.stopEngine with
          engine := .free
          jobs := cancelQueued (endRunningIn s.jobs
            { status := .cancelled, valueA := BitVec.ofNat 32 s.stopEngine.engine.written
              flags := .bypass j.bypassed }) k
          contexts := s.stopEngine.contexts.set k (.all .unset) } := by
  simp [State.flushJobs, hj, hk]

/-- A FLUSH of another stream than the RUNNING job's leaves the engine alone. -/
theorem State.flushJobs_other (s : State) (k : StreamId) (h : ∀ j, s.runningJob = some j → j.ref.stream ≠ k) :
    s.flushJobs k
      = { s with jobs := cancelQueued s.jobs k, contexts := s.contexts.set k (.all .unset) } := by
  cases hj : s.runningJob with
  | none => simp [State.flushJobs, hj]
  | some j => simp [State.flushJobs, hj, h j hj]

/-- A stream's contexts made UNSET and its jobs ended keep every cursor inside. -/
theorem State.KeepsPixels.unset (s : State) (k : StreamId) (jobs : List Job)
    (hj : jobs.map Job.work = s.jobs.map Job.work) :
    s.KeepsPixels { s with jobs := jobs, contexts := s.contexts.set k (.all .unset) } := by
  refine ⟨rfl, fun h => ⟨fun i c => ?_, ?_⟩⟩
  · have hu := h.1 i c
    simp only [State.context, Four.get_set] at hu ⊢
    split
    · rw [Four.get_all]; rfl
    · exact hu
  · exact (h.of_same (t := { s with jobs := jobs }) rfl (List.Perm.of_eq hj).subset).2

theorem State.flushJobs_pixelStep (s : State) (k : StreamId) : s.PixelStep (s.flushJobs k) := by
  by_cases hm : ∃ j, s.runningJob = some j ∧ j.ref.stream = k
  · obtain ⟨j, hj, hk⟩ := hm
    rw [s.flushJobs_running k j hj hk]
    refine (s.stopEngine_pixelStep.andThen (State.KeepsPixels.unset s.stopEngine k _ ?_)).andThen
      (.of_same rfl rfl rfl)
    rw [s.stopEngine_jobs, cancelQueued_work, endRunningIn_work]
  · rw [s.flushJobs_other k fun j hj hk => hm ⟨j, hj, hk⟩]
    exact .of_keeps (.unset s k _ (cancelQueued_work _ _))

theorem State.flushHead_keepsPixels (s : State) (h : HeadId) (k : StreamId) : s.KeepsPixels (s.flushHead h k) := by
  unfold State.flushHead
  dsimp only
  split
  · exact .after (State.handOn_keepsPixels _ _ _) rfl rfl rfl
  · split <;> exact .of_same rfl rfl rfl

theorem State.flushStream_same (s : State) (k : StreamId) :
    (s.flushStream k).panel = s.panel ∧ (s.flushStream k).contexts = s.contexts ∧ (s.flushStream k).jobs = s.jobs
      ∧ (s.flushStream k).engine = s.engine :=
  ⟨s.finish_panel k _, s.finish_contexts k _, s.finish_jobs k _, s.finish_engine k _⟩

theorem State.flushed_pixelStep (s : State) (k : StreamId) : s.PixelStep (s.flushed k) := by
  obtain ⟨hp, hc, hj, he⟩ := State.flushStream_same
    { s with heads := s.heads.map (fun hd => (Head.withdraw hd k).abandonRead k) } k
  have hjobs := (State.flushJobs_pixelStep _ k).of_start (s := s) hp hc hj (by rw [he])
  exact (hjobs.andThen (State.flushHead_keepsPixels _ 0 k)).andThen (State.flushHead_keepsPixels _ 1 k)

/-! ## The register window -/

theorem State.startCommand_keepsPixels (s : State) : s.KeepsPixels s.startCommand := by
  unfold State.startCommand
  split
  · split <;> exact .of_same rfl rfl rfl
  · exact .settle (.of_same rfl rfl rfl)
  all_goals exact .of_same rfl rfl rfl

theorem State.stopCommand_keepsPixels (s : State) : s.KeepsPixels s.stopCommand := by
  unfold State.stopCommand
  split
  · exact .settle (.of_same rfl rfl rfl)
  · exact .of_same rfl rfl rfl

theorem State.resumeCommand_keepsPixels (s : State) (k : StreamId) : s.KeepsPixels (s.resumeCommand k) := by
  unfold State.resumeCommand
  split
  · exact .settle (.of_same rfl rfl rfl)
  · exact .of_same rfl rfl rfl

theorem State.flushCommand_pixelStep (s : State) (k : StreamId) : s.PixelStep (s.flushCommand k) := by
  unfold State.flushCommand
  split
  · exact (s.flushed_pixelStep k).andThen (State.settle_keepsPixels _)
  · exact .of_keeps (.of_same rfl rfl rfl)

theorem State.postWrite_keepsPixels (s : State) (value : Word) : s.KeepsPixels (s.postWrite value) := by
  unfold State.postWrite
  dsimp only
  split
  · split
    · exact .settle (.of_same rfl rfl rfl)
    · exact .of_same rfl rfl rfl
  · exact .of_same rfl rfl rfl

theorem State.retireWrite_keepsPixels (s : State) (value : Word) : s.KeepsPixels (s.retireWrite value) := by
  unfold State.retireWrite
  split
  · split
    · exact .settle (.of_same rfl rfl rfl)
    · exact .of_same rfl rfl rfl
  · exact .of_same rfl rfl rfl

theorem State.addressWritten_keepsPixels (s : State) (half : AddressHalf) (value : Word) :
    s.KeepsPixels (s.addressWritten half value) := by
  cases half <;> exact .of_same rfl rfl rfl

theorem State.windowWrite_pixelStep (s : State) (offset : BitVec 6) (value : Word) :
    s.PixelStep (s.windowWrite offset value) := by
  unfold State.windowWrite
  split
  · exact .of_keeps s.startCommand_keepsPixels
  · exact .of_keeps s.stopCommand_keepsPixels
  · exact s.afterReset_pixelStep
  · exact .of_keeps (s.resumeCommand_keepsPixels _)
  · exact s.flushCommand_pixelStep _
  · exact .of_keeps (s.postWrite_keepsPixels _)
  · exact .of_keeps (s.retireWrite_keepsPixels _)
  · exact .of_keeps (.of_same rfl rfl rfl)
  · exact .of_keeps (.of_same rfl rfl rfl)
  · exact .of_keeps (s.addressWritten_keepsPixels _ _)
  · split <;> exact .of_keeps (.of_same rfl rfl rfl)

theorem State.setupAnswered_pixelStep (s : State) (answer : ReadAnswer (List Byte)) :
    s.PixelStep (s.setupAnswered answer) := by
  unfold State.setupAnswered
  split
  · exact .refl s
  · split
    · exact .refl s
    · exact s.enterFault_pixelStep _
    · split
      · exact .of_keeps (.of_same rfl rfl rfl)
      · refine .of_keeps ?_
        unfold State.endLoad
        split
        · exact .settle (.of_same rfl rfl rfl)
        · exact .of_same rfl rfl rfl

/-! ## Records -/

theorem State.examine_keepsPixels (s : State) (k : StreamId) : s.KeepsPixels (s.examine k) := by
  unfold State.examine
  split
  · exact .refl s
  · dsimp only
    split
    · exact s.finish_keepsPixels k _
    · split
      · exact .refl s
      · split
        · exact s.finish_keepsPixels k _
        · split
          · exact .of_same rfl rfl rfl
          · exact s.finish_keepsPixels k _

theorem State.fetchFailed_keepsPixels (s : State) (k : StreamId) (n : Nat) : s.KeepsPixels (s.fetchFailed k n) := by
  unfold State.fetchFailed
  split
  · exact s.finish_keepsPixels k _
  · split
    · exact .of_same rfl rfl rfl
    · exact .refl s

theorem State.slotAnswered_keepsPixels (s : State) (answer : ReadAnswer (List Byte)) :
    s.KeepsPixels (s.slotAnswered answer) := by
  unfold State.slotAnswered
  split
  · exact .refl s
  · dsimp only
    split
    · exact .refl s
    · split
      · exact .settle (.of_same rfl rfl rfl)
      · exact .settle (.after (State.fetchFailed_keepsPixels _ _ _) rfl rfl rfl)
    · split
      · exact .settle (.of_same rfl rfl rfl)
      · exact .settle (.after (State.examine_keepsPixels _ _) rfl rfl rfl)

theorem State.dispatchJob_keepsPixels (s t : State) (k : StreamId) (h : s.dispatchJob k = some t) : s.KeepsPixels t :=
  ⟨(s.dispatchJob_settlesTo t k h).panel, s.dispatchJob_cursorsInside t k h⟩

theorem State.takeJob_keepsPixels (s : State) (k : StreamId) (kind : Kind) : s.KeepsPixels (s.takeJob k kind) := by
  unfold State.takeJob
  split
  · exact .refl s
  · split
    · exact (s.finish_keepsPixels k _).settle
    · split
      · rename_i t ht; exact (s.dispatchJob_keepsPixels t k ht).settle
      · exact .settle (.of_same rfl rfl rfl)

theorem State.decideClaim_keepsPixels (s : State) (k : StreamId) (c : CurrentRecord) (r : ClaimRecord) :
    s.KeepsPixels (s.decideClaim k c r) := by
  unfold State.decideClaim
  dsimp only
  split
  · exact .after (State.finish_keepsPixels _ _ _) rfl rfl rfl
  · split
    · exact s.finish_keepsPixels k _
    · split
      · exact .of_same rfl rfl rfl
      · exact s.finish_keepsPixels k _

theorem State.dispatchPresent_keepsPixels (s t : State) (k : StreamId) (h : s.dispatchPresent k = some t) :
    s.KeepsPixels t := by
  obtain ⟨_, _, _, _, _, _, _, rfl, _, rfl⟩ := s.dispatchPresent_some t k h
  exact .of_same rfl rfl rfl

theorem State.dispatchPalette_keepsPixels (s t : State) (k : StreamId) (h : s.dispatchPalette k = some t) :
    s.KeepsPixels t := by
  obtain ⟨_, _, _, _, _, _, _, rfl⟩ := s.dispatchPalette_some t k h
  exact .of_same rfl rfl rfl

theorem State.paletteAnswered_keepsPixels (s : State) (h : HeadId) (i : Nat) (answer : ReadAnswer (BitVec 16)) :
    s.KeepsPixels (s.paletteAnswered h i answer) := by
  unfold State.paletteAnswered
  dsimp only
  split
  · exact .refl s
  · split
    · split
      · exact .refl s
      · exact .settle (.of_same rfl rfl rfl)
      · split
        · exact .of_same rfl rfl rfl
        · exact .settle (.of_same rfl rfl rfl)
    · exact .refl s

/-! ## Links -/

theorem State.latchAll_keepsPixels (n : Nat) (h : HeadId) (s : State) : s.KeepsPixels (State.latchAll n h s) := by
  induction n generalizing s with
  | zero => exact .refl s
  | succ n ih =>
    unfold State.latchAll
    split
    · rename_i t ht
      have m := State.latchNow_moves h s t ht
      exact .trans ⟨m.settlesTo.panel, m.cursorsInside⟩ (ih t)
    · exact .refl s

theorem State.completeWaits_keepsPixels (s : State) : s.KeepsPixels s.completeWaits := by
  have hone : ∀ (k : StreamId) (t : State), t.KeepsPixels ((State.completeWait k t).getD t) := by
    intro k t
    cases h : State.completeWait k t with
    | none => exact .refl t
    | some u =>
      obtain ⟨_, o, _, _, _, rfl⟩ := t.completeWait_some u k h
      exact t.finish_keepsPixels k o
  exact (((hone 0 s).trans (hone 1 _)).trans (hone 2 _)).trans (hone 3 _)

theorem State.scanStopped_keepsPixels (s : State) (h : HeadId) : s.KeepsPixels (s.scanStopped h) :=
  .after (.trans (State.latchAll_keepsPixels (s.head h).present.entries.length h
    { s with jobs := bypassGates h s.jobs }) (State.completeWaits_keepsPixels _)) rfl rfl (bypassGates_work h s.jobs)

theorem State.enterLink_keepsPixels (s : State) (h : HeadId) (st : LinkState) : s.KeepsPixels (s.enterLink h st) := by
  cases st with
  | quiescing => exact .after (State.scanStopped_keepsPixels _ h) rfl rfl rfl
  | _ => exact .of_same rfl rfl rfl

theorem State.linkTo_keepsPixels (n : Nat) (s : State) (h : HeadId) (st : LinkState) :
    s.KeepsPixels (s.linkTo n h st) := by
  induction n generalizing s st with
  | zero => exact .refl s
  | succ n ih =>
    have henter := s.enterLink_keepsPixels h st
    unfold State.linkTo
    dsimp only
    split
    · split
      · exact henter.trans (ih _ _)
      · exact henter
    · split
      · split
        · exact henter.trans (ih _ _)
        · exact henter
      · exact henter

theorem State.linkMove_keepsPixels (s : State) (h : HeadId) : s.KeepsPixels (s.linkMove h) := by
  unfold State.linkMove
  dsimp only
  split
  · exact s.linkTo_keepsPixels _ h _
  · exact s.linkTo_keepsPixels _ h _
  · exact .refl s

theorem State.dispatchLink_keepsPixels (s : State) (k : StreamId) (ref : RecordRef) (h : HeadId) (target : LinkTarget) :
    s.KeepsPixels (s.dispatchLink k ref h target) := by
  unfold State.dispatchLink
  dsimp only
  have hmoved := State.linkMove_keepsPixels
    (s.setHead h { s.head h with link := { (s.head h).link with pending := none, held := [], target := target } }) h
  split
  · exact .after (hmoved.trans (.of_same rfl rfl rfl)) rfl rfl rfl
  · exact .after (hmoved.trans (.of_same rfl rfl rfl)) rfl rfl rfl

theorem State.dispatchLight_keepsPixels (s : State) (k : StreamId) (ref : RecordRef) (h : HeadId) (target : Nat)
    (dim : Bool) (step : Nat) : s.KeepsPixels (s.dispatchLight k ref h target dim step) :=
  .of_same rfl rfl rfl

/-! ## Events -/

theorem State.engineServed_pixelStep (s : State) : s.PixelStep s.engineServed := by
  unfold State.engineServed
  split
  · split
    · rename_i p hp
      exact (s.writeAtCursor_pixelStep p hp).andThen
        ((State.pixelDone_keepsPixels _ true).trans (State.nextPixel_keepsPixels _)).settle
    · split
      · exact .of_keeps (.of_same rfl rfl rfl)
      · exact .refl s
    all_goals exact .refl s
  · exact .refl s

theorem State.sourceAnswered_keepsPixels (s : State) (n : Nat) (answer : ReadAnswer Word) :
    s.KeepsPixels (s.sourceAnswered n answer) := by
  unfold State.sourceAnswered
  split
  · split
    · exact .refl s
    · exact .settle (.of_same rfl rfl rfl)
    · exact .settle (.of_same rfl rfl rfl)
  · exact .refl s

theorem State.wordAnswered_keepsPixels (s : State) (answer : WriteAnswer) : s.KeepsPixels (s.wordAnswered answer) := by
  unfold State.wordAnswered
  split
  · split
    · split
      · exact .refl s
      · exact ((s.pixelDone_keepsPixels true).trans (State.nextPixel_keepsPixels _)).settle
      · exact (s.failJob_keepsPixels _ _).settle
    all_goals exact .refl s
  · exact .refl s

theorem State.completionAnswered_pixelStep (s : State) (answer : WriteAnswer) :
    s.PixelStep (s.completionAnswered answer) := by
  unfold State.completionAnswered
  split
  · split
    · exact .refl s
    · exact .of_keeps (.settle (.of_same rfl rfl rfl))
    · exact (State.enterFault_pixelStep _ _).of_start rfl rfl rfl rfl
  · exact .refl s

theorem State.gatesFirst_keepsPixels (s : State) (opened : Bool) : s.KeepsPixels (s.gatesFirst opened) := by
  cases opened with
  | false => exact .refl s
  | true =>
    obtain ⟨n, _, h⟩ := s.gatesFirst_true
    rw [h]
    refine .trans ?_ (State.settleFor_keepsPixels _ n)
    rcases s.pick_state (s.workLeft + 1) with e | e <;> rw [e] <;> exact .of_same rfl rfl rfl

theorem State.blanked_keepsPixels (s : State) (h : HeadId) (frameCause : Bool) : s.KeepsPixels (s.blanked h frameCause) := by
  cases frameCause <;> exact .of_same rfl rfl rfl

theorem State.lineStarted_keepsPixels (s : State) (h : HeadId) : s.KeepsPixels (s.lineStarted h) := by
  unfold State.lineStarted
  dsimp only
  split
  · exact .refl s
  · rename_i t _
    split
    · have hmoved : s.KeepsPixels
          { s.setHead h { s.head h with scan := ((s.head h).scan.endLine s.panel).advanced t } with
            jobs := openGates h (((s.head h).scan.endLine s.panel).advanced t) s.jobs } :=
        .of_same rfl rfl (openGates_work _ _ _)
      split
      · exact ((hmoved.trans (State.gatesFirst_keepsPixels _ _)).trans (State.blanked_keepsPixels _ _ _)).settle
      · exact hmoved.settle
    · exact .refl s

theorem State.scanServed_keepsPixels (s : State) (h : HeadId) : s.KeepsPixels (s.scanServed h) := by
  unfold State.scanServed
  dsimp only
  split
  · split
    · exact .of_same rfl rfl rfl
    · exact .refl s
  · exact .refl s

theorem State.expire_keepsPixels (s t : State) (h : HeadId) (k : StreamId) (e : s.expire h k = some t) :
    s.KeepsPixels t := by
  unfold State.expire at e
  split at e
  · obtain ⟨w, _, rfl⟩ := Option.map_eq_some_iff.mp e
    exact .settle (.of_same rfl rfl rfl)
  · cases e

theorem State.endStep_keepsPixels (s t : State) (h : HeadId) (e : s.endStep h = some t) : s.KeepsPixels t := by
  simp only [State.endStep] at e
  split at e
  · obtain ⟨st, _, rfl⟩ := Option.map_eq_some_iff.mp e
    exact (s.linkTo_keepsPixels _ h st).settle
  · cases e

theorem State.takeDue_keepsPixels (s t : State) (d : Due) (e : s.takeDue d = some t) : s.KeepsPixels t := by
  cases d with
  | step h => exact s.endStep_keepsPixels t h e
  | waiter h k => exact s.expire_keepsPixels t h k e

theorem State.takeAllDue_keepsPixels (s : State) (n : Nat) : s.KeepsPixels (s.takeAllDue n) :=
  State.takeAllDue_keeps s.KeepsPixels (fun _ h => h.trans (.of_same rfl rfl rfl))
    (fun u v d e h => h.trans (u.takeDue_keepsPixels v d e)) n s (.refl s)

/-! ## Record commands -/

/-- A command answers a next state that at most writes the presented pixel. -/
def State.PixelAnswer (s : State) (a : Answer) : Prop := ∃ t : State, a = .next t ∧ s.PixelStep t

theorem State.PixelAnswer.next {s t : State} (h : s.KeepsPixels t) : s.PixelAnswer (.next t) :=
  ⟨t, rfl, .of_keeps h⟩

theorem execClaim_pixelAnswer (k : StreamId) (s : State) : s.PixelAnswer (execClaim k s) := by
  unfold execClaim
  split
  · exact .next (.refl s)
  · split
    · exact .next (.settle (s.finish_keepsPixels k _))
    · exact .next (.settle (s.decideClaim_keepsPixels k _ _))

theorem execRelease_pixelAnswer (k : StreamId) (s : State) : s.PixelAnswer (execRelease k s) := by
  unfold execRelease
  split
  · exact .next (.refl s)
  · split
    · exact .next (.settle (s.finish_keepsPixels k _))
    · split
      · exact .next (.settle ((s.finish_keepsPixels k _).trans (State.handOn_keepsPixels _ _ _)))
      · exact .next (.settle (s.finish_keepsPixels k _))

theorem execBands_pixelAnswer (k : StreamId) (s : State) : s.PixelAnswer (execBands k s) := by
  unfold execBands
  split
  · exact .next (.refl s)
  · split
    · exact .next (.settle (s.finish_keepsPixels k _))
    · split
      · exact .next (.settle (.after (State.finish_keepsPixels _ k _) rfl rfl rfl))
      · exact .next (.settle (s.finish_keepsPixels k _))

theorem execScroll_pixelAnswer (k : StreamId) (s : State) : s.PixelAnswer (execScroll k s) := by
  unfold execScroll
  split
  · exact .next (.refl s)
  · split
    · exact .next (.settle (s.finish_keepsPixels k _))
    · split
      · exact .next (.settle (.after (State.finish_keepsPixels _ k _) rfl rfl rfl))
      · exact .next (.settle (s.finish_keepsPixels k _))

theorem execOutput_pixelAnswer (k : StreamId) (s : State) : s.PixelAnswer (execOutput k s) := by
  unfold execOutput
  split
  · exact .next (.refl s)
  · split
    · exact .next (.settle (s.finish_keepsPixels k _))
    · split
      · exact .next (.settle (.after (State.finish_keepsPixels _ k _) rfl rfl rfl))
      · exact .next (.settle (s.finish_keepsPixels k _))

theorem execPalette_pixelAnswer (k : StreamId) (s : State) : s.PixelAnswer (execPalette k s) := by
  unfold execPalette
  split
  · exact .next (.refl s)
  · split
    · exact .next (.settle (s.finish_keepsPixels k _))
    · split
      · split
        · rename_i t ht; exact .next (.settle (s.dispatchPalette_keepsPixels t k ht))
        · exact .next (.settle (.of_same rfl rfl rfl))
      · exact .next (.settle (s.finish_keepsPixels k _))

theorem execPresent_pixelAnswer (k : StreamId) (s : State) : s.PixelAnswer (execPresent k s) := by
  unfold execPresent
  split
  · exact .next (.refl s)
  · split
    · exact .next (.settle (s.finish_keepsPixels k _))
    · split
      · split
        · rename_i t ht; exact .next (.settle (s.dispatchPresent_keepsPixels t k ht))
        · exact .next (.settle (.of_same rfl rfl rfl))
      · exact .next (.settle (s.finish_keepsPixels k _))

theorem execLink_pixelAnswer (k : StreamId) (s : State) : s.PixelAnswer (execLink k s) := by
  unfold execLink
  split
  · exact .next (.refl s)
  · split
    · exact .next (.settle (s.finish_keepsPixels k _))
    · split
      · exact .next (.settle (s.dispatchLink_keepsPixels k _ _ _))
      · exact .next (.settle (s.finish_keepsPixels k _))

theorem execLight_pixelAnswer (k : StreamId) (s : State) : s.PixelAnswer (execLight k s) := by
  unfold execLight
  split
  · exact .next (.refl s)
  · split
    · exact .next (.settle (s.finish_keepsPixels k _))
    · split
      · exact .next (.settle (s.dispatchLight_keepsPixels k _ _ _ _ _))
      · exact .next (.settle (s.finish_keepsPixels k _))

theorem execWait_pixelAnswer (k : StreamId) (s : State) : s.PixelAnswer (execWait k s) := by
  unfold execWait
  split
  · exact .next (.refl s)
  · split
    · exact .next (.settle (s.finish_keepsPixels k _))
    · split
      · exact .next (.settle (s.finish_keepsPixels k _))
      · exact .next (.settle (.of_same rfl rfl rfl))

theorem execNote_pixelAnswer (k : StreamId) (s : State) : s.PixelAnswer (execNote k s) := by
  unfold execNote
  split
  · exact .next (.refl s)
  · exact .next (.settle (s.finish_keepsPixels k _))

theorem execMillisecondMark_pixelAnswer (s : State) : s.PixelAnswer (execMillisecondMark s) := by
  unfold execMillisecondMark
  split
  · exact .next (.refl s)
  · exact .next ((s.takeAllDue_keepsPixels _).trans (.of_same rfl rfl rfl))

theorem State.getD_keepsPixels (s : State) (o : Option State) (h : ∀ t, o = some t → s.KeepsPixels t) :
    s.KeepsPixels (o.getD s) := by
  cases o with
  | none => exact .refl s
  | some t => exact h t rfl

/-! ## Every command -/

/-- Every command but power-on reset at most writes the presented pixel, and keeps every cursor inside its window. -/
theorem exec_pixelAnswer (i : Instr) (hi : i ≠ .powerOnReset) (s : State) : s.PixelAnswer (exec i s) := by
  cases i with
  | powerOnReset => exact absurd rfl hi
  | start => exact .next s.startCommand_keepsPixels
  | stop => exact .next s.stopCommand_keepsPixels
  | reset => exact ⟨_, rfl, s.afterReset_pixelStep⟩
  | resume k => exact .next (s.resumeCommand_keepsPixels k)
  | flush k => exact ⟨_, rfl, s.flushCommand_pixelStep k⟩
  | post value => exact .next (s.postWrite_keepsPixels value)
  | retire value => exact .next (s.retireWrite_keepsPixels value)
  | causeWrite value => exact .next (.of_same rfl rfl rfl)
  | causeEnableWrite value => exact .next (.of_same rfl rfl rfl)
  | setupAddressWrite half value => exact .next (s.addressWritten_keepsPixels half value)
  | registerWriteOther offset value => exact ⟨_, rfl, s.windowWrite_pixelStep offset value⟩
  | setupReadAnswer answer => exact ⟨_, rfl, s.setupAnswered_pixelStep answer⟩
  | slotReadAnswer answer => exact .next (s.slotAnswered_keepsPixels answer)
  | window k => exact .next (s.takeJob_keepsPixels k .window)
  | transfer k => exact .next (s.takeJob_keepsPixels k .transfer)
  | fill k => exact .next (s.takeJob_keepsPixels k .fill)
  | readback k => exact .next (s.takeJob_keepsPixels k .readback)
  | claim k => exact execClaim_pixelAnswer k s
  | release k => exact execRelease_pixelAnswer k s
  | bands k => exact execBands_pixelAnswer k s
  | scroll k => exact execScroll_pixelAnswer k s
  | output k => exact execOutput_pixelAnswer k s
  | palette k => exact execPalette_pixelAnswer k s
  | paletteReadAnswer h n answer => exact .next (s.paletteAnswered_keepsPixels h n answer)
  | present k => exact execPresent_pixelAnswer k s
  | link k => exact execLink_pixelAnswer k s
  | light k => exact execLight_pixelAnswer k s
  | wait k => exact execWait_pixelAnswer k s
  | note k => exact execNote_pixelAnswer k s
  | engineAccessServed => exact ⟨_, rfl, s.engineServed_pixelStep⟩
  | sourceReadAnswer n answer => exact .next (s.sourceAnswered_keepsPixels n answer)
  | readbackWordAnswer answer => exact .next (s.wordAnswered_keepsPixels answer)
  | completionWriteAnswer answer => exact ⟨_, rfl, s.completionAnswered_pixelStep answer⟩
  | lineStart h => exact .next (s.lineStarted_keepsPixels h)
  | millisecondMark => exact execMillisecondMark_pixelAnswer s
  | waiterExpiry h k => exact .next (s.getD_keepsPixels _ fun t e => s.expire_keepsPixels t h k e)
  | linkStepEnd h => exact .next (s.getD_keepsPixels _ fun t e => s.endStep_keepsPixels t h e)
  | scanReadServed h => exact .next (s.scanServed_keepsPixels h)

theorem exec_pixelStep (i : Instr) (hi : i ≠ .powerOnReset) (s t : State) (h : exec i s = .next t) : s.PixelStep t := by
  obtain ⟨u, hu, hs⟩ := exec_pixelAnswer i hi s
  rw [h] at hu
  cases hu
  exact hs

/-! ## The statements -/

/-- What a step of the part is: nothing, or a command run on the part with the queue's rest. -/
theorem step_cases (s t : State) (h : step s = .next t) :
    t = s ∨ ∃ (i : Instr) (rest : List Instr), exec i { s with pending := rest } = .next t := by
  unfold step at h
  split at h
  · cases h; exact .inl rfl
  · exact .inr ⟨_, _, h⟩

/-- Where the presented write is all that changes panel memory, its canonical form is kept. -/
theorem State.PixelStep.panel_wf {s t : State} (h : s.PixelStep t) (hs : s.panel.wf = true) : t.panel.wf = true := by
  rcases h.panel with e | ⟨p, pos, _, _, e⟩ <;> rw [e]
  · exact hs
  · exact Panel.write_wf _ _ _ hs

theorem Panel.write_outside (m : Panel) (a : Nat) (p : Pixel) (ha : ¬ a < panelCells) : m.write a p = m := by
  unfold Panel.write
  rw [if_neg ha]

theorem Panel.read_write_eq (m : Panel) (a b : Nat) (p : Pixel) :
    (m.write a p).read b = if b = a ∧ b < panelCells then p else m.read b := by
  by_cases ha : a < panelCells
  · rw [m.read_write a b p ha]
    by_cases hb : b = a <;> simp [hb, ha]
  · rw [m.write_outside a p ha, if_neg]
    rintro ⟨rfl, hb⟩
    exact ha hb

/-- Settles O7: every command but power-on reset makes at most the presented write. -/
theorem panelMemoryIsTheEngines : Obligations.PanelMemoryIsTheEngines := by
  refine ⟨fun s t hs h => ?_, fun i s t hi h => ?_⟩
  · rcases step_cases s t h with rfl | ⟨i, rest, hexec⟩
    · exact hs
    · by_cases hi : i = .powerOnReset
      · subst hi
        cases hexec
        exact Panel.empty_wf _
      · exact (exec_pixelStep i hi _ t hexec).panel_wf hs
  · rcases (exec_pixelStep i hi s t h).panel with e | ⟨p, pos, hp, hpos, e⟩
    · exact .inl fun a => by rw [e]
    · exact .inr ⟨p, pos, hp, hpos, fun a => by rw [e, Panel.read_write_eq]⟩

/-- Settles O9: a power-on reset leaves no window, and every other command keeps the cursors inside. -/
theorem cursorsStayInside : Obligations.CursorsStayInside := by
  intro s t hs h
  rcases step_cases s t h with rfl | ⟨i, rest, hexec⟩
  · exact hs
  · by_cases hi : i = .powerOnReset
    · subst hi
      cases hexec
      exact State.reset_cursorsInside.of_same rfl (List.Subset.refl _)
    · exact (exec_pixelStep i hi _ t hexec).cursors (hs.of_same rfl (List.Subset.refl _))

end Sys2Proof.Machine
end

