-- ==== Sys2Proof/Proofs/EngineChoice.lean ====
section
/-! SUPPORT. A gate's one evaluation, the job that the engine chooses, and the start of a job. -/

namespace Sys2Proof.Machine

set_option Elab.async false

/-! ## Gates (R33) -/

theorem Scan.reached_iff (sc : Scan) (f : Word) (line : Nat) :
    sc.reached (f, line) = true ↔ f.toNat < sc.frame.toNat ∨ (f = sc.frame ∧ line ≤ sc.line) := by
  simp only [Scan.reached, Bool.or_eq_true, Bool.and_eq_true, decide_eq_true_eq]

/-- A gate with a target is not evaluated again. -/
theorem Job.evaluateGate_of_target (j : Job) (g : Gate) (heads : Two Head) (hg : j.gate = some g) (ht : j.target ≠ none) :
    j.evaluateGate heads = j := by
  simp only [Job.evaluateGate, hg]
  rw [if_neg fun h => ht h.2.1]

/-- On a head that does not scan the gate opens with the bypassed mark. -/
theorem Job.evaluateGate_bypassed (j : Job) (g : Gate) (heads : Two Head) (hg : j.gate = some g)
    (hc : j.gateState = .closed) (hq : j.state = .queued) (ht : j.target = none)
    (hs : (heads.get g.head).scanning = false) :
    j.evaluateGate heads = { j with gateState := .opened, bypassed := true } := by
  simp only [Job.evaluateGate, hg]
  rw [if_pos ⟨hc, ht, hq⟩, if_neg (by rw [hs]; exact Bool.false_ne_true)]

/-- On a scanning head the target is fixed, and the gate opens where it is reached. -/
theorem Job.evaluateGate_scanning (j : Job) (g : Gate) (heads : Two Head) (hg : j.gate = some g)
    (hc : j.gateState = .closed) (hq : j.state = .queued) (ht : j.target = none)
    (hs : (heads.get g.head).scanning = true) :
    j.evaluateGate heads
      = { j with
          target := some (g.targetOn (heads.get g.head).scan)
          gateState :=
            if (heads.get g.head).scan.reached (g.targetOn (heads.get g.head).scan) then .opened else .closed } := by
  simp only [Job.evaluateGate, hg]
  rw [if_pos ⟨hc, ht, hq⟩, if_pos hs]

/-! ## The engine's choice (R23) -/

theorem Job.gateOpen_iff (j : Job) : j.gateOpen = true ↔ j.gateState ≠ .closed := by
  unfold Job.gateOpen
  split <;> rename_i h <;> simp [h]

/-- A QUEUED job without a CLOSED gate, none of whose stream's jobs is among those of the streams seen. -/
def Job.mayRun (j : Job) (seen : List StreamId) : Prop :=
  j.state = .queued ∧ j.gateState ≠ .closed ∧ j.ref.stream ∉ seen

theorem Job.mayRun_iff (j : Job) (seen : List StreamId) :
    (j.isQueued && j.gateOpen && !seen.contains j.ref.stream) = true ↔ j.mayRun seen := by
  simp only [Job.mayRun, Job.isQueued, Bool.and_eq_true, decide_eq_true_eq, j.gateOpen_iff, Bool.not_eq_true',
    List.contains_eq_mem, decide_eq_false_iff_not, and_assoc]

theorem runOldestEligible_cons_pos (seen : List StreamId) (j : Job) (rest : List Job) (h : j.mayRun seen) :
    runOldestEligible seen (j :: rest) = some ({ j with state := .running } :: rest) := by
  rw [runOldestEligible, if_pos ((j.mayRun_iff seen).mpr h)]

theorem runOldestEligible_cons_neg (seen : List StreamId) (j : Job) (rest : List Job) (h : ¬ j.mayRun seen) :
    runOldestEligible seen (j :: rest)
      = (runOldestEligible (j.ref.stream :: seen) rest).map (fun r => j :: r) := by
  rw [runOldestEligible, if_neg fun hc => h ((j.mayRun_iff seen).mp hc)]

/-- The streams of the jobs before a job, those seen earlier after them. -/
def seenAfter (before : List Job) (seen : List StreamId) : List StreamId :=
  before.foldl (fun acc j => j.ref.stream :: acc) seen

theorem mem_seenAfter (before : List Job) (seen : List StreamId) (k : StreamId) :
    k ∈ seenAfter before seen ↔ k ∈ seen ∨ ∃ i ∈ before, i.ref.stream = k := by
  induction before generalizing seen with
  | nil => simp [seenAfter]
  | cons j rest ih =>
    have := ih (j.ref.stream :: seen)
    simp only [seenAfter, List.foldl_cons, List.mem_cons, exists_eq_or_imp] at this ⊢
    rw [this, eq_comm (a := k)]
    tauto

/-- With no stream seen before, a job may run where no older job of its stream is in the list. -/
theorem Job.mayRun_seenAfter (j : Job) (before : List Job) :
    j.mayRun (seenAfter before [])
      ↔ j.state = .queued ∧ j.gateState ≠ .closed ∧ ∀ i ∈ before, i.ref.stream ≠ j.ref.stream := by
  simp [Job.mayRun, mem_seenAfter]

/-- The first job that may run is made RUNNING. -/
theorem runOldestEligible_append (seen : List StreamId) (before after : List Job) (j : Job)
    (hj : j.mayRun (seenAfter before seen))
    (hb : ∀ (b a : List Job) (i : Job), before = b ++ i :: a → ¬ i.mayRun (seenAfter b seen)) :
    runOldestEligible seen (before ++ j :: after) = some (before ++ { j with state := .running } :: after) := by
  induction before generalizing seen with
  | nil => exact runOldestEligible_cons_pos seen j after hj
  | cons i rest ih =>
    rw [List.cons_append, runOldestEligible_cons_neg seen i _ (hb [] rest i rfl),
      ih (i.ref.stream :: seen) hj fun b a q e => hb (i :: b) a q (by rw [e]; rfl)]
    rfl

/-- Where no job is made RUNNING, none may run. -/
theorem runOldestEligible_none (seen : List StreamId) (jobs before after : List Job) (j : Job)
    (h : runOldestEligible seen jobs = none) (hsplit : jobs = before ++ j :: after) :
    ¬ j.mayRun (seenAfter before seen) := by
  induction before generalizing seen jobs with
  | nil =>
    subst hsplit
    intro hj
    rw [List.nil_append, runOldestEligible_cons_pos seen j after hj] at h
    cases h
  | cons i rest ih =>
    subst hsplit
    by_cases hi : i.mayRun seen
    · rw [List.cons_append, runOldestEligible_cons_pos seen i _ hi] at h
      cases h
    · rw [List.cons_append, runOldestEligible_cons_neg seen i _ hi, Option.map_eq_none_iff] at h
      exact ih (i.ref.stream :: seen) _ h rfl

theorem State.engineChoose_none (s : State)
    (h : s.regs.device ≠ .running ∨ s.jobs.any Job.holdsEngine = true ∨ runOldestEligible [] s.jobs = none) :
    s.engineChoose = none := by
  by_cases hc : (s.running && !s.jobs.any Job.holdsEngine) = true
  · obtain ⟨hr, hn⟩ := Bool.and_eq_true_iff.mp hc
    rcases h with hd | hb | hj
    · exact absurd (of_decide_eq_true hr) hd
    · simp [hb] at hn
    · simp only [State.engineChoose, if_pos hc, hj]
  · simp only [State.engineChoose, if_neg hc]

theorem State.engineChoose_eq (s : State) (jobs : List Job) (hd : s.regs.device = .running)
    (hn : s.jobs.any Job.holdsEngine = false) (hj : runOldestEligible [] s.jobs = some jobs) :
    s.engineChoose = some ({ s with jobs := jobs, engine := .free } : State).startJob := by
  have hc : (s.running && !s.jobs.any Job.holdsEngine) = true := by simp [State.running, hd, hn]
  simp only [State.engineChoose, if_pos hc, hj]

/-! ## The start of a job (R8, R13) -/

@[simp] theorem State.runningJob_setContext (s : State) (k : StreamId) (c : ContextId) (x : Context) :
    (s.setContext k c x).runningJob = s.runningJob := rfl

theorem doneOutcome_exact (bypassed : Bool) (written : Nat) :
    doneOutcome bypassed written 0
      = { status := .done, valueA := BitVec.ofNat 32 written, flags := { gateBypassed := bypassed } } := rfl

theorem doneOutcome_overrun (bypassed : Bool) (written n : Nat) (h : 0 < n) :
    doneOutcome bypassed written n
      = { status := .done, valueA := BitVec.ofNat 32 written, valueB := BitVec.ofNat 32 n
          flags := { overrun := true, gateBypassed := bypassed } } := by
  simp [doneOutcome, h]

theorem State.startJob_window (s : State) (j : Job) (c : ContextId) (w : Window) (hj : s.runningJob = some j)
    (hw : j.work = .window c w) :
    s.startJob = (s.setContext j.ref.stream c (.set w (some w.corner))).endJob (doneOutcome false 0 0) := by
  simp only [State.startJob, hj, hw]

/-- Another job than a WINDOW job ends NO_WINDOW on an UNSET context. -/
theorem State.startJob_unset (s : State) (j : Job) (hj : s.runningJob = some j)
    (hw : ∀ (c : ContextId) (w : Window), j.work ≠ .window c w)
    (hc : s.context j.ref.stream j.work.context = .unset) : s.startJob = s.failJob .noWindow 0 := by
  cases hwork : j.work with
  | window c w => exact absurd hwork (hw c w)
  | transfer => rw [hwork] at hc; simp only [State.startJob, hj, hwork, hc]
  | fill => rw [hwork] at hc; simp only [State.startJob, hj, hwork, hc]
  | readback => rw [hwork] at hc; simp only [State.startJob, hj, hwork, hc]

/-- On a SET context it places the cursor by its mode and takes up its first pixel. -/
theorem State.startJob_set (s : State) (j : Job) (w : Window) (p : Option Position) (hj : s.runningJob = some j)
    (hw : ∀ (c : ContextId) (w : Window), j.work ≠ .window c w)
    (hc : s.context j.ref.stream j.work.context = .set w p) :
    s.startJob
      = (s.setContext j.ref.stream j.work.context ((Context.set w p).placed j.work.mode)).nextPixel := by
  cases hwork : j.work with
  | window c w => exact absurd hwork (hw c w)
  | transfer => rw [hwork] at hc; simp only [State.startJob, hj, hwork, hc]
  | fill => rw [hwork] at hc; simp only [State.startJob, hj, hwork, hc]
  | readback => rw [hwork] at hc; simp only [State.startJob, hj, hwork, hc]

theorem Context.placed_set (w : Window) (p : Option Position) (m : Mode) :
    (Context.set w p).placed m = .set w (if m = .fresh then some w.corner else p) := by
  cases m <;> rfl

/-- Settles O47: gates, the oldest job that may run, and the start by the kind of work and the context. -/
theorem gatesAndTheEnginesChoice : Obligations.GatesAndTheEnginesChoice := by
  refine ⟨fun j g heads hg hc hq => ⟨j.evaluateGate_of_target g heads hg, fun ht =>
      ⟨j.evaluateGate_bypassed g heads hg hc hq ht, fun hs => ?_⟩⟩,
    fun jobs => ⟨fun before after j hsplit hq ho hs hb => ?_, fun hnone before after j hsplit hj => ?_⟩,
    fun s => ⟨s.engineChoose_none, s.engineChoose_eq⟩, fun s j hj hp hwr => ⟨fun c w hw => ?_, fun hw =>
      ⟨s.startJob_unset j hj hw, fun w p hc => ?_⟩⟩⟩
  · refine ⟨_, rfl, ?_⟩
    rw [j.evaluateGate_scanning g heads hg hc hq ht hs]
    simp only [Gate.targetOn, Scan.reached_iff]
  · subst hsplit
    exact runOldestEligible_append [] before after j ((j.mayRun_seenAfter before).mpr ⟨hq, ho, hs⟩)
      fun b a i e hi => hb b a i e ((i.mayRun_seenAfter b).mp hi)
  · exact runOldestEligible_none [] jobs before after j hnone hsplit ((j.mayRun_seenAfter before).mpr hj)
  · exact s.startJob_window j c w hj hw
  · set q := if j.work.mode = .fresh then some w.corner else p with hq
    set u := s.setContext j.ref.stream j.work.context (.set w q) with hu
    have hstart : s.startJob = u.nextPixel := by
      rw [s.startJob_set j w p hj hw hc, Context.placed_set]
    have huj : u.runningJob = some j := hj
    have hcur : u.cursor = q := u.cursor_of_set j w q huj (State.context_setContext_same _ _ _ _)
    have hpu : u.engine.processed = 0 := hp
    have hwu : u.engine.written = 0 := hwr
    refine ⟨q, u, rfl, rfl, fun hne hn => ?_, fun hnone hcount => ?_, fun n hnone hcount hn => ?_⟩
    · rw [hstart, u.nextPixel_begins j huj (fun n h => by rw [hpu]; exact hn n h) (by rw [hcur]; exact hne)]
    · rw [hstart, u.nextPixel_windowEnd j huj hcount (by rw [hcur]; exact hnone), hwu]
      rfl
    · rw [hstart, u.nextPixel_overrun j n huj hcount (by rw [hpu]; exact hn) (by rw [hcur]; exact hnone), hpu, hwu,
        doneOutcome_overrun _ _ _ (by omega)]
      rfl

end Sys2Proof.Machine
end

