-- ==== Sys2Proof/Proofs/Pixels.lean ====
section
/-! SUPPORT. One pixel of a job: the write served, the pixel processed and what follows it, the word of a READBACK; and the
pixels of a screen line. -/

namespace Sys2Proof.Machine

set_option Elab.async false

/-! ## One pixel processed (R14, R15, R37) -/

theorem State.writeAtCursor_of_cursor (s : State) (p : Pixel) (pos : Position) (h : s.cursor = some pos) :
    s.writeAtCursor p = { s with panel := s.panel.write pos.cell p } := by
  simp only [State.writeAtCursor, h]

/-- The pixel at the cursor processed: the cursor steps and the counts rise. -/
theorem State.pixelDone_of_set (s : State) (j : Job) (w : Window) (pos : Position) (wrote : Bool)
    (hj : s.runningJob = some j) (hc : s.context j.ref.stream j.work.context = .set w (some pos)) :
    s.pixelDone wrote
      = { s.setContext j.ref.stream j.work.context (.set w (w.stepFrom pos)) with
          engine := { s.engine with
            processed := s.engine.processed + 1
            written := if wrote then s.engine.written + 1 else s.engine.written
            phase := .idle } } := by
  simp only [State.pixelDone, hj, hc, Context.stepped, Option.bind_some]

/-- What follows a processed pixel of a job with a count: the job ends at its count, or at an ENDED cursor with what is left
as overrun, or its next pixel is taken up. -/
theorem State.nextPixel_counted (u : State) (j : Job) (n : Nat) (hj : u.runningJob = some j)
    (hn : j.work.count? = some n) :
    (n ≤ u.engine.processed →
      u.nextPixel = u.endJob
        { status := .done, valueA := BitVec.ofNat 32 u.engine.written, flags := { gateBypassed := j.bypassed } })
    ∧ (u.engine.processed < n → u.cursor = none →
      u.nextPixel = u.endJob
        { status := .done, valueA := BitVec.ofNat 32 u.engine.written
          valueB := BitVec.ofNat 32 (n - u.engine.processed)
          flags := { overrun := true, gateBypassed := j.bypassed } })
    ∧ (u.engine.processed < n → u.cursor ≠ none →
      u.nextPixel = { u with engine := { u.engine with phase := j.work.nextPhase } }) := by
  refine ⟨fun h => ?_, fun h hc => ?_, fun h hc => ?_⟩
  · rw [u.nextPixel_atCount j n hj hn h, doneOutcome_exact]
  · rw [u.nextPixel_overrun j n hj hn h hc, doneOutcome_overrun _ _ _ (by omega)]
  · exact u.nextPixel_begins j hj (fun m hm => by rw [hn] at hm; cases hm; exact h) hc

/-- What follows a processed pixel of a job without a count. -/
theorem State.nextPixel_uncounted (u : State) (j : Job) (hj : u.runningJob = some j) (hn : j.work.count? = none) :
    (u.cursor = none →
      u.nextPixel = u.endJob
        { status := .done, valueA := BitVec.ofNat 32 u.engine.written, flags := { gateBypassed := j.bypassed } })
    ∧ (u.cursor ≠ none → u.nextPixel = { u with engine := { u.engine with phase := j.work.nextPhase } }) := by
  refine ⟨fun hc => ?_, fun hc => ?_⟩
  · rw [u.nextPixel_windowEnd j hj hn hc, doneOutcome_exact]
  · exact u.nextPixel_begins j hj (fun m hm => by rw [hn] at hm; cases hm) hc

theorem State.engineServed_write (s : State) (p : Pixel) (ha : s.active = true) (hp : s.engine.phase = .write p) :
    s.engineServed = ((s.writeAtCursor p).pixelDone true).nextPixel.settle := by
  simp only [State.engineServed, if_pos ha, hp]

/-- Settles O48: the served write processes its pixel, and the count and the cursor decide what follows. -/
theorem servedWritesProcessPixels : Obligations.ServedWritesProcessPixels := by
  intro s p j w pos ha hp hj hc
  have hcur : s.cursor = some pos := s.cursor_of_set j w _ hj hc
  have hdone := (s.writeAtCursor p).pixelDone_of_set j w pos true
    (by rw [s.writeAtCursor_of_cursor p pos hcur]; exact hj) (by rw [s.writeAtCursor_of_cursor p pos hcur]; exact hc)
  rw [s.writeAtCursor_of_cursor p pos hcur] at hdone
  refine ⟨_, rfl, ?_⟩
  set u : State :=
    { s.setContext j.ref.stream j.work.context (.set w (w.stepFrom pos)) with
      panel := s.panel.write pos.cell p
      engine := { s.engine with
        processed := s.engine.processed + 1, written := s.engine.written + 1, phase := .idle } } with hu
  have hexec : exec .engineAccessServed s = .next u.nextPixel.settle :=
    congrArg Host.Outcome.next (by
      rw [s.engineServed_write p ha hp, s.writeAtCursor_of_cursor p pos hcur, hdone]
      rfl)
  have huj : u.runningJob = some j := hj
  have hucur : u.cursor = w.stepFrom pos := u.cursor_of_set j w _ huj (State.context_setContext_same s _ _ _)
  rw [hexec]
  refine ⟨fun n hn => ?_, fun hn => ?_⟩
  · obtain ⟨hend, hover, hnext⟩ := u.nextPixel_counted j n huj hn
    rw [hucur] at hover hnext
    exact ⟨fun h => by rw [hend h], fun h hw => by rw [hover h hw], fun h hw => by rw [hnext h hw]⟩
  · obtain ⟨hend, hnext⟩ := u.nextPixel_uncounted j huj hn
    rw [hucur] at hend hnext
    exact ⟨fun hw => by rw [hend hw], fun hw => by rw [hnext hw]⟩

/-! ## Bytes -/

theorem fieldAt_cons (b : Byte) (bytes : List Byte) (offset n : Nat) :
    fieldAt (b :: bytes) (offset + 1) n = fieldAt bytes offset n := by
  induction n generalizing offset with
  | zero => rfl
  | succ n ih =>
    simp only [fieldAt, ih]
    rfl

/-- The bytes of a number hold the number. -/
theorem fieldAt_bytesOf (n value : Nat) : fieldAt (bytesOf value n) 0 n = value % 256 ^ n := by
  induction n generalizing value with
  | zero => simp [fieldAt, Nat.mod_one]
  | succ n ih =>
    have hbyte : (byteAt (BitVec.ofNat 8 value :: bytesOf (value / 256) n) 0).toNat = value % 256 := by
      simp [byteAt]
    rw [bytesOf, fieldAt, hbyte, fieldAt_cons, ih, Nat.pow_succ', Nat.mod_mul]

/-! ## READBACK words (R32) -/

theorem readbackWord_toNat (p : Pixel) : (readbackWord p).toNat = p.toNat := by
  have := p.isLt
  simp only [readbackWord, BitVec.truncate_eq_setWidth, BitVec.toNat_setWidth]
  omega

theorem readbackWord_high (p : Pixel) : (readbackWord p).extractLsb' 24 8 = 0 := by
  apply BitVec.eq_of_toNat_eq
  have := p.isLt
  simp only [BitVec.extractLsb'_toNat, readbackWord_toNat, Nat.shiftRight_eq_div_pow, BitVec.ofNat_eq_ofNat,
    BitVec.toNat_ofNat]
  omega

theorem readbackWord_low (p : Pixel) : (readbackWord p).extractLsb' 0 24 = p := by
  apply BitVec.eq_of_toNat_eq
  have := p.isLt
  simp only [BitVec.extractLsb'_toNat, readbackWord_toNat, Nat.shiftRight_eq_div_pow]
  omega

theorem fieldAt_readbackBytes (p : Pixel) : fieldAt (readbackBytes p) 0 4 = (readbackWord p).toNat := by
  rw [readbackBytes, fieldAt_bytesOf]
  exact Nat.mod_eq_of_lt (readbackWord p).isLt

/-- The four bytes of a READBACK word: blue, green, red, zero. -/
theorem readbackBytes_eq (p : Pixel) :
    readbackBytes p = [p.extractLsb' 0 8, p.extractLsb' 8 8, p.extractLsb' 16 8, 0] := by
  have := p.isLt
  simp only [readbackBytes, bytesOf, readbackWord_toNat, List.cons.injEq, and_true]
  refine ⟨?_, ?_, ?_, ?_⟩ <;> apply BitVec.eq_of_toNat_eq <;>
    simp only [BitVec.extractLsb'_toNat, BitVec.toNat_ofNat, BitVec.ofNat_eq_ofNat, Nat.shiftRight_eq_div_pow] <;> omega

/-- An X8R8G8B8 source pixel is the low 24 bits of its word (R27, R28). -/
theorem widenPixel_x8r8g8b8 (p : Pixel) (word : Word) (h : word.toNat = p.toNat) :
    widenPixel .x8r8g8b8 word = p := by
  apply BitVec.eq_of_toNat_eq
  have := p.isLt
  simp only [widenPixel, pixelOf, bitsOf, h, BitVec.toNat_ofNat]
  omega

theorem State.engineServed_read (s : State) (write : HostWrite) (ha : s.active = true) (hp : s.engine.phase = .read)
    (hw : s.readbackWrite = some write) :
    s.engineServed = { s with engine := { s.engine with phase := .word write } } := by
  simp only [State.engineServed, if_pos ha, hp, hw]

theorem State.readbackWrite_of_set (s : State) (j : Job) (c : ContextId) (m : Mode) (destination : Address)
    (count : Nat) (pos : Position) (hj : s.runningJob = some j) (hw : j.work = .readback c m destination count)
    (hcur : s.cursor = some pos) :
    s.readbackWrite
      = some { address := destinationAddress destination (s.engine.processed + 1)
               bytes := readbackBytes (s.panel.read pos.cell) } := by
  simp only [State.readbackWrite, hj, hw, State.readAtCursor, hcur]

theorem State.wordAnswered_accepted (s : State) (write : HostWrite) (ha : s.active = true)
    (hp : s.engine.phase = .word write) : s.wordAnswered .accepted = (s.pixelDone true).nextPixel.settle := by
  simp only [State.wordAnswered, if_pos ha, hp]

/-- Settles O50: the served read, the bytes of the word, and the accepted word by the count and the cursor. -/
theorem readbackWordsAreWritten : Obligations.ReadbackWordsAreWritten := by
  intro s j c m destination count w pos ha hj hw hc
  have hctx : s.context j.ref.stream j.work.context = .set w (some pos) := by rw [hw]; exact hc
  have hcur : s.cursor = some pos := s.cursor_of_set j w _ hj hctx
  refine ⟨fun hp => ?_, fun p => ⟨readbackWord_high p, readbackWord_low p, fieldAt_readbackBytes p, ?_⟩,
    fun write hp => ?_⟩
  · have hwrite := s.readbackWrite_of_set j c m destination count pos hj hw hcur
    rw [readbackBytes_eq] at hwrite
    exact congrArg Host.Outcome.next (s.engineServed_read _ ha hp hwrite)
  · refine widenPixel_x8r8g8b8 p _ ?_
    rw [fieldAt_readbackBytes, BitVec.toNat_ofNat, Nat.mod_eq_of_lt (readbackWord p).isLt, readbackWord_toNat]
  · refine ⟨_, rfl, ?_⟩
    set u : State :=
      { s.setContext j.ref.stream c (.set w (w.stepFrom pos)) with
        engine := { s.engine with
          processed := s.engine.processed + 1, written := s.engine.written + 1, phase := .idle } } with hu
    have hcontext : j.work.context = c := by rw [hw]; rfl
    have hexec : exec (.readbackWordAnswer .accepted) s = .next u.nextPixel.settle :=
      congrArg Host.Outcome.next (by
        rw [s.wordAnswered_accepted write ha hp, s.pixelDone_of_set j w pos true hj hctx, hcontext]
        rfl)
    have huj : u.runningJob = some j := hj
    have hucur : u.cursor = w.stepFrom pos := by
      refine u.cursor_of_set j w _ huj ?_
      rw [hcontext]
      exact State.context_setContext_same s _ _ _
    obtain ⟨hend, hover, hnext⟩ := u.nextPixel_counted j count huj (by rw [hw]; rfl)
    rw [hucur] at hover hnext
    rw [hexec]
    refine ⟨fun h => by rw [hend h], fun h hs => by rw [hover h hs], fun h hs => ?_⟩
    rw [hnext h hs, hw]
    rfl

/-! ## Screen lines (R94 to R100) -/

theorem bandAt_none_iff (bands : List Band) (y : Nat) :
    bandAt bands y = none ↔ ∀ b ∈ bands, b.covers y = false := by
  simp [bandAt, List.find?_eq_none]

theorem bandAt_isSome_of_covers (bands : List Band) (y : Nat) (h : ∃ b ∈ bands, b.covers y = true) :
    (bandAt bands y).isNone = false := by
  obtain ⟨b, hb, hy⟩ := h
  rw [Option.isNone_eq_false_iff, Option.isSome_iff_ne_none]
  intro hn
  have := (bandAt_none_iff bands y).mp hn b hb
  rw [hy] at this
  cases this

/-- An active line that no band covers sends the background on every column. -/
theorem Scan.lineOpening_uncovered (sc : Scan) (t : Timing) (ht : sc.timing = some t) (hl : sc.line < t.vAct)
    (hb : bandAt sc.active.bands sc.line = none) :
    sc.lineOpening
      = List.replicate t.hAct (reduceOutput sc.active.mode (directComponents sc.active.background)) := by
  simp only [Scan.lineOpening, ht]
  rw [if_pos ⟨hl, by rw [hb]; rfl⟩]

/-- A blanking line and a covered line have sent nothing at their start. -/
theorem Scan.lineOpening_empty (sc : Scan) (t : Timing) (ht : sc.timing = some t)
    (h : t.vAct ≤ sc.line ∨ (bandAt sc.active.bands sc.line).isNone = false) : sc.lineOpening = [] := by
  simp only [Scan.lineOpening, ht]
  rw [if_neg]
  rintro ⟨hl, hb⟩
  rcases h with h | h
  · omega
  · rw [hb] at h; cases h

/-- The pixel a column shows, by its cell in panel memory. -/
theorem Scan.valueAt_eq (sc : Scan) (b : Band) (m : Panel) (x : Nat) :
    sc.valueAt b m x
      = outputOf b.use sc.active.mode sc.palette
          (m.read
            (2048 * (b.memBase + (sc.line - b.screenFirst + b.scroll) % b.memExtent) + (b.colBase + x) % 2048)) := rfl

theorem Scan.wholeLine_covered (sc : Scan) (t : Timing) (m : Panel) (b : Band) (ht : sc.timing = some t)
    (hl : sc.line < t.vAct) (hb : bandAt sc.active.bands sc.line = some b) :
    sc.wholeLine m
      = sc.sent ++ (List.range' sc.sent.length (t.hAct - sc.sent.length)).map (fun x => sc.valueAt b m x) := by
  simp only [Scan.wholeLine, ht, if_pos hl, hb]

theorem Scan.wholeLine_uncovered (sc : Scan) (t : Timing) (m : Panel) (ht : sc.timing = some t)
    (h : t.vAct ≤ sc.line ∨ bandAt sc.active.bands sc.line = none) : sc.wholeLine m = sc.sent := by
  by_cases hl : sc.line < t.vAct
  · have hb := h.resolve_left (Nat.not_le.mpr hl)
    simp only [Scan.wholeLine, ht, if_pos hl, hb]
  · simp only [Scan.wholeLine, ht, if_neg hl]

theorem Scan.nextRead_eq (sc : Scan) (t : Timing) (ht : sc.timing = some t) (hl : sc.line < t.vAct)
    (hs : sc.sent.length < t.hAct) : sc.nextRead = bandAt sc.active.bands sc.line := by
  simp only [Scan.nextRead, ht, if_pos (And.intro hl hs)]

/-- Settles O54: the start of a line, one served read, and the line as a whole. -/
theorem linesAreSentColumnByColumn : Obligations.LinesAreSentColumnByColumn := by
  refine ⟨fun sc t line ht => ⟨rfl, rfl, rfl, rfl, rfl, rfl, fun hl hb => ?_, fun h => ?_⟩,
    fun h s t b hscan ht hl hs hb => ?_, fun sc t m ht => ⟨fun b hl hb => ?_, fun h => ?_⟩⟩
  · exact Scan.lineOpening_uncovered { sc with line := line } t ht hl ((bandAt_none_iff _ _).mpr hb)
  · exact Scan.lineOpening_empty { sc with line := line } t ht (h.imp_right (bandAt_isSome_of_covers _ _))
  · have hread : (s.head h).scan.nextRead = some b := ((s.head h).scan.nextRead_eq t ht hl hs).trans hb
    have hserved : s.scanServed h
        = s.setHead h
            { s.head h with
              scan := { (s.head h).scan with
                sent := (s.head h).scan.sent
                  ++ [(s.head h).scan.valueAt b s.panel (s.head h).scan.sent.length] } } := by
      simp only [State.scanServed, if_pos hscan, hread]
    exact congrArg Host.Outcome.next hserved
  · exact ⟨sc.wholeLine_covered t m b ht hl hb, sc.wholeLine_length m t b ht hl hb⟩
  · exact sc.wholeLine_uncovered t m ht (h.imp_right (bandAt_none_iff _ _).mpr)

end Sys2Proof.Machine
end

