-- ==== Sys2Proof/Proofs/WorkLeft.lean ====
section
/-! SUPPORT. The work left falls with every reaction: each act that starts one uses up some of it, and what accompanies the
act adds none. So any number of reactions that is large enough settles the part. -/

namespace Sys2Proof.Machine

set_option Elab.async false

/-! ## The parts of the measure -/

/-- What the jobs of a list may still lead to. -/
def jobsWork (jobs : List Job) : Nat := (jobs.map Job.work?).sum

/-- What the entries of a queue may still lead to. -/
def entriesWork (es : List Entry) : Nat := (es.map Entry.work?).sum

@[simp] theorem jobsWork_append (a b : List Job) : jobsWork (a ++ b) = jobsWork a + jobsWork b := by
  simp [jobsWork]

@[simp] theorem jobsWork_cons (j : Job) (rest : List Job) : jobsWork (j :: rest) = j.work? + jobsWork rest := by
  simp [jobsWork]

@[simp] theorem jobsWork_nil : jobsWork [] = 0 := rfl

@[simp] theorem entriesWork_append (a b : List Entry) : entriesWork (a ++ b) = entriesWork a + entriesWork b := by
  simp [entriesWork]

@[simp] theorem entriesWork_cons (e : Entry) (rest : List Entry) :
    entriesWork (e :: rest) = e.work? + entriesWork rest := by
  simp [entriesWork]

@[simp] theorem entriesWork_nil : entriesWork [] = 0 := rfl

theorem State.workLeft_eq (s : State) :
    s.workLeft
      = (if s.regs.device = .stopping then 1 else 0) + jobsWork s.jobs + s.engine.ahead.length
        + (s.stream 0).work? + (s.stream 1).work? + (s.stream 2).work? + (s.stream 3).work?
        + (s.head 0).work? + (s.head 1).work?
        + (if s.writer.write.isNone then 1 else 0) + (if s.fetch.read.isNone then 1 else 0) := rfl

theorem Head.work_eq (hd : Head) :
    hd.work? = entriesWork hd.present.entries + hd.present.outbox.length + hd.link.held.length := rfl

theorem Head.work_congr {a b : Head} (he : b.present.entries = a.present.entries)
    (ho : b.present.outbox = a.present.outbox) (hl : b.link.held = a.link.held) : b.work? = a.work? := by
  rw [Head.work_eq, Head.work_eq, he, ho, hl]

/-- The measure is monotone in its parts. -/
theorem State.workLeft_le {s t : State} (hd : t.regs.device = s.regs.device) (hj : jobsWork t.jobs ≤ jobsWork s.jobs)
    (ha : t.engine.ahead.length ≤ s.engine.ahead.length) (hs : ∀ k : StreamId, (t.stream k).work? ≤ (s.stream k).work?)
    (hh : ∀ h : HeadId, (t.head h).work? ≤ (s.head h).work?) (hw : t.writer.write = s.writer.write)
    (hf : t.fetch.read.isNone = s.fetch.read.isNone) : t.workLeft ≤ s.workLeft := by
  rw [State.workLeft_eq, State.workLeft_eq, hd, hw, hf]
  have := hs 0; have := hs 1; have := hs 2; have := hs 3; have := hh 0; have := hh 1
  omega

/-- The part of the measure that is neither a stream's nor a head's. -/
def State.ownWork (s : State) : Nat :=
  (if s.regs.device = .stopping then 1 else 0) + jobsWork s.jobs + s.engine.ahead.length
    + (if s.writer.write.isNone then 1 else 0) + (if s.fetch.read.isNone then 1 else 0)

theorem State.workLeft_eq_ownWork (s : State) :
    s.workLeft
      = s.ownWork + (s.stream 0).work? + (s.stream 1).work? + (s.stream 2).work? + (s.stream 3).work?
        + (s.head 0).work? + (s.head 1).work? := by
  rw [State.workLeft_eq, State.ownWork]
  omega

theorem State.workLeft_setStream (s : State) (k : StreamId) (x : Stream) :
    (s.setStream k x).workLeft + (s.stream k).work? = s.workLeft + x.work? := by
  have hown : (s.setStream k x).ownWork = s.ownWork := rfl
  simp only [State.workLeft_eq_ownWork, hown, State.stream_setStream, State.head_setStream]
  fin_cases k <;> simp <;> omega

theorem State.workLeft_setHead (s : State) (h : HeadId) (x : Head) :
    (s.setHead h x).workLeft + (s.head h).work? = s.workLeft + x.work? := by
  have hown : (s.setHead h x).ownWork = s.ownWork := rfl
  simp only [State.workLeft_eq_ownWork, hown, State.head_setHead, State.stream_setHead]
  fin_cases h <;> simp <;> omega

/-- A stream replaced moves the measure by what the stream's own part moves. -/
theorem State.workLeft_setStream_le (s : State) (k : StreamId) (x : Stream) (a b : Nat)
    (h : x.work? + a ≤ (s.stream k).work? + b) : (s.setStream k x).workLeft + a ≤ s.workLeft + b := by
  have := s.workLeft_setStream k x
  omega

/-- A head replaced moves the measure by what the head's own part moves. -/
theorem State.workLeft_setHead_le (s : State) (i : HeadId) (x : Head) (a b : Nat)
    (h : x.work? + a ≤ (s.head i).work? + b) : (s.setHead i x).workLeft + a ≤ s.workLeft + b := by
  have := s.workLeft_setHead i x
  omega

theorem State.workLeft_jobs (s : State) (jobs : List Job) :
    State.workLeft { s with jobs := jobs } + jobsWork s.jobs = s.workLeft + jobsWork jobs := by
  simp only [State.workLeft_eq, State.stream, State.head]
  omega

/-! ## Jobs -/

theorem Job.work_congr {i j : Job} (h : i.state = j.state) : i.work? = j.work? := by
  unfold Job.work?
  rw [h]

@[simp] theorem evaluateGates_jobsWork (heads : Two Head) (seen : List StreamId) (jobs : List Job) :
    jobsWork (evaluateGates heads seen jobs) = jobsWork jobs := by
  unfold jobsWork
  rw [evaluateGates_map Job.work? fun j hds => Job.work_congr (j.evaluateGate_same hds).2.2.1]

theorem jobsWork_map_le (jobs : List Job) (f : Job → Job) (hf : ∀ j, (f j).work? ≤ j.work?) :
    jobsWork (jobs.map f) ≤ jobsWork jobs := by
  unfold jobsWork
  rw [List.map_map]
  exact List.sum_le_sum fun j _ => hf j

theorem endRunningIn_jobsWork (jobs : List Job) (o : Outcome) : jobsWork (endRunningIn jobs o) ≤ jobsWork jobs := by
  refine jobsWork_map_le jobs _ fun j => ?_
  split
  · rename_i h
    have hr : j.state = .running := of_decide_eq_true h
    simp [Job.work?, hr]
  · exact le_rfl

theorem cancelQueued_jobsWork (jobs : List Job) (k : StreamId) : jobsWork (cancelQueued jobs k) ≤ jobsWork jobs := by
  refine jobsWork_map_le jobs _ fun j => ?_
  split
  · rename_i h
    have hq : j.state = .queued := of_decide_eq_true (Bool.and_eq_true_iff.mp h).1
    simp [Job.work?, hq]
  · exact le_rfl

theorem jobsWork_sublist {a b : List Job} (h : a.Sublist b) : jobsWork a ≤ jobsWork b :=
  (h.map Job.work?).sum_le_sum (fun _ _ => Nat.zero_le _)

theorem runOldestEligible_jobsWork (seen : List StreamId) (jobs out : List Job)
    (h : runOldestEligible seen jobs = some out) : jobsWork out + 1 = jobsWork jobs := by
  obtain ⟨before, after, j, rfl, hq, rfl⟩ := runOldestEligible_split seen jobs out h
  simp [Job.work?, hq]
  omega

theorem takeEnded_jobsWork (jobs out : List Job) (c : Completion) (h : takeEnded jobs = some (c, out)) :
    jobsWork out + 2 = jobsWork jobs := by
  obtain ⟨before, after, j, o, b, rfl, hs, rfl, _⟩ := takeEnded_split jobs out c h
  simp [Job.work?, hs]
  omega

/-! ## Entries -/

theorem Entry.work_of_unlatched (e : Entry) (h : e.unlatched = true) : e.work? = 3 := by
  simp [Entry.work?, h]

theorem Entry.work_le (e : Entry) : e.work? ≤ 3 := by
  unfold Entry.work?
  split <;> omega

theorem Entry.evaluated_work (e : Entry) (jobs : List Job) (streams : Four Stream) :
    (e.evaluated jobs streams).work? = e.work? := by
  unfold Entry.evaluated
  split
  · rename_i h
    simp [Entry.work?, Entry.unlatched, h.1]
  · rfl

theorem Present.evaluated_entriesWork (p : Present) (jobs : List Job) (streams : Four Stream) :
    entriesWork (p.evaluated jobs streams).entries = entriesWork p.entries := by
  unfold entriesWork Present.evaluated
  rw [List.map_map]
  exact congrArg List.sum (List.map_congr_left fun e _ => e.evaluated_work jobs streams)

theorem Entry.reportAs_length (e : Entry) (h : HeadId) (status : Status) (a : Word) (flags : Flags) :
    (e.reportAs h status a flags).length ≤ 1 := report_length_le _ _ _ _

theorem flatMap_reportAs_length (es : List Entry) (h : HeadId) (status : Status) (a : Word) (flags : Flags) :
    (es.flatMap (fun e => e.reportAs h status a flags)).length ≤ es.length := by
  induction es with
  | nil => simp
  | cons e rest ih =>
    have := e.reportAs_length h status a flags
    simp only [List.flatMap_cons, List.length_append, List.length_cons]
    omega

/-- Unlatched entries that leave or settle give up three each. -/
theorem entriesWork_unlatched (es : List Entry) (h : ∀ e ∈ es, e.unlatched = true) :
    entriesWork es = 3 * es.length := by
  induction es with
  | nil => rfl
  | cons e rest ih =>
    rw [entriesWork_cons, e.work_of_unlatched (h e List.mem_cons_self),
      ih fun x hx => h x (List.mem_cons_of_mem _ hx), List.length_cons]
    omega

/-- An entry that is condemned is unlatched. -/
theorem Entry.unlatched_of_condemned (e : Entry) (k : StreamId) (counter : Word) (first : Option Word)
    (h : e.condemned k counter first = true) : e.unlatched = true := by
  simp only [Entry.condemned, Bool.and_eq_true] at h
  exact h.1.1

/-- A queue is what an abandonment takes and what it leaves. -/
theorem entriesWork_filter (es : List Entry) (p : Entry → Bool) :
    entriesWork (es.filter p) + entriesWork (es.filter (fun e => !p e)) = entriesWork es := by
  induction es with
  | nil => rfl
  | cons e rest ih => cases hp : p e <;> simp [hp] <;> omega

theorem Head.abandon_work (hd : Head) (h : HeadId) (k : StreamId) (counter : Word) (first : Option Word) :
    (hd.abandon h k counter first).work? ≤ hd.work? := by
  have hgone := entriesWork_unlatched (hd.condemned k counter first) fun e he =>
    e.unlatched_of_condemned k counter first (List.mem_filter.mp he).2
  have hsplit := entriesWork_filter hd.present.entries (fun e => e.condemned k counter first)
  have hrep := flatMap_reportAs_length (hd.condemned k counter first) h .abandoned 0 {}
  simp only [Head.condemned] at hgone hrep
  simp only [Head.work_eq, Head.abandon, Head.condemned, List.length_append]
  omega

theorem Head.reload_work (hd : Head) (b : Bool) : (hd.reload b).work? = hd.work? :=
  Head.work_congr (by rw [hd.reload_present]) (by rw [hd.reload_present]) (by rw [hd.reload_link])

theorem Head.abandonAndReload_work (hd : Head) (h : HeadId) (k : StreamId) (counter : Word) (first : Option Word) :
    (hd.abandonAndReload h k counter first).work? ≤ hd.work? := by
  unfold Head.abandonAndReload
  dsimp only
  split
  · exact hd.abandon_work h k counter first
  · rw [Head.reload_work]
    exact hd.abandon_work h k counter first

/-! ## Latch steps -/

theorem skipCount_lt (run : List Entry) (h : run ≠ []) : skipCount run < run.length := by
  cases run with
  | nil => exact absurd rfl h
  | cons e rest =>
    simp only [skipCount, List.length_cons]
    exact Nat.lt_succ_of_le (List.takeWhile_sublist _).length_le

/-- Where the ready run is not empty, a latch step leaves the settled part and what lies behind the target, marks the skipped
entries, and makes the target's snapshot the active set (R117). -/
theorem Head.latchStep_target (hd : Head) (h : HeadId) (kind : LatchKind)
    (hr : readyRun hd.present.entries kind hd.scan.frame ≠ []) :
    ∃ (skipped rest : List Entry) (target : Entry) (copies : Bool) (flags : Flags),
      hd.present.entries = settledPart hd.present.entries ++ (skipped ++ target :: rest)
        ∧ (∀ e ∈ skipped, e.eligible kind hd.scan.frame = true) ∧ target.eligible kind hd.scan.frame = true
        ∧ copies = (skipped.any (fun e => e.pal) || target.pal)
        ∧ flags = { kind.flags with palette := copies }
        ∧ hd.latchStep h kind
          = { hd with
              present :=
                { hd.present with
                  entries := settledPart hd.present.entries ++ skipped.map (fun e => { e with state := .skipped })
                    ++ target.keptLatched flags ++ rest
                  outbox := hd.present.outbox
                    ++ skipped.flatMap (fun e => e.reportAs h .skipped hd.scan.frame kind.flags)
                    ++ target.reportAs h .done hd.scan.frame flags }
              scan :=
                { hd.scan with
                  active := target.snapshot
                  palette := if copies then hd.staging.palette else hd.scan.palette } } := by
  set run := readyRun hd.present.entries kind hd.scan.frame with hrun
  set n := skipCount run with hn
  have hlt : n < run.length := skipCount_lt run hr
  have hmem : ∀ e ∈ run, e.eligible kind hd.scan.frame = true := fun e he => by
    rw [hrun, readyRun] at he
    exact List.mem_takeWhile_imp (p := fun e : Entry => e.eligible kind hd.scan.frame) he
  obtain ⟨behind, hopen⟩ : ∃ behind, openPart hd.present.entries = run ++ behind :=
    ⟨_, (List.takeWhile_append_dropWhile (p := fun e : Entry => e.eligible kind hd.scan.frame)).symm⟩
  have hdrop : run.drop n = run[n] :: run.drop (n + 1) := List.drop_eq_getElem_cons hlt
  have hsplit : run.take n ++ run[n] :: run.drop (n + 1) = run := by rw [← hdrop, List.take_append_drop]
  have hbehind : (openPart hd.present.entries).drop (n + 1) = run.drop (n + 1) ++ behind := by
    rw [hopen, List.drop_append_of_le_length hlt]
  refine ⟨run.take n, run.drop (n + 1) ++ behind, run[n], _, _, ?_, fun e he => hmem e (List.mem_of_mem_take he),
    hmem _ (List.getElem_mem hlt), rfl, rfl, ?_⟩
  · conv_lhs => rw [← List.takeWhile_append_dropWhile (p := fun e : Entry => !e.unlatched) (l := hd.present.entries)]
    show settledPart _ ++ openPart _ = _
    rw [hopen, ← List.cons_append, ← List.append_assoc (run.take n), hsplit]
  · simp only [Head.latchStep, ← hrun, ← hn, hdrop, hbehind]

theorem Entry.unlatched_of_eligible (e : Entry) (kind : LatchKind) (c : Word) (h : e.eligible kind c = true) :
    e.unlatched = true := by
  have hr : e.state = .ready := of_decide_eq_true (Bool.and_eq_true_iff.mp h).1
  simp [Entry.unlatched, hr]

theorem entriesWork_skipped (es : List Entry) :
    entriesWork (es.map (fun e => { e with state := .skipped })) = 0 := by
  induction es with
  | nil => rfl
  | cons e rest ih => simp [ih, Entry.work?, Entry.unlatched]

theorem Entry.keptLatched_work (e : Entry) (flags : Flags) : entriesWork (e.keptLatched flags) = 0 := by
  unfold Entry.keptLatched
  split
  · rfl
  · simp [Entry.work?, Entry.unlatched]

/-- A latch step with a ready run uses up work: of each skipped or latched entry at most a completion is left. -/
theorem Head.latchStep_work (hd : Head) (h : HeadId) (kind : LatchKind)
    (hr : readyRun hd.present.entries kind hd.scan.frame ≠ []) : (hd.latchStep h kind).work? < hd.work? := by
  obtain ⟨skipped, rest, target, copies, flags, hes, hsk, htg, _, _, heq⟩ := hd.latchStep_target h kind hr
  have hbefore : entriesWork hd.present.entries
      = entriesWork (settledPart hd.present.entries) + 3 * skipped.length + 3 + entriesWork rest := by
    conv_lhs => rw [hes]
    rw [entriesWork_append, entriesWork_append, entriesWork_cons,
      target.work_of_unlatched (target.unlatched_of_eligible kind _ htg),
      entriesWork_unlatched skipped fun e he => e.unlatched_of_eligible kind _ (hsk e he)]
    omega
  have hskip := flatMap_reportAs_length skipped h .skipped hd.scan.frame kind.flags
  have htarget := target.reportAs_length h .done hd.scan.frame flags
  rw [heq]
  simp only [Head.work_eq, hbefore, entriesWork_append, entriesWork_skipped, Entry.keptLatched_work,
    List.length_append]
  omega

/-! ## Streams -/

/-- A stream whose current record is gone has what it keeps left to place. -/
theorem Stream.work_of_empty (st : Stream) (h : st.current = none) : st.work? = st.kept.length := by
  simp [Stream.work?, h]

theorem Stream.kept_le_work (st : Stream) : st.kept.length ≤ st.work? := Nat.le_add_right _ _

/-- What a current record in this phase may still lead to. -/
def RecordPhase.work? : RecordPhase → Nat
  | .heldJobSpace | .heldQueueFull | .heldPaletteHazard => 8
  | .waitCondition => 3
  | .reading | .whole | .waitLease | .waitPaletteRead => 0

theorem Stream.work_of_phase (st : Stream) (c : CurrentRecord) (p : RecordPhase) (hc : st.current = some c)
    (hp : c.phase = p) : st.work? = st.kept.length + p.work? := by
  simp only [Stream.work?, hc, hp]
  cases p <;> rfl

/-! ## What accompanies an act adds no work -/

theorem State.jobsRemoved_work (s : State) (jobs : List Job) :
    (s.jobsRemoved jobs).workLeft + jobsWork s.jobs = s.workLeft + jobsWork jobs := by
  have hhead : ∀ h : HeadId, ((s.jobsRemoved jobs).head h).work? = (s.head h).work? := fun h => by
    have he : (s.jobsRemoved jobs).head h
        = { s.head h with present := (s.head h).present.evaluated jobs s.streams } := Two.get_map _ _ _
    rw [he]
    simp only [Head.work_eq, Present.evaluated_entriesWork]
    rfl
  have hstream : ∀ k : StreamId, (s.jobsRemoved jobs).stream k = s.stream k := fun _ => rfl
  have hown : (s.jobsRemoved jobs).ownWork = State.ownWork { s with jobs := evaluateGates s.heads [] jobs } := rfl
  have hjobs := s.workLeft_jobs (evaluateGates s.heads [] jobs)
  rw [evaluateGates_jobsWork, State.workLeft_eq_ownWork] at hjobs
  rw [State.workLeft_eq_ownWork, hown]
  simp only [hhead, hstream]
  exact hjobs

theorem State.workLeft_free_le (s : State) : State.workLeft { s with engine := .free } ≤ s.workLeft :=
  State.workLeft_le rfl le_rfl (Nat.zero_le _) (fun _ => le_rfl) (fun _ => le_rfl) rfl rfl

theorem State.endJob_work_le (s : State) (o : Outcome) : (s.endJob o).workLeft ≤ s.workLeft := by
  unfold State.endJob
  split
  · exact le_rfl
  · split
    · have hremoved := State.jobsRemoved_work { s with engine := .free } (s.jobs.filter (fun j => !j.isRunning))
      have hfree := s.workLeft_free_le
      have hfilter : jobsWork (s.jobs.filter (fun j => !j.isRunning)) ≤ jobsWork s.jobs :=
        jobsWork_sublist List.filter_sublist
      dsimp only at hremoved
      omega
    · exact State.workLeft_le rfl (endRunningIn_jobsWork _ _) (Nat.zero_le _) (fun _ => le_rfl) (fun _ => le_rfl) rfl rfl

theorem State.haltByJob_work_le (s : State) (k : StreamId) (point : Nat) : (s.haltByJob k point).workLeft ≤ s.workLeft := by
  refine State.workLeft_le rfl le_rfl le_rfl (fun j => ?_) (fun h => ?_) rfl Option.isNone_map
  · have hj : (s.haltByJob k point).stream j
        = if j = k then { s.stream k with current := none }.haltAt ((s.stream k).wrap point) else s.stream j :=
      s.stream_setStream k j _
    rw [hj]
    split
    · rename_i e
      rw [e, Stream.work_of_empty _ rfl]
      exact (s.stream k).kept_le_work
    · exact le_rfl
  · have hh : (s.haltByJob k point).head h
        = (((s.head h).withdraw k).abandonRead k).rewindBy k point (s.stream k).ring := Two.get_map _ _ _
    obtain ⟨_, _, hpresent, _, _, _, _, hheld, _⟩ :=
      (((s.head h).withdraw k).abandonRead k).rewindBy_same k point (s.stream k).ring
    obtain ⟨hpresent', _, hlink', _⟩ := ((s.head h).withdraw k).abandonRead_same k
    rw [hh]
    refine (Head.work_congr ?_ ?_ ?_).le
    · rw [hpresent, hpresent', Head.withdraw_present]
    · rw [hpresent, hpresent', Head.withdraw_present]
    · rw [hheld, hlink', Head.withdraw_link]

theorem State.abandonFrom_work_le (s : State) (k : StreamId) (first : Option Word) :
    (s.abandonFrom k first).workLeft ≤ s.workLeft := by
  refine State.workLeft_le rfl le_rfl le_rfl (fun _ => le_rfl) (fun h => ?_) rfl rfl
  match h with
  | 0 => exact Head.abandonAndReload_work _ _ _ _ _
  | 1 => exact Head.abandonAndReload_work _ _ _ _ _

theorem State.failJob_work_le (s : State) (status : Status) (written : Nat) :
    (s.failJob status written).workLeft ≤ s.workLeft := by
  unfold State.failJob
  split
  · exact le_rfl
  · dsimp only
    have hended : ∀ (o : Outcome) (k : StreamId),
        State.workLeft { s with engine := .free, jobs := cancelQueued (endRunningIn s.jobs o) k } ≤ s.workLeft :=
      fun o k => State.workLeft_le rfl ((cancelQueued_jobsWork _ _).trans (endRunningIn_jobsWork _ _)) (Nat.zero_le _)
        (fun _ => le_rfl) (fun _ => le_rfl) rfl rfl
    refine (State.abandonFrom_work_le _ _ _).trans ?_
    split
    · exact hended _ _
    · exact (State.haltByJob_work_le _ _ _).trans (hended _ _)

theorem State.pixelDone_work_le (s : State) (wrote : Bool) : (s.pixelDone wrote).workLeft ≤ s.workLeft := by
  unfold State.pixelDone
  split
  · exact le_rfl
  · exact State.workLeft_le rfl le_rfl le_rfl (fun _ => le_rfl) (fun _ => le_rfl) rfl rfl

theorem Follows.work_le {s t : State} (h : Follows s t) : t.workLeft ≤ s.workLeft := by
  cases h with
  | choose => exact le_rfl
  | phase p => exact le_rfl
  | pixelDone wrote => exact s.pixelDone_work_le wrote
  | endJob o => exact s.endJob_work_le o
  | failJob status written => exact s.failJob_work_le status written
  | window j c w _ _ => exact le_rfl
  | placed j m _ => exact le_rfl

theorem FollowsAll.work_le {s t : State} (h : FollowsAll s t) : t.workLeft ≤ s.workLeft :=
  h.keeps (fun u => u.workLeft ≤ s.workLeft) (fun _ _ m hu => m.work_le.trans hu) le_rfl

/-! ## An act uses up work -/

theorem State.finishAs_work (s : State) (k : StreamId) (ref : RecordRef) (kind : Byte) (o : Outcome) :
    (s.finishAs k ref kind o).workLeft + (s.stream k).work? ≤ s.workLeft + (s.stream k).kept.length + 1 := by
  have hset := s.workLeft_setStream k ((s.finishAs k ref kind o).stream k)
  have heq : s.setStream k ((s.finishAs k ref kind o).stream k) = s.finishAs k ref kind o := by
    simp only [State.finishAs, State.stream_setStream_same]
  obtain ⟨hcurrent, hkept, _⟩ := s.finishAs_stream k ref kind o
  have hreport := report_length_le ref kind o none
  rw [heq, Stream.work_of_empty _ hcurrent, hkept, List.length_append] at hset
  omega

theorem State.place_work (s : State) (cs : List Completion) : (s.place cs).workLeft = s.workLeft := rfl

theorem State.placeFrom_work (s t : State) (p : Placer) (h : s.placeFrom p = some t) : t.workLeft < s.workLeft := by
  rcases s.placeFrom_cases t p h with ⟨c, jobs, hj, rfl⟩ | ⟨k, c, before, after, hk, rfl⟩
    | ⟨i, c, before, after, hk, rfl⟩ | ⟨i, c, before, after, hk, rfl⟩
  · have hremoved := (s.place [c]).jobsRemoved_work jobs
    have hended := takeEnded_jobsWork _ _ _ hj
    have hplace : jobsWork (s.place [c]).jobs = jobsWork s.jobs := rfl
    rw [s.place_work] at hremoved
    omega
  · refine s.workLeft_setStream_le k _ 1 0 ?_
    simp only [Stream.work?, hk, List.length_append, List.length_cons]
    omega
  · refine s.workLeft_setHead_le i _ 1 0 ?_
    simp only [Head.work_eq, hk, List.length_append, List.length_cons]
    omega
  · refine s.workLeft_setHead_le i _ 1 0 ?_
    simp only [Head.work_eq, hk, List.length_append, List.length_cons]
    omega

theorem State.dispatchPresent_work (s t : State) (k : StreamId) (hp : s.inPhase k .heldQueueFull = true)
    (h : s.dispatchPresent k = some t) : t.workLeft < s.workLeft := by
  obtain ⟨c, hc, hphase⟩ := (s.inPhase_iff k _).mp hp
  obtain ⟨_, r, u, e, _, _, _, hu, _, ht⟩ := s.dispatchPresent_some t k h
  have hheld : _ = _ + 8 := (s.stream k).work_of_phase c _ hc hphase
  have hstream : u.workLeft + 8 ≤ s.workLeft + 0 := by
    rw [hu]
    refine s.workLeft_setStream_le k _ 8 0 ?_
    rw [Stream.work_of_empty _ rfl, hheld]
  have hhead : t.workLeft + 0 ≤ u.workLeft + 3 := by
    rw [ht]
    refine u.workLeft_setHead_le r.head _ 0 3 ?_
    have he := e.work_le
    have huh : u.head r.head = s.head r.head := by rw [hu]; rfl
    simp only [huh, Head.work_eq, entriesWork_append, entriesWork_cons, entriesWork_nil]
    omega
  omega

theorem State.dispatchPalette_work (s t : State) (k : StreamId) (hp : s.inPhase k .heldPaletteHazard = true)
    (h : s.dispatchPalette k = some t) : t.workLeft < s.workLeft := by
  obtain ⟨c, hc, hphase⟩ := (s.inPhase_iff k _).mp hp
  obtain ⟨_, r, read, _, _, _, _, ht⟩ := s.dispatchPalette_some t k h
  obtain ⟨u, hu⟩ : ∃ u, u = s.setHead r.head
    { s.head r.head with staging := { (s.head r.head).staging with reading := some read } } := ⟨_, rfl⟩
  rw [← hu] at ht
  have hhead : u.workLeft + 0 ≤ s.workLeft + 0 := by
    rw [hu]
    exact s.workLeft_setHead_le r.head _ 0 0 (Head.work_congr rfl rfl rfl).le
  have hcurrent : (u.stream k).current = some c := by rw [hu]; exact hc
  have hstream : t.workLeft + 8 ≤ u.workLeft + 0 := by
    rw [ht, u.setPhase_eq_recordHeld k c .waitPaletteRead hcurrent]
    refine u.workLeft_setStream_le k _ 8 0 ?_
    rw [(u.stream k).work_of_phase c _ hcurrent hphase,
      Stream.work_of_phase _ { c with phase := .waitPaletteRead } _ rfl rfl]
    rfl
  omega

theorem State.dispatchJob_work (s t : State) (k : StreamId) (hp : s.inPhase k .heldJobSpace = true)
    (h : s.dispatchJob k = some t) : t.workLeft < s.workLeft := by
  obtain ⟨c, hc, hphase⟩ := (s.inPhase_iff k _).mp hp
  obtain ⟨d, kind, work, gate, _, _, _, _, ht⟩ := s.dispatchJob_some t k h
  have hstream : (s.dropCurrent k).workLeft + 8 ≤ s.workLeft + 0 := by
    refine s.workLeft_setStream_le k _ 8 0 ?_
    rw [Stream.work_of_empty _ rfl, (s.stream k).work_of_phase c _ hc hphase]
    rfl
  have hjobs := (s.dropCurrent k).workLeft_jobs (evaluateGates s.heads []
    (s.jobs ++ [newJob (headerRef k d) (declaredSlots d.slots) work gate (s.stream k).batch]))
  have hnew : (newJob (headerRef k d) (declaredSlots d.slots) work gate (s.stream k).batch).work? = 6 := rfl
  rw [evaluateGates_jobsWork, jobsWork_append, jobsWork_cons, jobsWork_nil, hnew, State.dropCurrent_jobs, ← ht] at hjobs
  omega

theorem Starts.work_lt {s t : State} (h : Starts s t) : t.workLeft < s.workLeft := by
  cases h with
  | stop hd _ =>
    have hstop : (s.setDevice .stopped).workLeft + 1 = s.workLeft := by
      simp only [State.workLeft_eq, hd]
      simp [State.setDevice, State.stream, State.head]
      omega
    omega
  | latch i _ _ hr =>
    have hset := s.workLeft_setHead i ((s.head i).latchStep i .immediate)
    have hlatch := (s.head i).latchStep_work i .immediate hr
    omega
  | answer n a hr =>
    have hlen := sparseErase_length _ _ _ hr
    simp only [State.workLeft_eq, State.stream, State.head]
    omega
  | wait k c o hc hp _ =>
    have hfin := s.finishAs_work k (headerRef k c) (kindByte c.slots) o
    have hwait : _ = _ + 3 := (s.stream k).work_of_phase c _ hc hp
    rw [s.finish_of_current k o c hc]
    omega
  | present _ k hp ht => exact s.dispatchPresent_work t k hp ht
  | palette _ k hp ht => exact s.dispatchPalette_work t k hp ht
  | job _ k hp ht => exact s.dispatchJob_work t k hp ht
  | engine jobs _ hj =>
    have hrun := runOldestEligible_jobsWork _ _ _ hj
    have hjobs := s.workLeft_jobs jobs
    have hfree := State.workLeft_free_le { s with jobs := jobs }
    dsimp only at hfree
    omega
  | place _ p ht => exact s.placeFrom_work t p ht
  | grant _ ht =>
    obtain ⟨hnone, f, read, hf, rfl⟩ := s.grant_some t ht
    simp only [State.workLeft_eq, hnone, hf, State.stream, State.head]
    simp
  | write _ ht =>
    obtain ⟨hnone, w, rfl⟩ := s.issueWrite_some t ht
    simp only [State.workLeft_eq, hnone, State.stream, State.head]
    simp

theorem Moves.work_lt {s t : State} (h : Moves s t) : t.workLeft < s.workLeft := by
  obtain ⟨u, v, hu, huv, hv⟩ := h
  exact (hv.work_le.trans_lt huv.work_lt).trans_le hu.work_le

/-- The work left falls with every reaction. -/
theorem State.react_work_lt (s t : State) (h : s.react = some t) : t.workLeft < s.workLeft := by
  obtain ⟨f, hf, e⟩ := s.react_some t h
  exact (reaction_moves f hf s t e).work_lt

/-! ## Settling -/

/-- After settling nothing is left to make. -/
theorem State.settle_quiet (s : State) : s.settle.react = none :=
  State.settleFor_quiet State.react_work_lt _ s le_rfl

/-- More reactions than there is work left change nothing. -/
theorem State.settleFor_eq_settle (n : Nat) (s : State) (hn : s.workLeft ≤ n) : s.settleFor n = s.settle := by
  have hadd : ∀ (m k : Nat) (u : State), u.settleFor (m + k) = (u.settleFor m).settleFor k := by
    intro m k
    induction m with
    | zero => intro u; rw [Nat.zero_add]; rfl
    | succ m ih =>
      intro u
      rw [Nat.succ_add]
      cases hr : u.react with
      | none => rw [u.settleFor_of_quiet _ hr, u.settleFor_of_quiet _ hr, u.settleFor_of_quiet _ hr]
      | some t => simp only [State.settleFor, hr]; exact ih t
  obtain ⟨k, rfl⟩ := Nat.exists_eq_add_of_le hn
  rw [hadd]
  exact State.settleFor_of_quiet k _ s.settle_quiet

/-- Settling is taking one reaction and settling what it leaves. -/
theorem State.settle_of_react (s t : State) (h : s.react = some t) : s.settle = t.settle := by
  have hlt := s.react_work_lt t h
  obtain ⟨n, hn⟩ := Nat.exists_eq_add_of_lt hlt
  rw [State.settle, hn, State.settleFor, h]
  exact t.settleFor_eq_settle (t.workLeft + n) (Nat.le_add_right _ _)

end Sys2Proof.Machine
end

