-- ==== Sys2Proof/Proofs/Readiness.lean ====
section
/-! SUPPORT. When each reaction has something to do: it is decided by the registers, the Fetch Unit, the streams, the heads,
the job list and the writer alone, and in particular not by the count of choices. -/

namespace Sys2Proof.Machine

set_option Elab.async false

/-! ## States that agree but for the engine -/

/-- The parts that decide which reactions have something to do, but for the taking of a source answer. -/
structure State.SameButEngine (s t : State) : Prop where
  regs : t.regs = s.regs
  fetch : t.fetch = s.fetch
  streams : t.streams = s.streams
  heads : t.heads = s.heads
  jobs : t.jobs = s.jobs
  writer : t.writer = s.writer

theorem State.SameButEngine.choices (s : State) (n : Nat) : s.SameButEngine { s with choices := n } :=
  ⟨rfl, rfl, rfl, rfl, rfl, rfl⟩

section
variable {s t : State} (h : s.SameButEngine t)
include h

theorem State.SameButEngine.stream (k : StreamId) : t.stream k = s.stream k := by
  simp only [State.stream, h.streams]

theorem State.SameButEngine.head (i : HeadId) : t.head i = s.head i := by
  simp only [State.head, h.heads]

theorem State.SameButEngine.active : t.active = s.active := by
  simp only [State.active, h.regs]

theorem State.SameButEngine.running : t.running = s.running := by
  simp only [State.running, h.regs]

theorem State.SameButEngine.waitReached (k : StreamId) : t.waitReached k = s.waitReached k := by
  simp only [State.waitReached, State.waitOutcome, h.stream, h.head, h.jobs]

theorem State.SameButEngine.inPhase (k : StreamId) (p : RecordPhase) : t.inPhase k p = s.inPhase k p := by
  simp only [State.inPhase, h.stream]

theorem State.SameButEngine.owed (c : Completion) : t.owed c = s.owed c := by
  simp only [State.owed, State.unplaced, State.rewoundPending, h.jobs, h.stream, h.head]

theorem State.SameButEngine.turn (cls : FetchClass) : t.turn cls = s.turn cls := by
  simp only [State.turn, State.candidate, h.fetch, h.stream]

end

/-! ## When each act has something to do -/

theorem State.completeWait_isSome (s : State) (k : StreamId) :
    (State.completeWait k s).isSome = (s.active && (s.waitReached k).isSome) := by
  unfold State.completeWait
  cases s.active <;> simp

theorem State.dispatchPresent_isSome (s : State) (k : StreamId) :
    (s.dispatchPresent k).isSome
      = (s.stream k).current.any (fun c => (presentFields c.slots).any (fun r =>
          decide ((s.head r.head).present.places < queuePlaces))) := by
  cases hc : (s.stream k).current with
  | none => simp [State.dispatchPresent, hc]
  | some c =>
    cases hr : presentFields c.slots with
    | none => simp [State.dispatchPresent, hc, hr]
    | some r =>
      by_cases hp : (s.head r.head).present.places < queuePlaces <;> simp [State.dispatchPresent, hc, hr, hp]

theorem State.dispatchPalette_isSome (s : State) (k : StreamId) :
    (s.dispatchPalette k).isSome
      = (s.stream k).current.any (fun c => (paletteFields c.slots).any (fun r =>
          !(s.head r.head).present.hazard)) := by
  cases hc : (s.stream k).current with
  | none => simp [State.dispatchPalette, hc]
  | some c =>
    cases hr : paletteFields c.slots with
    | none => simp [State.dispatchPalette, hc, hr]
    | some r => cases hp : (s.head r.head).present.hazard <;> simp [State.dispatchPalette, hc, hr, hp]

theorem State.dispatchJob_isSome (s : State) (k : StreamId) :
    (s.dispatchJob k).isSome
      = (s.stream k).current.any (fun c => (kindOf c.slots).any (fun kind =>
          (jobFields kind c.slots s.heads).any (fun _ => roomFor s.jobs k))) := by
  cases hc : (s.stream k).current with
  | none => simp [State.dispatchJob, hc]
  | some c =>
    cases hk : kindOf c.slots with
    | none => simp [State.dispatchJob, hc, hk]
    | some kind =>
      cases hf : jobFields kind c.slots s.heads with
      | none => simp [State.dispatchJob, hc, hk, hf]
      | some p => cases hr : roomFor s.jobs k <;> simp [State.dispatchJob, hc, hk, hf, hr]

theorem State.engineChoose_isSome (s : State) :
    s.engineChoose.isSome = (s.running && !s.jobs.any Job.holdsEngine && (runOldestEligible [] s.jobs).isSome) := by
  unfold State.engineChoose
  split
  · rename_i hc
    rw [hc]
    split <;> rename_i hj <;> simp [hj]
  · rename_i hc
    simp [Bool.eq_false_iff.mpr hc]

theorem State.attempt_isSome_congr {s t : State} (h : s.SameButEngine t) (a : Try) :
    (t.attempt a).isSome = (s.attempt a).isSome := by
  cases a with
  | wait k => simp only [State.attempt, State.completeWait_isSome, h.active, h.waitReached]
  | present k =>
    simp only [State.attempt, State.retryPresent, h.running, h.inPhase, State.dispatchPresent_isSome,
      h.stream, h.head, apply_ite Option.isSome]
  | palette k =>
    simp only [State.attempt, State.retryPalette, h.running, h.inPhase, State.dispatchPalette_isSome,
      h.stream, h.head, apply_ite Option.isSome]
  | job k =>
    simp only [State.attempt, State.retryJob, h.running, h.inPhase, State.dispatchJob_isSome,
      h.stream, h.heads, h.jobs, apply_ite Option.isSome]
  | engine => simp only [State.attempt, State.engineChoose_isSome, h.running, h.jobs]

theorem State.nextFrom_isSome_congr {s t : State} (h : s.SameButEngine t) (p : Placer) :
    (t.nextFrom p).isSome = (s.nextFrom p).isSome := by
  cases p with
  | jobList =>
    simp only [State.nextFrom, h.jobs, h.owed]
    split
    · split <;> rfl
    · rfl
  | sequencer k => simp only [State.nextFrom, h.stream, h.owed]; split <;> rfl
  | linkController i => simp only [State.nextFrom, h.head, h.owed]; split <;> rfl
  | presentUnit i => simp only [State.nextFrom, h.head, h.owed]; split <;> rfl

theorem State.placeFrom_isSome (s : State) (p : Placer) :
    (s.placeFrom p).isSome = ((s.nextFrom p).isSome && (p.commits || otherRoom s.writer.outbound)) := by
  unfold State.placeFrom
  cases hn : s.nextFrom p with
  | none => simp
  | some r => cases (p.commits || otherRoom s.writer.outbound) <;> simp

theorem State.placeFrom_isSome_congr {s t : State} (h : s.SameButEngine t) (p : Placer) :
    (t.placeFrom p).isSome = (s.placeFrom p).isSome := by
  rw [State.placeFrom_isSome, State.placeFrom_isSome, State.nextFrom_isSome_congr h, h.writer]

theorem State.issueSlot_isSome_congr {s t : State} (h : s.SameButEngine t) (k : StreamId) (f : FetchUnit) :
    (t.issueSlot k f).isSome = (s.issueSlot k f).isSome := by
  simp only [State.issueSlot, h.stream]
  split <;> rfl

theorem State.grant_isSome_congr {s t : State} (h : s.SameButEngine t) : t.grant.isSome = s.grant.isSome := by
  simp only [State.grant, h.running, h.fetch, h.turn]
  split
  · split
    · exact State.issueSlot_isSome_congr h _ _
    · split <;> exact State.issueSlot_isSome_congr h _ _
    · exact State.issueSlot_isSome_congr h _ _
    · rfl
  · rfl

/-! ## Free choices -/

/-- A free choice among some tries has something to do exactly where one of them has, if the count of choices decides none
of that. -/
theorem pick_filter_isSome {α : Type} (f : State → α → Option State) (l : List α) (d : α) (s : State)
    (hf : ∀ (n : Nat), ∀ a ∈ l, (f { s with choices := n } a).isSome = (f s a).isSome) :
    (if (l.filter (fun a => (f s a).isSome)).isEmpty = true then none
      else f (s.pick (l.filter (fun a => (f s a).isSome)).length).2
        ((l.filter (fun a => (f s a).isSome)).getD (s.pick (l.filter (fun a => (f s a).isSome)).length).1 d)).isSome
      = l.any (fun a => (f s a).isSome) := by
  set ready := l.filter (fun a => (f s a).isSome) with hready
  by_cases he : ready = []
  · have hnone : l.any (fun a => (f s a).isSome) = false := by
      rw [List.any_eq_false]
      exact List.filter_eq_nil_iff.mp he
    simp [he, hnone]
  · have hlt := s.pick_lt ready.length (List.length_pos_iff.mpr he)
    have hmem : ready[(s.pick ready.length).1] ∈ ready := List.getElem_mem hlt
    obtain ⟨hl, hsome⟩ := List.mem_filter.mp hmem
    have hany : l.any (fun a => (f s a).isSome) = true := List.any_eq_true.mpr ⟨_, hl, hsome⟩
    rw [if_neg (by simpa using he), List.getD_eq_getElem ready d hlt, hany]
    rcases s.pick_state ready.length with e | e <;> rw [e]
    · exact hsome
    · rw [hf _ _ hl]; exact hsome

theorem State.tryNext_isSome (s : State) : s.tryNext.isSome = allTries.any (fun a => (s.attempt a).isSome) :=
  pick_filter_isSome State.attempt allTries .engine s fun n a _ => State.attempt_isSome_congr (.choices s n) a

theorem State.placeNext_isSome (s : State) :
    s.placeNext.isSome = (s.active && allPlacers.any (fun p => (s.placeFrom p).isSome)) := by
  unfold State.placeNext
  cases ha : s.active with
  | false => rfl
  | true =>
    rw [if_pos rfl, Bool.true_and]
    exact pick_filter_isSome State.placeFrom allPlacers .jobList s fun n p _ =>
      State.placeFrom_isSome_congr (.choices s n) p

theorem State.tryNext_isSome_congr {s t : State} (h : s.SameButEngine t) : t.tryNext.isSome = s.tryNext.isSome := by
  simp only [State.tryNext_isSome, State.attempt_isSome_congr h]

theorem State.placeNext_isSome_congr {s t : State} (h : s.SameButEngine t) : t.placeNext.isSome = s.placeNext.isSome := by
  simp only [State.placeNext_isSome, State.placeFrom_isSome_congr h, h.active]

theorem acts_isSome_congr {s t : State} (h : s.SameButEngine t) (f : State → Option State) (hf : f ∈ acts) :
    (f t).isSome = (f s).isSome := by
  simp only [acts, List.mem_cons, List.not_mem_nil, or_false] at hf
  rcases hf with rfl | rfl | rfl
  · exact State.tryNext_isSome_congr h
  · exact State.placeNext_isSome_congr h
  · exact State.grant_isSome_congr h

/-- The free choice among the acts has something to do exactly where one of them has. -/
theorem State.actNext_isSome (s : State) : s.actNext.isSome = acts.any (fun f => (f s).isSome) :=
  @pick_filter_isSome (State → Option State) (fun s f => f s) acts State.tryNext s
    fun n f hf => acts_isSome_congr (.choices s n) f hf

theorem State.actNext_isSome_congr {s t : State} (h : s.SameButEngine t) : t.actNext.isSome = s.actNext.isSome := by
  rw [State.actNext_isSome, State.actNext_isSome, Bool.eq_iff_iff, List.any_eq_true, List.any_eq_true]
  exact exists_congr fun f => and_congr_right fun hf => by rw [acts_isSome_congr h f hf]

/-! ## The other reactions -/

theorem State.reachStopped_isSome (s : State) :
    s.reachStopped.isSome = decide (s.regs.device = .stopping ∧ s.jobs.all Job.isQueued = true) := by
  unfold State.reachStopped
  by_cases hc : s.regs.device = .stopping ∧ s.jobs.all Job.isQueued = true
  · rw [if_pos hc, decide_eq_true hc]; rfl
  · rw [if_neg hc, decide_eq_false hc]; rfl

theorem State.latchNow_isSome (s : State) (i : HeadId) :
    (State.latchNow i s).isSome
      = (s.active && !(s.head i).scanning
          && !(readyRun (s.head i).present.entries .immediate (s.head i).scan.frame).isEmpty) := by
  simp only [State.latchNow]
  split
  · rename_i hc; rw [hc]; rfl
  · rename_i hc; rw [Bool.eq_false_iff.mpr hc]; rfl

theorem State.issueWrite_isSome (s : State) :
    s.issueWrite.isSome
      = (s.active && s.writer.write.isNone && s.writer.ring.any CompletionRing.hasRoom && !s.writer.outbound.isEmpty) := by
  unfold State.issueWrite
  cases hc : (s.active && s.writer.write.isNone) with
  | false => simp
  | true =>
    rw [if_pos rfl]
    cases hr : s.writer.ring with
    | none => simp
    | some r => cases ho : s.writer.outbound <;> cases hroom : r.hasRoom <;> simp [hroom]

theorem Option.none_of_isSome_congr {α β : Type} {x : Option α} {y : Option β} (h : x.isSome = y.isSome) (hy : y = none) :
    x = none := by
  rw [hy, Option.isSome_none, Option.isSome_eq_false_iff, Option.isNone_iff_eq_none] at h
  exact h

/-- In a settled part, what changes nothing but the engine, its contexts and panel memory leaves the taking of a source
answer as the only reaction there may be. -/
theorem State.react_of_sameButEngine {s t : State} (h : s.SameButEngine t) (hq : s.quiescent) :
    t.react = t.takeAhead := by
  have hnone := s.react_none.mp hq
  have hstop : t.reachStopped = none := by
    refine Option.none_of_isSome_congr ?_ (hnone State.reachStopped (by simp [reactions]))
    rw [State.reachStopped_isSome, State.reachStopped_isSome, h.regs, h.jobs]
  have hlatch : ∀ i : HeadId, State.latchNow i s = none → State.latchNow i t = none := fun i hi => by
    refine Option.none_of_isSome_congr ?_ hi
    rw [State.latchNow_isSome, State.latchNow_isSome, h.active, h.head]
  have hlatch0 := hlatch 0 (hnone _ (by simp [reactions]))
  have hlatch1 := hlatch 1 (hnone _ (by simp [reactions]))
  have hact : t.actNext = none :=
    Option.none_of_isSome_congr (State.actNext_isSome_congr h) (hnone State.actNext (by simp [reactions]))
  have hwrite : t.issueWrite = none := by
    refine Option.none_of_isSome_congr ?_ (hnone State.issueWrite (by simp [reactions]))
    rw [State.issueWrite_isSome, State.issueWrite_isSome, h.active, h.writer]
  cases ha : t.takeAhead <;>
    simp only [State.react, reactions, firstReaction, hstop, hlatch0, hlatch1, ha, hact, hwrite]

/-! ## Source answers (R26) -/

/-- The engine takes no answer ahead while it deals with something else than a source pixel. -/
theorem State.takeAhead_of_phase (s : State) (h : s.engine.phase ≠ .source) : s.takeAhead = none := by
  unfold State.takeAhead
  rw [if_neg (by simp [h])]

theorem State.takeAhead_of_missing (s : State)
    (h : sparseRead s.engine.ahead (s.engine.processed + 1) = none) : s.takeAhead = none := by
  unfold State.takeAhead
  split
  · rw [h]
  · rfl

/-- The answer of the next source pixel is taken where it has come in. -/
theorem State.takeAhead_of_answer (s : State) (answer : Option Word) (ha : s.active = true)
    (hp : s.engine.phase = .source)
    (hr : sparseRead s.engine.ahead (s.engine.processed + 1) = some answer) :
    s.takeAhead
      = some (State.takeSource
          { s with engine := { s.engine with ahead := sparseErase s.engine.ahead (s.engine.processed + 1) } } answer) := by
  unfold State.takeAhead
  rw [if_pos (by simp [ha, hp]), hr]

section
variable (s : State) (j : Job) (c : ContextId) (m : Mode) (source : Address) (f : Format) (count : Nat)
  (run : Option Run) (key : Option Key) (hj : s.runningJob = some j)
  (hw : j.work = .transfer c m source f count run key)
include hj hw

theorem State.takeSource_busError : s.takeSource none = s.failJob .sourceError s.engine.written := by
  simp only [State.takeSource, hj, hw]

/-- A source pixel that the key lets pass is presented for writing (R30). -/
theorem State.takeSource_written (word : Word) (hk : keySkips key (widenPixel f word) = false) :
    s.takeSource (some word) = { s with engine := { s.engine with phase := .write (widenPixel f word) } } := by
  simp only [State.takeSource, hj, hw, hk]
  rfl

/-- A source pixel that the key skips is passed over. -/
theorem State.takeSource_skipped (word : Word) (hk : keySkips key (widenPixel f word) = true) :
    s.takeSource (some word) = (s.pixelDone false).nextPixel := by
  simp only [State.takeSource, hj, hw, hk, if_true]

end

/-- An expected source pixel has not been answered. -/
theorem State.sourceExpected_unanswered (s : State) (n : Nat) (h : s.sourceExpected n = true) :
    sparseRead s.engine.ahead n = none := by
  unfold State.sourceExpected at h
  split at h
  · cases h
  · split at h
    · dsimp only at h
      split at h
      · exact Option.isNone_iff_eq_none.mp (Bool.and_eq_true_iff.mp h).2
      · cases h
    · cases h

/-- The answer to an expected source pixel is kept, and the part settles. -/
theorem State.sourceAnswered_data (s : State) (n : Nat) (word : Word) (ha : s.active = true)
    (he : s.sourceExpected n = true) :
    s.sourceAnswered n (.data word)
      = State.settle { s with engine := { s.engine with ahead := sparseWrite s.engine.ahead n (some word) } } := by
  simp only [State.sourceAnswered, ha, he, Bool.and_self, if_true]

end Sys2Proof.Machine
end

