-- ==== Sys2Proof/Proofs/SourceAnswers.lean ====
section
/-! SUPPORT. An answer to the read of a source pixel in a settled part: it is kept, and where it is the next pixel's it is
taken up. -/

namespace Sys2Proof.Machine

set_option Elab.async false

/-! ## Answers kept and taken (R26) -/

theorem State.react_setEngine (s : State) (e : Engine) (hq : s.quiescent) :
    State.react { s with engine := e } = State.takeAhead { s with engine := e } :=
  State.react_of_sameButEngine (s := s) ⟨rfl, rfl, rfl, rfl, rfl, rfl⟩ hq

/-- A settled part whose engine waits for a source pixel has no answer to it. -/
theorem State.nextAnswer_missing (s : State) (hq : s.quiescent) (ha : s.active = true)
    (hp : s.engine.phase = .source) : sparseRead s.engine.ahead (s.engine.processed + 1) = none := by
  have hnone : s.takeAhead = none := s.react_none.mp hq State.takeAhead (by simp [reactions])
  cases hr : sparseRead s.engine.ahead (s.engine.processed + 1) with
  | none => rfl
  | some answer => rw [s.takeAhead_of_answer answer ha hp hr] at hnone; cases hnone

/-- The answer for a later pixel is kept. -/
theorem State.sourceAnswered_later (s : State) (n : Nat) (word : Word) (hq : s.quiescent) (ha : s.active = true)
    (hp : s.engine.phase = .source) (he : s.sourceExpected n = true) (hn : n ≠ s.engine.processed + 1) :
    s.sourceAnswered n (.data word)
      = { s with engine := { s.engine with ahead := sparseWrite s.engine.ahead n (some word) } } := by
  rw [s.sourceAnswered_data n word ha he]
  apply State.settle_of_quiet
  rw [s.react_setEngine _ hq]
  apply State.takeAhead_of_missing
  rw [sparseRead_write, if_neg hn.symm]
  exact s.nextAnswer_missing hq ha hp

/-- The answer for the next pixel is taken up. -/
theorem State.sourceAnswered_next (s : State) (word : Word) (hq : s.quiescent) (ha : s.active = true)
    (hp : s.engine.phase = .source) (he : s.sourceExpected (s.engine.processed + 1) = true) :
    s.sourceAnswered (s.engine.processed + 1) (.data word) = (s.takeSource (some word)).settle := by
  rw [s.sourceAnswered_data _ word ha he]
  apply State.settle_of_react
  rw [s.react_setEngine _ hq]
  have hr : sparseRead (sparseWrite s.engine.ahead (s.engine.processed + 1) (some word)) (s.engine.processed + 1)
      = some (some word) := (sparseRead_write _ _ _ _).trans (if_pos rfl)
  refine (State.takeAhead_of_answer
    { s with engine := { s.engine with ahead := sparseWrite s.engine.ahead (s.engine.processed + 1) (some word) } }
    (some word) ha hp hr).trans ?_
  dsimp only
  rw [sparseErase_write _ _ _ (s.sourceExpected_unanswered _ he)]

/-- A source pixel that the key lets pass is presented, and nothing more follows. -/
theorem State.takeSource_written_quiet (s : State) (p : Pixel) (hq : s.quiescent) :
    State.settle { s with engine := { s.engine with phase := .write p } }
      = { s with engine := { s.engine with phase := .write p } } := by
  apply State.settle_of_quiet
  rw [s.react_setEngine _ hq]
  exact State.takeAhead_of_phase _ (by simp)

/-! ## A source pixel passed over (R15, R30) -/

/-- A source pixel passed over with the cursor stepped, the next one not taken up yet. -/
def State.passedOver (s : State) (k : StreamId) (c : ContextId) (w : Window) (pos : Position) (phase : EnginePhase) : State :=
  { s.setContext k c (.set w (w.stepFrom pos)) with
    engine := { s.engine with processed := s.engine.processed + 1, phase := phase } }

section
variable (s : State) (j : Job) (c : ContextId) (m : Mode) (source : Address) (f : Format) (count : Nat)
  (run : Option Run) (key : Option Key) (w : Window) (pos : Position) (hj : s.runningJob = some j)
  (hw : j.work = .transfer c m source f count run key)

theorem State.passedOver_runningJob (k : StreamId) (phase : EnginePhase) :
    (s.passedOver k c w pos phase).runningJob = s.runningJob := rfl

/-- In a settled part, only the taking of a source answer may follow a pixel passed over. -/
theorem State.passedOver_react (k : StreamId) (phase : EnginePhase) (hq : s.quiescent) :
    (s.passedOver k c w pos phase).react = (s.passedOver k c w pos phase).takeAhead :=
  State.react_of_sameButEngine (s := s) ⟨rfl, rfl, rfl, rfl, rfl, rfl⟩ hq

include hj hw

theorem State.pixelDone_passedOver (hc : s.context j.ref.stream c = .set w (some pos)) :
    s.pixelDone false = s.passedOver j.ref.stream c w pos .idle := by
  have hwc : j.work.context = c := by rw [hw]; rfl
  rw [s.pixelDone_of_set j w pos false hj (by rw [hwc]; exact hc), hwc]
  rfl

theorem State.passedOver_cursor (phase : EnginePhase) :
    (s.passedOver j.ref.stream c w pos phase).cursor = w.stepFrom pos := by
  have hwc : j.work.context = c := by rw [hw]; rfl
  refine State.cursor_of_set _ j w _ hj ?_
  rw [hwc]
  exact State.context_setContext_same s _ _ _

/-- What follows a source pixel passed over: the count and the cursor decide. -/
theorem State.passedOver_nextPixel :
    (count ≤ s.engine.processed + 1 →
      (s.passedOver j.ref.stream c w pos .idle).nextPixel
        = (s.passedOver j.ref.stream c w pos .idle).endJob
          { status := .done, valueA := BitVec.ofNat 32 s.engine.written, flags := { gateBypassed := j.bypassed } })
    ∧ (s.engine.processed + 1 < count → w.stepFrom pos = none →
      (s.passedOver j.ref.stream c w pos .idle).nextPixel
        = (s.passedOver j.ref.stream c w pos .idle).endJob
          { status := .done, valueA := BitVec.ofNat 32 s.engine.written
            valueB := BitVec.ofNat 32 (count - (s.engine.processed + 1))
            flags := { overrun := true, gateBypassed := j.bypassed } })
    ∧ (s.engine.processed + 1 < count → w.stepFrom pos ≠ none →
      (s.passedOver j.ref.stream c w pos .idle).nextPixel = s.passedOver j.ref.stream c w pos .source) := by
  have hn : j.work.count? = some count := by rw [hw]; rfl
  have hphase : j.work.nextPhase = .source := by rw [hw]; rfl
  obtain ⟨hend, hover, hnext⟩ := (s.passedOver j.ref.stream c w pos .idle).nextPixel_counted j count hj hn
  rw [s.passedOver_cursor j c m source f count run key w pos hj hw] at hover hnext
  rw [hphase] at hnext
  exact ⟨hend, hover, hnext⟩

/-- The next pixel's answer that has come in ahead is taken up in its turn. -/
theorem State.passedOver_takeAhead (answer : Option Word) (ha : s.active = true) (v : State)
    (hv : v = { s.passedOver j.ref.stream c w pos .source with
      engine := { (s.passedOver j.ref.stream c w pos .source).engine with
        ahead := sparseErase s.engine.ahead (s.engine.processed + 1 + 1) } })
    (hr : sparseRead s.engine.ahead (s.engine.processed + 1 + 1) = some answer) :
    (answer = none →
      (s.passedOver j.ref.stream c w pos .source).takeAhead = some (v.failJob .sourceError s.engine.written))
    ∧ ∀ next : Word, answer = some next →
      (keySkips key (widenPixel f next) = false →
        (s.passedOver j.ref.stream c w pos .source).takeAhead
          = some { v with engine := { v.engine with phase := .write (widenPixel f next) } })
      ∧ (keySkips key (widenPixel f next) = true →
        (s.passedOver j.ref.stream c w pos .source).takeAhead = some (v.pixelDone false).nextPixel) := by
  have htake : (s.passedOver j.ref.stream c w pos .source).takeAhead = some (v.takeSource answer) := by
    rw [hv]
    exact State.takeAhead_of_answer _ answer ha rfl hr
  have hvj : v.runningJob = some j := by rw [hv]; exact hj
  have hvw : v.engine.written = s.engine.written := by rw [hv]; rfl
  rw [htake]
  refine ⟨?_, ?_⟩
  · rintro rfl
    rw [v.takeSource_busError j c m source f count run key hvj hw, hvw]
  · rintro next rfl
    exact ⟨fun hk => by rw [v.takeSource_written j c m source f count run key hvj hw next hk],
      fun hk => by rw [v.takeSource_skipped j c m source f count run key hvj hw next hk]⟩

end

/-- Settles O49: the kept answer leaves the taking of the next pixel's answer as the only reaction there may be. -/
theorem sourceAnswersAreTaken : Obligations.SourceAnswersAreTaken := by
  intro s word n j c m source f count run key w pos hq ha hp hj hw hc he
  have hsource : s.passedOver j.ref.stream c w pos .source
      = { s.setContext j.ref.stream c (.set w (w.stepFrom pos)) with
          engine := { s.engine with processed := s.engine.processed + 1 } } := by
    rw [State.passedOver, ← hp]
  have hexec : ∀ u : State, s.sourceAnswered n (.data word) = u → exec (.sourceReadAnswer n (.data word)) s = .next u :=
    fun u h => congrArg Host.Outcome.next h
  obtain ⟨hend, hover, hnext⟩ := s.passedOver_nextPixel j c m source f count run key w pos hj hw
  have hskipped : n = s.engine.processed + 1 → keySkips key (widenPixel f word) = true →
      s.sourceAnswered n (.data word) = (s.passedOver j.ref.stream c w pos .idle).nextPixel.settle := by
    rintro rfl hk
    rw [s.sourceAnswered_next word hq ha hp he, s.takeSource_skipped j c m source f count run key hj hw word hk,
      s.pixelDone_passedOver j c m source f count run key w pos hj hw hc]
  refine ⟨?_, fun hn hk hahead hcount hstep => ?_, fun hn hk hcount hstep => ?_, fun hn hk => ?_, fun hn => ?_⟩
  · rintro rfl hk
    apply hexec
    rw [s.sourceAnswered_next word hq ha hp he, s.takeSource_written j c m source f count run key hj hw word hk,
      s.takeSource_written_quiet _ hq]
  · apply hexec
    rw [hskipped hn hk, hnext hcount hstep, ← hsource]
    apply State.settle_of_quiet
    rw [s.passedOver_react c w pos _ _ hq]
    apply State.takeAhead_of_missing
    change sparseRead s.engine.ahead _ = none
    rw [hahead]
    rfl
  · refine ⟨s.passedOver j.ref.stream c w pos .source, hsource, hexec _ (by rw [hskipped hn hk, hnext hcount hstep]),
      fun hr => ?_, fun answer hr => ⟨_, rfl, s.passedOver_react c w pos _ _ hq, ?_⟩⟩
    · rw [hn] at hr
      exact State.takeAhead_of_missing _ hr
    · rw [hn] at hr ⊢
      exact s.passedOver_takeAhead j c m source f count run key w pos hj hw answer ha _ rfl hr
  · exact ⟨s.passedOver j.ref.stream c w pos .idle, rfl, fun h => hexec _ (by rw [hskipped hn hk, hend h]),
      fun h hstep => hexec _ (by rw [hskipped hn hk, hover h hstep])⟩
  · exact hexec _ (s.sourceAnswered_later n word hq ha hp he hn)

end Sys2Proof.Machine
end

