-- ==== Sys2Proof/Proofs/CleanStreams.lean ====
section
/-! SUPPORT. A stream that a FLUSH has left clean stays so while the part settles: no act of settling brings anything of a
stream that has no current record, no waiter, no palette read, no unlatched entry and no job that is not ENDED. -/

namespace Sys2Proof.Machine

set_option Elab.async false

/-! ## A clean stream -/

/-- The stream stands as its FLUSH leaves it, with this ring. -/
structure Stream.Emptied (st : Stream) (r : Ring) : Prop where
  current : st.current = none
  halt : st.halt = none
  batch : st.batch = 0
  ring : st.ring = some r

/-- Nothing of stream `k` is under way on the head, its lease aside. -/
structure Head.FreeOf (hd : Head) (k : StreamId) : Prop where
  waiters : ∀ w ∈ hd.lease.waiters, w.ref.stream ≠ k
  reading : ∀ p : PaletteRead, hd.staging.reading = some p → p.ref.stream ≠ k
  entries : ∀ e ∈ hd.present.entries, e.ref.stream = k → e.unlatched = false

/-- Every job of stream `k` is ENDED. -/
def allEnded (k : StreamId) (jobs : List Job) : Prop := ∀ j ∈ jobs, j.ref.stream = k → j.isEnded = true

/-- Nothing of stream `k` is under way. -/
structure State.CleanOf (s : State) (k : StreamId) (r : Ring) : Prop where
  stream : (s.stream k).Emptied r
  contexts : ∀ c : ContextId, s.context k c = .unset
  heads : ∀ h : HeadId, (s.head h).FreeOf k
  jobs : allEnded k s.jobs

theorem Stream.Emptied.of_kept {st : Stream} {r : Ring} (h : st.Emptied r) (kept : List Completion) :
    Stream.Emptied { st with kept := kept } r :=
  ⟨h.current, h.halt, h.batch, h.ring⟩

/-- What changes no context of the stream keeps it clean where it keeps the stream, the heads and the jobs so. -/
theorem State.CleanOf.of_parts {s t : State} {k : StreamId} {r : Ring} (h : s.CleanOf k r)
    (hs : (s.stream k).Emptied r → (t.stream k).Emptied r) (hc : t.contexts = s.contexts)
    (hh : ∀ i : HeadId, (s.head i).FreeOf k → (t.head i).FreeOf k) (hj : allEnded k s.jobs → allEnded k t.jobs) :
    t.CleanOf k r :=
  ⟨hs h.stream, fun c => by rw [State.context, hc]; exact h.contexts c, fun i => hh i (h.heads i), hj h.jobs⟩

theorem State.CleanOf.running_ne {s : State} {k : StreamId} {r : Ring} (h : s.CleanOf k r) {j : Job}
    (hj : s.runningJob = some j) : j.ref.stream ≠ k := by
  intro hk
  have hended := h.jobs j (s.runningJob_mem j hj) hk
  have hrunning : j.state = .running := of_decide_eq_true (List.find?_some (p := Job.isRunning) hj)
  simp [Job.isEnded, hrunning] at hended

theorem State.CleanOf.current_ne {s : State} {k : StreamId} {r : Ring} (h : s.CleanOf k r) {i : StreamId}
    {c : CurrentRecord} (hc : (s.stream i).current = some c) : i ≠ k := by
  rintro rfl
  rw [h.stream.current] at hc
  cases hc

theorem State.CleanOf.setStream_ne {s : State} {k : StreamId} {r : Ring} (h : s.CleanOf k r) {i : StreamId} (hi : i ≠ k)
    (x : Stream) : (s.setStream i x).CleanOf k r :=
  h.of_parts (fun hs => by rw [State.stream_setStream, if_neg (Ne.symm hi)]; exact hs) rfl (fun _ hd => hd) id

theorem State.CleanOf.setHead {s : State} {k : StreamId} {r : Ring} (h : s.CleanOf k r) {i : HeadId} {x : Head}
    (hx : (s.head i).FreeOf k → x.FreeOf k) : (s.setHead i x).CleanOf k r :=
  h.of_parts id rfl (fun j hd => by
    rw [State.head_setHead]
    split
    · rename_i e; subst e; exact hx hd
    · exact hd) id

theorem State.CleanOf.setContext_ne {s : State} {k : StreamId} {r : Ring} (h : s.CleanOf k r) {i : StreamId} (hi : i ≠ k)
    (c : ContextId) (x : Context) : (s.setContext i c x).CleanOf k r := by
  refine ⟨h.stream, fun d => ?_, h.heads, h.jobs⟩
  rw [State.context_setContext, if_neg (fun e => hi e.1.symm)]
  exact h.contexts d

/-! ## Heads -/

section
variable {hd : Head} {k : StreamId} (h : hd.FreeOf k)
include h

theorem Head.FreeOf.of_same {x : Head} (hl : x.lease = hd.lease) (hr : x.staging.reading = hd.staging.reading)
    (he : x.present.entries = hd.present.entries) : x.FreeOf k :=
  ⟨by rw [hl]; exact h.waiters, by rw [hr]; exact h.reading, by rw [he]; exact h.entries⟩

theorem Head.FreeOf.withdraw (i : StreamId) : (hd.withdraw i).FreeOf k :=
  ⟨fun w hw => h.waiters w (List.mem_filter.mp hw).1, h.reading, h.entries⟩

theorem Head.FreeOf.abandonRead (i : StreamId) : (hd.abandonRead i).FreeOf k := by
  unfold Head.abandonRead
  split
  · split
    · exact ⟨h.waiters, fun _ hp => (by cases hp), h.entries⟩
    · exact h
  · exact h

theorem Head.FreeOf.rewindBy (i : StreamId) (point : Nat) (ring : Option Ring) : (hd.rewindBy i point ring).FreeOf k := by
  obtain ⟨hlease, hstaging, hpresent, _⟩ := hd.rewindBy_same i point ring
  exact h.of_same hlease (by rw [hstaging]) (by rw [hpresent])

theorem Head.FreeOf.abandonAndReload (head : HeadId) (i : StreamId) (counter : Word) (first : Option Word) :
    (hd.abandonAndReload head i counter first).FreeOf k := by
  have habandon : (hd.abandon head i counter first).FreeOf k :=
    ⟨h.waiters, h.reading, fun e he => h.entries e (List.mem_filter.mp he).1⟩
  unfold Head.abandonAndReload
  dsimp only
  split
  · exact habandon
  · exact habandon.of_same (Head.reload_lease _ _) (Head.reload_reading _ _) (by rw [Head.reload_present])

/-- An evaluation makes no entry unlatched that was not. -/
theorem Head.FreeOf.evaluated (jobs : List Job) (streams : Four Stream) :
    Head.FreeOf { hd with present := hd.present.evaluated jobs streams } k := by
  refine ⟨h.waiters, h.reading, fun e he hk => ?_⟩
  obtain ⟨d, hd', rfl⟩ := List.mem_map.mp he
  have hunlatched : (d.evaluated jobs streams).unlatched = d.unlatched := by
    unfold Entry.evaluated
    split
    · rename_i hw; simp [Entry.unlatched, hw.1]
    · rfl
  rw [hunlatched]
  refine h.entries d hd' ?_
  unfold Entry.evaluated at hk
  split at hk <;> exact hk

/-- A latch step leaves behind entries that are SKIPPED or LATCHED, and the others as they stand. -/
theorem Head.FreeOf.latchStep (head : HeadId) (kind : LatchKind)
    (hr : readyRun hd.present.entries kind hd.scan.frame ≠ []) : (hd.latchStep head kind).FreeOf k := by
  obtain ⟨skipped, rest, target, copies, flags, hes, _, _, _, _, heq⟩ := hd.latchStep_target head kind hr
  rw [heq]
  refine ⟨h.waiters, h.reading, fun e he hk => ?_⟩
  simp only [List.mem_append, List.mem_map] at he
  rcases he with ((he | ⟨d, _, rfl⟩) | he) | he
  · exact h.entries e (by rw [hes]; exact List.mem_append_left _ he) hk
  · rfl
  · unfold Entry.keptLatched at he
    split at he
    · cases he
    · obtain rfl := List.mem_singleton.mp he
      rfl
  · refine h.entries e ?_ hk
    rw [hes]
    exact List.mem_append_right _ (List.mem_append_right _ (List.mem_cons_of_mem _ he))

end

/-! ## Jobs -/

/-- What keeps each job's stream and its end keeps all jobs of a stream ENDED. -/
theorem allEnded.map {k : StreamId} {jobs : List Job} (h : allEnded k jobs) (f : Job → Job)
    (hf : ∀ j : Job, (f j).ref = j.ref ∧ (j.isEnded = true → (f j).isEnded = true)) : allEnded k (jobs.map f) := by
  intro j hj hk
  obtain ⟨i, hi, rfl⟩ := List.mem_map.mp hj
  obtain ⟨href, hended⟩ := hf i
  exact hended (h i hi (by rw [← href]; exact hk))

theorem allEnded.endRunningIn {k : StreamId} {jobs : List Job} (h : allEnded k jobs) (o : Outcome) :
    allEnded k (endRunningIn jobs o) :=
  h.map _ fun j => by split <;> simp [Job.isEnded]

theorem allEnded.cancelQueued {k : StreamId} {jobs : List Job} (h : allEnded k jobs) (i : StreamId) :
    allEnded k (cancelQueued jobs i) :=
  h.map _ fun j => by split <;> simp [Job.isEnded]

theorem allEnded.subset {k : StreamId} {jobs out : List Job} (h : allEnded k jobs) (ho : out ⊆ jobs) : allEnded k out :=
  fun j hj => h j (ho hj)

theorem allEnded.evaluateGates {k : StreamId} {jobs : List Job} (h : allEnded k jobs) (heads : Two Head)
    (seen : List StreamId) : allEnded k (evaluateGates heads seen jobs) := by
  intro j hj hk
  have hmap := evaluateGates_map (fun q => (q.ref, q.state)) (fun q hs => by
    obtain ⟨href, _, hstate, _⟩ := q.evaluateGate_same hs
    rw [href, hstate]) heads seen jobs
  obtain ⟨i, hi, hij⟩ := List.mem_map.mp (hmap ▸ List.mem_map_of_mem (f := fun q : Job => (q.ref, q.state)) hj)
  obtain ⟨href, hstate⟩ := Prod.mk.inj hij
  have hended := h i hi (by rw [href]; exact hk)
  unfold Job.isEnded at hended ⊢
  rw [← hstate]
  exact hended

/-- The engine's choice is a QUEUED job, so none of the stream. -/
theorem allEnded.runOldestEligible {k : StreamId} {jobs out : List Job} (h : allEnded k jobs) (seen : List StreamId)
    (ho : runOldestEligible seen jobs = some out) : allEnded k out := by
  obtain ⟨before, after, q, rfl, hq, rfl⟩ := runOldestEligible_split seen jobs out ho
  intro j hj hk
  rcases List.mem_append.mp hj with hj | hj
  · exact h j (List.mem_append_left _ hj) hk
  · rcases List.mem_cons.mp hj with rfl | hj
    · have hended := h q (by simp) hk
      simp [Job.isEnded, hq] at hended
    · exact h j (by simp [hj]) hk

/-! ## Moves -/

theorem State.CleanOf.jobsRemoved {s : State} {k : StreamId} {r : Ring} (h : s.CleanOf k r) {jobs : List Job}
    (hj : allEnded k s.jobs → allEnded k jobs) : (s.jobsRemoved jobs).CleanOf k r := by
  refine h.of_parts id rfl (fun i hd => ?_) fun hs => (hj hs).evaluateGates _ _
  have hhead : (s.jobsRemoved jobs).head i
      = { s.head i with present := (s.head i).present.evaluated jobs s.streams } := Two.get_map _ _ _
  rw [hhead]
  exact hd.evaluated _ _

theorem State.CleanOf.endJob {s : State} {k : StreamId} {r : Ring} (h : s.CleanOf k r) (o : Outcome) :
    (s.endJob o).CleanOf k r := by
  unfold State.endJob
  split
  · exact h
  · split
    · have hfree : State.CleanOf { s with engine := .free } k r := h.of_parts id rfl (fun _ hd => hd) id
      exact hfree.jobsRemoved fun hs => hs.subset (List.filter_subset_self _)
    · exact h.of_parts id rfl (fun _ hd => hd) fun hs => hs.endRunningIn o

theorem State.CleanOf.haltByJob {s : State} {k : StreamId} {r : Ring} (h : s.CleanOf k r) {i : StreamId} (hi : i ≠ k)
    (point : Nat) : (s.haltByJob i point).CleanOf k r := by
  refine (h.setStream_ne hi _).of_parts (t := s.haltByJob i point) id rfl (fun j hd => ?_) id
  have hhead : (s.haltByJob i point).head j
      = (((s.head j).withdraw i).abandonRead i).rewindBy i point (s.stream i).ring := Two.get_map _ _ _
  rw [hhead]
  exact ((Head.FreeOf.withdraw hd i).abandonRead i).rewindBy i point _

theorem State.CleanOf.abandonFrom {s : State} {k : StreamId} {r : Ring} (h : s.CleanOf k r) (i : StreamId)
    (first : Option Word) : (s.abandonFrom i first).CleanOf k r := by
  refine h.of_parts id rfl (fun j hd => ?_) id
  match j with
  | 0 => exact hd.abandonAndReload _ _ _ _
  | 1 => exact hd.abandonAndReload _ _ _ _

theorem State.CleanOf.failJob {s : State} {k : StreamId} {r : Ring} (h : s.CleanOf k r) (status : Status) (written : Nat) :
    (s.failJob status written).CleanOf k r := by
  unfold State.failJob
  split
  · exact h
  · rename_i j hj
    dsimp only
    apply State.CleanOf.abandonFrom
    split
    · exact h.of_parts id rfl (fun _ hd => hd) fun hs => (hs.endRunningIn _).cancelQueued _
    · refine State.CleanOf.haltByJob ?_ (h.running_ne hj) _
      exact h.of_parts id rfl (fun _ hd => hd) fun hs => (hs.endRunningIn _).cancelQueued _

theorem Follows.cleanOf {s t : State} {k : StreamId} {r : Ring} (m : Follows s t) (h : s.CleanOf k r) : t.CleanOf k r := by
  cases m with
  | choose => exact h.of_parts id rfl (fun _ hd => hd) id
  | phase p => exact h.of_parts id rfl (fun _ hd => hd) id
  | pixelDone wrote =>
    unfold State.pixelDone
    split
    · exact h
    · rename_i j hj
      exact (h.setContext_ne (h.running_ne hj) _ _).of_parts id rfl (fun _ hd => hd) id
  | endJob o => exact h.endJob o
  | failJob status written => exact h.failJob status written
  | window j c w hj _ => exact h.setContext_ne (h.running_ne hj) _ _
  | placed j m hj => exact h.setContext_ne (h.running_ne hj) _ _

theorem State.CleanOf.finish {s : State} {k : StreamId} {r : Ring} (h : s.CleanOf k r) {i : StreamId} (hi : i ≠ k)
    (o : Outcome) : (s.finish i o).CleanOf k r := by
  unfold State.finish
  split
  · exact h.setStream_ne hi _
  · exact h

/-- A PRESENT of another stream brings an entry of that stream. -/
theorem State.CleanOf.dispatchPresent {s t : State} {k i : StreamId} {r : Ring} (h : s.CleanOf k r)
    (ht : s.dispatchPresent i = some t) : t.CleanOf k r := by
  obtain ⟨c, q, u, e, hc, _, _, rfl, he, rfl⟩ := s.dispatchPresent_some t i ht
  have hi := h.current_ne hc
  have hstream : e.ref.stream = i := by
    rw [he]
    unfold Entry.evaluated
    split <;> rfl
  refine (h.setStream_ne hi _).setHead fun hd => ⟨hd.waiters, hd.reading, fun d hmem hk => ?_⟩
  rcases List.mem_append.mp hmem with hmem | hmem
  · exact hd.entries d hmem hk
  · obtain rfl := List.mem_singleton.mp hmem
    exact absurd (hstream.symm.trans hk) hi

/-- A PALETTE of another stream begins a read of that stream. -/
theorem State.CleanOf.dispatchPalette {s t : State} {k i : StreamId} {r : Ring} (h : s.CleanOf k r)
    (ht : s.dispatchPalette i = some t) : t.CleanOf k r := by
  obtain ⟨c, q, read, hc, _, _, href, rfl⟩ := s.dispatchPalette_some t i ht
  have hi := h.current_ne hc
  refine State.CleanOf.setStream_ne ?_ hi _
  refine h.setHead fun hd => ⟨hd.waiters, fun p hp => ?_, hd.entries⟩
  obtain rfl := Option.some.inj hp
  rw [href]
  exact hi

/-- A job record of another stream brings a job of that stream. -/
theorem State.CleanOf.dispatchJob {s t : State} {k i : StreamId} {r : Ring} (h : s.CleanOf k r)
    (ht : s.dispatchJob i = some t) : t.CleanOf k r := by
  obtain ⟨c, kind, work, gate, hc, _, _, _, rfl⟩ := s.dispatchJob_some t i ht
  have hi := h.current_ne hc
  refine (h.setStream_ne hi { s.stream i with current := none }).of_parts id rfl (fun _ hd => hd) fun hs => ?_
  refine allEnded.evaluateGates (fun j hj hk => ?_) _ _
  rcases List.mem_append.mp hj with hj | hj
  · exact hs j hj hk
  · obtain rfl := List.mem_singleton.mp hj
    exact absurd hk hi

theorem State.CleanOf.placeFrom {s t : State} {k : StreamId} {r : Ring} {p : Placer} (h : s.CleanOf k r)
    (ht : s.placeFrom p = some t) : t.CleanOf k r := by
  have hplace : ∀ (u : State) (cs : List Completion), u.CleanOf k r → (u.place cs).CleanOf k r :=
    fun u cs hu => hu.of_parts id rfl (fun _ hd => hd) id
  rcases s.placeFrom_cases t p ht with ⟨c, jobs, hj, rfl⟩ | ⟨i, c, before, after, _, rfl⟩ | ⟨i, c, before, after, _, rfl⟩
    | ⟨i, c, before, after, _, rfl⟩
  · obtain ⟨before, after, j, o, b, hs, _, rfl, _⟩ := takeEnded_split s.jobs jobs c hj
    refine (hplace s [c] h).jobsRemoved fun hended => allEnded.subset hended fun q hq => ?_
    change q ∈ s.jobs
    rw [hs]
    rcases List.mem_append.mp hq with hq | hq
    · exact List.mem_append_left _ hq
    · exact List.mem_append_right _ (List.mem_cons_of_mem _ hq)
  · refine hplace _ _ (h.of_parts (fun hs => ?_) rfl (fun _ hd => hd) id)
    rw [State.stream_setStream]
    split
    · rename_i e; subst e; exact hs.of_kept _
    · exact hs
  · exact hplace _ _ (h.setHead fun hd => hd.of_same rfl rfl rfl)
  · exact hplace _ _ (h.setHead fun hd => hd.of_same rfl rfl rfl)

theorem Starts.cleanOf {s t : State} {k : StreamId} {r : Ring} (m : Starts s t) (h : s.CleanOf k r) : t.CleanOf k r := by
  cases m with
  | stop _ _ => exact h.of_parts id rfl (fun _ hd => hd) id
  | latch i _ _ hr => exact h.setHead fun hd => hd.latchStep i .immediate hr
  | answer n a _ => exact h.of_parts id rfl (fun _ hd => hd) id
  | wait i c o hc _ _ => exact h.finish (h.current_ne hc) o
  | present _ i _ ht => exact h.dispatchPresent ht
  | palette _ i _ ht => exact h.dispatchPalette ht
  | job _ i _ ht => exact h.dispatchJob ht
  | engine jobs _ hj => exact h.of_parts id rfl (fun _ hd => hd) fun hs => hs.runOldestEligible _ hj
  | place _ p ht => exact h.placeFrom ht
  | grant _ ht =>
    obtain ⟨_, _, _, _, rfl⟩ := s.grant_some t ht
    exact h.of_parts id rfl (fun _ hd => hd) id
  | write _ ht =>
    obtain ⟨_, _, rfl⟩ := s.issueWrite_some t ht
    exact h.of_parts id rfl (fun _ hd => hd) id

/-- Settling keeps a stream clean. -/
theorem State.CleanOf.settle {s : State} {k : StreamId} {r : Ring} (h : s.CleanOf k r) : s.settle.CleanOf k r :=
  State.settle_keeps_of_moves (fun u => u.CleanOf k r) (fun _ _ m hu => m.cleanOf hu) (fun _ _ m hu => m.cleanOf hu) s h

end Sys2Proof.Machine
end

