-- ==== Sys2Proof/Proofs/Flush.lean ====
section
/-! SUPPORT. A FLUSH before what it brings about in the same step: the stream it empties, the jobs it ends, and each head as
it leaves it. -/

namespace Sys2Proof.Machine

set_option Elab.async false

/-! ## The stream (R63) -/

/-- The completion of a current record that a FLUSH ends. -/
def CurrentRecord.cancelled (c : CurrentRecord) (k : StreamId) : Completion :=
  completionOf (headerRef k c) (kindByte c.slots) { status := .cancelled } none

/-- The stream as its FLUSH leaves it. -/
def Stream.flushed (st : Stream) (k : StreamId) : Stream :=
  { ring := st.ring.map (fun r => { r with fetch := r.post }), halt := none, batch := 0, current := none
    kept := st.kept ++ st.current.toList.map (fun c => c.cancelled k) }

theorem State.finish_cancelled_stream (s : State) (k : StreamId) :
    (s.finish k { status := .cancelled }).stream k
      = { s.stream k with
          current := none, kept := (s.stream k).kept ++ (s.stream k).current.toList.map (fun c => c.cancelled k) } := by
  cases hc : (s.stream k).current with
  | none =>
    have hsame : s.stream k = { s.stream k with current := none } := by rw [← hc]
    simpa [State.finish, hc] using hsame
  | some c =>
    rw [s.finish_of_current k _ c hc, State.finishAs, State.stream_setStream_same,
      report_of_ne_done _ _ _ _ (by decide)]
    rfl

theorem State.finish_stream_ne (s : State) (k i : StreamId) (o : Outcome) (hi : i ≠ k) :
    (s.finish k o).stream i = s.stream i := by
  unfold State.finish
  split
  · exact s.finishAs_stream_ne k i _ _ _ hi
  · rfl

theorem State.flushStream_stream (s : State) (k : StreamId) :
    (s.flushStream k).stream k = (s.stream k).flushed k := by
  change (State.setStream _ k _).stream k = _
  rw [State.stream_setStream_same, s.finish_cancelled_stream k]
  rfl

theorem State.flushStream_stream_ne (s : State) (k i : StreamId) (hi : i ≠ k) :
    (s.flushStream k).stream i = s.stream i := by
  change (State.setStream _ k _).stream i = _
  rw [State.stream_setStream, if_neg hi, s.finish_stream_ne k i _ hi]

theorem State.flushStream_heads (s : State) (k : StreamId) : (s.flushStream k).heads = s.heads := s.finish_heads k _

/-! ## The jobs (R41) -/

/-- A job as a FLUSH of stream `k` leaves it, with the pixels that the engine had written when it stopped. -/
def Job.flushed (k : StreamId) (written : Nat) (q : Job) : Job :=
  if q.ref.stream = k ∧ q.state = .running then
    { q with
      state := .ended
        { status := .cancelled, valueA := BitVec.ofNat 32 written, flags := { gateBypassed := q.bypassed } } true }
  else if q.ref.stream = k ∧ q.state = .queued then
    { q with state := .ended { status := .cancelled, flags := { gateBypassed := q.bypassed } } false }
  else q

theorem Job.flushed_ref (k : StreamId) (written : Nat) (q : Job) : (q.flushed k written).ref = q.ref := by
  unfold Job.flushed
  split
  · rfl
  · split <;> rfl

theorem Job.flushed_isEnded (k : StreamId) (written : Nat) (q : Job) (hk : q.ref.stream = k) :
    (q.flushed k written).isEnded = true := by
  cases hs : q.state <;> simp [Job.flushed, Job.isEnded, hk, hs]

/-- The engine is kept busy by one job alone. -/
theorem State.oneEngineJob.unique {s : State} (h : s.oneEngineJob) {p q : Job} (hp : p ∈ s.jobs) (hq : q ∈ s.jobs)
    (ep : p.holdsEngine = true) (eq : q.holdsEngine = true) : p = q := by
  have hmem : ∀ x : Job, x ∈ s.jobs → x.holdsEngine = true → x ∈ s.jobs.filter Job.holdsEngine :=
    fun x hx ex => List.mem_filter.mpr ⟨hx, ex⟩
  obtain ⟨x, hx⟩ := List.length_eq_one_iff.mp (le_antisymm h (List.length_pos_of_mem (hmem p hp ep)))
  rw [hx] at hmem
  exact (List.mem_singleton.mp (hmem p hp ep)).trans (List.mem_singleton.mp (hmem q hq eq)).symm

theorem State.runningJob_state (s : State) (j : Job) (h : s.runningJob = some j) : j.state = .running :=
  of_decide_eq_true (List.find?_some (p := Job.isRunning) h)

/-- There is no RUNNING job in the list but the one the engine runs. -/
theorem State.oneEngineJob.running {s : State} (h : s.oneEngineJob) {q : Job} (hq : q ∈ s.jobs)
    (hr : q.state = .running) : s.runningJob = some q := by
  cases hj : s.runningJob with
  | none => exact absurd (decide_eq_true hr) (List.find?_eq_none.mp hj q hq)
  | some j =>
    have hjr := s.runningJob_state j hj
    rw [h.unique (s.runningJob_mem j hj) hq (by simp [Job.holdsEngine, hjr]) (by simp [Job.holdsEngine, hr])]

/-- The engine stops after the pixel in hand or before it (R16; log 3). -/
theorem State.stopEngine_written (s : State) :
    s.stopEngine.engine.written = s.engine.written
      ∨ s.engine.phase.inPixel = true ∧ s.stopEngine.engine.written = s.engine.written + 1 := by
  have hdone : ∀ u : State, (u.pixelDone true).engine.written = u.engine.written
      ∨ (u.pixelDone true).engine.written = u.engine.written + 1 := fun u => by
    unfold State.pixelDone
    split
    · exact .inl rfl
    · exact .inr rfl
  have hland : ∀ u : State, u.landPixel.engine.written = u.engine.written
      ∨ u.landPixel.engine.written = u.engine.written + 1 := fun u => by
    unfold State.landPixel
    split
    · rename_i p _
      have := hdone (u.writeAtCursor p)
      rwa [u.writeAtCursor_engine p] at this
    · exact hdone u
    all_goals exact .inl rfl
  unfold State.stopEngine
  dsimp only
  split
  · rename_i hp
    split
    · exact (hland { s with choices := s.choices + 1 }).imp id fun h => ⟨hp, h⟩
    · exact .inl rfl
  · exact .inl rfl

/-- A FLUSH ends the QUEUED jobs of its stream and its RUNNING one. -/
theorem State.flushJobs_jobs (s : State) (k : StreamId) (h : s.oneEngineJob) :
    ∃ written : Nat,
      (written = s.engine.written ∨ s.engine.phase.inPixel = true ∧ written = s.engine.written + 1)
        ∧ (s.flushJobs k).jobs = s.jobs.map (Job.flushed k written) := by
  by_cases hm : ∃ j, s.runningJob = some j ∧ j.ref.stream = k
  · obtain ⟨j, hj, hk⟩ := hm
    refine ⟨s.stopEngine.engine.written, s.stopEngine_written, ?_⟩
    rw [s.flushJobs_running k j hj hk]
    simp only [cancelQueued, endRunningIn, List.map_map]
    refine List.map_congr_left fun q hq => ?_
    cases hs : q.state with
    | running =>
      obtain rfl : j = q := Option.some.inj (hj.symm.trans (h.running hq hs))
      simp [Job.flushed, Job.isRunning, Job.isQueued, hs, hk, Flags.bypass]
    | queued => simp [Job.flushed, Job.isRunning, Job.isQueued, Job.cancelledOutcome, hs, Flags.bypass]
    | ended o b => simp [Job.flushed, Job.isRunning, Job.isQueued, hs]
  · refine ⟨s.engine.written, .inl rfl, ?_⟩
    rw [s.flushJobs_other k fun j hj hk => hm ⟨j, hj, hk⟩]
    refine List.map_congr_left fun q hq => ?_
    cases hs : q.state with
    | running =>
      have hne : q.ref.stream ≠ k := fun hk => hm ⟨q, h.running hq hs, hk⟩
      simp [Job.flushed, Job.isQueued, hs, hne]
    | queued => simp [Job.flushed, Job.isQueued, Job.cancelledOutcome, hs, Flags.bypass]
    | ended o b => simp [Job.flushed, Job.isQueued, hs]

theorem State.flushJobs_contexts (s : State) (k : StreamId) (c : ContextId) : (s.flushJobs k).context k c = .unset := by
  have hset : ∀ x : Four (Four Context), ((x.set k (.all .unset)).get k).get c = .unset := fun x => by
    rw [Four.get_set_same, Four.get_all]
  by_cases hm : ∃ j, s.runningJob = some j ∧ j.ref.stream = k
  · obtain ⟨j, hj, hk⟩ := hm
    rw [s.flushJobs_running k j hj hk]
    exact hset _
  · rw [s.flushJobs_other k fun j hj hk => hm ⟨j, hj, hk⟩]
    exact hset _

theorem State.flushJobs_same (s : State) (k : StreamId) :
    (s.flushJobs k).streams = s.streams ∧ (s.flushJobs k).heads = s.heads := by
  by_cases hm : ∃ j, s.runningJob = some j ∧ j.ref.stream = k
  · obtain ⟨j, hj, hk⟩ := hm
    rw [s.flushJobs_running k j hj hk]
    exact ⟨s.stopEngine_streams, s.stopEngine_heads⟩
  · rw [s.flushJobs_other k fun j hj hk => hm ⟨j, hj, hk⟩]
    exact ⟨rfl, rfl⟩

end Sys2Proof.Machine
end

