-- ==== Sys2Proof/Proofs/FlushHeads.lean ====
section
/-! SUPPORT. A FLUSH on the heads: entries abandoned, the lease handed on, the staging set reloaded; and the clean stream it
leaves. -/

namespace Sys2Proof.Machine

set_option Elab.async false

/-! ## Reloads (R125) -/

theorem Head.reload_picture (hd : Head) (b : Bool) :
    (hd.reload b).staging.picture = (newestUnlatched hd.present.entries).elim hd.scan.active Entry.snapshot := by
  unfold Head.reload
  dsimp only
  cases newestUnlatched hd.present.entries <;> split <;> rfl

theorem Head.reload_palette (hd : Head) (b : Bool) :
    (hd.reload b).staging.palette
      = if hd.staging.dirty = true ∨ b = true then hd.scan.palette else hd.staging.palette := by
  unfold Head.reload
  simp only [← Bool.or_eq_true]
  split <;> rfl

theorem Head.reload_dirty (hd : Head) (b : Bool) : (hd.reload b).staging.dirty = false := by
  unfold Head.reload
  dsimp only
  split
  · rfl
  · rename_i h
    exact (Bool.or_eq_false_iff.mp (Bool.eq_false_iff.mpr h)).1

/-! ## A head without the stream's waiter and palette read (R63) -/

/-- The head with the stream's waiter withdrawn and its palette read abandoned. -/
def Head.withdrawn (hd : Head) (k : StreamId) : Head := (hd.withdraw k).abandonRead k

theorem Head.withdrawn_same (hd : Head) (k : StreamId) :
    (hd.withdrawn k).present = hd.present ∧ (hd.withdrawn k).scan = hd.scan
      ∧ (hd.withdrawn k).staging.picture = hd.staging.picture ∧ (hd.withdrawn k).staging.palette = hd.staging.palette
      ∧ (hd.withdrawn k).staging.dirty = hd.staging.dirty
      ∧ (hd.withdrawn k).lease
        = { hd.lease with waiters := hd.lease.waiters.filter (fun w => decide (w.ref.stream ≠ k)) } := by
  obtain ⟨hpresent, hscan, _, _, hlease, hpicture, hpalette, hdirty⟩ := (hd.withdraw k).abandonRead_same k
  exact ⟨hpresent, hscan, hpicture, hpalette, hdirty, hlease⟩

theorem Head.withdrawn_reading (hd : Head) (k : StreamId) :
    (hd.withdrawn k).staging.reading = hd.staging.reading.filter (fun r => decide (r.ref.stream ≠ k)) := by
  cases hr : hd.staging.reading with
  | none => simp [Head.withdrawn, Head.abandonRead, Head.withdraw, hr]
  | some r => by_cases hk : r.ref.stream = k <;>
      simp [Head.withdrawn, Head.abandonRead, Head.withdraw, Option.filter_some, hr, hk]

/-! ## Abandoned entries (R122, R124) -/

/-- The entry is one that a FLUSH of stream `k` abandons. -/
def Entry.flushedBy (e : Entry) (k : StreamId) : Bool := e.condemned k 0 none

theorem Entry.flushedBy_iff (e : Entry) (k : StreamId) :
    e.flushedBy k = true ↔ e.unlatched = true ∧ e.ref.stream = k := by
  simp [Entry.flushedBy, Entry.condemned]

/-- The completion of an entry that a FLUSH abandons on head `h`. -/
def Entry.abandoned (e : Entry) (h : HeadId) : Completion :=
  completionOf e.ref 0x24 { status := .abandoned, valueB := BitVec.ofNat 32 e.missed } (some h)

theorem Entry.reportAs_abandoned (e : Entry) (h : HeadId) : e.reportAs h .abandoned 0 {} = [e.abandoned h] :=
  report_of_ne_done _ _ _ _ (by simp)

theorem flatMap_reportAs_abandoned (es : List Entry) (h : HeadId) :
    es.flatMap (fun e => e.reportAs h .abandoned 0 {}) = es.map (fun e => e.abandoned h) := by
  simp only [Entry.reportAs_abandoned, List.map_eq_flatMap]

/-! ## The lease handed on (R74, R79) -/

/-- The lease handed on to its first waiter, or FREE. -/
def Lease.handedOn (l : Lease) : Lease :=
  { holder := l.waiters.head?.map (fun w => w.ref.stream), waiters := l.waiters.tail }

/-- The stream whose waiting CLAIM is DONE. -/
def Stream.claimed (st : Stream) (w : Waiter) : Stream :=
  { st with current := none, kept := st.kept ++ report w.ref 0x10 { status := .done } }

theorem State.finishAs_claimed (s : State) (w : Waiter) (i : StreamId) :
    (s.finishAs w.ref.stream w.ref Kind.claim.code { status := .done }).stream i
      = if i = w.ref.stream then (s.stream w.ref.stream).claimed w else s.stream i := by
  rw [State.finishAs, State.stream_setStream]
  rfl

theorem State.handOn_head (s : State) (h i : HeadId) (b : Bool) :
    (s.handOn h b).head i
      = if i = h then Head.reload { s.head h with lease := (s.head h).lease.handedOn } b else s.head i := by
  unfold State.handOn
  dsimp only
  split
  · rename_i hw
    rw [State.head_setHead, Lease.handedOn, hw]
    rfl
  · rename_i w rest hw
    rw [State.finishAs, State.head_setStream, State.head_setHead, Lease.handedOn, hw]
    rfl

theorem State.handOn_stream_free (s : State) (h : HeadId) (b : Bool) (hw : (s.head h).lease.waiters = [])
    (i : StreamId) : (s.handOn h b).stream i = s.stream i := by
  simp only [State.handOn, hw]
  rfl

theorem State.handOn_stream_waiter (s : State) (h : HeadId) (b : Bool) (w : Waiter) (rest : List Waiter)
    (hw : (s.head h).lease.waiters = w :: rest) (i : StreamId) :
    (s.handOn h b).stream i = if i = w.ref.stream then (s.stream w.ref.stream).claimed w else s.stream i := by
  simp only [State.handOn, hw]
  exact State.finishAs_claimed _ w i

/-! ## A head in a FLUSH -/

/-- Head `h` as a FLUSH of stream `k` leaves it, once the stream's waiter and palette read are gone. -/
def Head.flushed (hd : Head) (h : HeadId) (k : StreamId) : Head :=
  let lost := hd.condemned k 0 none
  let after := hd.abandon h k 0 none
  if hd.lease.holder = some k then
    Head.reload { after with lease := hd.lease.handedOn } (lost.any (fun e => e.pal))
  else if lost.isEmpty then after
  else after.reload (lost.any (fun e => e.pal))

theorem State.flushHead_head (s : State) (h i : HeadId) (k : StreamId) :
    (s.flushHead h k).head i = if i = h then (s.head h).flushed h k else s.head i := by
  unfold State.flushHead Head.flushed
  dsimp only
  split
  · rw [State.handOn_head, State.head_setHead_same, State.head_setHead]
    split
    · rfl
    · rfl
  · split <;> exact State.head_setHead _ _ _ _

/-- A FLUSH on a head changes no stream but that of a waiter to which the lease goes. -/
theorem State.flushHead_stream (s : State) (h : HeadId) (k i : StreamId) :
    (s.flushHead h k).stream i = s.stream i
      ∨ ∃ w ∈ (s.head h).lease.waiters, w.ref.stream = i ∧ (s.flushHead h k).stream i = (s.stream i).claimed w := by
  unfold State.flushHead
  dsimp only
  split
  · set after : State := s.setHead h ((s.head h).abandon h k 0 none) with hafter
    have hlease : (after.head h).lease.waiters = (s.head h).lease.waiters := by
      rw [hafter, State.head_setHead_same]
      rfl
    cases hw : (s.head h).lease.waiters with
    | nil => exact .inl (after.handOn_stream_free h _ (hlease.trans hw) i)
    | cons w rest =>
      rw [after.handOn_stream_waiter h _ w rest (hlease.trans hw) i]
      by_cases hi : i = w.ref.stream
      · subst hi
        exact .inr ⟨w, List.mem_cons_self, rfl, if_pos rfl⟩
      · exact .inl (if_neg hi)
  · split <;> exact .inl rfl

/-- The first waiter's CLAIM is DONE where the flushed stream held the lease. -/
theorem State.flushHead_claimed (s : State) (h : HeadId) (k : StreamId) (w : Waiter) (rest : List Waiter)
    (hk : (s.head h).lease.holder = some k) (hw : (s.head h).lease.waiters = w :: rest) :
    (s.flushHead h k).stream w.ref.stream = (s.stream w.ref.stream).claimed w := by
  have hlease : ((s.setHead h ((s.head h).abandon h k 0 none)).head h).lease.waiters = w :: rest := by
    rw [State.head_setHead_same]
    exact hw
  rw [State.flushHead, if_pos hk, State.handOn_stream_waiter _ h _ w rest hlease, if_pos rfl]
  rfl

theorem State.flushHead_same (s : State) (h : HeadId) (k : StreamId) :
    (s.flushHead h k).jobs = s.jobs ∧ (s.flushHead h k).contexts = s.contexts := by
  unfold State.flushHead
  dsimp only
  split
  · exact ⟨State.handOn_jobs _ _ _, State.handOn_contexts _ _ _⟩
  · split <;> exact ⟨rfl, rfl⟩

section
variable (hd : Head) (h : HeadId) (k : StreamId)

theorem Head.flushed_present : (hd.flushed h k).present = (hd.abandon h k 0 none).present := by
  unfold Head.flushed
  dsimp only
  split
  · exact Head.reload_present _ _
  · split
    · rfl
    · exact Head.reload_present _ _

theorem Head.flushed_lease :
    (hd.flushed h k).lease = if hd.lease.holder = some k then hd.lease.handedOn else hd.lease := by
  unfold Head.flushed
  dsimp only
  split
  · exact Head.reload_lease _ _
  · split
    · rfl
    · exact Head.reload_lease _ _

theorem Head.flushed_reading : (hd.flushed h k).staging.reading = hd.staging.reading := by
  unfold Head.flushed
  dsimp only
  split
  · exact Head.reload_reading _ _
  · split
    · rfl
    · exact Head.reload_reading _ _

/-- A head of which the flushed stream held the lease or lost an entry reloads its staging set. -/
theorem Head.flushed_reloaded (hc : hd.lease.holder = some k ∨ hd.condemned k 0 none ≠ []) :
    (hd.flushed h k).staging = ((hd.abandon h k 0 none).reload ((hd.condemned k 0 none).any (fun e => e.pal))).staging := by
  have hlease : ∀ (x : Head) (l : Lease) (b : Bool), (Head.reload { x with lease := l } b).staging = (x.reload b).staging :=
    fun x l b => by
      unfold Head.reload
      dsimp only
      split <;> rfl
  unfold Head.flushed
  dsimp only
  split
  · exact hlease _ _ _
  · rename_i hk
    rw [if_neg (by simpa using hc.resolve_left hk)]

theorem Head.flushed_staging_same (hk : hd.lease.holder ≠ some k) (hl : hd.condemned k 0 none = []) :
    (hd.flushed h k).staging = hd.staging := by
  simp only [Head.flushed, if_neg hk, hl]
  rfl

end

/-! ## FLUSH before what it brings about in the same step -/

/-- FLUSH of stream `k` before it reaches the present queues and the leases. -/
def State.flushedJobs (s : State) (k : StreamId) : State :=
  (State.flushStream { s with heads := s.heads.map (fun hd => hd.withdrawn k) } k).flushJobs k

theorem State.flushed_eq (s : State) (k : StreamId) :
    s.flushed k = ((s.flushedJobs k).flushHead 0 k).flushHead 1 k := rfl

section
variable (s : State) (k : StreamId)

theorem State.flushedJobs_head (h : HeadId) : (s.flushedJobs k).head h = (s.head h).withdrawn k := by
  rw [State.head, State.flushedJobs, (State.flushJobs_same _ k).2, State.flushStream_heads]
  exact Two.get_map _ _ _

theorem State.flushedJobs_stream : (s.flushedJobs k).stream k = (s.stream k).flushed k := by
  rw [State.stream, State.flushedJobs, (State.flushJobs_same _ k).1]
  exact State.flushStream_stream _ k

theorem State.flushedJobs_stream_ne (i : StreamId) (hi : i ≠ k) : (s.flushedJobs k).stream i = s.stream i := by
  rw [State.stream, State.flushedJobs, (State.flushJobs_same _ k).1]
  exact State.flushStream_stream_ne _ k i hi

theorem State.flushed_head (h : HeadId) : (s.flushed k).head h = ((s.head h).withdrawn k).flushed h k := by
  rw [State.flushed_eq, State.flushHead_head, State.flushHead_head, State.flushHead_head, s.flushedJobs_head k,
    s.flushedJobs_head k, s.flushedJobs_head k]
  match h with
  | 0 => rfl
  | 1 => rfl

/-- No waiter of the flushed stream is left on the head. -/
theorem Head.withdrawn_waiters (hd : Head) (w : Waiter) (hw : w ∈ (hd.withdrawn k).lease.waiters) : w.ref.stream ≠ k := by
  obtain ⟨_, _, _, _, _, hlease⟩ := hd.withdrawn_same k
  rw [hlease] at hw
  exact of_decide_eq_true (List.mem_filter.mp hw).2

theorem State.flushedJobs_head_one : ((s.flushedJobs k).flushHead 0 k).head 1 = (s.head 1).withdrawn k := by
  rw [State.flushHead_head, if_neg (by decide), s.flushedJobs_head k]

theorem State.flushed_stream : (s.flushed k).stream k = (s.stream k).flushed k := by
  have hzero : ((s.flushedJobs k).flushHead 0 k).stream k = (s.flushedJobs k).stream k := by
    rcases (s.flushedJobs k).flushHead_stream 0 k k with e | ⟨w, hw, hk, _⟩
    · exact e
    · rw [s.flushedJobs_head k] at hw
      exact absurd hk (Head.withdrawn_waiters k _ w hw)
  rw [State.flushed_eq, ← s.flushedJobs_stream k, ← hzero]
  rcases ((s.flushedJobs k).flushHead 0 k).flushHead_stream 1 k k with e | ⟨w, hw, hk, _⟩
  · exact e
  · rw [s.flushedJobs_head_one k] at hw
    exact absurd hk (Head.withdrawn_waiters k _ w hw)

theorem State.flushHead_ring (u : State) (h : HeadId) (i : StreamId) :
    ((u.flushHead h k).stream i).ring = (u.stream i).ring := by
  rcases u.flushHead_stream h k i with e | ⟨w, _, _, e⟩ <;> rw [e]
  rfl

theorem State.flushed_ring (i : StreamId) (hi : i ≠ k) : ((s.flushed k).stream i).ring = (s.stream i).ring := by
  rw [State.flushed_eq, State.flushHead_ring, State.flushHead_ring, s.flushedJobs_stream_ne k i hi]

/-- The CLAIM of the first waiter left is DONE on each head of which the stream held the lease. -/
theorem State.flushed_claimed (h : HeadId) (w : Waiter) (rest : List Waiter) (hk : (s.head h).lease.holder = some k)
    (hw : ((s.head h).withdrawn k).lease.waiters = w :: rest) :
    ((s.flushed k).stream w.ref.stream).current = none
      ∧ ∀ c ∈ report w.ref 0x10 { status := .done }, c ∈ ((s.flushed k).stream w.ref.stream).kept := by
  have hdone : ∀ st : Stream, (st.claimed w).current = none
      ∧ ∀ c ∈ report w.ref 0x10 { status := .done }, c ∈ (st.claimed w).kept :=
    fun st => ⟨rfl, fun c hc => List.mem_append_right _ hc⟩
  have hholder : ((s.head h).withdrawn k).lease.holder = some k := by
    obtain ⟨_, _, _, _, _, hlease⟩ := (s.head h).withdrawn_same k
    rw [hlease]
    exact hk
  rw [State.flushed_eq]
  match h with
  | 0 =>
    have hzero := (s.flushedJobs k).flushHead_claimed 0 k w rest (by rw [s.flushedJobs_head k]; exact hholder)
      (by rw [s.flushedJobs_head k]; exact hw)
    rcases ((s.flushedJobs k).flushHead 0 k).flushHead_stream 1 k w.ref.stream with e | ⟨w', _, _, e⟩
    · rw [e, hzero]
      exact hdone _
    · rw [e, hzero]
      exact ⟨rfl, fun c hc => List.mem_append_left _ ((hdone _).2 c hc)⟩
  | 1 =>
    rw [State.flushHead_claimed _ 1 k w rest (by rw [s.flushedJobs_head_one k]; exact hholder)
      (by rw [s.flushedJobs_head_one k]; exact hw)]
    exact hdone _

theorem State.flushed_jobs (hone : s.oneEngineJob) :
    ∃ written : Nat,
      (written = s.engine.written ∨ s.engine.phase.inPixel = true ∧ written = s.engine.written + 1)
        ∧ (s.flushed k).jobs = s.jobs.map (Job.flushed k written) := by
  obtain ⟨_, _, hjobs, hengine⟩ :=
    State.flushStream_same { s with heads := s.heads.map (fun hd => hd.withdrawn k) } k
  obtain ⟨written, hwritten, hflushed⟩ := State.flushJobs_jobs
    (State.flushStream { s with heads := s.heads.map (fun hd => hd.withdrawn k) } k) k
    (by rw [State.oneEngineJob, hjobs]; exact hone)
  rw [hengine] at hwritten
  rw [hjobs] at hflushed
  refine ⟨written, hwritten, ?_⟩
  rw [State.flushed_eq, (State.flushHead_same _ 1 k).1, (State.flushHead_same _ 0 k).1]
  exact hflushed

theorem State.flushed_contexts (c : ContextId) : (s.flushed k).context k c = .unset := by
  rw [State.context, State.flushed_eq, (State.flushHead_same _ 1 k).2, (State.flushHead_same _ 0 k).2]
  exact State.flushJobs_contexts _ k c

theorem Head.flushed_freeOf (hd : Head) (h : HeadId) : ((hd.withdrawn k).flushed h k).FreeOf k where
  waiters w hw := by
    refine Head.withdrawn_waiters k hd w ?_
    rw [Head.flushed_lease] at hw
    split at hw
    · exact List.mem_of_mem_tail hw
    · exact hw
  reading p hp := by
    rw [Head.flushed_reading, Head.withdrawn_reading, Option.filter_eq_some_iff] at hp
    exact of_decide_eq_true hp.2
  entries e he hk := by
    rw [Head.flushed_present] at he
    have hkept : (!e.condemned k 0 none) = true := (List.mem_filter.mp he).2
    simpa [Entry.condemned, hk] using hkept

theorem Head.flushed_holder (hd : Head) (h : HeadId) : ((hd.withdrawn k).flushed h k).lease.holder ≠ some k := by
  rw [Head.flushed_lease]
  split
  · intro e
    obtain ⟨w, hw, hk⟩ := Option.map_eq_some_iff.mp e
    exact Head.withdrawn_waiters k hd w (List.mem_of_mem_head? hw) hk
  · assumption

/-- The FLUSH leaves its stream clean. -/
theorem State.flushed_cleanOf (r : Ring) (hr : (s.stream k).ring = some r) (hone : s.oneEngineJob) :
    (s.flushed k).CleanOf k { r with fetch := r.post } where
  stream := by
    rw [s.flushed_stream k]
    exact ⟨rfl, rfl, rfl, by rw [Stream.flushed, hr]; rfl⟩
  contexts := s.flushed_contexts k
  heads h := by
    rw [s.flushed_head k]
    exact Head.flushed_freeOf k _ h
  jobs := by
    obtain ⟨written, _, hjobs⟩ := s.flushed_jobs k hone
    rw [hjobs]
    intro j hj hk
    obtain ⟨q, _, rfl⟩ := List.mem_map.mp hj
    rw [Job.flushed_ref] at hk
    exact Job.flushed_isEnded k written q hk

end

end Sys2Proof.Machine
end

