-- ==== Sys2Proof/Proofs/FlushOutcomes.lean ====
section
/-! SUPPORT. What FLUSH does on one head, from the head before it, and the settling of the obligation on FLUSH. -/

namespace Sys2Proof.Machine

set_option Elab.async false

/-- The entries that a FLUSH of stream `k` abandons on the head. -/
def Head.lostTo (hd : Head) (k : StreamId) : List Entry := hd.present.entries.filter (fun e => e.flushedBy k)

section
variable (hd : Head) (h : HeadId) (k : StreamId)

theorem Head.withdrawn_condemned : (hd.withdrawn k).condemned k 0 none = hd.lostTo k := by
  rw [Head.condemned, (hd.withdrawn_same k).1]
  rfl

/-- The queue after a FLUSH: its abandoned entries have left, with a completion each in queue order. -/
theorem Head.withdrawn_flushed_present :
    ((hd.withdrawn k).flushed h k).present
      = { entries := hd.present.entries.filter (fun e => !e.flushedBy k)
          abandoned := hd.present.abandoned + (hd.lostTo k).length
          outbox := hd.present.outbox ++ (hd.lostTo k).map (fun e => e.abandoned h) } := by
  rw [Head.flushed_present]
  simp only [Head.abandon, hd.withdrawn_condemned k, flatMap_reportAs_abandoned, (hd.withdrawn_same k).1]
  rfl

theorem Head.withdrawn_flushed_lease :
    ((hd.withdrawn k).flushed h k).lease
      = if hd.lease.holder = some k then
          { holder := (hd.lease.waiters.filter (fun w => decide (w.ref.stream ≠ k))).head?.map (fun w => w.ref.stream)
            waiters := (hd.lease.waiters.filter (fun w => decide (w.ref.stream ≠ k))).tail }
        else { hd.lease with waiters := hd.lease.waiters.filter (fun w => decide (w.ref.stream ≠ k)) } := by
  obtain ⟨_, _, _, _, _, hlease⟩ := hd.withdrawn_same k
  rw [Head.flushed_lease, hlease]
  rfl

/-- A head of which the stream held the lease or lost an entry reloads its staging set (R124, R125). -/
theorem Head.withdrawn_flushed_reloaded (hc : hd.lease.holder = some k ∨ hd.lostTo k ≠ []) :
    ((hd.withdrawn k).flushed h k).staging.picture
        = (newestUnlatched ((hd.withdrawn k).flushed h k).present.entries).elim hd.scan.active Entry.snapshot
      ∧ ((hd.withdrawn k).flushed h k).staging.palette
        = (if hd.staging.dirty = true ∨ (∃ e ∈ hd.lostTo k, e.pal = true) then hd.scan.palette
          else hd.staging.palette)
      ∧ ((hd.withdrawn k).flushed h k).staging.dirty = false := by
  obtain ⟨_, hscan, _, hpalette, hdirty, hlease⟩ := hd.withdrawn_same k
  rw [Head.flushed_reloaded _ h k (by rw [hd.withdrawn_condemned k, hlease]; exact hc), Head.reload_picture,
    Head.reload_palette, Head.reload_dirty, Head.flushed_present, hd.withdrawn_condemned k]
  simp only [Head.abandon, hscan, hpalette, hdirty, List.any_eq_true, and_self]

/-- On the other heads the staging set stays. -/
theorem Head.withdrawn_flushed_same (hk : hd.lease.holder ≠ some k) (hl : hd.lostTo k = []) :
    ((hd.withdrawn k).flushed h k).staging.picture = hd.staging.picture
      ∧ ((hd.withdrawn k).flushed h k).staging.palette = hd.staging.palette
      ∧ ((hd.withdrawn k).flushed h k).staging.dirty = hd.staging.dirty := by
  obtain ⟨_, _, hpicture, hpalette, hdirty, hlease⟩ := hd.withdrawn_same k
  rw [Head.flushed_staging_same _ h k (by rw [hlease]; exact hk) (by rw [hd.withdrawn_condemned k]; exact hl)]
  exact ⟨hpicture, hpalette, hdirty⟩

end

theorem execFlush_accepted (s : State) (k : StreamId) (r : Ring) (ha : s.active = true)
    (hr : (s.stream k).ring = some r) : exec (.flush k) s = .next (s.flushed k).settle := by
  change Host.Outcome.next (s.flushCommand k) = _
  rw [State.flushCommand, if_pos (by rw [ha, hr]; rfl)]

/-- Settles O28: a stream that a FLUSH leaves clean stays so while the part settles. -/
theorem flushLeavesTheStreamClean : Obligations.FlushLeavesTheStreamClean := by
  intro k s r ha hr hone
  have hclean := (s.flushed_cleanOf k r hr hone).settle
  have hsettled := (s.flushed k).settle_settlesTo
  obtain ⟨written, hwritten, hjobs⟩ := s.flushed_jobs k hone
  refine ⟨_, execFlush_accepted s k r ha hr,
    ⟨s.flushed k, written, fun e => e.flushedBy k, rfl, fun e => e.flushedBy_iff k, ?_, hwritten, hjobs, fun h => ?_⟩,
    hclean.stream.current, hclean.stream.halt, hclean.stream.batch, hclean.stream.ring, hclean.contexts,
    fun h => ⟨?_, (hclean.heads h).waiters, (hclean.heads h).reading, (hclean.heads h).entries⟩, hclean.jobs,
    fun i hi => ?_⟩
  · rw [s.flushed_stream k, Stream.flushed]
    cases (s.stream k).current <;> rfl
  · rw [s.flushed_head k h]
    have hpresent := (s.head h).withdrawn_flushed_present h k
    refine ⟨(s.head h).lostTo k, _, _, rfl, rfl, by rw [hpresent], by rw [hpresent], by rw [hpresent]; rfl,
      (s.head h).withdrawn_flushed_lease h k, ?_, fun hc => ?_, (s.head h).withdrawn_flushed_same h k, rfl,
      fun w rest hk hw => s.flushed_claimed k h w rest hk ?_⟩
    · rw [Head.flushed_reading, Head.withdrawn_reading]
    · obtain ⟨hpicture, hpalette, hdirty⟩ := (s.head h).withdrawn_flushed_reloaded h k hc
      refine ⟨hpicture.trans ?_, hpalette, hdirty⟩
      rw [newestUnlatched]
      cases List.find? _ _ <;> rfl
    · obtain ⟨_, _, _, _, _, hlease⟩ := (s.head h).withdrawn_same k
      rw [hlease]
      exact hw
  · rw [(hsettled.head h).holder, s.flushed_head k h]
    exact Head.flushed_holder k _ h
  · have hring := (hsettled.stream i).ring
    rw [s.flushed_ring k i hi] at hring
    have hfixed := congrArg (Option.map fun q : Address × Nat × FetchClass × Nat => (q.1, q.2.1, q.2.2.2)) hring
    rw [Option.map_map, Option.map_map] at hfixed
    exact hfixed

end Sys2Proof.Machine
end

