-- ==== Sys2Proof/Proofs/RecordCommands.lean ====
section
/-! SUPPORT. What a record command does, said once for all fifteen: it takes up no record and changes nothing, or it takes
up one and settles what its dispatch, its end or its holding back brings about. -/

namespace Sys2Proof.Machine

set_option Elab.async false

/-- What becomes of the record `c` of stream `k` that the Sequencer has taken up, before the part settles. -/
inductive RecordTaken (s : State) (k : StreamId) (c : CurrentRecord) : State → Prop where
  /-- It ends with no other effect: a refused record, a NOTE, a WAIT that holds, a CLAIM of a lease held by others or by the
  stream itself. -/
  | finished (o : Outcome) : RecordTaken s k c (s.finish k o)
  | job (t : State) (ht : s.dispatchJob k = some t) : RecordTaken s k c t
  /-- A job record finds no room, or a WAIT's condition does not hold yet. -/
  | waits (p : RecordPhase) (hp : p = .heldJobSpace ∨ p = .waitCondition) : RecordTaken s k c (s.setPhase k p)
  /-- A CLAIM finds the lease FREE. -/
  | claimed (h : HeadId) (hf : (s.head h).lease.holder = none) :
      RecordTaken s k c
        ((s.setHead h { s.head h with lease := { (s.head h).lease with holder := some k } }).finish k { status := .done })
  /-- A CLAIM waits for the lease. -/
  | queued (h : HeadId) (w : Waiter) (hk : w.ref.stream = k) (hh : headField c.slots = some h)
      (hf : (s.head h).lease.holder ≠ none) (hn : (s.head h).lease.holder ≠ some k) :
      RecordTaken s k c
        ((s.setHead h
            { s.head h with lease := { (s.head h).lease with waiters := (s.head h).lease.waiters ++ [w] } }).setPhase k
          .waitLease)
  | released (h : HeadId) (ho : (s.head h).lease.holder = some k) :
      RecordTaken s k c ((s.finish k { status := .done }).handOn h false)
  | staged (h : HeadId) (p : Picture) : RecordTaken s k c ((s.stage h p).finish k { status := .done })
  | palette (r : PaletteRecord) (hr : paletteFields c.slots = some r) (ho : (s.head r.head).lease.holder = some k)
      (t : State) (ht : s.dispatchPalette k = some t) : RecordTaken s k c t
  | present (r : PresentRecord) (hr : presentFields c.slots = some r) (ho : (s.head r.head).lease.holder = some k)
      (t : State) (ht : s.dispatchPresent k = some t) : RecordTaken s k c t
  /-- A holder's PALETTE finds the palette hazard, or its PRESENT a full queue. -/
  | heldBack (p : RecordPhase) (hp : p = .heldPaletteHazard ∨ p = .heldQueueFull) (h : HeadId)
      (hh : headField c.slots = some h) (ho : (s.head h).lease.holder = some k) : RecordTaken s k c (s.setPhase k p)
  | link (ref : RecordRef) (h : HeadId) (target : LinkTarget) : RecordTaken s k c (s.dispatchLink k ref h target)
  | light (ref : RecordRef) (h : HeadId) (target : Nat) (dim : Bool) (step : Nat) :
      RecordTaken s k c (s.dispatchLight k ref h target dim step)

/-! ## The heads that records name -/

theorem headField_of_claimFields {slots : List (List Byte)} {r : ClaimRecord} (h : claimFields slots = some r) :
    headField slots = some r.head := by
  simp only [claimFields, Option.bind_eq_bind, Option.bind_eq_some_iff, Option.some.injEq] at h
  obtain ⟨i, hi, _, _, rfl⟩ := h
  exact hi

theorem headField_of_paletteFields {slots : List (List Byte)} {r : PaletteRecord} (h : paletteFields slots = some r) :
    headField slots = some r.head := by
  simp only [paletteFields, Option.bind_eq_bind, Option.bind_eq_some_iff, Option.ite_none_right_eq_some,
    Option.some.injEq] at h
  obtain ⟨i, hi, _, rfl⟩ := h
  exact hi

theorem headField_of_presentFields {slots : List (List Byte)} {r : PresentRecord} (h : presentFields slots = some r) :
    headField slots = some r.head := by
  simp only [presentFields, Option.bind_eq_bind, Option.bind_eq_some_iff, Option.some.injEq] at h
  obtain ⟨i, hi, _, _, rfl⟩ := h
  exact hi

theorem State.owns_iff (s : State) (k : StreamId) (h : HeadId) : s.owns k h = true ↔ (s.head h).lease.holder = some k :=
  decide_eq_true_iff

/-! ## The record commands -/

/-- The command answers the state itself, or settles what becomes of the record it takes up. -/
def TakesRecord (s : State) (k : StreamId) (kind : Kind) (a : Answer) : Prop :=
  a = .next s ∨ ∃ (c : CurrentRecord) (u : State), s.takeUp k kind = some c ∧ RecordTaken s k c u ∧ a = .next u.settle

section
variable {s : State} {k : StreamId} {kind : Kind}

theorem TakesRecord.none : TakesRecord s k kind (.next s) := .inl rfl

theorem TakesRecord.of_taken {c : CurrentRecord} {u : State} (hc : s.takeUp k kind = some c) (h : RecordTaken s k c u) :
    TakesRecord s k kind (.next u.settle) :=
  .inr ⟨c, u, hc, h, rfl⟩

end

section
variable (s : State) (k : StreamId)

theorem State.takeJob_takesRecord (kind : Kind) : TakesRecord s k kind (.next (s.takeJob k kind)) := by
  unfold State.takeJob
  split
  · exact .none
  · rename_i c hc
    split
    · exact .of_taken hc (.finished _)
    · split
      · rename_i t ht; exact .of_taken hc (.job t ht)
      · exact .of_taken hc (.waits _ (.inl rfl))

theorem State.decideClaim_recordTaken (c : CurrentRecord) (r : ClaimRecord) (hr : claimFields c.slots = some r) :
    RecordTaken s k c (s.decideClaim k c r) := by
  unfold State.decideClaim
  dsimp only
  split
  · rename_i hf; exact .claimed r.head hf
  · rename_i holder hf
    split
    · exact .finished _
    · rename_i hn
      split
      · exact .queued r.head _ rfl (headField_of_claimFields hr) (by simp [hf]) (by simpa [hf] using hn)
      · exact .finished _

theorem execClaim_takesRecord : TakesRecord s k .claim (execClaim k s) := by
  unfold execClaim
  split
  · exact .none
  · rename_i c hc
    split
    · exact .of_taken hc (.finished _)
    · rename_i r hr; exact .of_taken hc (s.decideClaim_recordTaken k c r hr)

theorem execRelease_takesRecord : TakesRecord s k .release (execRelease k s) := by
  unfold execRelease
  split
  · exact .none
  · rename_i c hc
    split
    · exact .of_taken hc (.finished _)
    · split
      · rename_i ho; exact .of_taken hc (.released _ ((s.owns_iff _ _).mp ho))
      · exact .of_taken hc (.finished _)

theorem execBands_takesRecord : TakesRecord s k .bands (execBands k s) := by
  unfold execBands
  split
  · exact .none
  · rename_i c hc
    split
    · exact .of_taken hc (.finished _)
    · split
      · exact .of_taken hc (.staged _ _)
      · exact .of_taken hc (.finished _)

theorem execScroll_takesRecord : TakesRecord s k .scroll (execScroll k s) := by
  unfold execScroll
  split
  · exact .none
  · rename_i c hc
    split
    · exact .of_taken hc (.finished _)
    · split
      · exact .of_taken hc (.staged _ _)
      · exact .of_taken hc (.finished _)

theorem execOutput_takesRecord : TakesRecord s k .output (execOutput k s) := by
  unfold execOutput
  split
  · exact .none
  · rename_i c hc
    split
    · exact .of_taken hc (.finished _)
    · split
      · exact .of_taken hc (.staged _ _)
      · exact .of_taken hc (.finished _)

theorem execPalette_takesRecord : TakesRecord s k .palette (execPalette k s) := by
  unfold execPalette
  split
  · exact .none
  · rename_i c hc
    split
    · exact .of_taken hc (.finished _)
    · rename_i r hr
      split
      · rename_i ho
        have howns := (s.owns_iff _ _).mp ho
        split
        · rename_i t ht; exact .of_taken hc (.palette r hr howns t ht)
        · exact .of_taken hc (.heldBack _ (.inl rfl) r.head (headField_of_paletteFields hr) howns)
      · exact .of_taken hc (.finished _)

theorem execPresent_takesRecord : TakesRecord s k .present (execPresent k s) := by
  unfold execPresent
  split
  · exact .none
  · rename_i c hc
    split
    · exact .of_taken hc (.finished _)
    · rename_i r hr
      split
      · rename_i ho
        have howns := (s.owns_iff _ _).mp ho
        split
        · rename_i t ht; exact .of_taken hc (.present r hr howns t ht)
        · exact .of_taken hc (.heldBack _ (.inr rfl) r.head (headField_of_presentFields hr) howns)
      · exact .of_taken hc (.finished _)

theorem execLink_takesRecord : TakesRecord s k .link (execLink k s) := by
  unfold execLink
  split
  · exact .none
  · rename_i c hc
    split
    · exact .of_taken hc (.finished _)
    · split
      · exact .of_taken hc (.link _ _ _)
      · exact .of_taken hc (.finished _)

theorem execLight_takesRecord : TakesRecord s k .light (execLight k s) := by
  unfold execLight
  split
  · exact .none
  · rename_i c hc
    split
    · exact .of_taken hc (.finished _)
    · split
      · exact .of_taken hc (.light _ _ _ _ _)
      · exact .of_taken hc (.finished _)

theorem execWait_takesRecord : TakesRecord s k .wait (execWait k s) := by
  unfold execWait
  split
  · exact .none
  · rename_i c hc
    split
    · exact .of_taken hc (.finished _)
    · split
      · exact .of_taken hc (.finished _)
      · exact .of_taken hc (.waits _ (.inr rfl))

theorem execNote_takesRecord : TakesRecord s k .note (execNote k s) := by
  unfold execNote
  split
  · exact .none
  · rename_i c hc; exact .of_taken hc (.finished _)

end

/-- What a record command can do. -/
theorem execRecord_cases (kind : Kind) (k : StreamId) (s : State) : TakesRecord s k kind (exec (kind.command k) s) := by
  cases kind with
  | window => exact s.takeJob_takesRecord k .window
  | transfer => exact s.takeJob_takesRecord k .transfer
  | fill => exact s.takeJob_takesRecord k .fill
  | readback => exact s.takeJob_takesRecord k .readback
  | claim => exact execClaim_takesRecord s k
  | release => exact execRelease_takesRecord s k
  | bands => exact execBands_takesRecord s k
  | scroll => exact execScroll_takesRecord s k
  | output => exact execOutput_takesRecord s k
  | palette => exact execPalette_takesRecord s k
  | present => exact execPresent_takesRecord s k
  | link => exact execLink_takesRecord s k
  | light => exact execLight_takesRecord s k
  | wait => exact execWait_takesRecord s k
  | note => exact execNote_takesRecord s k

end Sys2Proof.Machine
end

