-- ==== Sys2Proof/Proofs/Quiescence.lean ====
section
/-! SUPPORT. A settled part stays settled: a command settles what it brings about, stops the part from acting, or changes
nothing that decides whether a reaction has something to do. -/

namespace Sys2Proof.Machine

set_option Elab.async false

/-- Settles O3: the work left falls with every reaction. -/
theorem settlingEnds : Obligations.SettlingEnds := State.settle_quiet

/-! ## What decides which reactions have something to do -/

/-- The heads agree in what decides which reactions have something to do. -/
structure Head.DecidesAs (a b : Head) : Prop where
  present : b.present = a.present
  linkState : b.link.state = a.link.state
  held : b.link.held = a.link.held
  linkPending : b.link.pending = a.link.pending
  lightPending : b.light.pending = a.light.pending
  frame : b.scan.frame = a.scan.frame
  timing : b.scan.timing = a.scan.timing

/-- The states agree in what decides which reactions have something to do, but for the taking of a source answer. -/
structure State.DecidesAs (s t : State) : Prop where
  device : t.regs.device = s.regs.device
  fetch : t.fetch = s.fetch
  streams : t.streams = s.streams
  heads : ∀ h : HeadId, (s.head h).DecidesAs (t.head h)
  jobs : t.jobs = s.jobs
  writer : t.writer = s.writer

theorem Head.DecidesAs.refl (a : Head) : a.DecidesAs a := ⟨rfl, rfl, rfl, rfl, rfl, rfl, rfl⟩

theorem Head.DecidesAs.scanning {a b : Head} (h : a.DecidesAs b) : b.scanning = a.scanning := by
  simp only [Head.scanning, h.linkState]

theorem gateFields_congr {a b : Two Head} (slots : List (List Byte))
    (h : ∀ i : HeadId, (b.get i).scan.timing = (a.get i).scan.timing) : gateFields slots b = gateFields slots a := by
  have hfor : ∀ i : HeadId, gateFields.gateFor slots b i = gateFields.gateFor slots a i := fun i => by
    simp only [gateFields.gateFor, h]
  simp only [gateFields, hfor]

/-- Of the heads, only the timings decide what job a record asks for. -/
theorem jobFields_congr {a b : Two Head} (kind : Kind) (slots : List (List Byte))
    (h : ∀ i : HeadId, (b.get i).scan.timing = (a.get i).scan.timing) : jobFields kind slots b = jobFields kind slots a := by
  have hgate := gateFields_congr slots h
  cases kind <;> simp only [jobFields, transferFields, fillFields, readbackFields, hgate]

section
variable {s t : State} (h : s.DecidesAs t)
include h

theorem State.DecidesAs.stream (k : StreamId) : t.stream k = s.stream k := by
  simp only [State.stream, h.streams]

theorem State.DecidesAs.active : t.active = s.active := by
  simp only [State.active, h.device]

theorem State.DecidesAs.running : t.running = s.running := by
  simp only [State.running, h.device]

theorem State.DecidesAs.inPhase (k : StreamId) (p : RecordPhase) : t.inPhase k p = s.inPhase k p := by
  simp only [State.inPhase, h.stream]

theorem State.DecidesAs.waitReached_isSome (k : StreamId) : (t.waitReached k).isSome = (s.waitReached k).isSome := by
  have hform : ∀ form : WaitForm, t.waitOutcome k form = s.waitOutcome k form := fun form => by
    cases form with
    | frame i f => simp only [State.waitOutcome, (h.heads i).scanning, (h.heads i).frame]
    | retired i => simp only [State.waitOutcome, (h.heads i).present]
    | jobs => simp only [State.waitOutcome, h.jobs]
  simp only [State.waitReached, h.stream, hform]

theorem State.DecidesAs.owed (c : Completion) : t.owed c = s.owed c := by
  simp only [State.owed, State.unplaced, State.rewoundPending, h.jobs, h.stream, (h.heads _).held, (h.heads _).present,
    (h.heads _).linkPending, (h.heads _).lightPending]

theorem State.DecidesAs.jobFields (kind : Kind) (slots : List (List Byte)) :
    Machine.jobFields kind slots t.heads = Machine.jobFields kind slots s.heads :=
  jobFields_congr kind slots fun i => (h.heads i).timing

theorem State.DecidesAs.attempt_isSome (a : Try) : (t.attempt a).isSome = (s.attempt a).isSome := by
  cases a with
  | wait k => simp only [State.attempt, State.completeWait_isSome, h.active, h.waitReached_isSome]
  | present k =>
    simp only [State.attempt, State.retryPresent, h.running, h.inPhase, apply_ite Option.isSome,
      State.dispatchPresent_isSome, h.stream, (h.heads _).present]
  | palette k =>
    simp only [State.attempt, State.retryPalette, h.running, h.inPhase, apply_ite Option.isSome,
      State.dispatchPalette_isSome, h.stream, (h.heads _).present]
  | job k =>
    simp only [State.attempt, State.retryJob, h.running, h.inPhase, apply_ite Option.isSome,
      State.dispatchJob_isSome, h.stream, h.jobFields, h.jobs]
  | engine => simp only [State.attempt, State.engineChoose_isSome, h.running, h.jobs]

theorem State.DecidesAs.placeFrom_isSome (p : Placer) : (t.placeFrom p).isSome = (s.placeFrom p).isSome := by
  rw [State.placeFrom_isSome, State.placeFrom_isSome, h.writer]
  congr 1
  cases p with
  | jobList =>
    simp only [State.nextFrom, h.jobs, h.owed]
    split
    · split <;> rfl
    · rfl
  | sequencer k => simp only [State.nextFrom, h.stream, h.owed]; split <;> rfl
  | linkController i => simp only [State.nextFrom, (h.heads i).held, h.owed]; split <;> rfl
  | presentUnit i => simp only [State.nextFrom, (h.heads i).present, h.owed]; split <;> rfl

theorem State.DecidesAs.grant_isSome : t.grant.isSome = s.grant.isSome := by
  have hissue : ∀ (k : StreamId) (f g : FetchUnit), (t.issueSlot k f).isSome = (s.issueSlot k g).isSome :=
    fun k f g => by
      simp only [State.issueSlot, h.stream]
      split <;> rfl
  simp only [State.grant, State.turn, State.candidate, h.running, h.fetch, h.stream]
  split
  · split
    · exact hissue _ _ _
    · split <;> exact hissue _ _ _
    · exact hissue _ _ _
    · rfl
  · rfl

theorem State.DecidesAs.actNext_isSome : t.actNext.isSome = s.actNext.isSome := by
  have htry : t.tryNext.isSome = s.tryNext.isSome := by
    simp only [State.tryNext_isSome, h.attempt_isSome]
  have hplace : t.placeNext.isSome = s.placeNext.isSome := by
    simp only [State.placeNext_isSome, h.active, h.placeFrom_isSome]
  simp only [State.actNext_isSome, acts, List.any_cons, List.any_nil, htry, hplace, h.grant_isSome]

theorem State.DecidesAs.latchNow_isSome (i : HeadId) : (State.latchNow i t).isSome = (State.latchNow i s).isSome := by
  simp only [State.latchNow_isSome, h.active, (h.heads i).scanning, (h.heads i).present, (h.heads i).frame]

/-- Where what decides the reactions stands, and no source answer can be taken, a settled part stays settled. -/
theorem State.DecidesAs.quiescent (ht : t.takeAhead = none) (hs : s.quiescent) : t.quiescent := by
  have hnone := s.react_none.mp hs
  refine t.react_none.mpr fun f hf => ?_
  have hcongr : ∀ g : State → Option State, g ∈ reactions → (g t).isSome = (g s).isSome → g t = none :=
    fun g hg e => Option.none_of_isSome_congr e (hnone g hg)
  rcases reactions_cases f hf with rfl | ⟨i, rfl⟩ | rfl | rfl | rfl
  · exact hcongr _ hf (by rw [State.reachStopped_isSome, State.reachStopped_isSome, h.device, h.jobs])
  · exact hcongr _ hf (h.latchNow_isSome i)
  · exact ht
  · exact hcongr _ hf h.actNext_isSome
  · exact hcongr _ hf (by rw [State.issueWrite_isSome, State.issueWrite_isSome, h.active, h.writer])

theorem State.DecidesAs.takeAhead (he : t.engine = s.engine) (hs : s.quiescent) : t.takeAhead = none := by
  have hnone : s.takeAhead = none := s.react_none.mp hs State.takeAhead (by simp [reactions])
  unfold State.takeAhead at hnone ⊢
  rw [h.active, he]
  split
  · rename_i hc
    rw [if_pos hc] at hnone
    split
    · rename_i a ha
      rw [ha] at hnone
      cases hnone
    · rfl
  · rfl

end

/-! ## Parts that do not act -/

/-- A part that is neither RUNNING, STOPPING nor STOPPED has nothing to do. -/
theorem State.quiescent_of_inactive (s : State) (h : s.active = false) : s.quiescent := by
  have hrun : s.running = false := by
    cases hd : s.regs.device <;> simp_all [State.active, State.running]
  have hstop : s.regs.device ≠ .stopping := by
    intro hd
    simp [State.active, hd] at h
  refine s.react_none.mpr fun f hf => ?_
  rcases reactions_cases f hf with rfl | ⟨i, rfl⟩ | rfl | rfl | rfl
  · simp [State.reachStopped, hstop]
  · simp [State.latchNow, h]
  · simp [State.takeAhead, h]
  · have htry : ∀ a : Try, (s.attempt a).isSome = false := fun a => by
      cases a <;> simp [State.attempt, State.completeWait, State.retryPresent, State.retryPalette, State.retryJob,
        State.engineChoose, h, hrun]
    rw [← Option.isNone_iff_eq_none, ← Option.isSome_eq_false_iff, State.actNext_isSome]
    simp [acts, State.tryNext_isSome, htry, State.placeNext, State.grant, h, hrun]
  · simp [State.issueWrite, h]

/-! ## Steps that leave a settled part settled -/

/-- If the part has settled before, it has after. -/
def State.StaysQuiet (s t : State) : Prop := s.quiescent → t.quiescent

theorem State.StaysQuiet.refl (s : State) : s.StaysQuiet s := id

/-- What a command settles is settled. -/
theorem State.StaysQuiet.settle (s u : State) : s.StaysQuiet u.settle := fun _ => u.settle_quiet

theorem State.StaysQuiet.inactive {s t : State} (h : t.active = false) : s.StaysQuiet t :=
  fun _ => t.quiescent_of_inactive h

theorem State.StaysQuiet.of_decidesAs {s t : State} (h : s.DecidesAs t) (he : t.engine = s.engine) : s.StaysQuiet t :=
  fun hs => h.quiescent (h.takeAhead he hs) hs

/-- What changes no block that decides the reactions. -/
theorem State.StaysQuiet.of_same {s t : State} (hd : t.regs.device = s.regs.device) (hf : t.fetch = s.fetch)
    (hs : t.streams = s.streams) (hh : t.heads = s.heads) (hj : t.jobs = s.jobs) (hw : t.writer = s.writer)
    (he : t.engine = s.engine) : s.StaysQuiet t :=
  .of_decidesAs ⟨hd, hf, hs, fun i => by rw [State.head, State.head, hh]; exact .refl _, hj, hw⟩ he

theorem State.StaysQuiet.setHead {s : State} {i : HeadId} {x : Head} (h : (s.head i).DecidesAs x) :
    s.StaysQuiet (s.setHead i x) := by
  refine .of_decidesAs ⟨rfl, rfl, rfl, fun j => ?_, rfl, rfl⟩ rfl
  rw [State.head_setHead]
  split
  · rename_i e; exact e ▸ h
  · exact .refl _

theorem State.refuseControl_staysQuiet (s : State) : s.StaysQuiet s.refuseControl :=
  .of_same rfl rfl rfl rfl rfl rfl rfl

theorem State.startCommand_staysQuiet (s : State) : s.StaysQuiet s.startCommand := by
  unfold State.startCommand
  split
  · split
    · exact .inactive rfl
    · exact .of_same rfl rfl rfl rfl rfl rfl rfl
  · exact .settle _ _
  all_goals exact s.refuseControl_staysQuiet

theorem State.stopCommand_staysQuiet (s : State) : s.StaysQuiet s.stopCommand := by
  unfold State.stopCommand
  split
  · exact .settle _ _
  · exact s.refuseControl_staysQuiet

theorem State.resumeCommand_staysQuiet (s : State) (k : StreamId) : s.StaysQuiet (s.resumeCommand k) := by
  unfold State.resumeCommand
  split
  · exact .settle _ _
  · exact s.refuseControl_staysQuiet

theorem State.flushCommand_staysQuiet (s : State) (k : StreamId) : s.StaysQuiet (s.flushCommand k) := by
  unfold State.flushCommand
  split
  · exact .settle _ _
  · exact s.refuseControl_staysQuiet

theorem State.postWrite_staysQuiet (s : State) (value : Word) : s.StaysQuiet (s.postWrite value) := by
  unfold State.postWrite
  dsimp only
  split
  · split
    · exact .settle _ _
    · exact .of_same rfl rfl rfl rfl rfl rfl rfl
  · exact .of_same rfl rfl rfl rfl rfl rfl rfl

theorem State.retireWrite_staysQuiet (s : State) (value : Word) : s.StaysQuiet (s.retireWrite value) := by
  unfold State.retireWrite
  split
  · split
    · exact .settle _ _
    · exact .of_same rfl rfl rfl rfl rfl rfl rfl
  · exact .of_same rfl rfl rfl rfl rfl rfl rfl

theorem State.addressWritten_staysQuiet (s : State) (half : AddressHalf) (value : Word) :
    s.StaysQuiet (s.addressWritten half value) := by
  cases half <;> exact .of_same rfl rfl rfl rfl rfl rfl rfl

theorem State.windowWrite_staysQuiet (s : State) (offset : BitVec 6) (value : Word) :
    s.StaysQuiet (s.windowWrite offset value) := by
  unfold State.windowWrite
  split
  · exact s.startCommand_staysQuiet
  · exact s.stopCommand_staysQuiet
  · exact .inactive rfl
  · exact s.resumeCommand_staysQuiet _
  · exact s.flushCommand_staysQuiet _
  · exact s.postWrite_staysQuiet _
  · exact s.retireWrite_staysQuiet _
  · exact .of_same rfl rfl rfl rfl rfl rfl rfl
  · exact .of_same rfl rfl rfl rfl rfl rfl rfl
  · exact s.addressWritten_staysQuiet _ _
  · split
    · exact s.refuseControl_staysQuiet
    · exact .refl s

theorem State.setupAnswered_staysQuiet (s : State) (answer : ReadAnswer (List Byte)) :
    s.StaysQuiet (s.setupAnswered answer) := by
  unfold State.setupAnswered
  split
  · exact .refl s
  · split
    · exact .refl s
    · exact .inactive rfl
    · split
      · exact .of_same rfl rfl rfl rfl rfl rfl rfl
      · unfold State.endLoad
        split
        · exact .settle _ _
        · exact .inactive rfl

theorem State.slotAnswered_staysQuiet (s : State) (answer : ReadAnswer (List Byte)) :
    s.StaysQuiet (s.slotAnswered answer) := by
  unfold State.slotAnswered
  split
  · exact .refl s
  · dsimp only
    split
    · exact .refl s
    · split <;> exact .settle _ _
    · split <;> exact .settle _ _

/-- Components of a palette read come in without deciding anything. -/
theorem State.paletteAnswered_staysQuiet (s : State) (h : HeadId) (i : Nat) (answer : ReadAnswer (BitVec 16)) :
    s.StaysQuiet (s.paletteAnswered h i answer) := by
  unfold State.paletteAnswered
  dsimp only
  split
  · exact .refl s
  · split
    · split
      · exact .refl s
      · exact .settle _ _
      · split
        · exact .setHead ⟨rfl, rfl, rfl, rfl, rfl, rfl, rfl⟩
        · exact .settle _ _
    · exact .refl s

/-- A served read leaves the engine with a word on the bus. -/
theorem State.engineServed_staysQuiet (s : State) : s.StaysQuiet s.engineServed := by
  unfold State.engineServed
  split
  · split
    · exact .settle _ _
    · split
      · exact fun hs => State.DecidesAs.quiescent (s := s) ⟨rfl, rfl, rfl, fun _ => .refl _, rfl, rfl⟩
          (State.takeAhead_of_phase _ (by simp)) hs
      · exact .refl s
    all_goals exact .refl s
  · exact .refl s

theorem State.sourceAnswered_staysQuiet (s : State) (n : Nat) (answer : ReadAnswer Word) :
    s.StaysQuiet (s.sourceAnswered n answer) := by
  unfold State.sourceAnswered
  split
  · split
    · exact .refl s
    · exact .settle _ _
    · exact .settle _ _
  · exact .refl s

theorem State.wordAnswered_staysQuiet (s : State) (answer : WriteAnswer) : s.StaysQuiet (s.wordAnswered answer) := by
  unfold State.wordAnswered
  split
  · split
    · split
      · exact .refl s
      · exact .settle _ _
      · exact .settle _ _
    all_goals exact .refl s
  · exact .refl s

theorem State.completionAnswered_staysQuiet (s : State) (answer : WriteAnswer) :
    s.StaysQuiet (s.completionAnswered answer) := by
  unfold State.completionAnswered
  split
  · split
    · exact .refl s
    · exact .settle _ _
    · exact .inactive rfl
  · exact .refl s

theorem State.lineStarted_staysQuiet (s : State) (h : HeadId) : s.StaysQuiet (s.lineStarted h) := by
  unfold State.lineStarted
  dsimp only
  split
  · exact .refl s
  · split
    · split <;> exact .settle _ _
    · exact .refl s

theorem State.scanServed_staysQuiet (s : State) (h : HeadId) : s.StaysQuiet (s.scanServed h) := by
  unfold State.scanServed
  dsimp only
  split
  · split
    · exact .setHead ⟨rfl, rfl, rfl, rfl, rfl, rfl, rfl⟩
    · exact .refl s
  · exact .refl s

theorem State.takeDue_quiet (s t : State) (d : Due) (e : s.takeDue d = some t) : t.quiescent := by
  cases d with
  | step h =>
    simp only [State.takeDue, State.endStep] at e
    split at e
    · obtain ⟨st, _, rfl⟩ := Option.map_eq_some_iff.mp e
      exact State.settle_quiet _
    · cases e
  | waiter h k =>
    simp only [State.takeDue, State.expire] at e
    split at e
    · obtain ⟨w, _, rfl⟩ := Option.map_eq_some_iff.mp e
      exact State.settle_quiet _
    · cases e

theorem State.ticked_staysQuiet (s : State) : s.StaysQuiet s.ticked :=
  .of_decidesAs ⟨rfl, rfl, rfl, fun i => by rw [State.ticked_head]; exact ⟨rfl, rfl, rfl, rfl, rfl, rfl, rfl⟩, rfl, rfl⟩ rfl

/-! ## Every command -/

/-- A command answers a next state, settled where the part was settled before. -/
def State.QuietAnswer (s : State) (a : Answer) : Prop := ∃ t : State, a = .next t ∧ s.StaysQuiet t

theorem State.QuietAnswer.next {s t : State} (h : s.StaysQuiet t) : s.QuietAnswer (.next t) := ⟨t, rfl, h⟩

theorem execMillisecondMark_quietAnswer (s : State) : s.QuietAnswer (execMillisecondMark s) := by
  unfold execMillisecondMark
  split
  · exact .next (.refl s)
  · refine .next fun hs => State.ticked_staysQuiet _ ?_
    exact State.takeAllDue_keeps State.quiescent
      (fun u hu => State.StaysQuiet.of_same (s := u) rfl rfl rfl rfl rfl rfl rfl hu)
      (fun u t d e _ => u.takeDue_quiet t d e) _ s hs

theorem State.getD_staysQuiet (s : State) (o : Option State) (h : ∀ t, o = some t → t.quiescent) :
    s.StaysQuiet (o.getD s) := by
  cases o with
  | none => exact .refl s
  | some t => exact fun _ => h t rfl

/-- A record command that takes up no record changes nothing; every other settles. -/
theorem execRecord_quietAnswer (kind : Kind) (k : StreamId) (s : State) : s.QuietAnswer (exec (kind.command k) s) := by
  rcases execRecord_cases kind k s with e | ⟨c, u, _, _, e⟩ <;> rw [e]
  · exact .next (.refl s)
  · exact .next (.settle s u)

theorem exec_quietAnswer (i : Instr) (s : State) : s.QuietAnswer (exec i s) := by
  cases i with
  | powerOnReset => exact .next (.inactive rfl)
  | start => exact .next s.startCommand_staysQuiet
  | stop => exact .next s.stopCommand_staysQuiet
  | reset => exact .next (.inactive rfl)
  | resume k => exact .next (s.resumeCommand_staysQuiet k)
  | flush k => exact .next (s.flushCommand_staysQuiet k)
  | post value => exact .next (s.postWrite_staysQuiet value)
  | retire value => exact .next (s.retireWrite_staysQuiet value)
  | causeWrite value => exact .next (.of_same rfl rfl rfl rfl rfl rfl rfl)
  | causeEnableWrite value => exact .next (.of_same rfl rfl rfl rfl rfl rfl rfl)
  | setupAddressWrite half value => exact .next (s.addressWritten_staysQuiet half value)
  | registerWriteOther offset value => exact .next (s.windowWrite_staysQuiet offset value)
  | setupReadAnswer answer => exact .next (s.setupAnswered_staysQuiet answer)
  | slotReadAnswer answer => exact .next (s.slotAnswered_staysQuiet answer)
  | window k => exact execRecord_quietAnswer .window k s
  | transfer k => exact execRecord_quietAnswer .transfer k s
  | fill k => exact execRecord_quietAnswer .fill k s
  | readback k => exact execRecord_quietAnswer .readback k s
  | claim k => exact execRecord_quietAnswer .claim k s
  | release k => exact execRecord_quietAnswer .release k s
  | bands k => exact execRecord_quietAnswer .bands k s
  | scroll k => exact execRecord_quietAnswer .scroll k s
  | output k => exact execRecord_quietAnswer .output k s
  | palette k => exact execRecord_quietAnswer .palette k s
  | paletteReadAnswer h n answer => exact .next (s.paletteAnswered_staysQuiet h n answer)
  | present k => exact execRecord_quietAnswer .present k s
  | link k => exact execRecord_quietAnswer .link k s
  | light k => exact execRecord_quietAnswer .light k s
  | wait k => exact execRecord_quietAnswer .wait k s
  | note k => exact execRecord_quietAnswer .note k s
  | engineAccessServed => exact .next s.engineServed_staysQuiet
  | sourceReadAnswer n answer => exact .next (s.sourceAnswered_staysQuiet n answer)
  | readbackWordAnswer answer => exact .next (s.wordAnswered_staysQuiet answer)
  | completionWriteAnswer answer => exact .next (s.completionAnswered_staysQuiet answer)
  | lineStart h => exact .next (s.lineStarted_staysQuiet h)
  | millisecondMark => exact execMillisecondMark_quietAnswer s
  | waiterExpiry h k => exact .next (s.getD_staysQuiet _ fun t e => s.takeDue_quiet t (.waiter h k) e)
  | linkStepEnd h => exact .next (s.getD_staysQuiet _ fun t e => s.takeDue_quiet t (.step h) e)
  | scanReadServed h => exact .next (s.scanServed_staysQuiet h)

/-- Settles O4: the queue of waiting commands decides no reaction, and each command leaves a settled part settled. -/
theorem stepsKeepQuiescence : Obligations.StepsKeepQuiescence := by
  intro s t hs h
  rcases step_cases s t h with rfl | ⟨i, rest, hexec⟩
  · exact hs
  · obtain ⟨u, hu, hq⟩ := exec_quietAnswer i { s with pending := rest }
    obtain rfl : t = u := Host.Outcome.next.inj (hexec.symm.trans hu)
    exact hq (State.StaysQuiet.of_same (s := s) rfl rfl rfl rfl rfl rfl rfl hs)

end Sys2Proof.Machine
end

