-- ==== Sys2Proof/Proofs/SourcePixels.lean ====
section
/-! SUPPORT. Source pixels: how each format widens them bit by bit, where they lie in host memory, and which of them a key
skips. -/

namespace Sys2Proof.Machine

set_option Elab.async false

/-! ## Widening (section 5.5, R27, R28) -/

/-- Bits of a number as a bit vector. -/
theorem bitsOf_eq_extract (w : Word) (low width : Nat) : bitsOf w.toNat low width = (w.extractLsb' low width).toNat := by
  rw [bitsOf, BitVec.extractLsb'_toNat, Nat.shiftRight_eq_div_pow]

/-- A component's most significant bits are the higher ones of the bits it is taken from. -/
theorem bitsOf_div (value low width d : Nat) (h : d ≤ width) :
    bitsOf value low width / 2 ^ d = bitsOf value (low + d) (width - d) := by
  unfold bitsOf
  rw [Nat.pow_add, ← Nat.div_div_eq_div_mul]
  conv_lhs => rw [← Nat.sub_add_cancel h, Nat.add_comm, Nat.pow_add]
  exact Nat.mod_mul_right_div_self _ _ _

/-- Two bit strings one after the other, as a number. -/
theorem toNat_append_eq {n m : Nat} (a : BitVec n) (b : BitVec m) : (a ++ b).toNat = a.toNat * 2 ^ m + b.toNat := by
  rw [BitVec.toNat_append, Nat.shiftLeft_eq, Nat.mul_comm, ← Nat.two_pow_add_eq_or_of_lt b.isLt]

/-- A widened component is its own bits, then its most significant ones again. -/
theorem widen_bitsOf (w : Word) (low n m : Nat) (hm : m ≤ 2 * n) (hn : n ≤ m) :
    widen n m (bitsOf w.toNat low n)
      = (w.extractLsb' low n ++ w.extractLsb' (low + (2 * n - m)) (m - n)).toNat := by
  rw [toNat_append_eq, widen, bitsOf_div _ _ _ _ (by omega), bitsOf_eq_extract, bitsOf_eq_extract]
  have : n - (2 * n - m) = m - n := by omega
  rw [this]

/-- A pixel of three components of eight bits. -/
theorem pixelOf_toNat (r g b : BitVec 8) : pixelOf r.toNat g.toNat b.toNat = r ++ g ++ b := by
  apply BitVec.eq_of_toNat_eq
  have := r.isLt
  have := g.isLt
  have := b.isLt
  rw [pixelOf, toNat_append_eq, toNat_append_eq, BitVec.toNat_ofNat]
  omega

/-- Settles O17: each component by its own bits. -/
theorem sourcePixelsWiden : Obligations.SourcePixelsWiden := by
  intro w
  refine ⟨?_, ?_, ?_, ?_, ?_, ?_⟩
  · simp only [widenPixel]
    rw [widen_bitsOf w 8 4 8 (by decide) (by decide), widen_bitsOf w 4 4 8 (by decide) (by decide),
      widen_bitsOf w 0 4 8 (by decide) (by decide)]
    exact pixelOf_toNat _ _ _
  · simp only [widenPixel]
    rw [widen_bitsOf w 11 5 8 (by decide) (by decide), widen_bitsOf w 5 6 8 (by decide) (by decide),
      widen_bitsOf w 0 5 8 (by decide) (by decide)]
    exact pixelOf_toNat _ _ _
  · simp only [widenPixel]
    rw [widen_bitsOf w 12 6 8 (by decide) (by decide), widen_bitsOf w 6 6 8 (by decide) (by decide),
      widen_bitsOf w 0 6 8 (by decide) (by decide)]
    exact pixelOf_toNat _ _ _
  · simp only [widenPixel, bitsOf_eq_extract]
    exact pixelOf_toNat _ _ _
  · simp only [widenPixel, bitsOf_eq_extract]
    exact pixelOf_toNat _ _ _
  · simp only [widenPixel, bitsOf_eq_extract]
    exact pixelOf_toNat 0 0 _

/-! ## Addresses (R29, R32) -/

theorem address_add_toNat (base : Address) (n : Nat) : (base + BitVec.ofNat 64 n).toNat = (base.toNat + n) % 2 ^ 64 := by
  rw [BitVec.toNat_add, BitVec.toNat_ofNat, Nat.add_mod_mod]

/-! ## Keys (R30) -/

/-- Two pixels agree under a mask exactly where they agree in every bit of it. -/
theorem and_mask_eq_iff (p key mask : Pixel) :
    p &&& mask = key &&& mask ↔ ∀ i : Fin 24, mask.getLsbD i = true → p.getLsbD i = key.getLsbD i := by
  constructor
  · intro h i hi
    have hbit := congrArg (fun x : Pixel => x.getLsbD i) h
    simpa only [BitVec.getLsbD_and, hi, Bool.and_true] using hbit
  · intro h
    apply BitVec.eq_of_getLsbD_eq
    intro i hi
    rw [BitVec.getLsbD_and, BitVec.getLsbD_and]
    cases hm : mask.getLsbD i with
    | false => simp
    | true => rw [h ⟨i, hi⟩ hm]

theorem Key.skips_skipMatch (k : Key) (p : Pixel) (h : k.sense = .skipMatch) :
    k.skips p = decide (p &&& k.mask = k.key &&& k.mask) := by
  simp only [Key.skips, h]

theorem Key.skips_writeMatch (k : Key) (p : Pixel) (h : k.sense = .writeMatch) :
    k.skips p = decide (p &&& k.mask ≠ k.key &&& k.mask) := by
  simp only [Key.skips, h]

/-- A mask of zero matches every pixel. -/
theorem Key.skips_of_mask_zero (k : Key) (p : Pixel) (h : k.mask = 0) : k.skips p = decide (k.sense = .skipMatch) := by
  cases hs : k.sense with
  | skipMatch => rw [k.skips_skipMatch p hs, h]; simp
  | writeMatch => rw [k.skips_writeMatch p hs, h]; simp

/-- Settles O18: addresses modulo 2^64, keys by the mask, and the table of the formats. -/
theorem sourcePixelsAreFoundAndKeyed : Obligations.SourcePixelsAreFoundAndKeyed := by
  refine ⟨fun base f n _ => ⟨address_add_toNat _ _, fun r => ?_, address_add_toNat _ _⟩,
    fun k p => ⟨fun hs => ?_, fun hs => ?_, k.skips_of_mask_zero p⟩, rfl⟩
  · rw [Nat.add_assoc]
    exact address_add_toNat _ _
  · rw [k.skips_skipMatch p hs, decide_eq_true_iff, and_mask_eq_iff]
  · rw [k.skips_writeMatch p hs, decide_eq_false_iff_not, not_not, and_mask_eq_iff]

end Sys2Proof.Machine
end

