-- ==== Sys2Proof/Proofs/DeviceStates.lean ====
section
/-! SUPPORT. The device states: what RESET and an entry to FAULT leave, and when a STOP reaches STOPPED. -/

namespace Sys2Proof.Machine

set_option Elab.async false

/-! ## A stop at a pixel boundary (R16) -/

/-- Where the engine presents no write, its stop writes nothing. -/
theorem State.stopEngine_panel (s : State) (h : ∀ p : Pixel, s.engine.phase ≠ .write p) : s.stopEngine.panel = s.panel := by
  rcases s.stopEngine_pixelStep.panel with e | ⟨p, _, hp, _⟩
  · exact e
  · exact absurd hp (h p)

/-! ## RESET (R168) -/

theorem Head.afterReset_same (hd : Head) :
    hd.afterReset.scan.active = hd.scan.active ∧ hd.afterReset.scan.palette = hd.scan.palette
      ∧ hd.afterReset.staging.picture = hd.scan.active ∧ hd.afterReset.staging.palette = hd.scan.palette :=
  ⟨rfl, rfl, rfl, rfl⟩

theorem State.afterReset_head (s : State) (h : HeadId) : s.afterReset.head h = (s.head h).afterReset := Two.get_map _ _ _

/-- Settles O31: RESET keeps the picture of each head, and panel memory but for a presented write. -/
theorem resetKeepsThePicture : Obligations.ResetKeepsThePicture := by
  intro s
  have hstream : ∀ k : StreamId, s.afterReset.stream k = Stream.disabled := State.reset_stream
  refine ⟨s.afterReset, rfl, rfl, rfl, rfl, rfl, rfl, rfl, rfl, rfl, rfl, hstream, State.reset_context, rfl, rfl, rfl,
    fun hp a => ?_, fun h => ?_, rfl⟩
  · rw [show s.afterReset.panel = s.stopEngine.panel from rfl, s.stopEngine_panel hp]
  · rw [s.afterReset_head h]
    obtain ⟨hactive, hpalette, hstaged, hstagedPalette⟩ := (s.head h).afterReset_same
    exact ⟨rfl, rfl, rfl, rfl, rfl, hactive, hpalette, hstaged, hstagedPalette, rfl, rfl, rfl, rfl⟩

/-! ## FAULT (R169) -/

/-- The entry to FAULT keeps what the blocks hold and the state each stream shows. -/
theorem State.enterFault_entered (s : State) (origin : FaultOrigin) : FaultEntered s (s.enterFault origin) where
  left := rfl
  right := by
    refine ⟨rfl, rfl, s.stopEngine_jobs, s.stopEngine_streams, rfl, rfl, fun k => ?_, fun h => ?_⟩
    · change (Four.get _ k : StreamCode) = _
      match k with
      | 0 => rfl
      | 1 => rfl
      | 2 => rfl
      | 3 => rfl
    · change (Two.map _ s.stopEngine.heads).get h = _
      rw [Two.get_map, s.stopEngine_heads]
      rfl

/-- Settles O33: both bus errors enter FAULT, the one on a completion write with no write outstanding any more. -/
theorem busErrorsLeadToFault : Obligations.BusErrorsLeadToFault := by
  intro s
  refine ⟨fun hl => ⟨s.enterFault .setupRead, ?_, rfl, s.stopEngine_writer, s.enterFault_entered _⟩,
    fun w c rest hw ho => ?_⟩
  · obtain ⟨load, hload⟩ := Option.isSome_iff_exists.mp hl
    change Host.Outcome.next (s.setupAnswered .busError) = _
    rw [State.setupAnswered, hload]
  · set u : State := { s with writer := { s.writer with write := none } } with hu
    refine ⟨u.enterFault .completionWrite, ?_, rfl, u.stopEngine_writer, ?_⟩
    · change Host.Outcome.next (s.completionAnswered .busError) = _
      rw [State.completionAnswered, hw, ho]
    · exact u.enterFault_entered .completionWrite

/-! ## STOP (R42, R167) -/

theorem State.runningJob_of_allQueued (s : State) (h : s.jobs.all Job.isQueued = true) : s.runningJob = none := by
  refine List.find?_eq_none.mpr fun j hj => ?_
  have hq : j.state = .queued := of_decide_eq_true (List.all_eq_true.mp h j hj)
  simp [Job.isRunning, hq]

theorem takeEnded_of_allQueued (jobs : List Job) (h : jobs.all Job.isQueued = true) : takeEnded jobs = none := by
  cases he : takeEnded jobs with
  | none => rfl
  | some r =>
    obtain ⟨before, after, j, o, b, rfl, hj, _⟩ := takeEnded_split jobs r.2 r.1 he
    have hq : j.state = .queued := of_decide_eq_true (List.all_eq_true.mp h j (by simp))
    rw [hj] at hq
    cases hq

/-- A try of a part that is not RUNNING is a WAIT that completes. -/
theorem State.attempt_some_of_not_running (s t : State) (a : Try) (hr : s.running = false) (h : s.attempt a = some t) :
    ∃ (k : StreamId) (o : Outcome), t = s.finish k o := by
  cases a with
  | wait k =>
    obtain ⟨_, o, _, _, _, rfl⟩ := s.completeWait_some t k h
    exact ⟨k, o, rfl⟩
  | present k => simp [State.attempt, State.retryPresent, hr] at h
  | palette k => simp [State.attempt, State.retryPalette, hr] at h
  | job k => simp [State.attempt, State.retryJob, hr] at h
  | engine => simp [State.attempt, State.engineChoose, hr] at h

/-- A placement that takes no ENDED job leaves the job list alone. -/
theorem State.placeFrom_jobs (s t : State) (p : Placer) (hn : takeEnded s.jobs = none) (h : s.placeFrom p = some t) :
    t.jobs = s.jobs ∧ t.regs = s.regs := by
  rcases s.placeFrom_cases t p h with ⟨_, _, hj, _⟩ | ⟨_, _, _, _, _, rfl⟩ | ⟨_, _, _, _, _, rfl⟩ | ⟨_, _, _, _, _, rfl⟩
  · rw [hn] at hj; cases hj
  all_goals exact ⟨rfl, rfl⟩

/-- The jobs are all QUEUED and the device is STOPPED. -/
structure State.AtRest (s : State) : Prop where
  device : s.regs.device = .stopped
  queued : s.jobs.all Job.isQueued = true

theorem State.AtRest.of_same {s t : State} (h : s.AtRest) (hr : t.regs = s.regs) (hj : t.jobs = s.jobs) : t.AtRest :=
  ⟨by rw [hr]; exact h.device, by rw [hj]; exact h.queued⟩

theorem State.AtRest.running {s : State} (h : s.AtRest) : s.running = false := by
  simp [State.running, h.device]

theorem State.AtRest.attempt {s t : State} {a : Try} (h : s.AtRest) (e : s.attempt a = some t) : t.AtRest := by
  obtain ⟨k, o, rfl⟩ := s.attempt_some_of_not_running t a h.running e
  exact h.of_same (s.finish_regs k o) (s.finish_jobs k o)

theorem State.AtRest.placeFrom {s t : State} {p : Placer} (h : s.AtRest) (e : s.placeFrom p = some t) : t.AtRest := by
  obtain ⟨hj, hr⟩ := s.placeFrom_jobs t p (takeEnded_of_allQueued _ h.queued) e
  exact h.of_same hr hj

theorem State.AtRest.choose {s : State} (h : s.AtRest) : State.AtRest { s with choices := s.choices + 1 } :=
  h.of_same rfl rfl

theorem State.AtRest.act {s t : State} {f : State → Option State} (h : s.AtRest) (hf : f ∈ acts) (e : f s = some t) :
    t.AtRest := by
  simp only [acts, List.mem_cons, List.not_mem_nil, or_false] at hf
  rcases hf with rfl | rfl | rfl
  · obtain ⟨a, _, _, e | e⟩ := s.tryNext_some t e
    · exact h.attempt e
    · exact h.choose.attempt e
  · obtain ⟨_, p, _, _, e | e⟩ := s.placeNext_some t e
    · exact h.placeFrom e
    · exact h.choose.placeFrom e
  · simp [State.grant, h.running] at e

/-- Without a RUNNING job the engine does nothing. -/
theorem State.AtRest.follows {s t : State} (h : s.AtRest) (m : Follows s t) : t.AtRest := by
  have hnone := s.runningJob_of_allQueued h.queued
  cases m with
  | choose => exact h.choose
  | phase p => exact h.of_same rfl rfl
  | pixelDone wrote => exact h.of_same (s.pixelDone_regs wrote) (s.pixelDone_jobs wrote)
  | endJob o => simpa only [State.endJob, hnone] using h
  | failJob status written => simpa only [State.failJob, hnone] using h
  | window j c w hj _ => rw [hnone] at hj; cases hj
  | placed j m hj => rw [hnone] at hj; cases hj

theorem State.AtRest.followsAll {s t : State} (h : s.AtRest) (m : FollowsAll s t) : t.AtRest :=
  m.keeps State.AtRest (fun _ _ m h => h.follows m) h

theorem State.AtRest.react {s t : State} {f : State → Option State} (h : s.AtRest) (hf : f ∈ reactions)
    (e : f s = some t) : t.AtRest := by
  rcases reactions_cases f hf with rfl | ⟨i, rfl⟩ | rfl | rfl | rfl
  · simp [State.reachStopped, h.device] at e
  · simp only [State.latchNow, Option.ite_none_right_eq_some, Option.some.injEq] at e
    obtain ⟨_, rfl⟩ := e
    exact h.of_same rfl rfl
  · obtain ⟨_, _, a, _, rfl⟩ := s.takeAhead_some t e
    have hrest : State.AtRest { s with engine := { s.engine with
        ahead := sparseErase s.engine.ahead (s.engine.processed + 1) } } := h.of_same rfl rfl
    exact hrest.followsAll (State.takeSource_follows _ a)
  · obtain ⟨g, hg, _, e | e⟩ := s.actNext_some t e
    · exact h.act hg e
    · exact h.choose.act hg e
  · obtain ⟨_, _, rfl⟩ := s.issueWrite_some t e
    exact h.of_same rfl rfl

/-! ## The device state under the moves of a reaction -/

theorem Follows.regs {s t : State} (m : Follows s t) : t.regs = s.regs := by
  cases m with
  | choose => rfl
  | phase p => rfl
  | pixelDone wrote => exact s.pixelDone_regs wrote
  | endJob o => exact s.endJob_regs o
  | failJob status written => exact s.failJob_regs status written
  | window j c w _ _ => rfl
  | placed j m _ => rfl

theorem FollowsAll.regs {s t : State} (m : FollowsAll s t) : t.regs = s.regs :=
  m.keeps (fun u => u.regs = s.regs) (fun _ _ m h => m.regs.trans h) rfl

/-- Of the acts, only the one that reaches STOPPED changes the device state. -/
theorem Starts.device {s t : State} (m : Starts s t) :
    t.regs.device = s.regs.device ∨ s.regs.device = .stopping ∧ t.AtRest := by
  cases m with
  | stop hd hq => exact .inr ⟨hd, rfl, hq⟩
  | latch i _ _ _ => exact .inl rfl
  | answer n a _ => exact .inl rfl
  | wait k c o _ _ _ => exact .inl (by rw [s.finish_regs k o])
  | present _ k _ ht =>
    obtain ⟨_, _, _, _, _, _, _, rfl, _, rfl⟩ := s.dispatchPresent_some t k ht
    exact .inl rfl
  | palette _ k _ ht =>
    obtain ⟨_, _, _, _, _, _, _, rfl⟩ := s.dispatchPalette_some t k ht
    exact .inl rfl
  | job _ k _ ht =>
    obtain ⟨_, _, _, _, _, _, _, _, rfl⟩ := s.dispatchJob_some t k ht
    exact .inl rfl
  | engine jobs _ _ => exact .inl rfl
  | place _ p ht =>
    rcases s.placeFrom_cases t p ht with ⟨_, _, _, rfl⟩ | ⟨_, _, _, _, _, rfl⟩ | ⟨_, _, _, _, _, rfl⟩
      | ⟨_, _, _, _, _, rfl⟩ <;> exact .inl rfl
  | grant _ ht =>
    obtain ⟨_, _, _, _, rfl⟩ := s.grant_some t ht
    exact .inl rfl
  | write _ ht =>
    obtain ⟨_, _, rfl⟩ := s.issueWrite_some t ht
    exact .inl rfl

/-- A move keeps the device state, or goes from STOPPING to STOPPED with QUEUED jobs alone. -/
theorem Moves.device {s t : State} (m : Moves s t) :
    t.regs.device = s.regs.device ∨ s.regs.device = .stopping ∧ t.AtRest := by
  obtain ⟨u, v, hu, huv, hv⟩ := m
  rw [hv.regs, ← hu.regs]
  exact huv.device.imp id fun ⟨hd, h⟩ => ⟨hd, h.followsAll hv⟩

/-- Settling keeps the device state, but for one that goes from STOPPING to STOPPED. -/
theorem State.settleFor_device (s : State) (n : Nat) :
    (s.settleFor n).regs.device = s.regs.device
      ∨ s.regs.device = .stopping ∧ (s.settleFor n).regs.device = .stopped := by
  refine State.settleFor_keeps
    (fun u => u.regs.device = s.regs.device ∨ s.regs.device = .stopping ∧ u.regs.device = .stopped)
    (fun f hf u t e hu => ?_) n s (.inl rfl)
  rcases (reaction_moves f hf u t e).device with h | ⟨hd, h⟩
  · rwa [h]
  · rcases hu with hu | ⟨_, hu⟩
    · exact .inr ⟨by rw [← hu, hd], h.device⟩
    · rw [hu] at hd; cases hd

/-- A STOPPING part settles STOPPING, or at rest. -/
theorem State.settle_stops (s : State) (h : s.regs.device = .stopping) :
    s.settle.regs.device = .stopping ∨ s.settle.AtRest := by
  refine State.settle_keeps (fun u => u.regs.device = .stopping ∨ u.AtRest) (fun f hf u t e hu => ?_) s (.inl h)
  rcases hu with hu | hu
  · rcases (reaction_moves f hf u t e).device with hd | ⟨_, hd⟩
    · exact .inl (hd.trans hu)
    · exact .inr hd
  · exact .inr (hu.react hf e)

/-- A settled part is not STOPPING with QUEUED jobs alone. -/
theorem State.quiescent.not_stopping {s : State} (h : s.quiescent) (hq : s.jobs.all Job.isQueued = true) :
    s.regs.device ≠ .stopping := by
  intro hd
  have hnone : s.reachStopped = none := s.react_none.mp h State.reachStopped (by simp [reactions])
  rw [State.reachStopped, if_pos ⟨hd, hq⟩] at hnone
  cases hnone

theorem allQueued_iff (jobs : List Job) : jobs.all Job.isQueued = true ↔ ∀ j ∈ jobs, j.state = .queued := by
  simp [Job.isQueued]

/-- Settles O27: a part at rest stays so, and a settled one does not stop short of it. -/
theorem stopReachesStopped : Obligations.StopReachesStopped := by
  intro s hr
  set u := (s.setDevice .stopping).settle with hu
  have hsettled := (s.setDevice .stopping).settle_settlesTo
  have hexec : exec .stop s = .next u := by
    change Host.Outcome.next s.stopCommand = _
    rw [State.stopCommand, if_pos hr]
  have hstops : u.regs.device = .stopping ∨ u.AtRest := (s.setDevice .stopping).settle_stops rfl
  refine ⟨u, hexec, hsettled.panel, hsettled.loader, hstops.imp id State.AtRest.device, fun hd => ?_, fun hq => ?_⟩
  · rcases hstops with h | h
    · rw [hd] at h; cases h
    · exact (allQueued_iff _).mp h.queued
  · have hquiet : u.quiescent := State.settle_quiet _
    exact (hstops.resolve_left (hquiet.not_stopping ((allQueued_iff _).mpr hq))).device

end Sys2Proof.Machine
end

