-- ==== Sys2Proof/Proofs/HoldingLaw.lean ====
section
/-! SUPPORT. The law of the leases, of the records held back and of the palettes, head by head; and the changes that ease it:
waiters withdrawn, palette reads ended, entries settled or gone, current records ended. -/

namespace Sys2Proof.Machine

set_option Elab.async false

/-! ## The law, head by head -/

/-- How many unlatched entries with PAL stand in the queue. -/
def Head.palCount (hd : Head) : Nat := (hd.present.entries.filter (fun e => e.unlatched && e.pal)).length

/-- The streams of the waiters, oldest first. -/
def Head.waiting (hd : Head) : List StreamId := hd.lease.waiters.map (fun w => w.ref.stream)

/-- What the law asks of one head. -/
structure State.HeadLaw (s : State) (h : HeadId) : Prop where
  free : (s.head h).lease.holder = none → (s.head h).lease.waiters = []
  nodup : (s.head h).waiting.Nodup
  waits : ∀ w ∈ (s.head h).lease.waiters,
    (s.head h).lease.holder ≠ some w.ref.stream ∧ s.currentIn w.ref.stream .waitLease h
  reads : ∀ r : PaletteRead, (s.head h).staging.reading = some r →
    (s.head h).lease.holder = some r.ref.stream ∧ s.currentIn r.ref.stream .waitPaletteRead h
  held : ∀ k : StreamId, s.currentIn k .heldQueueFull h ∨ s.currentIn k .heldPaletteHazard h →
    (s.head h).lease.holder = some k
  pals : (s.head h).palCount ≤ 1
  guarded : (s.head h).present.hazard = true →
    (s.head h).staging.dirty = false ∧ (s.head h).staging.reading = none

/-- The law as a whole. -/
structure State.Holds (s : State) : Prop where
  read : s.slotReadFits
  heads : ∀ h : HeadId, s.HeadLaw h
  loads : s.loadsFirst

theorem State.holdingLaw_iff (s : State) : s.holdingLaw ↔ s.Holds := by
  constructor
  · rintro ⟨hread, hleases, hholders, hpalettes, hloads⟩
    refine ⟨hread, fun h => ?_, hloads⟩
    obtain ⟨hfree, hnodup, hwaits⟩ := hleases h
    obtain ⟨hreads, hheld⟩ := hholders h
    obtain ⟨hpals, hguarded⟩ := hpalettes h
    exact ⟨hfree, hnodup, hwaits, hreads, hheld, hpals, hguarded⟩
  · rintro ⟨hread, hheads, hloads⟩
    exact ⟨hread, fun h => ⟨(hheads h).free, (hheads h).nodup, (hheads h).waits⟩,
      fun h => ⟨(hheads h).reads, (hheads h).held⟩, fun h => ⟨(hheads h).pals, (hheads h).guarded⟩, hloads⟩

/-- The hazard stands exactly where an unlatched entry with PAL does. -/
theorem Head.hazard_iff (hd : Head) : hd.present.hazard = true ↔ 0 < hd.palCount := by
  simp only [Present.hazard, Head.palCount, List.length_pos_iff_exists_mem, List.mem_filter, List.any_eq_true]

/-! ## Streams that no head is engaged with -/

/-- The head has no waiter and no palette read of stream `k`. -/
structure Head.Unengaged (hd : Head) (k : StreamId) : Prop where
  waiters : ∀ w ∈ hd.lease.waiters, w.ref.stream ≠ k
  reading : ∀ r : PaletteRead, hd.staging.reading = some r → r.ref.stream ≠ k

/-- A stream that waits neither for a lease nor for a palette read is engaged with no head. -/
theorem State.HeadLaw.unengaged {s : State} {h : HeadId} (hl : s.HeadLaw h) {k : StreamId}
    (hc : ∀ c : CurrentRecord, (s.stream k).current = some c → c.phase ≠ .waitLease ∧ c.phase ≠ .waitPaletteRead) :
    (s.head h).Unengaged k where
  waiters w hw hk := by
    obtain ⟨c, hcur, hp, _⟩ := (hl.waits w hw).2
    rw [hk] at hcur
    exact (hc c hcur).1 hp
  reading r hr hk := by
    obtain ⟨c, hcur, hp, _⟩ := (hl.reads r hr).2
    rw [hk] at hcur
    exact (hc c hcur).2 hp

theorem State.HeadLaw.unengaged_of_phase {s : State} {h : HeadId} (hl : s.HeadLaw h) {k : StreamId} {c : CurrentRecord}
    (hcur : (s.stream k).current = some c) (hw : c.phase ≠ .waitLease) (hp : c.phase ≠ .waitPaletteRead) :
    (s.head h).Unengaged k :=
  hl.unengaged fun d hd => by
    rw [hcur] at hd
    cases hd
    exact ⟨hw, hp⟩

/-- A stream that waits on a head, or reads a palette for it, is engaged with no other. -/
theorem State.HeadLaw.unengaged_of_other {s : State} {h i : HeadId} (hl : s.HeadLaw h) {k : StreamId} {p : RecordPhase}
    (hc : s.currentIn k p i) (hi : h ≠ i) : (s.head h).Unengaged k := by
  obtain ⟨c, hcur, _, hhead⟩ := hc
  refine ⟨fun w hw hk => ?_, fun r hr hk => ?_⟩
  · obtain ⟨d, hd, _, hh⟩ := (hl.waits w hw).2
    rw [hk, hcur] at hd
    cases hd
    exact hi (Option.some.inj (hh.symm.trans hhead))
  · obtain ⟨d, hd, _, hh⟩ := (hl.reads r hr).2
    rw [hk, hcur] at hd
    cases hd
    exact hi (Option.some.inj (hh.symm.trans hhead))

theorem State.currentIn_congr {s t : State} {k : StreamId} (h : (t.stream k).current = (s.stream k).current)
    (p : RecordPhase) (i : HeadId) : t.currentIn k p i ↔ s.currentIn k p i := by
  simp only [State.currentIn, h]

theorem State.not_currentIn {s : State} {k : StreamId} (h : (s.stream k).current = none) (p : RecordPhase) (i : HeadId) :
    ¬ s.currentIn k p i := by
  rintro ⟨c, hc, _⟩
  rw [h] at hc
  cases hc

/-! ## What eases the law -/

/-- The lease keeps its holder, and the head has no more waiters, palette reads, unlatched entries with PAL and dirt. -/
structure Head.Eases (a b : Head) : Prop where
  holder : b.lease.holder = a.lease.holder
  waiting : b.waiting.Sublist a.waiting
  reading : ∀ r : PaletteRead, b.staging.reading = some r → ∃ q : PaletteRead, a.staging.reading = some q ∧ q.ref = r.ref
  dirty : b.staging.dirty = true → a.staging.dirty = true
  pals : b.palCount ≤ a.palCount

/-- No new slot read, no new current record, no new waiter, palette read or hazard, and no other way into IDLE or LOADING. -/
structure State.Eases (s t : State) : Prop where
  read : ∀ read : SlotRead, t.fetch.read = some read → read.discard = false → s.fetch.read = some read
  current : ∀ k : StreamId, (t.stream k).current = (s.stream k).current
    ∨ (t.stream k).current = none ∧ ∀ h : HeadId, (t.head h).Unengaged k
  heads : ∀ h : HeadId, (s.head h).Eases (t.head h)
  loader : t.loader ≠ none → s.loader ≠ none ∧ t.regs.device = s.regs.device
  device : t.regs.device = .idle ∨ t.regs.device = .loading → s.regs.device = .idle ∨ s.regs.device = .loading

theorem Head.Eases.refl (a : Head) : a.Eases a := ⟨rfl, .refl _, fun r hr => ⟨r, hr, rfl⟩, id, le_rfl⟩

theorem Head.Eases.trans {a b c : Head} (h : a.Eases b) (g : b.Eases c) : a.Eases c where
  holder := g.holder.trans h.holder
  waiting := g.waiting.trans h.waiting
  reading r hr := by
    obtain ⟨q, hq, hqr⟩ := g.reading r hr
    obtain ⟨p, hp, hpq⟩ := h.reading q hq
    exact ⟨p, hp, hpq.trans hqr⟩
  dirty hc := h.dirty (g.dirty hc)
  pals := g.pals.trans h.pals

/-- A head whose lease and staging set but for pictures stand, and whose queue has no more unlatched entries with PAL. -/
theorem Head.Eases.of_same {a b : Head} (hl : b.lease = a.lease) (hr : b.staging.reading = a.staging.reading)
    (hd : b.staging.dirty = a.staging.dirty) (he : b.palCount ≤ a.palCount) : a.Eases b :=
  ⟨by rw [hl], by rw [Head.waiting, hl]; exact .refl _, fun r h => ⟨r, by rw [← hr]; exact h, rfl⟩, fun h => hd ▸ h, he⟩

/-- An eased head engages no stream that it did not engage. -/
theorem Head.Unengaged.of_eases {a b : Head} {k : StreamId} (hu : a.Unengaged k) (h : a.Eases b) : b.Unengaged k where
  waiters w hw hk := by
    have hmem : w.ref.stream ∈ a.waiting := h.waiting.subset (List.mem_map_of_mem hw)
    obtain ⟨v, hv, hvw⟩ := List.mem_map.mp hmem
    exact hu.waiters v hv (hvw.trans hk)
  reading r hr hk := by
    obtain ⟨q, hq, hqr⟩ := h.reading r hr
    exact hu.reading q hq (by rw [hqr]; exact hk)

theorem State.Eases.refl (s : State) : s.Eases s :=
  ⟨fun _ h _ => h, fun _ => .inl rfl, fun _ => .refl _, fun h => ⟨h, rfl⟩, id⟩

theorem State.Eases.trans {s t u : State} (h : s.Eases t) (g : t.Eases u) : s.Eases u where
  read r hr hd := h.read r (g.read r hr hd) hd
  current k := by
    rcases g.current k with e | e
    · rcases h.current k with e' | ⟨e', hu⟩
      · exact .inl (e.trans e')
      · exact .inr ⟨e.trans e', fun i => (hu i).of_eases (g.heads i)⟩
    · exact .inr e
  heads i := (h.heads i).trans (g.heads i)
  loader hl := by
    obtain ⟨ht, hd⟩ := g.loader hl
    obtain ⟨hs, hd'⟩ := h.loader ht
    exact ⟨hs, hd.trans hd'⟩
  device hd := h.device (g.device hd)

theorem State.Eases.headLaw {s t : State} (he : s.Eases t) {h : HeadId} (hl : s.HeadLaw h) : t.HeadLaw h := by
  have hh := he.heads h
  have hcurrent : ∀ {k : StreamId} (p : RecordPhase), ¬ (t.head h).Unengaged k → s.currentIn k p h → t.currentIn k p h :=
    fun {k} p hk hc => by
      rcases he.current k with e | ⟨_, hu⟩
      · exact (State.currentIn_congr e p h).mpr hc
      · exact absurd (hu h) hk
  refine ⟨fun hf => ?_, hl.nodup.sublist hh.waiting, fun w hw => ?_, fun r hr => ?_, fun k hk => ?_,
    hh.pals.trans hl.pals, fun hz => ?_⟩
  · have hnil := hh.waiting
    rw [Head.waiting, Head.waiting, hl.free (hh.holder ▸ hf)] at hnil
    exact List.map_eq_nil_iff.mp (List.sublist_nil.mp hnil)
  · obtain ⟨v, hv, hvw⟩ := List.mem_map.mp (hh.waiting.subset (List.mem_map_of_mem (f := fun w => w.ref.stream) hw))
    obtain ⟨hne, hc⟩ := hl.waits v hv
    rw [hvw] at hne hc
    exact ⟨by rw [hh.holder]; exact hne, hcurrent _ (fun hu => hu.waiters w hw rfl) hc⟩
  · obtain ⟨q, hq, hqr⟩ := hh.reading r hr
    obtain ⟨ho, hc⟩ := hl.reads q hq
    rw [hqr] at ho hc
    exact ⟨by rw [hh.holder]; exact ho, hcurrent _ (fun hu => hu.reading r hr rfl) hc⟩
  · rw [hh.holder]
    refine hl.held k ?_
    rcases he.current k with e | ⟨e, _⟩
    · rwa [State.currentIn_congr e, State.currentIn_congr e] at hk
    · exact absurd hk (not_or.mpr ⟨State.not_currentIn e _ _, State.not_currentIn e _ _⟩)
  · obtain ⟨hdirty, hreading⟩ := hl.guarded ((Head.hazard_iff _).mpr (((Head.hazard_iff _).mp hz).trans_le hh.pals))
    refine ⟨?_, ?_⟩
    · by_contra hne
      rw [hh.dirty (Bool.eq_true_of_not_eq_false hne)] at hdirty
      cases hdirty
    · rw [Option.eq_none_iff_forall_ne_some]
      intro r hr
      obtain ⟨q, hq, _⟩ := hh.reading r hr
      rw [hreading] at hq
      cases hq

/-- What eases the law keeps it. -/
theorem State.Eases.holds {s t : State} (he : s.Eases t) (hs : s.Holds) : t.Holds := by
  refine ⟨fun r c hr hd hc => ?_, fun h => he.headLaw (hs.heads h), fun hl => ?_, fun hd h => ?_⟩
  · rcases he.current r.stream with e | ⟨e, _⟩
    · exact hs.read r c (he.read r hr hd) hd (e ▸ hc)
    · rw [e] at hc; cases hc
  · obtain ⟨hl', hd⟩ := he.loader hl
    rw [hd]
    exact hs.loads.1 hl'
  · obtain ⟨hw, hr⟩ := hs.loads.2 (he.device hd) h
    have hh := he.heads h
    have hnil := hh.waiting
    rw [Head.waiting, Head.waiting, hw] at hnil
    refine ⟨List.map_eq_nil_iff.mp (List.sublist_nil.mp hnil), ?_⟩
    rw [Option.eq_none_iff_forall_ne_some]
    intro r hr'
    obtain ⟨q, hq, _⟩ := hh.reading r hr'
    rw [hr] at hq
    cases hq

/-! ## What eases the law, operation by operation -/

/-- A change of heads alone. -/
theorem State.Eases.of_heads {s t : State} (hf : t.fetch = s.fetch) (hs : t.streams = s.streams) (hl : t.loader = s.loader)
    (hd : t.regs.device = s.regs.device) (h : ∀ i : HeadId, (s.head i).Eases (t.head i)) : s.Eases t :=
  ⟨fun r hr _ => hf ▸ hr, fun k => .inl (by rw [State.stream, State.stream, hs]), h, fun hn => ⟨hl ▸ hn, hd⟩,
    fun hn => hd ▸ hn⟩

/-- A change of nothing that the law speaks of. -/
theorem State.Eases.of_same {s t : State} (hf : t.fetch = s.fetch) (hs : t.streams = s.streams) (hl : t.loader = s.loader)
    (hd : t.regs.device = s.regs.device) (hh : t.heads = s.heads) : s.Eases t :=
  .of_heads hf hs hl hd fun i => by rw [State.head, State.head, hh]; exact .refl _

theorem State.Eases.setHead {s : State} {i : HeadId} {x : Head} (h : (s.head i).Eases x) : s.Eases (s.setHead i x) := by
  refine .of_heads rfl rfl rfl rfl fun j => ?_
  rw [State.head_setHead]
  split
  · rename_i e; exact e ▸ h
  · exact .refl _

/-- A stream's current record stands, or ends where no head is engaged with the stream. -/
theorem State.Eases.setStream {s : State} {k : StreamId} {x : Stream}
    (h : x.current = (s.stream k).current ∨ x.current = none ∧ ∀ i : HeadId, (s.head i).Unengaged k) :
    s.Eases (s.setStream k x) := by
  refine ⟨fun _ hr _ => hr, fun j => ?_, fun _ => .refl _, fun hn => ⟨hn, rfl⟩, id⟩
  rw [State.stream_setStream]
  split
  · rename_i e; subst e; exact h
  · exact .inl rfl

theorem State.finishAs_eases (s : State) (k : StreamId) (ref : RecordRef) (kind : Byte) (o : Outcome)
    (hu : ∀ i : HeadId, (s.head i).Unengaged k) : s.Eases (s.finishAs k ref kind o) := by
  refine .setStream (.inr ⟨?_, hu⟩)
  split <;> rfl

theorem State.finish_eases (s : State) (k : StreamId) (o : Outcome) (hu : ∀ i : HeadId, (s.head i).Unengaged k) :
    s.Eases (s.finish k o) := by
  unfold State.finish
  split
  · exact s.finishAs_eases k _ _ o hu
  · exact .refl s

theorem State.dropCurrent_eases (s : State) (k : StreamId) (hu : ∀ i : HeadId, (s.head i).Unengaged k) :
    s.Eases (s.dropCurrent k) :=
  .setStream (.inr ⟨rfl, hu⟩)

/-! ## Heads eased -/

/-- Entries that are gone or settled leave no more unlatched ones with PAL. -/
theorem Head.palCount_le_of_sublist {a b : Head} (h : b.present.entries.Sublist a.present.entries) :
    b.palCount ≤ a.palCount :=
  (h.filter _).length_le

theorem Head.withdraw_eases (hd : Head) (k : StreamId) : hd.Eases (hd.withdraw k) :=
  ⟨rfl, List.filter_sublist.map _, fun r hr => ⟨r, hr, rfl⟩, id, le_rfl⟩

theorem Head.abandonRead_eases (hd : Head) (k : StreamId) : hd.Eases (hd.abandonRead k) := by
  unfold Head.abandonRead
  split
  · split
    · exact ⟨rfl, .refl _, fun r hr => (by cases hr), id, le_rfl⟩
    · exact .refl hd
  · exact .refl hd

theorem Head.withdrawn_eases (hd : Head) (k : StreamId) : hd.Eases (hd.withdrawn k) :=
  (hd.withdraw_eases k).trans (Head.abandonRead_eases _ k)

/-- A head without a stream's waiter and palette read is not engaged with the stream. -/
theorem Head.withdrawn_unengaged (hd : Head) (k : StreamId) : (hd.withdrawn k).Unengaged k :=
  ⟨fun w hw => Head.withdrawn_waiters k hd w hw, fun r hr => by
    rw [hd.withdrawn_reading k, Option.filter_eq_some_iff] at hr
    exact of_decide_eq_true hr.2⟩

theorem Head.rewindBy_eases (hd : Head) (k : StreamId) (point : Nat) (ring : Option Ring) :
    hd.Eases (hd.rewindBy k point ring) := by
  obtain ⟨hlease, hstaging, hpresent, _⟩ := hd.rewindBy_same k point ring
  exact .of_same hlease (by rw [hstaging]) (by rw [hstaging]) (by rw [Head.palCount, hpresent]; exact le_rfl)

theorem Head.reload_eases (hd : Head) (b : Bool) : hd.Eases (hd.reload b) := by
  refine ⟨by rw [hd.reload_lease], by rw [Head.waiting, hd.reload_lease]; exact .refl _, fun r hr => ⟨r, ?_, rfl⟩,
    fun h => ?_, ?_⟩
  · rwa [hd.reload_reading] at hr
  · rw [hd.reload_dirty] at h; cases h
  · rw [Head.palCount, hd.reload_present]; exact le_rfl

theorem Head.abandon_eases (hd : Head) (h : HeadId) (k : StreamId) (counter : Word) (first : Option Word) :
    hd.Eases (hd.abandon h k counter first) :=
  .of_same rfl rfl rfl (Head.palCount_le_of_sublist List.filter_sublist)

theorem Head.abandonAndReload_eases (hd : Head) (h : HeadId) (k : StreamId) (counter : Word) (first : Option Word) :
    hd.Eases (hd.abandonAndReload h k counter first) := by
  unfold Head.abandonAndReload
  dsimp only
  split
  · exact hd.abandon_eases h k counter first
  · exact (hd.abandon_eases h k counter first).trans (Head.reload_eases _ _)

/-- An evaluation changes neither what is unlatched nor PAL. -/
theorem Head.evaluated_palCount (hd : Head) (jobs : List Job) (streams : Four Stream) :
    Head.palCount { hd with present := hd.present.evaluated jobs streams } = hd.palCount := by
  have hsame : ∀ e : Entry, ((e.evaluated jobs streams).unlatched && (e.evaluated jobs streams).pal)
      = (e.unlatched && e.pal) := fun e => by
    unfold Entry.evaluated
    split
    · rename_i hw; simp [Entry.unlatched, hw.1]
    · rfl
  simp only [Head.palCount, Present.evaluated, List.filter_map, List.length_map, Function.comp_def, hsame]

theorem Head.evaluated_eases (hd : Head) (jobs : List Job) (streams : Four Stream) :
    hd.Eases { hd with present := hd.present.evaluated jobs streams } :=
  .of_same rfl rfl rfl (hd.evaluated_palCount jobs streams).le

theorem missOldest_palCount (es : List Entry) :
    ((missOldest es).filter (fun e => e.unlatched && e.pal)).length
      = (es.filter (fun e => e.unlatched && e.pal)).length := by
  cases es with
  | nil => rfl
  | cons e rest =>
    have hsame : (({ e with missed := min 255 (e.missed + 1) } : Entry).unlatched && e.pal) = (e.unlatched && e.pal) := rfl
    simp only [missOldest, List.filter_cons, hsame]
    split <;> rfl

/-- A latch step leaves no more unlatched entries with PAL. -/
theorem Head.latchStep_palCount (hd : Head) (h : HeadId) (kind : LatchKind) :
    (hd.latchStep h kind).palCount ≤ hd.palCount := by
  by_cases hr : readyRun hd.present.entries kind hd.scan.frame = []
  · unfold Head.latchStep
    simp only [hr, List.drop_nil]
    cases kind with
    | blanking =>
      have hsplit : settledPart hd.present.entries ++ openPart hd.present.entries = hd.present.entries :=
        List.takeWhile_append_dropWhile
      dsimp only
      conv_rhs => rw [Head.palCount, ← hsplit]
      simp only [Head.palCount, List.filter_append, List.length_append, missOldest_palCount]
      exact le_rfl
    | immediate => exact le_rfl
  · obtain ⟨skipped, rest, target, copies, flags, hes, _, _, _, _, heq⟩ := hd.latchStep_target h kind hr
    have hskipped : (skipped.map (fun e => { e with state := EntryState.skipped })).filter
        (fun e => e.unlatched && e.pal) = [] := by
      simp [List.filter_eq_nil_iff, Entry.unlatched]
    have htarget : (target.keptLatched flags).filter (fun e => e.unlatched && e.pal) = [] := by
      unfold Entry.keptLatched
      split <;> simp [Entry.unlatched]
    rw [heq]
    conv_rhs => rw [Head.palCount, hes]
    simp only [Head.palCount, List.filter_append, List.length_append, hskipped, htarget, List.filter_cons,
      List.length_nil]
    split
    · simp only [List.length_cons]; omega
    · omega

theorem Head.latchStep_eases (hd : Head) (h : HeadId) (kind : LatchKind) : hd.Eases (hd.latchStep h kind) := by
  obtain ⟨hlease, hstaging, _⟩ := hd.latchStep_same h kind
  exact .of_same hlease (by rw [hstaging]) (by rw [hstaging]) (hd.latchStep_palCount h kind)

theorem Head.ramp_eases (hd : Head) : hd.Eases hd.ramp := by
  obtain ⟨hlease, hstaging, hpresent, _⟩ := hd.ramp_same
  exact .of_same hlease (by rw [hstaging]) (by rw [hstaging]) (by rw [Head.palCount, hpresent]; exact le_rfl)

theorem Head.enter_eases (hd : Head) (st : LinkState) : hd.Eases (hd.enter st) := by
  cases st <;> exact .of_same rfl rfl rfl le_rfl

theorem Head.tick_eases (hd : Head) : hd.Eases hd.tick := by
  refine ⟨rfl, ?_, fun r hr => ⟨r, hr, rfl⟩, id, le_rfl⟩
  have hwaiting : hd.tick.waiting = hd.waiting := by
    simp only [Head.waiting, Head.tick, List.map_map]
    rfl
  rw [hwaiting]

/-- A queue told that one of its completions has been written has lost an entry at most. -/
theorem Head.written_eases (hd : Head) (c : Completion) : hd.Eases { hd with present := hd.present.written c } := by
  refine .of_same rfl rfl rfl (Head.palCount_le_of_sublist ?_)
  unfold Present.written
  split
  · exact .refl _
  · exact dropWritten_sublist _ _

end Sys2Proof.Machine
end

