-- ==== Sys2Proof/Proofs/LawSteps.lean ====
section
/-! SUPPORT. The job list's laws and the holding law under the moves of a reaction and the operations that commands are built
from. -/

namespace Sys2Proof.Machine

set_option Elab.async false

/-! ## The job list (R20, R21, R23) -/

/-- What the laws of the job list look at in a job: its stream, and whether it keeps the engine busy. -/
def Job.lawKey (j : Job) : StreamId × Bool := (j.ref.stream, j.holdsEngine)

/-- The list has lost jobs at most, as far as its laws look at them. -/
def JobsShrink (a b : List Job) : Prop := (b.map Job.lawKey).Sublist (a.map Job.lawKey)

theorem JobsShrink.refl (a : List Job) : JobsShrink a a := List.Sublist.refl _

theorem JobsShrink.trans {a b c : List Job} (h : JobsShrink a b) (g : JobsShrink b c) : JobsShrink a c :=
  List.Sublist.trans g h

theorem JobsShrink.of_eq {a b : List Job} (h : b = a) : JobsShrink a b := h ▸ .refl a

theorem JobsShrink.of_sublist {a b : List Job} (h : b.Sublist a) : JobsShrink a b := h.map _

/-- A change of jobs that keeps what the laws look at. -/
theorem JobsShrink.map (a : List Job) (f : Job → Job) (hf : ∀ j : Job, (f j).lawKey = j.lawKey) :
    JobsShrink a (a.map f) := by
  have hsame : (a.map f).map Job.lawKey = a.map Job.lawKey := by
    rw [List.map_map]
    exact List.map_congr_left fun j _ => hf j
  rw [JobsShrink, hsame]

theorem filter_map_length {α β : Type} (l : List α) (f : α → β) (p : β → Bool) :
    ((l.map f).filter p).length = (l.filter (fun a => p (f a))).length := by
  rw [List.filter_map, List.length_map]
  rfl

/-- In a list that shrinks, no kind of job becomes more frequent. -/
theorem JobsShrink.filter_le {a b : List Job} (h : JobsShrink a b) (p : StreamId × Bool → Bool) :
    (b.filter (fun j => p j.lawKey)).length ≤ (a.filter (fun j => p j.lawKey)).length := by
  have hle := (List.Sublist.filter p h).length_le
  rwa [filter_map_length, filter_map_length] at hle

theorem JobsShrink.length_le {a b : List Job} (h : JobsShrink a b) : b.length ≤ a.length := by
  have hle := List.Sublist.length_le h
  rwa [List.length_map, List.length_map] at hle

theorem JobsShrink.jobsBounded {s t : State} (h : JobsShrink s.jobs t.jobs) (hs : s.jobsBounded) : t.jobsBounded :=
  ⟨h.length_le.trans hs.1, fun k => (h.filter_le fun x => decide (x.1 = k)).trans (hs.2 k)⟩

theorem JobsShrink.oneEngineJob {s t : State} (h : JobsShrink s.jobs t.jobs) (hs : s.oneEngineJob) : t.oneEngineJob :=
  (h.filter_le Prod.snd).trans hs

theorem Job.evaluateGate_lawKey (j : Job) (heads : Two Head) : (j.evaluateGate heads).lawKey = j.lawKey := by
  obtain ⟨href, _, hstate, _⟩ := j.evaluateGate_same heads
  simp only [Job.lawKey, Job.holdsEngine, href, hstate]

theorem JobsShrink.evaluateGates (heads : Two Head) (seen : List StreamId) (jobs : List Job) :
    JobsShrink jobs (evaluateGates heads seen jobs) := by
  rw [JobsShrink, evaluateGates_map Job.lawKey Job.evaluateGate_lawKey heads seen jobs]

theorem JobsShrink.endRunningIn (jobs : List Job) (o : Outcome) : JobsShrink jobs (endRunningIn jobs o) :=
  .map jobs _ fun j => by
    split
    · rename_i h
      have hr : j.state = .running := of_decide_eq_true h
      simp [Job.lawKey, Job.holdsEngine, hr]
    · rfl

theorem JobsShrink.cancelQueued (jobs : List Job) (k : StreamId) : JobsShrink jobs (cancelQueued jobs k) :=
  .map jobs _ fun j => by
    split
    · rename_i h
      have hq : j.state = .queued := of_decide_eq_true (Bool.and_eq_true_iff.mp h).1
      simp [Job.lawKey, Job.holdsEngine, hq]
    · rfl

theorem JobsShrink.openGates (h : HeadId) (sc : Scan) (jobs : List Job) : JobsShrink jobs (openGates h sc jobs) :=
  .map jobs _ fun j => by split <;> rfl

theorem JobsShrink.bypassGates (h : HeadId) (jobs : List Job) : JobsShrink jobs (bypassGates h jobs) :=
  .map jobs _ fun j => by split <;> rfl

theorem JobsShrink.takeEnded {jobs out : List Job} {c : Completion} (h : takeEnded jobs = some (c, out)) :
    JobsShrink jobs out := by
  obtain ⟨before, after, j, _, _, rfl, _, rfl, _⟩ := takeEnded_split jobs out c h
  exact .of_sublist ((List.Sublist.refl before).append (List.sublist_cons_self j after))

/-- A job joins the list where there is room for it. -/
theorem State.dispatchJob_laws {s t : State} {k : StreamId} (h : s.dispatchJob k = some t) :
    (s.jobsBounded → t.jobsBounded) ∧ (s.oneEngineJob → t.oneEngineJob) := by
  obtain ⟨c, kind, work, gate, _, _, _, hroom, rfl⟩ := s.dispatchJob_some t k h
  obtain ⟨hall, hone⟩ := (roomFor_iff _ _).mp hroom
  set j := newJob (headerRef k c) (declaredSlots c.slots) work gate (s.stream k).batch with hj
  have hstream : j.ref.stream = k := rfl
  have hfree : j.holdsEngine = false := rfl
  have hshrink := JobsShrink.evaluateGates s.heads [] (s.jobs ++ [j])
  refine ⟨fun hs => JobsShrink.jobsBounded (s := { s with jobs := s.jobs ++ [j] }) hshrink ⟨?_, fun i => ?_⟩,
    fun hs => JobsShrink.oneEngineJob (s := { s with jobs := s.jobs ++ [j] }) hshrink ?_⟩
  · simp only [List.length_append, List.length_singleton]
    exact hall
  · have hi := hs.2 i
    simp only [List.filter_append, List.length_append, List.filter_singleton, hstream]
    by_cases hk : k = i
    · subst hk
      simp only [decide_true]
      exact hone
    · simpa [hk] using hi
  · simpa [State.oneEngineJob, List.filter_append, hfree] using hs

/-- The engine chooses a job where none keeps it busy. -/
theorem runOldestEligible_laws {s t : State} {jobs : List Job} (hn : s.jobs.any Job.holdsEngine = false)
    (h : runOldestEligible [] s.jobs = some jobs) (ht : t.jobs = jobs) :
    (s.jobsBounded → t.jobsBounded) ∧ t.oneEngineJob := by
  obtain ⟨before, after, j, hs, _, rfl⟩ := runOldestEligible_split [] s.jobs jobs h
  rw [hs, List.any_append, List.any_cons, Bool.or_eq_false_iff, Bool.or_eq_false_iff] at hn
  obtain ⟨hbefore, _, hafter⟩ := hn
  have hstreams : t.jobs.map (fun q => q.ref.stream) = s.jobs.map (fun q => q.ref.stream) := by rw [ht, hs]; simp
  refine ⟨fun hb => ⟨?_, fun k => ?_⟩, ?_⟩
  · have hlen := congrArg List.length hstreams
    rw [List.length_map, List.length_map] at hlen
    exact hlen.le.trans hb.1
  · have hk := hb.2 k
    rw [← filter_map_length s.jobs (fun q => q.ref.stream) (fun x => decide (x = k)), ← hstreams,
      filter_map_length] at hk
    exact hk
  · have hnone : ∀ l : List Job, l.any Job.holdsEngine = false → l.filter Job.holdsEngine = [] := fun l hl =>
      List.filter_eq_nil_iff.mpr (List.any_eq_false.mp hl)
    rw [State.oneEngineJob, ht, List.filter_append, List.filter_cons, hnone _ hbefore, hnone _ hafter]
    simp only [List.nil_append]
    split <;> simp

/-! ## What eases all the laws -/

/-- The job list shrinks at most, and the holding law is eased. -/
structure State.Relaxes (s t : State) : Prop where
  jobs : JobsShrink s.jobs t.jobs
  eases : s.Holds → s.Eases t

theorem State.Relaxes.refl (s : State) : s.Relaxes s := ⟨.refl _, fun _ => .refl s⟩

theorem State.Relaxes.trans {s t u : State} (h : s.Relaxes t) (g : t.Relaxes u) : s.Relaxes u :=
  ⟨h.jobs.trans g.jobs, fun hs => (h.eases hs).trans (g.eases ((h.eases hs).holds hs))⟩

theorem State.Eases.relaxes {s t : State} (h : s.Eases t) (hj : t.jobs = s.jobs) : s.Relaxes t := ⟨.of_eq hj, fun _ => h⟩

/-- A change of jobs, engine, contexts, panel memory, writer, choices and causes alone. -/
theorem State.Relaxes.of_jobs {s t : State} (hj : JobsShrink s.jobs t.jobs) (hf : t.fetch = s.fetch)
    (hs : t.streams = s.streams) (hl : t.loader = s.loader) (hd : t.regs.device = s.regs.device)
    (hh : t.heads = s.heads) : s.Relaxes t :=
  ⟨hj, fun _ => .of_same hf hs hl hd hh⟩

/-- A change of heads alone. -/
theorem State.Relaxes.of_mapHeads {s : State} {f : Head → Head} (h : ∀ hd : Head, hd.Eases (f hd)) :
    s.Relaxes { s with heads := s.heads.map f } :=
  ⟨.refl _, fun _ => .of_heads rfl rfl rfl rfl fun i => by
    change (s.heads.get i).Eases ((s.heads.map f).get i)
    rw [Two.get_map]
    exact h _⟩

theorem State.Relaxes.setHead {s : State} {i : HeadId} {x : Head} (h : (s.head i).Eases x) : s.Relaxes (s.setHead i x) :=
  (State.Eases.setHead h).relaxes rfl

/-- A stream whose current record stands. -/
theorem State.Relaxes.setStream {s : State} {k : StreamId} {x : Stream} (h : x.current = (s.stream k).current) :
    s.Relaxes (s.setStream k x) :=
  (State.Eases.setStream (.inl h)).relaxes rfl

/-- A record that waits for a WAIT's condition ends. -/
theorem State.finish_relaxes {s : State} {k : StreamId} {c : CurrentRecord} (hc : (s.stream k).current = some c)
    (hw : c.phase ≠ .waitLease) (hp : c.phase ≠ .waitPaletteRead) (o : Outcome) : s.Relaxes (s.finish k o) :=
  ⟨.of_eq (s.finish_jobs k o), fun hs => s.finish_eases k o fun i => (hs.heads i).unengaged_of_phase hc hw hp⟩

theorem State.jobsRemoved_relaxes {s : State} {jobs : List Job} (h : JobsShrink s.jobs jobs) :
    s.Relaxes (s.jobsRemoved jobs) :=
  .trans (.of_mapHeads (f := fun hd => { hd with present := hd.present.evaluated jobs s.streams })
    fun hd => hd.evaluated_eases jobs s.streams)
    (.of_jobs (h.trans (.evaluateGates _ _ _)) rfl rfl rfl rfl rfl)

theorem State.endJob_relaxes (s : State) (o : Outcome) : s.Relaxes (s.endJob o) := by
  unfold State.endJob
  split
  · exact .refl s
  · split
    · exact .trans (t := { s with engine := .free }) (.of_jobs (.refl _) rfl rfl rfl rfl rfl)
        (State.jobsRemoved_relaxes (.of_sublist List.filter_sublist))
    · exact .of_jobs (.endRunningIn _ _) rfl rfl rfl rfl rfl

/-- A job-error halt leaves no head engaged with its stream. -/
theorem State.haltByJob_relaxes (s : State) (k : StreamId) (point : Nat) : s.Relaxes (s.haltByJob k point) := by
  have hhead : ∀ i : HeadId, (s.haltByJob k point).head i
      = ((s.head i).withdrawn k).rewindBy k point (s.stream k).ring := fun i => Two.get_map _ _ _
  have hstream : ∀ j : StreamId, (s.haltByJob k point).stream j
      = if j = k then { s.stream k with current := none }.haltAt ((s.stream k).wrap point) else s.stream j :=
    fun j => s.stream_setStream k j _
  refine ⟨.refl _, fun _ => ⟨fun r hr hd => ?_, fun j => ?_, fun i => ?_, fun hl => ⟨hl, rfl⟩, id⟩⟩
  · obtain ⟨q, hq, hqr⟩ := Option.map_eq_some_iff.mp hr
    split at hqr
    · subst hqr; cases hd
    · subst hqr; exact hq
  · rw [hstream]
    split
    · exact .inr ⟨rfl, fun i => by
        rw [hhead]
        rename_i e
        rw [e]
        exact ((s.head i).withdrawn_unengaged k).of_eases (Head.rewindBy_eases _ k _ _)⟩
    · exact .inl rfl
  · rw [hhead]
    exact ((s.head i).withdrawn_eases k).trans (Head.rewindBy_eases _ k _ _)

theorem State.abandonFrom_relaxes (s : State) (k : StreamId) (first : Option Word) : s.Relaxes (s.abandonFrom k first) := by
  refine ⟨.refl _, fun _ => .of_heads rfl rfl rfl rfl fun i => ?_⟩
  match i with
  | 0 => exact Head.abandonAndReload_eases _ _ _ _ _
  | 1 => exact Head.abandonAndReload_eases _ _ _ _ _

theorem State.failJob_relaxes (s : State) (status : Status) (written : Nat) : s.Relaxes (s.failJob status written) := by
  unfold State.failJob
  split
  · exact .refl s
  · dsimp only
    refine .trans ?_ (State.abandonFrom_relaxes _ _ _)
    split
    · exact .of_jobs ((JobsShrink.endRunningIn _ _).trans (.cancelQueued _ _)) rfl rfl rfl rfl rfl
    · refine .trans ?_ (State.haltByJob_relaxes _ _ _)
      exact .of_jobs ((JobsShrink.endRunningIn _ _).trans (.cancelQueued _ _)) rfl rfl rfl rfl rfl

/-- What accompanies an act of settling relaxes the laws. -/
theorem Follows.relaxes {s t : State} (m : Follows s t) : s.Relaxes t := by
  cases m with
  | choose => exact .of_jobs (.refl _) rfl rfl rfl rfl rfl
  | phase p => exact .of_jobs (.refl _) rfl rfl rfl rfl rfl
  | pixelDone wrote =>
    exact .of_jobs (.of_eq (s.pixelDone_jobs wrote)) (s.pixelDone_fetch wrote) (s.pixelDone_streams wrote)
      (s.pixelDone_loader wrote) (by rw [s.pixelDone_regs]) (s.pixelDone_heads wrote)
  | endJob o => exact s.endJob_relaxes o
  | failJob status written => exact s.failJob_relaxes status written
  | window j c w _ _ => exact .of_jobs (.refl _) rfl rfl rfl rfl rfl
  | placed j m _ => exact .of_jobs (.refl _) rfl rfl rfl rfl rfl

theorem FollowsAll.relaxes {s t : State} (m : FollowsAll s t) : s.Relaxes t :=
  m.keeps s.Relaxes (fun _ _ m h => h.trans m.relaxes) (.refl s)

theorem State.placeFrom_relaxes {s t : State} {p : Placer} (h : s.placeFrom p = some t) : s.Relaxes t := by
  have hplace : ∀ (u : State) (cs : List Completion), u.Relaxes (u.place cs) :=
    fun u cs => .of_jobs (.refl _) rfl rfl rfl rfl rfl
  rcases s.placeFrom_cases t p h with ⟨c, jobs, hj, rfl⟩ | ⟨k, c, before, after, _, rfl⟩ | ⟨i, c, before, after, _, rfl⟩
    | ⟨i, c, before, after, _, rfl⟩
  · exact (hplace s [c]).trans (State.jobsRemoved_relaxes (.takeEnded hj))
  · refine .trans ?_ (hplace _ _)
    exact .setStream rfl
  · refine .trans ?_ (hplace _ _)
    exact .setHead (.of_same rfl rfl rfl le_rfl)
  · refine .trans ?_ (hplace _ _)
    exact .setHead (.of_same rfl rfl rfl le_rfl)

theorem State.latchNow_relaxes {s t : State} {i : HeadId} (h : State.latchNow i s = some t) : s.Relaxes t := by
  simp only [State.latchNow, Option.ite_none_right_eq_some, Option.some.injEq] at h
  obtain ⟨_, rfl⟩ := h
  exact .setHead (Head.latchStep_eases _ _ _)

theorem State.completeWait_relaxes {s t : State} {k : StreamId} (h : State.completeWait k s = some t) : s.Relaxes t := by
  obtain ⟨c, o, hc, hp, _, rfl⟩ := s.completeWait_some t k h
  exact State.finish_relaxes hc (by simp [hp]) (by simp [hp]) o

/-! ## One head or one stream changed -/

/-- A head that stands keeps its law where one stream, with which it is not engaged, takes on another current record, held
back for the head only where that stream holds its lease. -/
theorem State.HeadLaw.move {s t : State} {h : HeadId} (hl : s.HeadLaw h) (hh : t.head h = s.head h) {k : StreamId}
    (hs : ∀ j : StreamId, j ≠ k → (t.stream j).current = (s.stream j).current) (hu : (s.head h).Unengaged k)
    (hk : t.currentIn k .heldQueueFull h ∨ t.currentIn k .heldPaletteHazard h → (s.head h).lease.holder = some k) :
    t.HeadLaw h := by
  refine ⟨?_, ?_, fun w hw => ?_, fun r hr => ?_, fun j hj => ?_, ?_, ?_⟩
  · rw [hh]; exact hl.free
  · rw [hh]; exact hl.nodup
  · rw [hh] at hw ⊢
    obtain ⟨hne, hc⟩ := hl.waits w hw
    exact ⟨hne, (State.currentIn_congr (hs _ (hu.waiters w hw)) _ _).mpr hc⟩
  · rw [hh] at hr ⊢
    obtain ⟨ho, hc⟩ := hl.reads r hr
    exact ⟨ho, (State.currentIn_congr (hs _ (hu.reading r hr)) _ _).mpr hc⟩
  · rw [hh]
    by_cases hjk : j = k
    · subst hjk; exact hk hj
    · rw [State.currentIn_congr (hs j hjk), State.currentIn_congr (hs j hjk)] at hj
      exact hl.held j hj
  · rw [hh]; exact hl.pals
  · rw [hh]; exact hl.guarded

/-- One stream, with which no head is engaged, takes on another current record. -/
theorem State.Holds.setStream {s : State} (hs : s.Holds) {k : StreamId} {x : Stream}
    (hu : ∀ h : HeadId, (s.head h).Unengaged k)
    (hr : ∀ (read : SlotRead) (c : CurrentRecord), s.fetch.read = some read → read.discard = false →
      read.stream = k → x.current = some c → c.phase = .reading)
    (hk : ∀ (c : CurrentRecord) (h : HeadId), x.current = some c →
      c.phase = .heldQueueFull ∨ c.phase = .heldPaletteHazard → headField c.slots = some h →
      (s.head h).lease.holder = some k) : (s.setStream k x).Holds := by
  refine ⟨fun read c hread hd hc => ?_, fun h => (hs.heads h).move rfl (k := k) (fun j hj => ?_) (hu h) fun hj => ?_,
    hs.loads⟩
  · rw [State.stream_setStream] at hc
    split at hc
    · rename_i e; exact hr read c hread hd e hc
    · exact hs.read read c hread hd hc
  · rw [State.stream_setStream, if_neg hj]
  · rcases hj with ⟨c, hc, hp, hh⟩ | ⟨c, hc, hp, hh⟩ <;> rw [State.stream_setStream_same] at hc
    · exact hk c h hc (.inl hp) hh
    · exact hk c h hc (.inr hp) hh

/-- One head is changed, its law kept, in a part that acts. -/
theorem State.Holds.setHead {s : State} (hs : s.Holds) (ha : s.active = true) {h : HeadId} {x : Head}
    (hx : (s.setHead h x).HeadLaw h) : (s.setHead h x).Holds := by
  refine ⟨hs.read, fun i => ?_, hs.loads.1, fun hd => ?_⟩
  · by_cases hi : i = h
    · subst hi; exact hx
    · have hhead : (s.setHead h x).head i = s.head i := by rw [State.head_setHead, if_neg hi]
      have hl := hs.heads i
      refine ⟨?_, ?_, ?_, ?_, ?_, ?_, ?_⟩ <;> rw [hhead]
      exacts [hl.free, hl.nodup, hl.waits, hl.reads, hl.held, hl.pals, hl.guarded]
  · have hd' : s.regs.device = .idle ∨ s.regs.device = .loading := hd
    rcases hd' with e | e <;> simp [State.active, e] at ha

/-! ## A record taken up or held back -/

/-- A current record in a phase that is neither read in part nor waiting for a lease or a palette read. -/
structure State.Standing (s : State) (k : StreamId) (c : CurrentRecord) : Prop where
  current : (s.stream k).current = some c
  reading : c.phase ≠ .reading
  lease : c.phase ≠ .waitLease
  paletteRead : c.phase ≠ .waitPaletteRead

section
variable {s : State} {k : StreamId} {c : CurrentRecord} (hs : s.Holds) (hc : s.Standing k c)
include hs hc

theorem State.Standing.unengaged (h : HeadId) : (s.head h).Unengaged k :=
  (hs.heads h).unengaged_of_phase hc.current hc.lease hc.paletteRead

/-- No slot of the stream is being read. -/
theorem State.Standing.noRead (read : SlotRead) (hr : s.fetch.read = some read) (hd : read.discard = false) :
    read.stream ≠ k := by
  rintro rfl
  exact hc.reading (hs.read read c hr hd hc.current)

/-- The record goes into another phase, held back for a head only where the stream holds its lease. -/
theorem State.Standing.setPhase_holds (p : RecordPhase)
    (hp : p = .heldQueueFull ∨ p = .heldPaletteHazard →
      ∀ h : HeadId, headField c.slots = some h → (s.head h).lease.holder = some k) : (s.setPhase k p).Holds := by
  refine hs.setStream (hc.unengaged hs) (fun read d hr hd hk _ => absurd hk (hc.noRead hs read hr hd))
    fun d h hd hh hf => ?_
  rw [hc.current] at hd
  cases hd
  exact hp hh h hf

theorem State.Standing.dispatchPresent_holds {r : PresentRecord} (hr : presentFields c.slots = some r)
    (ho : (s.head r.head).lease.holder = some k) (ha : s.active = true) {t : State} (ht : s.dispatchPresent k = some t) :
    t.Holds := by
  obtain ⟨d, r', u, e, hd, hr', _, hu, he, rfl⟩ := s.dispatchPresent_some t k ht
  rw [hc.current] at hd
  cases hd
  rw [hr] at hr'
  cases hr'
  have hue : s.Eases u := by
    rw [hu]
    exact .setStream (.inr ⟨rfl, hc.unengaged hs⟩)
  have hlaw : s.HeadLaw r.head := hs.heads r.head
  have hulaw := hue.headLaw hlaw
  have hhead : u.head r.head = s.head r.head := by rw [hu]; rfl
  rw [← hhead] at he ⊢
  refine (hue.holds hs).setHead (by rw [hu]; exact ha) ?_
  have hnoread : (u.head r.head).staging.reading = none := by
    rw [Option.eq_none_iff_forall_ne_some, hhead]
    intro q hq
    obtain ⟨hq', _⟩ := hlaw.reads q hq
    rw [ho] at hq'
    exact (hc.unengaged hs r.head).reading q hq (Option.some.inj hq').symm
  have hpal : e.pal = (u.head r.head).staging.dirty := by
    rw [he]
    unfold Entry.evaluated
    split <;> rfl
  have hcount : ∀ es : List Entry, ((es ++ [e]).filter (fun e => e.unlatched && e.pal)).length
      ≤ (es.filter (fun e => e.unlatched && e.pal)).length + (if (u.head r.head).staging.dirty then 1 else 0) := fun es => by
    rw [List.filter_append, List.length_append, List.filter_singleton, ← hpal]
    cases e.unlatched <;> cases e.pal <;> simp
  have hlaws : (u.head r.head).palCount + (if (u.head r.head).staging.dirty then 1 else 0) ≤ 1 := by
    have hpals := hulaw.pals
    split
    · rename_i hd
      by_contra hne
      rw [(hulaw.guarded ((Head.hazard_iff _).mpr (by omega))).1] at hd
      cases hd
    · exact hpals
  refine ⟨?_, ?_, ?_, fun q hq => ?_, ?_, ?_, fun _ => ?_⟩ <;> simp only [State.head_setHead_same] at *
  · exact hulaw.free
  · exact hulaw.nodup
  · exact hulaw.waits
  · rw [hnoread] at hq; cases hq
  · exact hulaw.held
  · exact (hcount _).trans hlaws
  · exact ⟨trivial, hnoread⟩

end

end Sys2Proof.Machine
end

