-- ==== Sys2Proof/Proofs/LawSettling.lean ====
section
/-! SUPPORT. What becomes of a record taken up, the handing on of a lease, and settling keep the job list's laws and the
holding law. -/

namespace Sys2Proof.Machine

set_option Elab.async false

/-! ## Records taken up -/

/-- The current record of the stream in its new phase, where its first slot names head `h`. -/
theorem State.Standing.currentIn_setPhase {s : State} {k : StreamId} {c : CurrentRecord} (hc : s.Standing k c)
    (p : RecordPhase) {h : HeadId} (hh : headField c.slots = some h) :
    (s.setPhase k p).currentIn k p h := by
  refine ⟨{ c with phase := p }, ?_, rfl, hh⟩
  rw [State.setPhase, State.stream_setStream_same, hc.current]
  rfl

section
variable {s : State} {k : StreamId} {c : CurrentRecord} (hs : s.Holds) (hc : s.Standing k c)
include hs hc

theorem State.Standing.finish_eases (o : Outcome) : s.Eases (s.finish k o) :=
  s.finish_eases k o (hc.unengaged hs)

theorem State.Standing.dispatchJob_eases {t : State} (ht : s.dispatchJob k = some t) : s.Eases t := by
  obtain ⟨_, _, _, _, _, _, _, _, rfl⟩ := s.dispatchJob_some t k ht
  exact (s.dropCurrent_eases k (hc.unengaged hs)).trans (.of_same rfl rfl rfl rfl rfl)

theorem State.Standing.dispatchPalette_holds {r : PaletteRecord} (hr : paletteFields c.slots = some r)
    (ho : (s.head r.head).lease.holder = some k) (ha : s.active = true) {t : State} (ht : s.dispatchPalette k = some t) :
    t.Holds := by
  obtain ⟨d, r', read, hd, hr', hz, href, rfl⟩ := s.dispatchPalette_some t k ht
  rw [hc.current] at hd
  cases hd
  rw [hr] at hr'
  cases hr'
  have hv : (s.setPhase k .waitPaletteRead).Holds := hc.setPhase_holds hs _ (by simp)
  refine hv.setHead ha ?_
  have hlaw := hv.heads r.head
  refine ⟨?_, ?_, ?_, fun q hq => ?_, ?_, ?_, fun hz' => ?_⟩ <;> simp only [State.head_setHead_same] at *
  · exact hlaw.free
  · exact hlaw.nodup
  · exact hlaw.waits
  · cases hq
    rw [href]
    exact ⟨ho, hc.currentIn_setPhase _ (headField_of_paletteFields hr)⟩
  · exact hlaw.held
  · exact hlaw.pals
  · exact absurd hz' (by rw [hz]; decide)

/-- A CLAIM takes a lease that is FREE. -/
theorem State.Standing.claim_holds {h : HeadId} (hf : (s.head h).lease.holder = none) (ha : s.active = true) (o : Outcome) :
    ((s.setHead h { s.head h with lease := { (s.head h).lease with holder := some k } }).finish k o).Holds := by
  have hlaw := hs.heads h
  have hu : (s.setHead h { s.head h with lease := { (s.head h).lease with holder := some k } }).Holds := by
    refine hs.setHead ha ⟨?_, ?_, fun w hw => ?_, fun q hq => ?_, fun j hj => ?_, ?_, ?_⟩ <;>
      simp only [State.head_setHead_same] at *
    · exact fun h => nomatch h
    · exact hlaw.nodup
    · rw [hlaw.free hf] at hw; cases hw
    · rw [(hlaw.reads q hq).1] at hf; cases hf
    · rw [hlaw.held j hj] at hf; cases hf
    · exact hlaw.pals
    · exact hlaw.guarded
  have hcu : (s.setHead h { s.head h with lease := { (s.head h).lease with holder := some k } }).Standing k c :=
    ⟨hc.current, hc.reading, hc.lease, hc.paletteRead⟩
  exact (hcu.finish_eases hu o).holds hu

/-- A CLAIM joins the waiters of a lease held by another stream. -/
theorem State.Standing.queue_holds {h : HeadId} {w : Waiter} (hk : w.ref.stream = k) (hh : headField c.slots = some h)
    (hf : (s.head h).lease.holder ≠ none) (hn : (s.head h).lease.holder ≠ some k) (ha : s.active = true) :
    ((s.setHead h
        { s.head h with lease := { (s.head h).lease with waiters := (s.head h).lease.waiters ++ [w] } }).setPhase k
      .waitLease).Holds := by
  have hv : (s.setPhase k .waitLease).Holds := hc.setPhase_holds hs _ (by simp)
  refine hv.setHead ha ?_
  have hlaw := hv.heads h
  have hold : ∀ v ∈ (s.head h).lease.waiters, v.ref.stream ≠ k := (hc.unengaged hs h).waiters
  refine ⟨fun hnone => ?_, ?_, fun v hv' => ?_, ?_, ?_, ?_, ?_⟩ <;> simp only [State.head_setHead_same] at *
  · exact absurd hnone hf
  · rw [Head.waiting, List.map_append, List.nodup_append]
    refine ⟨hlaw.nodup, List.nodup_singleton _, fun a hm b hb => ?_⟩
    obtain ⟨v, hv', rfl⟩ := List.mem_map.mp hm
    rw [List.map_singleton, List.mem_singleton] at hb
    rw [hb, hk]
    exact hold v hv'
  · rcases List.mem_append.mp hv' with hm | hm
    · exact hlaw.waits v hm
    · rw [List.mem_singleton] at hm
      subst hm
      rw [hk]
      exact ⟨hn, hc.currentIn_setPhase _ hh⟩
  · exact hlaw.reads
  · exact hlaw.held
  · exact hlaw.pals
  · exact hlaw.guarded

end

/-! ## The lease handed on (R74, R79) -/

section
variable {s : State} (hs : s.Holds) (ha : s.active = true) {h : HeadId} {k : StreamId}
  (ho : (s.head h).lease.holder = some k) (hk : (s.stream k).current = none)
include hs ha ho hk

/-- The head of a holder without a current record goes to another holder, or to none. -/
theorem State.Holds.handTo (b : Bool) (holder : Option StreamId) (ws : List Waiter) (hfree : holder = none → ws = [])
    (hsub : ws.Sublist (s.head h).lease.waiters) (hne : ∀ w ∈ ws, holder ≠ some w.ref.stream) :
    (s.setHead h (Head.reload { s.head h with lease := { holder := holder, waiters := ws } } b)).Holds := by
  have hlaw := hs.heads h
  have hnoread : (s.head h).staging.reading = none := by
    rw [Option.eq_none_iff_forall_ne_some]
    intro r hr
    obtain ⟨hr', hc⟩ := hlaw.reads r hr
    rw [ho] at hr'
    rw [← Option.some.inj hr'] at hc
    exact State.not_currentIn hk _ _ hc
  refine hs.setHead ha ⟨?_, ?_, fun w hw => ?_, fun r hr => ?_, fun j hj => ?_, ?_, fun _ => ?_⟩ <;>
    simp only [State.head_setHead_same, Head.waiting, Head.reload_lease, Head.reload_reading, Head.reload_dirty,
      Head.palCount, Head.reload_present] at *
  · exact hfree
  · exact hlaw.nodup.sublist (hsub.map _)
  · exact ⟨hne w hw, (hlaw.waits w (hsub.subset hw)).2⟩
  · rw [hnoread] at hr; cases hr
  · have hj' := hlaw.held j hj
    rw [ho] at hj'
    rw [← Option.some.inj hj'] at hj
    exact absurd hj (not_or.mpr ⟨State.not_currentIn hk _ _, State.not_currentIn hk _ _⟩)
  · exact hlaw.pals
  · exact ⟨trivial, hnoread⟩

theorem State.Holds.handOn (b : Bool) : (s.handOn h b).Holds := by
  have hlaw := hs.heads h
  unfold State.handOn
  dsimp only
  split
  · rename_i hw
    exact hs.handTo ha ho hk b none [] (fun _ => rfl) (List.nil_sublist _) (fun w hw => nomatch hw)
  · rename_i w rest hw
    have hnodup := hlaw.nodup
    rw [Head.waiting, hw, List.map_cons, List.nodup_cons] at hnodup
    have hnext : ∀ v ∈ rest, v.ref.stream ≠ w.ref.stream := fun v hv e =>
      hnodup.1 (List.mem_map.mpr ⟨v, hv, e⟩)
    have hu := hs.handTo ha ho hk b (some w.ref.stream) rest (fun h => nomatch h) (hw ▸ List.sublist_cons_self w rest)
      (fun v hv e => hnext v hv (Option.some.inj e).symm)
    have hwaits := (hlaw.waits w (by rw [hw]; exact List.mem_cons_self)).2
    refine (State.finishAs_eases _ _ _ _ _ fun i => ?_).holds hu
    by_cases hi : i = h
    · subst hi
      rw [State.head_setHead_same]
      refine ⟨fun v hv => ?_, fun r hr => ?_⟩
      · rw [Head.reload_lease] at hv
        exact hnext v hv
      · rw [Head.reload_reading] at hr
        intro e
        obtain ⟨hr', hc⟩ := hlaw.reads r hr
        rw [ho] at hr'
        rw [← Option.some.inj hr'] at hc
        exact State.not_currentIn hk _ _ hc
    · rw [State.head_setHead, if_neg hi]
      exact (hs.heads i).unengaged_of_other hwaits hi

end

/-! ## The fetch grant (R47, R48) -/

/-- The granted read is one of a stream without a current record, or with one read in part. -/
theorem State.grant_needs {s t : State} (h : s.grant = some t) :
    ∃ (f : FetchUnit) (read : SlotRead), f.read = some read ∧ (s.stream read.stream).needsSlot = true
      ∧ t = { s with fetch := f } := by
  have hissue : ∃ (cls : FetchClass) (k : StreamId) (f : FetchUnit), s.turn cls = some k ∧ s.issueSlot k f = some t := by
    unfold State.grant at h
    split at h
    · split at h
      · rename_i u hu _; exact ⟨_, _, _, hu, h⟩
      · rename_i u n hu hn
        split at h
        · exact ⟨_, _, _, hu, h⟩
        · exact ⟨_, _, _, hn, h⟩
      · rename_i n _ hn; exact ⟨_, _, _, hn, h⟩
      · cases h
    · cases h
  obtain ⟨cls, k, f, hturn, hk⟩ := hissue
  have hneeds : (s.stream k).needsSlot = true := by
    have hc := List.find?_some hturn
    rw [State.candidate, Bool.and_eq_true] at hc
    exact hc.1
  unfold State.issueSlot at hk
  split at hk
  · cases hk; exact ⟨_, _, rfl, hneeds, rfl⟩
  · cases hk

theorem Stream.needsSlot_reading {st : Stream} (h : st.needsSlot = true) (c : CurrentRecord) (hc : st.current = some c) :
    c.phase = .reading := by
  unfold Stream.needsSlot at h
  split at h
  · cases h
  · rw [hc] at h
    exact of_decide_eq_true (Bool.and_eq_true_iff.mp h).2

theorem State.Holds.grant {s t : State} (hs : s.Holds) (h : s.grant = some t) : t.Holds := by
  obtain ⟨f, read, hread, hneeds, rfl⟩ := s.grant_needs h
  refine ⟨fun r c hr _ hc => ?_, fun i => ?_, hs.loads⟩
  · cases hread.symm.trans hr
    exact Stream.needsSlot_reading hneeds c hc
  · have hl := hs.heads i
    exact ⟨hl.free, hl.nodup, hl.waits, hl.reads, hl.held, hl.pals, hl.guarded⟩

/-! ## Settling -/

/-- A part that acts loads no Setup Table. -/
theorem State.Holds.loader {s : State} (hs : s.Holds) (h : s.regs.device ≠ .loading) : s.loader = none := by
  by_contra hne
  exact h (hs.loads.1 hne)

/-- Another device state, where none is IDLE or LOADING. -/
theorem State.Holds.setDevice_eases {s : State} (hs : s.Holds) (h : s.regs.device ≠ .loading) {d : Device}
    (hd : d ≠ .idle ∧ d ≠ .loading) : s.Eases (s.setDevice d) :=
  ⟨fun _ hr _ => hr, fun _ => .inl rfl, fun _ => .refl _, fun hl => absurd (hs.loader h) hl, fun hd' =>
    absurd hd' (not_or.mpr hd)⟩

theorem State.active_iff (s : State) :
    s.active = true ↔ s.regs.device = .running ∨ s.regs.device = .stopping ∨ s.regs.device = .stopped := by
  cases h : s.regs.device <;> simp [State.active, h]

theorem State.active_not_loading {s : State} (h : s.active = true) : s.regs.device ≠ .idle ∧ s.regs.device ≠ .loading := by
  constructor <;> intro hd <;> simp [State.active, hd] at h

/-- A record held back stands. -/
theorem State.Standing.of_inPhase {s : State} {k : StreamId} {p : RecordPhase} (h : s.inPhase k p = true)
    (hr : p ≠ .reading) (hl : p ≠ .waitLease) (hp : p ≠ .waitPaletteRead) :
    ∃ c : CurrentRecord, c.phase = p ∧ s.Standing k c := by
  obtain ⟨c, hc, hcp⟩ := (s.inPhase_iff k p).mp h
  exact ⟨c, hcp, hc, by rwa [hcp], by rwa [hcp], by rwa [hcp]⟩

theorem Starts.jobLaws {s t : State} (m : Starts s t) :
    (s.jobsBounded → t.jobsBounded) ∧ (s.oneEngineJob → t.oneEngineJob) := by
  have hshrinks : ∀ {u : State}, JobsShrink s.jobs u.jobs →
      (s.jobsBounded → u.jobsBounded) ∧ (s.oneEngineJob → u.oneEngineJob) :=
    fun h => ⟨h.jobsBounded, h.oneEngineJob⟩
  cases m with
  | stop _ _ => exact hshrinks (.refl _)
  | latch i _ _ _ => exact hshrinks (.refl _)
  | answer n a _ => exact hshrinks (.refl _)
  | wait k c o _ _ _ => exact hshrinks (.of_eq (s.finish_jobs k o))
  | present _ k _ ht =>
    obtain ⟨_, _, _, _, _, _, _, rfl, _, rfl⟩ := s.dispatchPresent_some t k ht
    exact hshrinks (.refl _)
  | palette _ k _ ht =>
    obtain ⟨_, _, _, _, _, _, _, rfl⟩ := s.dispatchPalette_some t k ht
    exact hshrinks (.refl _)
  | job _ k _ ht => exact State.dispatchJob_laws ht
  | engine jobs hn hj => exact (runOldestEligible_laws hn hj rfl).imp id fun h _ => h
  | place _ p ht => exact hshrinks (State.placeFrom_relaxes ht).jobs
  | grant _ ht =>
    obtain ⟨_, _, _, _, rfl⟩ := s.grant_some t ht
    exact hshrinks (.refl _)
  | write _ ht =>
    obtain ⟨_, _, rfl⟩ := s.issueWrite_some t ht
    exact hshrinks (.refl _)

theorem Starts.holds {s t : State} (m : Starts s t) (ha : s.active = true) (hs : s.Holds) : t.Holds := by
  cases m with
  | stop _ _ => exact (hs.setDevice_eases (State.active_not_loading ha).2 (by simp)).holds hs
  | latch i _ _ _ => exact (State.Eases.setHead (Head.latchStep_eases _ _ _)).holds hs
  | answer n a _ => exact State.Eases.holds (s := s) (.of_same rfl rfl rfl rfl rfl) hs
  | wait k c o hc hp _ => exact ((State.finish_relaxes hc (by simp [hp]) (by simp [hp]) o).eases hs).holds hs
  | present _ k hp ht =>
    obtain ⟨c, hcp, hc⟩ := State.Standing.of_inPhase hp (by simp) (by simp) (by simp)
    obtain ⟨d, r, _, _, hd, hr, _⟩ := s.dispatchPresent_some t k ht
    cases hc.current.symm.trans hd
    exact hc.dispatchPresent_holds hs hr
      ((hs.heads r.head).held k (.inl ⟨c, hc.current, hcp, headField_of_presentFields hr⟩)) ha ht
  | palette _ k hp ht =>
    obtain ⟨c, hcp, hc⟩ := State.Standing.of_inPhase hp (by simp) (by simp) (by simp)
    obtain ⟨d, r, _, hd, hr, _⟩ := s.dispatchPalette_some t k ht
    cases hc.current.symm.trans hd
    exact hc.dispatchPalette_holds hs hr
      ((hs.heads r.head).held k (.inr ⟨c, hc.current, hcp, headField_of_paletteFields hr⟩)) ha ht
  | job _ k hp ht =>
    obtain ⟨c, hcp, hc⟩ := State.Standing.of_inPhase hp (by simp) (by simp) (by simp)
    exact (hc.dispatchJob_eases hs ht).holds hs
  | engine jobs _ _ => exact State.Eases.holds (s := s) (.of_same rfl rfl rfl rfl rfl) hs
  | place _ p ht => exact ((State.placeFrom_relaxes ht).eases hs).holds hs
  | grant _ ht => exact hs.grant ht
  | write _ ht =>
    obtain ⟨_, _, rfl⟩ := s.issueWrite_some t ht
    exact State.Eases.holds (s := s) (.of_same rfl rfl rfl rfl rfl) hs

theorem Starts.active {s t : State} (m : Starts s t) (ha : s.active = true) : t.active = true := by
  rcases m.device with h | ⟨_, h⟩
  · rwa [State.active_iff, h, ← State.active_iff]
  · exact t.active_iff.mpr (.inr (.inr h.device))

theorem Follows.active {s t : State} (m : Follows s t) (ha : s.active = true) : t.active = true := by
  rwa [State.active_iff, m.regs, ← State.active_iff]

/-- The state after keeps each of the laws. -/
structure State.KeepsLaws (s t : State) : Prop where
  bounded : s.jobsBounded → t.jobsBounded
  engine : s.oneEngineJob → t.oneEngineJob
  holds : s.Holds → t.Holds

theorem State.KeepsLaws.refl (s : State) : s.KeepsLaws s := ⟨id, id, id⟩

theorem State.KeepsLaws.trans {s t u : State} (h : s.KeepsLaws t) (g : t.KeepsLaws u) : s.KeepsLaws u :=
  ⟨g.bounded ∘ h.bounded, g.engine ∘ h.engine, g.holds ∘ h.holds⟩

theorem State.Relaxes.keepsLaws {s t : State} (h : s.Relaxes t) : s.KeepsLaws t :=
  ⟨h.jobs.jobsBounded, h.jobs.oneEngineJob, fun hs => (h.eases hs).holds hs⟩

/-- A change that leaves the job list alone. -/
theorem State.KeepsLaws.of_holds {s t : State} (hj : t.jobs = s.jobs) (h : s.Holds → t.Holds) : s.KeepsLaws t :=
  ⟨(JobsShrink.of_eq hj).jobsBounded, (JobsShrink.of_eq hj).oneEngineJob, h⟩

/-- A change of registers, writer, panel memory, engine, contexts and choices alone. -/
theorem State.KeepsLaws.of_same {s t : State} (hj : t.jobs = s.jobs) (hf : t.fetch = s.fetch)
    (hs : t.streams = s.streams) (hl : t.loader = s.loader) (hd : t.regs.device = s.regs.device)
    (hh : t.heads = s.heads) : s.KeepsLaws t :=
  (State.Relaxes.of_jobs (.of_eq hj) hf hs hl hd hh).keepsLaws

theorem State.settleFor_keepsLaws (s : State) (n : Nat) : s.KeepsLaws (s.settleFor n) := by
  refine ⟨?_, ?_, fun hs => ?_⟩
  · exact State.settleFor_keeps_of_moves State.jobsBounded (fun _ _ m => m.relaxes.jobs.jobsBounded)
      (fun _ _ m => m.jobLaws.1) n s
  · exact State.settleFor_keeps_of_moves State.oneEngineJob (fun _ _ m => m.relaxes.jobs.oneEngineJob)
      (fun _ _ m => m.jobLaws.2) n s
  · by_cases ha : s.active = true
    · exact (State.settleFor_keeps_of_moves (fun u => u.active = true ∧ u.Holds)
        (fun _ _ m h => ⟨m.active h.1, (m.relaxes.eases h.2).holds h.2⟩)
        (fun _ _ m h => ⟨m.active h.1, m.holds h.1 h.2⟩) n s ⟨ha, hs⟩).2
    · rw [s.settleFor_of_quiet n (s.quiescent_of_inactive (Bool.eq_false_iff.mpr ha))]
      exact hs

theorem State.KeepsLaws.settle {s t : State} (h : s.KeepsLaws t) : s.KeepsLaws t.settle :=
  h.trans (t.settleFor_keepsLaws _)

end Sys2Proof.Machine
end

