-- ==== Sys2Proof/Proofs/LawCommands.lean ====
section
/-! SUPPORT. Every command keeps the job list's laws and the holding law; and the bound on a waiter list that follows. -/

namespace Sys2Proof.Machine

set_option Elab.async false

/-! ## Links and scan stops (R89, R131) -/

theorem State.raise_relaxes (s : State) (c : Cause) : s.Relaxes (s.raise c) := .of_jobs (.refl _) rfl rfl rfl rfl rfl

theorem State.latchAll_relaxes (n : Nat) (h : HeadId) (s : State) : s.Relaxes (State.latchAll n h s) := by
  induction n generalizing s with
  | zero => exact .refl s
  | succ n ih =>
    unfold State.latchAll
    split
    · rename_i t ht; exact (State.latchNow_relaxes ht).trans (ih t)
    · exact .refl s

theorem State.completeWaits_relaxes (s : State) : s.Relaxes s.completeWaits := by
  have hone : ∀ (k : StreamId) (t : State), t.Relaxes ((State.completeWait k t).getD t) := fun k t => by
    cases h : State.completeWait k t with
    | none => exact .refl t
    | some u => exact State.completeWait_relaxes h
  exact (((hone 0 s).trans (hone 1 _)).trans (hone 2 _)).trans (hone 3 _)

theorem State.scanStopped_relaxes (s : State) (h : HeadId) : s.Relaxes (s.scanStopped h) :=
  .trans (t := { s with jobs := bypassGates h s.jobs }) (.of_jobs (.bypassGates h s.jobs) rfl rfl rfl rfl rfl)
    ((State.latchAll_relaxes _ h _).trans (State.completeWaits_relaxes _))

theorem State.enterLink_relaxes (s : State) (h : HeadId) (st : LinkState) : s.Relaxes (s.enterLink h st) := by
  have henter : s.Relaxes (s.setHead h ((s.head h).enter st)) := .setHead ((s.head h).enter_eases st)
  cases st with
  | quiescing => exact henter.trans (State.scanStopped_relaxes _ h)
  | off => exact henter.trans (State.raise_relaxes _ _)
  | on => exact henter.trans (State.raise_relaxes _ _)
  | _ => exact henter

theorem State.linkTo_relaxes (n : Nat) (s : State) (h : HeadId) (st : LinkState) : s.Relaxes (s.linkTo n h st) := by
  induction n generalizing s st with
  | zero => exact .refl s
  | succ n ih =>
    have henter := s.enterLink_relaxes h st
    unfold State.linkTo
    dsimp only
    split
    · split
      · exact henter.trans (ih _ _)
      · exact henter
    · split
      · split
        · exact henter.trans (ih _ _)
        · exact henter
      · exact henter

theorem State.linkMove_relaxes (s : State) (h : HeadId) : s.Relaxes (s.linkMove h) := by
  unfold State.linkMove
  dsimp only
  split
  · exact s.linkTo_relaxes _ h _
  · exact s.linkTo_relaxes _ h _
  · exact .refl s

/-- A current record ends where no head is engaged with its stream, after what eases the law. -/
theorem State.Relaxes.dropCurrent {s t : State} (h : s.Relaxes t) {k : StreamId}
    (hu : s.Holds → ∀ i : HeadId, (s.head i).Unengaged k) : s.Relaxes (t.dropCurrent k) :=
  ⟨h.jobs, fun hs => (h.eases hs).trans
    (t.dropCurrent_eases k fun i => (hu hs i).of_eases ((h.eases hs).heads i))⟩

theorem State.Relaxes.handKept {s t : State} (h : s.Relaxes t) (k : StreamId) (cs : List Completion) :
    s.Relaxes (t.handKept k cs) := h.trans (.setStream rfl)

/-- A change of a head's link and backlight alone. -/
theorem State.Relaxes.setLinkLight {s t : State} (h : s.Relaxes t) (i : HeadId) (l : Link) (b : Light) :
    s.Relaxes (t.setHead i { t.head i with link := l, light := b }) :=
  h.trans (.setHead (.of_same rfl rfl rfl le_rfl))

theorem State.dispatchLink_relaxes (s : State) (k : StreamId) (ref : RecordRef) (h : HeadId) (target : LinkTarget)
    (hu : s.Holds → ∀ i : HeadId, (s.head i).Unengaged k) : s.Relaxes (s.dispatchLink k ref h target) := by
  unfold State.dispatchLink
  dsimp only
  have hmoved := (State.Relaxes.setLinkLight (.refl s) h
    { (s.head h).link with pending := none, held := [], target := target } (s.head h).light).trans
      (State.linkMove_relaxes _ h)
  split
  · exact (hmoved.handKept k _).dropCurrent hu
  · exact ((hmoved.setLinkLight h _ _).handKept k _).dropCurrent hu

theorem State.dispatchLight_relaxes (s : State) (k : StreamId) (ref : RecordRef) (h : HeadId) (target : Nat) (dim : Bool)
    (step : Nat) (hu : s.Holds → ∀ i : HeadId, (s.head i).Unengaged k) :
    s.Relaxes (s.dispatchLight k ref h target dim step) :=
  ((State.Relaxes.setLinkLight (.refl s) h _ _).handKept k _).dropCurrent hu

/-! ## The record commands -/

theorem State.finishAs_current (s : State) (k : StreamId) (ref : RecordRef) (kind : Byte) (o : Outcome) :
    ((s.finishAs k ref kind o).stream k).current = none := by
  rw [State.finishAs, State.stream_setStream_same]
  split <;> rfl

theorem State.finish_current (s : State) (k : StreamId) (o : Outcome) : ((s.finish k o).stream k).current = none := by
  unfold State.finish
  split
  · exact s.finishAs_current k _ _ o
  · assumption

theorem RecordTaken.keepsLaws {s u : State} {k : StreamId} {c : CurrentRecord} {kind : Kind} (h : RecordTaken s k c u)
    (hc : s.takeUp k kind = some c) : s.KeepsLaws u := by
  obtain ⟨hrun, _, _, hcur, hphase, _⟩ := s.takeUp_some k kind c hc
  have ha : s.active = true := s.active_iff.mpr (.inl hrun)
  have hst : s.Standing k c := ⟨hcur, by simp [hphase], by simp [hphase], by simp [hphase]⟩
  cases h with
  | finished o => exact .of_holds (s.finish_jobs k o) fun hs => (hst.finish_eases hs o).holds hs
  | job _ ht =>
    exact ⟨(State.dispatchJob_laws ht).1, (State.dispatchJob_laws ht).2, fun hs => (hst.dispatchJob_eases hs ht).holds hs⟩
  | waits p hp =>
    exact .of_holds rfl fun hs => hst.setPhase_holds hs p (by rcases hp with rfl | rfl <;> simp)
  | claimed h hf => exact .of_holds (State.finish_jobs _ k _) fun hs => hst.claim_holds hs hf ha _
  | queued h w hk hh hf hn => exact .of_holds rfl fun hs => hst.queue_holds hs hk hh hf hn ha
  | released h ho =>
    refine .of_holds ((State.handOn_jobs _ h false).trans (s.finish_jobs k _)) fun hs => ?_
    refine ((hst.finish_eases hs _).holds hs).handOn ?_ (k := k) ?_ (s.finish_current k _) false
    · rwa [State.active_iff, s.finish_regs, ← State.active_iff]
    · rwa [State.head, s.finish_heads]
  | staged h p =>
    refine .of_holds (State.finish_jobs _ k _) fun hs => ?_
    have hv : (s.stage h p).Holds := State.Eases.holds (s := s) (.setHead (.of_same rfl rfl rfl le_rfl)) hs
    have hstv : (s.stage h p).Standing k c := ⟨hst.current, hst.reading, hst.lease, hst.paletteRead⟩
    exact (hstv.finish_eases hv _).holds hv
  | palette r hr ho _ ht =>
    refine .of_holds ?_ fun hs => hst.dispatchPalette_holds hs hr ho ha ht
    obtain ⟨_, _, _, _, _, _, _, rfl⟩ := s.dispatchPalette_some u k ht
    rfl
  | present r hr ho _ ht =>
    refine .of_holds ?_ fun hs => hst.dispatchPresent_holds hs hr ho ha ht
    obtain ⟨_, _, _, _, _, _, _, rfl, _, rfl⟩ := s.dispatchPresent_some u k ht
    rfl
  | heldBack p hp h hh ho =>
    refine .of_holds rfl fun hs => hst.setPhase_holds hs p fun _ i hi => ?_
    rwa [← Option.some.inj (hh.symm.trans hi)]
  | link ref h target => exact (s.dispatchLink_relaxes k ref h target hst.unengaged).keepsLaws
  | light ref h target dim step =>
    exact (s.dispatchLight_relaxes k ref h target dim step hst.unengaged).keepsLaws

/-! ## Slot reads (R49 to R53) -/

section
variable {s : State} {k : StreamId} (hs : s.Holds) (hread : s.fetch.read = none)
  (hu : ∀ i : HeadId, (s.head i).Unengaged k)
include hs hread hu

/-- With no slot read outstanding, a stream that no head is engaged with takes on a current record that is not held back. -/
theorem State.Holds.setStream_free {x : Stream}
    (hx : ∀ c : CurrentRecord, x.current = some c → c.phase ≠ .heldQueueFull ∧ c.phase ≠ .heldPaletteHazard) :
    (s.setStream k x).Holds :=
  hs.setStream hu (fun read _ hr => by rw [hread] at hr; cases hr)
    fun c _ hc hp => absurd hp (not_or.mpr (hx c hc))

theorem State.Holds.setPhase_free {p : RecordPhase} (hp : p ≠ .heldQueueFull ∧ p ≠ .heldPaletteHazard) :
    (s.setPhase k p).Holds :=
  hs.setStream_free hread hu fun c hc => by
    obtain ⟨d, _, rfl⟩ := Option.map_eq_some_iff.mp hc
    exact hp

theorem State.Holds.examine : (s.examine k).Holds := by
  have hfinish : ∀ o : Outcome, (s.finish k o).Holds := fun o => (s.finish_eases k o hu).holds hs
  unfold State.examine
  split
  · exact hs
  · dsimp only
    split
    · exact hfinish _
    · split
      · exact hs
      · split
        · exact hfinish _
        · split
          · exact hs.setPhase_free hread hu (by simp)
          · exact hfinish _

omit hread in
theorem State.Holds.fetchFailed (n : Nat) : (s.fetchFailed k n).Holds := by
  unfold State.fetchFailed
  split
  · exact (s.finish_eases k _ hu).holds hs
  · split
    · exact (s.finishAs_eases k _ _ _ hu).holds hs
    · exact hs

end

theorem Stream.takeSlot_phase (st : Stream) (n : Nat) (bytes : List Byte)
    (h : ∀ c : CurrentRecord, st.current = some c → c.phase = .reading) (c : CurrentRecord)
    (hc : (st.takeSlot n bytes).current = some c) : c.phase = .reading := by
  unfold Stream.takeSlot at hc
  split at hc
  · exact h c hc
  · dsimp only at hc
    split at hc <;> cases hc
    · rfl
    · rename_i d hd; exact h d hd

theorem State.examine_jobs (s : State) (k : StreamId) : (s.examine k).jobs = s.jobs := by
  unfold State.examine
  split
  · rfl
  · dsimp only
    split
    · exact s.finish_jobs k _
    · split
      · rfl
      · split
        · exact s.finish_jobs k _
        · split
          · rfl
          · exact s.finish_jobs k _

theorem State.fetchFailed_jobs (s : State) (k : StreamId) (n : Nat) : (s.fetchFailed k n).jobs = s.jobs := by
  unfold State.fetchFailed
  split
  · exact s.finish_jobs k _
  · split <;> rfl

theorem State.slotAnswered_keepsLaws (s : State) (answer : ReadAnswer (List Byte)) :
    s.KeepsLaws (s.slotAnswered answer) := by
  unfold State.slotAnswered
  split
  · exact .refl s
  · rename_i read hread
    dsimp only
    set t : State := { s with fetch := { s.fetch with read := none }, slotReads := s.slotReads + 1 } with ht
    have hcleared : s.Eases t := by
      refine ⟨fun r hr => (by cases hr), fun k => .inl rfl, fun _ => .refl _, fun hl => ⟨hl, rfl⟩, id⟩
    have hcur : s.Holds → read.discard = false → ∀ c : CurrentRecord, (t.stream read.stream).current = some c →
        c.phase = .reading := fun hs hd c hc => hs.read read c hread hd hc
    have hfree : s.Holds → read.discard = false → ∀ i : HeadId, (t.head i).Unengaged read.stream := fun hs hd i =>
      ((hcleared.holds hs).heads i).unengaged fun c hc => by simp [hcur hs hd c hc]
    have hdiscarded : s.KeepsLaws t.settle := .settle (hcleared.relaxes rfl).keepsLaws
    split
    · exact .refl s
    · split
      · exact hdiscarded
      · rename_i hd
        refine .settle (.of_holds (t.fetchFailed_jobs _ _) fun hs => ?_)
        exact (hcleared.holds hs).fetchFailed (hfree hs (Bool.eq_false_iff.mpr hd)) _
    · split
      · exact hdiscarded
      · rename_i hd
        refine .settle (.of_holds (State.examine_jobs _ _) fun hs => ?_)
        have hd' : read.discard = false := Bool.eq_false_iff.mpr hd
        refine State.Holds.examine (State.Holds.setStream_free (hcleared.holds hs) rfl (hfree hs hd') fun c hc => ?_) rfl
          (hfree hs hd')
        simp [Stream.takeSlot_phase _ _ _ (hcur hs hd') c hc]

/-! ## Palette reads (R111, R112) -/

/-- The stream of a palette read is engaged with no head once the read is gone. -/
theorem State.HeadLaw.unengaged_of_read {s : State} {h i : HeadId} (hl : s.HeadLaw h) (hi : s.HeadLaw i) {r : PaletteRead}
    (hr : (s.head h).staging.reading = some r) {x : Head} (hx : x.lease = (s.head h).lease)
    (hread : x.staging.reading = none) : ((s.setHead h x).head i).Unengaged r.ref.stream := by
  obtain ⟨_, hc⟩ := hl.reads r hr
  rw [State.head_setHead]
  split
  · refine ⟨fun w hw hk => ?_, fun q hq => by rw [hread] at hq; cases hq⟩
    rw [hx] at hw
    obtain ⟨c, hcur, hp, _⟩ := hc
    obtain ⟨d, hd, hp', _⟩ := (hl.waits w hw).2
    rw [hk, hcur] at hd
    cases hd
    rw [hp] at hp'
    cases hp'
  · rename_i hne
    exact hi.unengaged_of_other hc hne

theorem State.paletteAnswered_keepsLaws (s : State) (h : HeadId) (i : Nat) (answer : ReadAnswer (BitVec 16)) :
    s.KeepsLaws (s.paletteAnswered h i answer) := by
  unfold State.paletteAnswered
  dsimp only
  split
  · exact .refl s
  · rename_i r hr
    split
    · rename_i hcond
      rw [Bool.and_eq_true, Bool.and_eq_true] at hcond
      obtain ⟨⟨ha, _⟩, _⟩ := hcond
      split
      · exact .refl s
      · refine .settle (.of_holds rfl fun hs => ?_)
        refine State.Eases.holds (State.finishAs_eases _ _ _ _ _ fun j =>
          (hs.heads h).unengaged_of_read (hs.heads j) hr ?_ ?_) (State.Eases.holds (s := s) (.setHead ?_) hs)
        · rfl
        · rfl
        · exact ⟨rfl, .refl _, fun _ h => (by cases h), id, le_rfl⟩
      · split
        · refine (State.Relaxes.setHead ?_).keepsLaws
          refine ⟨rfl, .refl _, fun q hq => ⟨r, hr, ?_⟩, id, le_rfl⟩
          cases hq
          rfl
        · refine .settle (.of_holds rfl fun hs => ?_)
          have hlaw := hs.heads h
          refine State.Eases.holds (State.finishAs_eases _ _ _ _ _ fun j =>
            hlaw.unengaged_of_read (hs.heads j) hr ?_ ?_) ?_
          · rfl
          · rfl
          refine hs.setHead ha ⟨?_, ?_, ?_, fun q hq => ?_, ?_, ?_, fun hz => ?_⟩ <;>
            simp only [State.head_setHead_same] at *
          · exact hlaw.free
          · exact hlaw.nodup
          · exact hlaw.waits
          · cases hq
          · exact hlaw.held
          · exact hlaw.pals
          · have hnone := (hlaw.guarded hz).2
            rw [hr] at hnone
            cases hnone
    · exact .refl s

end Sys2Proof.Machine
end

