-- ==== Sys2Proof/Proofs/JobListLaws.lean ====
section
/-! SUPPORT. FLUSH, the device commands and the events keep the job list's laws and the holding law; and the bound on a
waiter list that follows. -/

namespace Sys2Proof.Machine

set_option Elab.async false

/-! ## FLUSH (R41, R63, R79) -/

/-- A part whose slot reads stand, or are marked to be discarded. -/
theorem State.Eases.of_discarded {s : State} (f : SlotRead → Prop) [DecidablePred f] :
    s.Eases { s with
      fetch := { s.fetch with read := s.fetch.read.map (fun r => if f r then { r with discard := true } else r) } } := by
  refine ⟨fun r hr hd => ?_, fun _ => .inl rfl, fun _ => .refl _, fun hl => ⟨hl, rfl⟩, id⟩
  obtain ⟨q, hq, hqr⟩ := Option.map_eq_some_iff.mp hr
  split at hqr
  · subst hqr; cases hd
  · subst hqr; exact hq

theorem State.flushStream_relaxes {s : State} {k : StreamId} (hu : ∀ i : HeadId, (s.head i).Unengaged k) :
    s.Relaxes (s.flushStream k) := by
  refine .trans (t := s.finish k { status := .cancelled }) ⟨.of_eq (s.finish_jobs k _), fun _ => s.finish_eases k _ hu⟩ ?_
  refine State.Relaxes.trans (.setStream ?_) ((State.Eases.of_discarded fun r => r.stream = k).relaxes rfl)
  rfl

theorem State.flushJobs_relaxes (s : State) (k : StreamId) : s.Relaxes (s.flushJobs k) := by
  by_cases hm : ∃ j, s.runningJob = some j ∧ j.ref.stream = k
  · obtain ⟨j, hj, hk⟩ := hm
    rw [s.flushJobs_running k j hj hk]
    exact .of_jobs ((JobsShrink.endRunningIn _ _).trans (.cancelQueued _ _)) s.stopEngine_fetch s.stopEngine_streams
      s.stopEngine_loader (by rw [s.stopEngine_regs]) s.stopEngine_heads
  · rw [s.flushJobs_other k fun j hj hk => hm ⟨j, hj, hk⟩]
    exact .of_jobs (.cancelQueued _ _) rfl rfl rfl rfl rfl

theorem State.flushHead_regs (s : State) (h : HeadId) (k : StreamId) : (s.flushHead h k).regs = s.regs := by
  unfold State.flushHead
  dsimp only
  split
  · exact State.handOn_regs _ _ _
  · split <;> rfl

theorem State.flushHead_current {s : State} {k : StreamId} (hk : (s.stream k).current = none) (h : HeadId) :
    ((s.flushHead h k).stream k).current = none := by
  rcases s.flushHead_stream h k k with e | ⟨w, _, _, e⟩ <;> rw [e]
  · exact hk
  · rfl

theorem State.Holds.flushHead {s : State} (hs : s.Holds) (ha : s.active = true) {k : StreamId}
    (hk : (s.stream k).current = none) (h : HeadId) : (s.flushHead h k).Holds := by
  have habandoned : (s.head h).Eases ((s.head h).abandon h k 0 none) := Head.abandon_eases _ _ _ _ _
  unfold State.flushHead
  dsimp only
  split
  · rename_i ho
    refine State.Holds.handOn ((State.Eases.setHead habandoned).holds hs) ha ?_ hk _
    rw [State.head_setHead_same, habandoned.holder]
    exact ho
  · split
    · exact (State.Eases.setHead habandoned).holds hs
    · exact (State.Eases.setHead (habandoned.trans (Head.reload_eases _ _))).holds hs

theorem State.flushedJobs_relaxes (s : State) (k : StreamId) : s.Relaxes (s.flushedJobs k) := by
  refine .trans (.of_mapHeads fun hd => hd.withdrawn_eases k) (.trans (State.flushStream_relaxes fun i => ?_)
    (State.flushJobs_relaxes _ k))
  change ((s.heads.map (fun hd => Head.withdrawn hd k)).get i).Unengaged k
  rw [Two.get_map]
  exact Head.withdrawn_unengaged _ k

theorem State.flushedJobs_regs (s : State) (k : StreamId) : (s.flushedJobs k).regs = s.regs := by
  have hjobs : ∀ u : State, (u.flushJobs k).regs = u.regs := fun u => by
    by_cases hm : ∃ j, u.runningJob = some j ∧ j.ref.stream = k
    · obtain ⟨j, hj, hk⟩ := hm
      rw [u.flushJobs_running k j hj hk]
      exact u.stopEngine_regs
    · rw [u.flushJobs_other k fun j hj hk => hm ⟨j, hj, hk⟩]
  exact (hjobs _).trans (State.finish_regs _ k _)

theorem State.flushed_keepsLaws (s : State) (k : StreamId) (ha : s.active = true) : s.KeepsLaws (s.flushed k) := by
  have hbefore := (s.flushedJobs_relaxes k).keepsLaws
  have hk : ((s.flushedJobs k).stream k).current = none := by rw [s.flushedJobs_stream k]; rfl
  have hactive : (s.flushedJobs k).active = true := by rwa [State.active_iff, s.flushedJobs_regs, ← State.active_iff]
  have hone : ∀ u : State, u.active = true → (u.stream k).current = none → ∀ h : HeadId, u.KeepsLaws (u.flushHead h k) :=
    fun u hua huk h => .of_holds (u.flushHead_same h k).1 fun hu => hu.flushHead hua huk h
  rw [s.flushed_eq]
  refine (hbefore.trans (hone _ hactive hk 0)).trans (hone _ ?_ (State.flushHead_current hk 0) 1)
  rwa [State.active_iff, State.flushHead_regs, ← State.active_iff]

/-! ## Resets and FAULT (R168 to R170) -/

/-- A state without streams' records, slot reads and jobs, whose heads are as after a reset. -/
theorem State.KeepsLaws.of_reset {s t : State} (hj : t.jobs = []) (h : State.reset.Eases t) : s.KeepsLaws t := by
  have hshrink : ∀ u : State, JobsShrink u.jobs t.jobs := fun u => by rw [hj]; exact List.nil_sublist _
  refine ⟨(hshrink s).jobsBounded, (hshrink s).oneEngineJob, fun _ => h.holds ?_⟩
  exact State.reset.holdingLaw_iff.mp State.reset_holdingLaw

theorem State.afterReset_keepsLaws (s : State) : s.KeepsLaws s.afterReset := by
  refine .of_reset rfl (.of_heads rfl rfl rfl rfl fun i => ?_)
  rw [State.reset_head, s.afterReset_head]
  exact .of_same rfl rfl rfl le_rfl

theorem State.afterPowerOn_keepsLaws (s : State) : s.KeepsLaws s.afterPowerOn :=
  .of_reset rfl (.of_same rfl rfl rfl rfl rfl)

theorem State.enterFault_keepsLaws (s : State) (origin : FaultOrigin) : s.KeepsLaws (s.enterFault origin) := by
  refine State.Relaxes.keepsLaws ⟨.of_eq s.stopEngine_jobs, fun _ => ⟨fun r hr hd => ?_, fun k => .inl ?_, fun i => ?_,
    fun hl => absurd rfl hl, fun hd => absurd hd (by simp [State.enterFault])⟩⟩
  · obtain ⟨q, _, hqr⟩ := Option.map_eq_some_iff.mp hr
    subst hqr
    cases hd
  · change (s.stopEngine.stream k).current = _
    rw [State.stream, s.stopEngine_streams, State.stream]
  · change (s.head i).Eases ((s.stopEngine.heads.map _).get i)
    rw [s.stopEngine_heads, Two.get_map]
    exact ⟨rfl, .refl _, fun r hr => (by cases hr), id, le_rfl⟩

/-! ## Register writes -/

theorem State.refuseControl_keepsLaws (s : State) : s.KeepsLaws s.refuseControl := (s.raise_relaxes _).keepsLaws

/-- A load begins in a part without waiters and palette reads. -/
theorem State.startLoad_holds {s : State} (hs : s.Holds) (hd : s.regs.device = .idle) (load : SetupLoad) :
    State.Holds { s with regs := { s.regs with device := .loading, setupError := .none }, loader := some load } := by
  refine ⟨hs.read, fun h => ?_, fun _ => rfl, fun _ => hs.loads.2 (.inl hd)⟩
  have hl := hs.heads h
  exact ⟨hl.free, hl.nodup, hl.waits, hl.reads, hl.held, hl.pals, hl.guarded⟩

theorem State.startCommand_keepsLaws (s : State) : s.KeepsLaws s.startCommand := by
  unfold State.startCommand
  split
  · rename_i hd
    split
    · exact .of_holds rfl fun hs => State.startLoad_holds hs hd _
    · refine State.KeepsLaws.trans ?_ (State.Relaxes.keepsLaws (State.raise_relaxes _ _))
      exact .of_same rfl rfl rfl rfl rfl rfl
  · rename_i hd
    exact .settle (.of_holds rfl fun hs => (hs.setDevice_eases (by simp [hd]) (by simp)).holds hs)
  all_goals exact s.refuseControl_keepsLaws

theorem State.stopCommand_keepsLaws (s : State) : s.KeepsLaws s.stopCommand := by
  unfold State.stopCommand
  split
  · rename_i hd
    exact .settle (.of_holds rfl fun hs => (hs.setDevice_eases (by simp [hd]) (by simp)).holds hs)
  · exact s.refuseControl_keepsLaws

theorem State.resumeCommand_keepsLaws (s : State) (k : StreamId) : s.KeepsLaws (s.resumeCommand k) := by
  unfold State.resumeCommand
  split
  · exact .settle (State.Relaxes.keepsLaws (.setStream rfl))
  · exact s.refuseControl_keepsLaws

theorem State.flushCommand_keepsLaws (s : State) (k : StreamId) : s.KeepsLaws (s.flushCommand k) := by
  unfold State.flushCommand
  split
  · rename_i h
    exact (s.flushed_keepsLaws k (Bool.and_eq_true_iff.mp h).1).settle
  · exact s.refuseControl_keepsLaws

theorem State.postWrite_keepsLaws (s : State) (value : Word) : s.KeepsLaws (s.postWrite value) := by
  unfold State.postWrite
  dsimp only
  split
  · split
    · exact .settle (State.Relaxes.keepsLaws (.setStream rfl))
    · exact (s.raise_relaxes _).keepsLaws
  · exact (s.raise_relaxes _).keepsLaws

theorem State.retireWrite_keepsLaws (s : State) (value : Word) : s.KeepsLaws (s.retireWrite value) := by
  unfold State.retireWrite
  split
  · split
    · exact .settle (.of_same rfl rfl rfl rfl rfl rfl)
    · exact (s.raise_relaxes _).keepsLaws
  · exact (s.raise_relaxes _).keepsLaws

theorem State.addressWritten_keepsLaws (s : State) (half : AddressHalf) (value : Word) :
    s.KeepsLaws (s.addressWritten half value) := by
  cases half <;> exact .of_same rfl rfl rfl rfl rfl rfl

theorem State.windowWrite_keepsLaws (s : State) (offset : BitVec 6) (value : Word) :
    s.KeepsLaws (s.windowWrite offset value) := by
  unfold State.windowWrite
  split
  · exact s.startCommand_keepsLaws
  · exact s.stopCommand_keepsLaws
  · exact s.afterReset_keepsLaws
  · exact s.resumeCommand_keepsLaws _
  · exact s.flushCommand_keepsLaws _
  · exact s.postWrite_keepsLaws _
  · exact s.retireWrite_keepsLaws _
  · exact .of_same rfl rfl rfl rfl rfl rfl
  · exact .of_same rfl rfl rfl rfl rfl rfl
  · exact s.addressWritten_keepsLaws _ _
  · split
    · exact s.refuseControl_keepsLaws
    · exact .refl s

/-! ## The Setup Table load (R163 to R165) -/

theorem loadedStream_current (quarters : List (List Byte)) (k : StreamId) : (loadedStream quarters k).current = none := by
  unfold loadedStream
  split <;> rfl

/-- A clean table is loaded into a part without waiters and palette reads. -/
theorem State.endLoad_keepsLaws (s : State) (quarters : List (List Byte)) (hl : s.loader ≠ none) :
    s.KeepsLaws (s.endLoad quarters) := by
  unfold State.endLoad
  split
  · refine .settle (.of_holds rfl fun hs => ?_)
    set t : State := { s with
      regs := { s.regs with device := .running }
      loader := none
      streams := ⟨loadedStream quarters 0, loadedStream quarters 1, loadedStream quarters 2, loadedStream quarters 3⟩
      heads := ⟨s.heads.at0.loaded quarters 0, s.heads.at1.loaded quarters 1⟩
      writer := { s.writer with ring := tableCompletionRing quarters } } with ht
    have hcurrent : ∀ k : StreamId, (t.stream k).current = none := fun k => by
      match k with
      | 0 => exact loadedStream_current quarters 0
      | 1 => exact loadedStream_current quarters 1
      | 2 => exact loadedStream_current quarters 2
      | 3 => exact loadedStream_current quarters 3
    have hheads : ∀ i : HeadId, (s.head i).Eases (t.head i) := fun i => by
      match i with
      | 0 => exact .of_same rfl rfl rfl le_rfl
      | 1 => exact .of_same rfl rfl rfl le_rfl
    have hfree : ∀ i k, (s.head i).Unengaged k := fun i k => by
      obtain ⟨hw, hr⟩ := hs.loads.2 (.inr (hs.loads.1 hl)) i
      exact ⟨fun w h => (by rw [hw] at h; cases h), fun r h => (by rw [hr] at h; cases h)⟩
    exact State.Eases.holds (s := s) ⟨fun _ hr _ => hr, fun k => .inr ⟨hcurrent k, fun i => (hfree i k).of_eases (hheads i)⟩,
      hheads, fun h => absurd rfl h, fun hd => absurd hd (by simp [ht])⟩ hs
  · refine State.KeepsLaws.trans ?_ (State.Relaxes.keepsLaws (State.raise_relaxes _ _))
    refine .of_holds rfl fun hs => ?_
    exact State.Eases.holds (s := s) ⟨fun _ hr _ => hr, fun _ => .inl rfl, fun _ => .refl _, fun h => absurd rfl h,
      fun _ => .inr (hs.loads.1 hl)⟩ hs

theorem State.setupAnswered_keepsLaws (s : State) (answer : ReadAnswer (List Byte)) :
    s.KeepsLaws (s.setupAnswered answer) := by
  unfold State.setupAnswered
  split
  · exact .refl s
  · rename_i load hload
    have hl : s.loader ≠ none := by simp [hload]
    split
    · exact .refl s
    · exact s.enterFault_keepsLaws _
    · split
      · exact .of_holds rfl fun hs => State.Eases.holds (s := s)
          ⟨fun _ hr _ => hr, fun _ => .inl rfl, fun _ => .refl _, fun _ => ⟨hl, rfl⟩, id⟩ hs
      · exact s.endLoad_keepsLaws _ hl

/-! ## The engine and the Completion Writer -/

theorem State.engineServed_keepsLaws (s : State) : s.KeepsLaws s.engineServed := by
  unfold State.engineServed
  split
  · split
    · refine .settle (State.Relaxes.keepsLaws (.trans ?_ (State.nextPixel_follows _).relaxes))
      exact .of_jobs (.of_eq (by simp)) (by simp) (by simp) (by simp) (by simp) (by simp)
    · split
      · exact .of_same rfl rfl rfl rfl rfl rfl
      · exact .refl s
    all_goals exact .refl s
  · exact .refl s

theorem State.sourceAnswered_keepsLaws (s : State) (n : Nat) (answer : ReadAnswer Word) :
    s.KeepsLaws (s.sourceAnswered n answer) := by
  unfold State.sourceAnswered
  split
  · split
    · exact .refl s
    · exact .settle (.of_same rfl rfl rfl rfl rfl rfl)
    · exact .settle (.of_same rfl rfl rfl rfl rfl rfl)
  · exact .refl s

theorem State.wordAnswered_keepsLaws (s : State) (answer : WriteAnswer) : s.KeepsLaws (s.wordAnswered answer) := by
  unfold State.wordAnswered
  split
  · split
    · split
      · exact .refl s
      · refine .settle (State.Relaxes.keepsLaws (.trans ?_ (State.nextPixel_follows _).relaxes))
        exact (Follows.pixelDone s true).relaxes
      · exact .settle (s.failJob_relaxes _ _).keepsLaws
    all_goals exact .refl s
  · exact .refl s

theorem State.completionWritten_relaxes (s : State) (c : Completion) (rest : List Completion) :
    s.Relaxes (s.completionWritten c rest) := by
  refine ⟨.refl _, fun _ => .of_heads rfl rfl rfl rfl fun i => ?_⟩
  unfold State.completionWritten
  cases c.origin with
  | none => exact .refl _
  | some h => exact (State.Eases.setHead ((s.head h).written_eases c)).heads i

theorem State.completionAnswered_keepsLaws (s : State) (answer : WriteAnswer) :
    s.KeepsLaws (s.completionAnswered answer) := by
  unfold State.completionAnswered
  split
  · split
    · exact .refl s
    · exact .settle (s.completionWritten_relaxes _ _).keepsLaws
    · refine State.KeepsLaws.trans ?_ (State.enterFault_keepsLaws _ _)
      exact .of_same rfl rfl rfl rfl rfl rfl
  · exact .refl s

/-! ## Scan and timebase -/

theorem Head.blankingStart_eases (hd : Head) (h : HeadId) (frozen : Bool) : hd.Eases (hd.blankingStart h frozen) := by
  unfold Head.blankingStart
  split
  · exact .refl hd
  · exact (hd.latchStep_eases h .blanking).trans (Head.ramp_eases _)

theorem State.blanked_relaxes (s : State) (h : HeadId) (frameCause : Bool) : s.Relaxes (s.blanked h frameCause) := by
  have htold := State.Relaxes.setHead ((s.head h).blankingStart_eases h (decide (s.regs.device = Device.fault)))
  unfold State.blanked
  dsimp only
  split
  · exact htold.trans (State.raise_relaxes _ _)
  · exact htold

theorem State.gatesFirst_keepsLaws (s : State) (opened : Bool) : s.KeepsLaws (s.gatesFirst opened) := by
  unfold State.gatesFirst
  split
  · refine State.KeepsLaws.trans (t := (s.pick (s.workLeft + 1)).2) ?_ (State.settleFor_keepsLaws _ _)
    unfold State.pick
    split <;> exact .of_same rfl rfl rfl rfl rfl rfl
  · exact .refl s

theorem State.lineStarted_keepsLaws (s : State) (h : HeadId) : s.KeepsLaws (s.lineStarted h) := by
  unfold State.lineStarted
  dsimp only
  split
  · exact .refl s
  · rename_i t _
    split
    · have hmoved : ∀ sc : Scan, s.KeepsLaws
          { s.setHead h { s.head h with scan := sc } with jobs := openGates h sc s.jobs } := fun sc =>
        State.Relaxes.keepsLaws (.trans (t := s.setHead h { s.head h with scan := sc })
          (.setHead (.of_same rfl rfl rfl le_rfl)) (.of_jobs (.openGates h sc s.jobs) rfl rfl rfl rfl rfl))
      split
      · exact (((hmoved _).trans (State.gatesFirst_keepsLaws _ _)).trans (State.blanked_relaxes _ h _).keepsLaws).settle
      · exact (hmoved _).settle
    · exact .refl s

theorem State.scanServed_keepsLaws (s : State) (h : HeadId) : s.KeepsLaws (s.scanServed h) := by
  unfold State.scanServed
  dsimp only
  split
  · split
    · exact State.Relaxes.keepsLaws (.setHead (.of_same rfl rfl rfl le_rfl))
    · exact .refl s
  · exact .refl s

/-- A waiter leaves the list, and its stream is engaged with no head any more. -/
theorem State.HeadLaw.unengaged_of_waiter {s : State} {h i : HeadId} (hl : s.HeadLaw h) (hi : s.HeadLaw i) {w : Waiter}
    (hw : w ∈ (s.head h).lease.waiters) :
    ((s.setHead h ((s.head h).withdraw w.ref.stream)).head i).Unengaged w.ref.stream := by
  obtain ⟨_, hc⟩ := hl.waits w hw
  rw [State.head_setHead]
  split
  · refine ⟨fun v hv => of_decide_eq_true (List.mem_filter.mp hv).2, fun q hq hk => ?_⟩
    obtain ⟨c, hcur, hp, _⟩ := hc
    obtain ⟨d, hd, hp', _⟩ := (hl.reads q hq).2
    rw [hk, hcur] at hd
    cases hd
    rw [hp] at hp'
    cases hp'
  · rename_i hne
    exact hi.unengaged_of_other hc hne

theorem State.expire_keepsLaws {s t : State} {h : HeadId} {k : StreamId} (e : s.expire h k = some t) : s.KeepsLaws t := by
  unfold State.expire at e
  split at e
  · obtain ⟨w, hw, rfl⟩ := Option.map_eq_some_iff.mp e
    have hmem := List.mem_of_find?_eq_some hw
    have hk : w.ref.stream = k := by
      have hfound := List.find?_some hw
      exact of_decide_eq_true (Bool.and_eq_true_iff.mp hfound).1
    subst hk
    refine .settle (.of_holds rfl fun hs => ?_)
    refine State.Eases.holds (State.finishAs_eases _ _ _ _ _ fun i =>
      (hs.heads h).unengaged_of_waiter (hs.heads i) hmem) ?_
    exact (State.Eases.setHead (Head.withdraw_eases _ _)).holds hs
  · cases e

theorem State.takeDue_keepsLaws {s t : State} {d : Due} (e : s.takeDue d = some t) : s.KeepsLaws t := by
  cases d with
  | step h =>
    simp only [State.takeDue, State.endStep] at e
    split at e
    · obtain ⟨st, _, rfl⟩ := Option.map_eq_some_iff.mp e
      exact (s.linkTo_relaxes _ h st).keepsLaws.settle
    · cases e
  | waiter h k => exact State.expire_keepsLaws e

theorem State.ticked_keepsLaws (s : State) : s.KeepsLaws s.ticked :=
  (State.Relaxes.of_mapHeads Head.tick_eases).keepsLaws

/-! ## Every command -/

/-- A command answers a next state that keeps the laws. -/
def State.LawfulAnswer (s : State) (a : Answer) : Prop := ∃ t : State, a = .next t ∧ s.KeepsLaws t

theorem State.LawfulAnswer.next {s t : State} (h : s.KeepsLaws t) : s.LawfulAnswer (.next t) := ⟨t, rfl, h⟩

theorem execMillisecondMark_lawfulAnswer (s : State) : s.LawfulAnswer (execMillisecondMark s) := by
  unfold execMillisecondMark
  split
  · exact .next (.refl s)
  · refine .next (State.KeepsLaws.trans ?_ (State.ticked_keepsLaws _))
    exact State.takeAllDue_keeps s.KeepsLaws (fun u hu => hu.trans (.of_same rfl rfl rfl rfl rfl rfl))
      (fun u t d e hu => hu.trans (State.takeDue_keepsLaws e)) _ s (.refl s)

theorem State.getD_keepsLaws (s : State) (d : Due) : s.KeepsLaws ((s.takeDue d).getD s) := by
  cases h : s.takeDue d with
  | none => exact .refl s
  | some t => exact State.takeDue_keepsLaws h

theorem execRecord_lawfulAnswer (kind : Kind) (k : StreamId) (s : State) : s.LawfulAnswer (exec (kind.command k) s) := by
  rcases execRecord_cases kind k s with e | ⟨c, u, hc, hu, e⟩ <;> rw [e]
  · exact .next (.refl s)
  · exact .next (hu.keepsLaws hc).settle

theorem exec_lawfulAnswer (i : Instr) (s : State) : s.LawfulAnswer (exec i s) := by
  cases i with
  | powerOnReset => exact .next s.afterPowerOn_keepsLaws
  | start => exact .next s.startCommand_keepsLaws
  | stop => exact .next s.stopCommand_keepsLaws
  | reset => exact .next s.afterReset_keepsLaws
  | resume k => exact .next (s.resumeCommand_keepsLaws k)
  | flush k => exact .next (s.flushCommand_keepsLaws k)
  | post value => exact .next (s.postWrite_keepsLaws value)
  | retire value => exact .next (s.retireWrite_keepsLaws value)
  | causeWrite value => exact .next (.of_same rfl rfl rfl rfl rfl rfl)
  | causeEnableWrite value => exact .next (.of_same rfl rfl rfl rfl rfl rfl)
  | setupAddressWrite half value => exact .next (s.addressWritten_keepsLaws half value)
  | registerWriteOther offset value => exact .next (s.windowWrite_keepsLaws offset value)
  | setupReadAnswer answer => exact .next (s.setupAnswered_keepsLaws answer)
  | slotReadAnswer answer => exact .next (s.slotAnswered_keepsLaws answer)
  | window k => exact execRecord_lawfulAnswer .window k s
  | transfer k => exact execRecord_lawfulAnswer .transfer k s
  | fill k => exact execRecord_lawfulAnswer .fill k s
  | readback k => exact execRecord_lawfulAnswer .readback k s
  | claim k => exact execRecord_lawfulAnswer .claim k s
  | release k => exact execRecord_lawfulAnswer .release k s
  | bands k => exact execRecord_lawfulAnswer .bands k s
  | scroll k => exact execRecord_lawfulAnswer .scroll k s
  | output k => exact execRecord_lawfulAnswer .output k s
  | palette k => exact execRecord_lawfulAnswer .palette k s
  | paletteReadAnswer h n answer => exact .next (s.paletteAnswered_keepsLaws h n answer)
  | present k => exact execRecord_lawfulAnswer .present k s
  | link k => exact execRecord_lawfulAnswer .link k s
  | light k => exact execRecord_lawfulAnswer .light k s
  | wait k => exact execRecord_lawfulAnswer .wait k s
  | note k => exact execRecord_lawfulAnswer .note k s
  | engineAccessServed => exact .next s.engineServed_keepsLaws
  | sourceReadAnswer n answer => exact .next (s.sourceAnswered_keepsLaws n answer)
  | readbackWordAnswer answer => exact .next (s.wordAnswered_keepsLaws answer)
  | completionWriteAnswer answer => exact .next (s.completionAnswered_keepsLaws answer)
  | lineStart h => exact .next (s.lineStarted_keepsLaws h)
  | millisecondMark => exact execMillisecondMark_lawfulAnswer s
  | waiterExpiry h k => exact .next (s.getD_keepsLaws (.waiter h k))
  | linkStepEnd h => exact .next (s.getD_keepsLaws (.step h))
  | scanReadServed h => exact .next (s.scanServed_keepsLaws h)

theorem step_keepsLaws {s t : State} (h : step s = .next t) : s.KeepsLaws t := by
  rcases step_cases s t h with rfl | ⟨i, rest, hexec⟩
  · exact .refl _
  · obtain ⟨u, hu, hkeeps⟩ := exec_lawfulAnswer i { s with pending := rest }
    obtain rfl : t = u := Host.Outcome.next.inj (hexec.symm.trans hu)
    refine State.KeepsLaws.trans ?_ hkeeps
    exact .of_same rfl rfl rfl rfl rfl rfl

/-- The waiters are different streams of the four, and none is the holder. -/
theorem State.HeadLaw.waiters_le {s : State} {h : HeadId} (hl : s.HeadLaw h) : (s.head h).lease.waiters.length ≤ 3 := by
  cases ho : (s.head h).lease.holder with
  | none => simp [hl.free ho]
  | some k =>
    have hnodup : (k :: (s.head h).waiting).Nodup := by
      refine List.nodup_cons.mpr ⟨fun hmem => ?_, hl.nodup⟩
      obtain ⟨w, hw, hk⟩ := List.mem_map.mp hmem
      exact (hl.waits w hw).1 (by rw [ho, hk])
    have hle := hnodup.length_le_card
    rw [List.length_cons, Head.waiting, List.length_map, Fintype.card_fin] at hle
    omega

/-- Settles O8: settling and every command keep the laws, and a waiter list is one of different streams without the
holder. -/
theorem jobListKeepsItsLaws : Obligations.JobListKeepsItsLaws := by
  refine ⟨fun s t hs h => (step_keepsLaws h).bounded hs, fun s t hs h => (step_keepsLaws h).engine hs,
    fun s t hs h => ?_, fun s hs h => ((s.holdingLaw_iff.mp hs).heads h).waiters_le⟩
  exact t.holdingLaw_iff.mpr ((step_keepsLaws h).holds (s.holdingLaw_iff.mp hs))

end Sys2Proof.Machine
end

