-- ==== Sys2Proof/Proofs/Completions.lean ====
section
/-! SUPPORT. Which completions are suppressed, how a job leaves the list, and what each block places. -/

namespace Sys2Proof.Machine

set_option Elab.async false

/-! ## Suppression (R151) -/

theorem suppressed_iff (silent : Bool) (o : Outcome) :
    suppressed silent o = true ↔ silent = true ∧ o.status = .done ∧ o.flags = Flags.none := by
  simp only [suppressed, Bool.and_eq_true, decide_eq_true_iff, and_assoc]

theorem report_of_suppressed {ref : RecordRef} {o : Outcome} (h : suppressed ref.silent o = true) (kind : Byte)
    (origin : Option HeadId) : report ref kind o origin = [] := by
  rw [report, if_pos h]

theorem report_of_not_suppressed {ref : RecordRef} {o : Outcome} (h : ¬ suppressed ref.silent o = true) (kind : Byte)
    (origin : Option HeadId) : report ref kind o origin = [completionOf ref kind o origin] := by
  rw [report, if_neg h]

/-! ## The end of the RUNNING job (R22) -/

/-- What a gate's evaluation leaves alone in a job. -/
theorem evaluateGates_core (heads : Two Head) (seen : List StreamId) (jobs : List Job) :
    (evaluateGates heads seen jobs).map (fun q => (q.ref, q.work, q.state))
      = jobs.map (fun q => (q.ref, q.work, q.state)) :=
  evaluateGates_map _ (fun j hds => by
    obtain ⟨href, hwork, hstate, _⟩ := j.evaluateGate_same hds
    rw [href, hwork, hstate]) heads seen jobs

theorem State.endJob_suppressed {s : State} {j : Job} {o : Outcome} (hj : s.runningJob = some j)
    (h : suppressed j.ref.silent o = true) :
    s.endJob o = { s with engine := .free }.jobsRemoved (s.jobs.filter (fun q => !q.isRunning)) := by
  simp only [State.endJob, hj, h, if_true]

theorem State.endJob_placed {s : State} {j : Job} {o : Outcome} (hj : s.runningJob = some j)
    (h : ¬ suppressed j.ref.silent o = true) :
    s.endJob o = { s with engine := .free, jobs := endRunningIn s.jobs o } := by
  simp only [State.endJob, hj, h]
  rfl

/-! ## Removals (R33, R116) -/

/-- Of each stream, the gate of the oldest job alone is evaluated. -/
theorem evaluateGates_at (heads : Two Head) (seen : List StreamId) (before after : List Job) (j : Job) :
    (evaluateGates heads seen (before ++ j :: after))[before.length]?
      = some (if j.ref.stream ∈ seen ∨ ∃ q ∈ before, q.ref.stream = j.ref.stream then j else j.evaluateGate heads) := by
  induction before generalizing seen with
  | nil => simp [evaluateGates]
  | cons q rest ih =>
    have hseen : (j.ref.stream ∈ q.ref.stream :: seen ∨ ∃ p ∈ rest, p.ref.stream = j.ref.stream)
        ↔ (j.ref.stream ∈ seen ∨ ∃ p ∈ q :: rest, p.ref.stream = j.ref.stream) := by
      simp only [List.mem_cons, exists_eq_or_imp, eq_comm (a := j.ref.stream)]
      tauto
    rw [List.cons_append, evaluateGates, List.length_cons, List.getElem?_cons_succ, ih]
    simp only [hseen]

/-- An entry is kept WAITING by the jobs of its batch and of earlier ones. -/
theorem Entry.blocked_eq_false_iff (e : Entry) (jobs : List Job) (streams : Four Stream) :
    e.blocked jobs streams = false
      ↔ ∀ j ∈ jobs, j.ref.stream = e.ref.stream →
          ((streams.get e.ref.stream).batch - j.batch).toNat < ((streams.get e.ref.stream).batch - e.batch).toNat := by
  simp only [Entry.blocked, notAfter, List.any_eq_false, Bool.and_eq_true, decide_eq_true_iff, not_and, not_le]

theorem Present.evaluated_entries (p : Present) (jobs : List Job) (streams : Four Stream) :
    (p.evaluated jobs streams).entries
      = p.entries.map (fun e =>
          if e.state = .waiting ∧ (∀ j ∈ jobs, j.ref.stream = e.ref.stream →
              ((streams.get e.ref.stream).batch - j.batch).toNat < ((streams.get e.ref.stream).batch - e.batch).toNat) then
            { e with state := .ready }
          else e) := by
  refine List.map_congr_left fun e _ => ?_
  simp only [Entry.evaluated, Entry.blocked_eq_false_iff]

theorem State.jobsRemoved_head (s : State) (jobs : List Job) (h : HeadId) :
    (s.jobsRemoved jobs).head h = { s.head h with present := (s.head h).present.evaluated jobs s.streams } :=
  Two.get_map _ _ _

/-! ## Placements (R122, R136, R144, R145) -/

theorem otherRoom_iff (outbound : List Completion) :
    otherRoom outbound = true ↔ (outbound.filter (fun c => decide (c.origin = none))).length < 8 := by
  have hnone : ∀ c : Completion, c.origin.isNone = decide (c.origin = none) := fun c => by cases c.origin <;> simp
  simp only [otherRoom, hnone, maxOther, decide_eq_true_iff]

/-- The oldest ENDED job of a list. -/
theorem takeEnded_append {before after : List Job} {j : Job} {o : Outcome} {b : Bool}
    (hb : ∀ q ∈ before, q.isEnded = false) (hj : j.state = .ended o b) :
    takeEnded (before ++ j :: after) = some (completionOf j.ref j.work.kind.code o none, before ++ after) := by
  induction before with
  | nil => simp [takeEnded, hj]
  | cons q rest ih =>
    have hq := hb q List.mem_cons_self
    have hrest := ih fun p hp => hb p (List.mem_cons_of_mem _ hp)
    rw [List.cons_append, takeEnded, hrest]
    split
    · rename_i hstate; simp [Job.isEnded, hstate] at hq
    · rfl

theorem takeEnded_none {jobs : List Job} (h : ∀ q ∈ jobs, q.isEnded = false) : takeEnded jobs = none := by
  cases he : takeEnded jobs with
  | none => rfl
  | some r =>
    obtain ⟨before, after, j, o, b, rfl, hj, _⟩ := takeEnded_split jobs r.2 r.1 he
    have hended := h j (by simp)
    simp [Job.isEnded, hj] at hended

section
variable {s : State}

/-- A block of class OTHER places its next completion where the class has room. -/
theorem State.placeFrom_of_room {p : Placer} {c : Completion} {t : State} (hn : s.nextFrom p = some (c, t))
    (hroom : otherRoom s.writer.outbound = true) : s.placeFrom p = some t := by
  simp only [State.placeFrom, hn, hroom, Bool.or_true, if_true]

theorem State.placeFrom_of_full {p : Placer} (hp : p.commits = false) (hroom : ¬ otherRoom s.writer.outbound = true) :
    s.placeFrom p = none := by
  rw [← Option.not_isSome_iff_eq_none, State.placeFrom_isSome, hp]
  simp [hroom]

theorem State.placeFrom_of_nextFrom_none {p : Placer} (hn : s.nextFrom p = none) : s.placeFrom p = none := by
  simp only [State.placeFrom, hn]

theorem State.nextFrom_jobList {c : Completion} {jobs : List Job} (h : takeEnded s.jobs = some (c, jobs)) :
    s.nextFrom .jobList = if s.owed c = true then none else some (c, (s.place [c]).jobsRemoved jobs) := by
  by_cases ho : s.owed c = true <;> simp [State.nextFrom, h, ho]

theorem State.nextFrom_sequencer {k : StreamId} {c : Completion} {rest : List Completion}
    (h : (s.stream k).kept = c :: rest) :
    s.nextFrom (.sequencer k)
      = if s.owed c = true then none else some (c, (s.setStream k { s.stream k with kept := rest }).place [c]) := by
  by_cases ho : s.owed c = true <;> simp [State.nextFrom, h, takeOldest_strict, ho]

theorem State.nextFrom_linkController {h : HeadId} {c : Completion} {rest : List Completion}
    (hc : (s.head h).link.held = c :: rest) :
    s.nextFrom (.linkController h)
      = if s.owed c = true then none
        else some (c, (s.setHead h { s.head h with link := { (s.head h).link with held := rest } }).place [c]) := by
  by_cases ho : s.owed c = true <;> simp [State.nextFrom, hc, takeOldest_strict, ho]

/-- What a block of class OTHER does with its next completion, where one is owed before it or none. -/
theorem State.placeFrom_next {others : Nat}
    (hothers : others = (s.writer.outbound.filter (fun c => decide (c.origin = none))).length) {p : Placer}
    (hp : p.commits = false) {c : Completion} {t : State}
    (hn : s.nextFrom p = if s.owed c = true then none else some (c, t)) :
    (others < 8 → s.owed c = false → s.placeFrom p = some t)
      ∧ (8 ≤ others ∨ s.owed c = true → s.placeFrom p = none) := by
  have hroom : otherRoom s.writer.outbound = true ↔ others < 8 := by rw [hothers, otherRoom_iff]
  refine ⟨fun hlt ho => ?_, fun h => ?_⟩
  · rw [ho, if_neg (by decide)] at hn
    exact State.placeFrom_of_room hn (hroom.mpr hlt)
  · rcases h with h | h
    · exact State.placeFrom_of_full hp fun hr => absurd (hroom.mp hr) (not_lt.mpr h)
    · rw [h, if_pos rfl] at hn
      exact State.placeFrom_of_nextFrom_none hn

theorem State.placeFrom_presentUnit {h : HeadId} {before rest : List Completion} {c : Completion}
    (hc : (s.head h).present.outbox = before ++ c :: rest) (hb : ∀ d ∈ before, s.owed d = true) :
    ((∀ d ∈ before, d.outcome.status = .abandoned) → s.owed c = false →
      s.placeFrom (.presentUnit h)
        = some ((s.setHead h
            { s.head h with present := { (s.head h).present with outbox := before ++ rest } }).place [c]))
      ∧ (c.outcome.status ≠ .abandoned → s.owed c = true → s.placeFrom (.presentUnit h) = none) := by
  refine ⟨fun hpassed ho => ?_, fun hkeeps ho => State.placeFrom_of_nextFrom_none ?_⟩
  · have htake := takeOldest_append (fun c => !s.owed c) Completion.isAbandoned before rest c
      (fun d hd => ⟨by simp [hb d hd], by simp [Completion.isAbandoned, hpassed d hd]⟩) (by simp [ho])
    simp only [State.placeFrom, State.nextFrom, hc, htake, Placer.commits, Bool.true_or, if_true]
  · have htake := takeOldest_blocked (fun c => !s.owed c) Completion.isAbandoned before rest c
      (fun d hd => by simp [hb d hd]) (by simp [ho]) (by simp [Completion.isAbandoned, hkeeps])
    simp only [State.nextFrom, hc, htake]

theorem State.placeFrom_presentUnit_none {h : HeadId} (hb : ∀ d ∈ (s.head h).present.outbox, s.owed d = true) :
    s.placeFrom (.presentUnit h) = none := by
  have htake := takeOldest_none (fun c => !s.owed c) Completion.isAbandoned (s.head h).present.outbox
    (fun d hd => by simp [hb d hd])
  exact State.placeFrom_of_nextFrom_none (by simp only [State.nextFrom, htake])

end

/-! ## Earlier readings of a slot (R181) -/

theorem mem_allStreams (k : StreamId) : k ∈ allStreams := by fin_cases k <;> decide

theorem mem_allHeads (h : HeadId) : h ∈ allHeads := by fin_cases h <;> decide

theorem Completion.follows_iff (c : Completion) (k : StreamId) (index reading : Nat) :
    c.follows k index reading = true ↔ k = c.stream ∧ index = c.ringIndex ∧ reading < c.reading := by
  simp only [Completion.follows, Bool.and_eq_true, decide_eq_true_iff, and_assoc]

theorem State.mem_unplaced (s : State) (d : Completion) :
    d ∈ s.unplaced
      ↔ (∃ k : StreamId, d ∈ (s.stream k).kept)
        ∨ ∃ h : HeadId, d ∈ (s.head h).link.held ∨ d ∈ (s.head h).present.outbox := by
  simp only [State.unplaced, List.mem_append, List.mem_flatMap, mem_allStreams, mem_allHeads, true_and]

theorem State.mem_rewoundPending (s : State) (ref : RecordRef) :
    ref ∈ s.rewoundPending
      ↔ ∃ h : HeadId, ((s.head h).link.pending = some ref ∨ (s.head h).light.pending = some ref) ∧ ref.rewound = true := by
  simp only [State.rewoundPending, List.mem_filter, List.mem_flatMap, List.mem_append, Option.mem_toList,
    mem_allHeads, true_and]
  exact ⟨fun ⟨⟨h, hp⟩, hr⟩ => ⟨h, hp, hr⟩, fun ⟨h, hp, hr⟩ => ⟨⟨h, hp⟩, hr⟩⟩

theorem State.owed_iff (s : State) (c : Completion) :
    s.owed c = true
      ↔ (∃ j ∈ s.jobs, j.isEnded = true ∧ j.ref.stream = c.stream ∧ j.ref.ringIndex = c.ringIndex
            ∧ j.ref.reading < c.reading)
        ∨ (∃ d : Completion,
            ((∃ k : StreamId, d ∈ (s.stream k).kept)
                ∨ ∃ h : HeadId, d ∈ (s.head h).link.held ∨ d ∈ (s.head h).present.outbox)
              ∧ d.stream = c.stream ∧ d.ringIndex = c.ringIndex ∧ d.reading < c.reading)
        ∨ ∃ (h : HeadId) (ref : RecordRef),
            ((s.head h).link.pending = some ref ∨ (s.head h).light.pending = some ref) ∧ ref.rewound = true
              ∧ ref.stream = c.stream ∧ ref.ringIndex = c.ringIndex ∧ ref.reading < c.reading := by
  simp only [State.owed, Bool.or_eq_true, List.any_eq_true, Bool.and_eq_true, c.follows_iff, s.mem_unplaced,
    s.mem_rewoundPending, or_assoc]
  refine or_congr_right (or_congr_right ⟨?_, ?_⟩)
  · rintro ⟨ref, ⟨h, hp, hr⟩, hc⟩; exact ⟨h, ref, hp, hr, hc⟩
  · rintro ⟨h, ref, hp, hr, hc⟩; exact ⟨ref, ⟨h, hp, hr⟩, hc⟩

/-! ## The next placement (R145) -/

theorem mem_allPlacers (p : Placer) : p ∈ allPlacers := by
  cases p with
  | jobList => decide
  | sequencer k => fin_cases k <;> decide
  | linkController h => fin_cases h <;> decide
  | presentUnit h => fin_cases h <;> decide

theorem State.placeNext_none_iff (s : State) :
    s.placeNext = none ↔ s.active = false ∨ ∀ p : Placer, s.placeFrom p = none := by
  rw [← Option.not_isSome_iff_eq_none, State.placeNext_isSome, Bool.and_eq_true, not_and_or, Bool.not_eq_true,
    List.any_eq_true]
  refine or_congr_right ⟨fun h p => ?_, fun h ⟨p, _, hp⟩ => ?_⟩
  · rw [← Option.not_isSome_iff_eq_none]
    exact fun hp => h ⟨p, mem_allPlacers p, hp⟩
  · rw [h p] at hp; cases hp

/-- Settles O60: an equation for each block's placement, from the list it places from. -/
theorem silenceAndTheEndsOfJobs : Obligations.SilenceAndTheEndsOfJobs := by
  refine ⟨fun ref kind o origin => ⟨fun h => ?_, fun h => ?_⟩, fun s j o hj => ⟨fun hsilent hdone hflags => ?_, fun h => ?_⟩,
    fun s jobs => ?_, fun s others hothers => ⟨?_, ?_, fun k => ⟨?_, ?_⟩, fun h => ⟨?_, ?_, ?_, ?_⟩⟩, State.owed_iff,
    fun s => ⟨s.placeNext_none_iff, fun t h => ?_⟩⟩
  · exact report_of_suppressed ((suppressed_iff _ _).mpr h) kind origin
  · exact report_of_not_suppressed (fun hs => h ((suppressed_iff _ _).mp hs)) kind origin
  · refine ⟨_, rfl, ?_⟩
    rw [State.endJob_suppressed hj ((suppressed_iff _ _).mpr ⟨hsilent, hdone, hflags⟩)]
    refine (evaluateGates_core _ _ _).trans ?_
    simp only [Job.isRunning, ← decide_not]
  · have hplaced : ¬ suppressed j.ref.silent o = true := fun hs => by
      obtain ⟨hsilent, hdone, hflags⟩ := (suppressed_iff _ _).mp hs
      rcases h with h | h | h
      · rw [hsilent] at h; cases h
      · exact h hdone
      · exact h hflags
    rw [State.endJob_placed hj hplaced]
    simp only [endRunningIn, Job.isRunning, decide_eq_true_iff, Engine.free]
  · refine ⟨_, rfl, rfl, evaluateGates_length _ _ _, fun before after j hjobs => ?_, fun h => ?_⟩
    · rw [hjobs]
      refine (evaluateGates_at _ _ before after j).trans ?_
      simp only [List.not_mem_nil, false_or]
    · rw [State.jobsRemoved_head]
      exact ⟨rfl, Present.evaluated_entries _ _ _⟩
  · intro before after j o b c hjobs hb hstate hc
    subst hc
    exact State.placeFrom_next hothers rfl (State.nextFrom_jobList (by rw [hjobs, takeEnded_append hb hstate]))
  · intro h
    exact State.placeFrom_of_nextFrom_none (by simp only [State.nextFrom, takeEnded_none h])
  · intro c rest hk
    exact State.placeFrom_next hothers rfl (State.nextFrom_sequencer hk)
  · intro hk
    exact State.placeFrom_of_nextFrom_none (by simp only [State.nextFrom, hk, takeOldest])
  · intro c rest hk
    exact State.placeFrom_next hothers rfl (State.nextFrom_linkController hk)
  · intro hk
    exact State.placeFrom_of_nextFrom_none (by simp only [State.nextFrom, hk, takeOldest])
  · intro before rest c hk hb
    exact State.placeFrom_presentUnit hk hb
  · exact State.placeFrom_presentUnit_none
  · obtain ⟨_, p, _, _, hp⟩ := s.placeNext_some t h
    exact ⟨p, hp⟩

end Sys2Proof.Machine
end

