-- ==== Sys2Proof/Proofs/ScanStops.lean ====
section
/-! SUPPORT. What a scan stop brings about: gates, WAIT FRAME records and the queue. -/

namespace Sys2Proof.Machine

set_option Elab.async false

/-! ## Gates (R34) -/

theorem Job.awaits_iff (j : Job) (h : HeadId) :
    j.awaits h = true ↔ j.gate.map (fun g => g.head) = some h ∧ j.gateState = .closed ∧ j.target ≠ none := by
  unfold Job.awaits
  cases j.gate with
  | none => simp
  | some g => simp [Option.isSome_iff_ne_none, and_assoc]

theorem bypassGates_eq (h : HeadId) (jobs : List Job) :
    bypassGates h jobs
      = jobs.map (fun j =>
          if j.gate.map (fun g => g.head) = some h ∧ j.gateState = .closed ∧ j.target ≠ none then
            { j with gateState := .opened, bypassed := true }
          else j) := by
  simp only [bypassGates, Job.awaits_iff]

/-! ## The queue of a head that is not scanning (R121) -/

/-- The entries that a latch step may still settle. -/
def unlatchedCount (es : List Entry) : Nat := es.countP Entry.unlatched

/-- Without unlatched entries there is no ready run. -/
theorem readyRun_of_settled {es : List Entry} (h : unlatchedCount es = 0) (kind : LatchKind) (c : Word) :
    readyRun es kind c = [] := by
  have hopen : openPart es = [] := by
    refine List.dropWhile_eq_nil_iff.mpr fun e he => ?_
    simpa using List.countP_eq_zero.mp h e he
  rw [readyRun, hopen, List.takeWhile_nil]

/-- A latch step settles an entry at least. -/
theorem Head.latchStep_unlatched (hd : Head) (h : HeadId) (kind : LatchKind)
    (hr : readyRun hd.present.entries kind hd.scan.frame ≠ []) :
    unlatchedCount (hd.latchStep h kind).present.entries < unlatchedCount hd.present.entries := by
  obtain ⟨skipped, rest, target, copies, flags, hes, _, htarget, _, _, heq⟩ := hd.latchStep_target h kind hr
  have hskipped : (skipped.map (fun e => { e with state := EntryState.skipped })).countP Entry.unlatched = 0 := by
    rw [List.countP_eq_zero]
    simp [Entry.unlatched]
  have hkept : (target.keptLatched flags).countP Entry.unlatched = 0 := by
    rw [List.countP_eq_zero]
    unfold Entry.keptLatched
    split <;> simp [Entry.unlatched]
  rw [heq, unlatchedCount, unlatchedCount]
  conv_rhs => rw [hes]
  simp only [List.countP_append, List.countP_cons, hskipped, hkept, target.unlatched_of_eligible kind _ htarget, if_true]
  omega

/-- The part acts and the head is not scanning. -/
structure State.Evaluates (s : State) (h : HeadId) : Prop where
  active : s.active = true
  still : (s.head h).scanning = false

theorem State.Evaluates.of_same {s t : State} {h : HeadId} (hs : s.Evaluates h) (hr : t.regs = s.regs)
    (hl : (t.head h).link = (s.head h).link) : t.Evaluates h :=
  ⟨by rw [State.active_iff, hr, ← State.active_iff]; exact hs.active, by rw [Head.scanning, hl]; exact hs.still⟩

theorem State.latchNow_of_evaluates {s : State} {h : HeadId} (hs : s.Evaluates h) :
    State.latchNow h s
      = if readyRun (s.head h).present.entries .immediate (s.head h).scan.frame = [] then none
        else some (s.setHead h ((s.head h).latchStep h .immediate)) := by
  simp only [State.latchNow, hs.active, hs.still, Bool.not_false, Bool.true_and]
  cases readyRun (s.head h).present.entries .immediate (s.head h).scan.frame <;> rfl

theorem State.latchAll_jobs (n : Nat) (h : HeadId) (s : State) : (State.latchAll n h s).jobs = s.jobs := by
  induction n generalizing s with
  | zero => rfl
  | succ n ih =>
    unfold State.latchAll
    split
    · rename_i t ht
      simp only [State.latchNow, Option.ite_none_right_eq_some, Option.some.injEq] at ht
      obtain ⟨_, rfl⟩ := ht
      exact ih _
    · rfl

theorem State.latchAll_evaluates {n : Nat} {h : HeadId} {s : State} (hs : s.Evaluates h) :
    (State.latchAll n h s).Evaluates h := by
  induction n generalizing s with
  | zero => exact hs
  | succ n ih =>
    rw [State.latchAll, State.latchNow_of_evaluates hs]
    split
    · rename_i t ht
      simp only [Option.ite_none_left_eq_some, Option.some.injEq] at ht
      obtain ⟨_, rfl⟩ := ht
      obtain ⟨_, _, hlink, _⟩ := (s.head h).latchStep_same h .immediate
      exact ih (hs.of_same rfl (by rw [State.head_setHead_same, hlink]))
    · exact hs

/-- As many latch steps as there are unlatched entries leave no ready run. -/
theorem State.latchAll_settles {n : Nat} {h : HeadId} {s : State} (hs : s.Evaluates h)
    (hn : unlatchedCount (s.head h).present.entries ≤ n) :
    readyRun ((State.latchAll n h s).head h).present.entries .immediate
      ((State.latchAll n h s).head h).scan.frame = [] := by
  induction n generalizing s with
  | zero => exact readyRun_of_settled (Nat.le_zero.mp hn) _ _
  | succ n ih =>
    rw [State.latchAll, State.latchNow_of_evaluates hs]
    split
    · rename_i t ht
      simp only [Option.ite_none_left_eq_some, Option.some.injEq] at ht
      obtain ⟨hr, rfl⟩ := ht
      obtain ⟨_, _, hlink, _⟩ := (s.head h).latchStep_same h .immediate
      refine ih (hs.of_same rfl (by rw [State.head_setHead_same, hlink])) ?_
      have hlt := (s.head h).latchStep_unlatched h .immediate hr
      rw [State.head_setHead_same]
      omega
    · rename_i hnone
      by_contra hr
      rw [if_neg hr] at hnone
      cases hnone

/-! ## WAIT FRAME (R66, R89) -/

/-- No WAIT FRAME of the stream waits on the head. -/
def State.NoFrameWait (s : State) (h : HeadId) (k : StreamId) : Prop :=
  ∀ (c : CurrentRecord) (f : Word), (s.stream k).current = some c → c.phase = .waitCondition →
    waitFields c.slots ≠ some (.frame h f)

theorem State.NoFrameWait.of_stream {s t : State} {h : HeadId} {k : StreamId} (hs : s.NoFrameWait h k)
    (e : t.stream k = s.stream k) : t.NoFrameWait h k := fun c f hc => hs c f (e ▸ hc)

/-- The WAIT of a stream, if its condition holds, completes. -/
def State.waitTried (s : State) (k : StreamId) : State := (State.completeWait k s).getD s

theorem State.waitTried_cases (s : State) (k : StreamId) :
    (State.completeWait k s = none ∧ s.waitTried k = s) ∨ ∃ o : Outcome, s.waitTried k = s.finish k o := by
  unfold State.waitTried
  cases h : State.completeWait k s with
  | none => exact .inl ⟨rfl, rfl⟩
  | some t =>
    obtain ⟨_, o, _, _, _, rfl⟩ := s.completeWait_some t k h
    exact .inr ⟨o, rfl⟩

/-- A WAIT that completes changes its own stream alone. -/
theorem State.waitTried_same (s : State) (k : StreamId) :
    (s.waitTried k).regs = s.regs ∧ (s.waitTried k).heads = s.heads ∧ (s.waitTried k).jobs = s.jobs
      ∧ ∀ i : StreamId, i ≠ k → (s.waitTried k).stream i = s.stream i := by
  rcases s.waitTried_cases k with ⟨_, e⟩ | ⟨o, e⟩ <;> rw [e]
  · exact ⟨rfl, rfl, rfl, fun _ _ => rfl⟩
  · exact ⟨s.finish_regs k o, s.finish_heads k o, s.finish_jobs k o, fun i hi => s.finish_stream_ne k i o hi⟩

/-- A WAIT FRAME on a head that is not scanning completes. -/
theorem State.waitTried_frame {s : State} {h : HeadId} (hs : s.Evaluates h) (k : StreamId) :
    (s.waitTried k).NoFrameWait h k := by
  intro c f hc hp hw
  rcases s.waitTried_cases k with ⟨hnone, e⟩ | ⟨o, e⟩ <;> rw [e] at hc
  · simp [State.completeWait, hs.active, State.waitReached, hc, hp, hw, State.waitOutcome, hs.still] at hnone
  · rw [s.finish_current] at hc
    cases hc

theorem State.waitTried_evaluates {s : State} {h : HeadId} (hs : s.Evaluates h) (k : StreamId) :
    (s.waitTried k).Evaluates h := by
  obtain ⟨hr, hh, _⟩ := s.waitTried_same k
  exact hs.of_same hr (by rw [State.head, hh, State.head])

theorem State.waitTried_keeps {s : State} {h : HeadId} (hs : s.Evaluates h) (k : StreamId) {i : StreamId}
    (hi : s.NoFrameWait h i) : (s.waitTried k).NoFrameWait h i := by
  by_cases hik : i = k
  · subst hik; exact State.waitTried_frame hs i
  · obtain ⟨_, _, _, hother⟩ := s.waitTried_same k
    exact hi.of_stream (hother i hik)

/-- The WAITs of a list of streams tried in turn. -/
theorem State.waitsTried_frame {h : HeadId} (ks : List StreamId) {s : State} (hs : s.Evaluates h) {i : StreamId}
    (hi : i ∈ ks ∨ s.NoFrameWait h i) : (ks.foldl State.waitTried s).NoFrameWait h i := by
  induction ks generalizing s with
  | nil => exact hi.resolve_left List.not_mem_nil
  | cons k rest ih =>
    refine ih (State.waitTried_evaluates hs k) ?_
    rcases hi with hi | hi
    · rcases List.mem_cons.mp hi with rfl | hi
      · exact .inr (State.waitTried_frame hs i)
      · exact .inl hi
    · exact .inr (State.waitTried_keeps hs k hi)

theorem State.waitsTried_same (ks : List StreamId) (s : State) :
    (ks.foldl State.waitTried s).heads = s.heads ∧ (ks.foldl State.waitTried s).jobs = s.jobs := by
  induction ks generalizing s with
  | nil => exact ⟨rfl, rfl⟩
  | cons k rest ih =>
    obtain ⟨hheads, hjobs⟩ := ih (s.waitTried k)
    obtain ⟨_, hh, hj, _⟩ := s.waitTried_same k
    exact ⟨hheads.trans hh, hjobs.trans hj⟩

theorem State.completeWaits_eq (s : State) : s.completeWaits = allStreams.foldl State.waitTried s := rfl

/-- Settles O58: the latch steps empty the ready run, and each WAIT is tried after them. -/
theorem scanStopsAreTold : Obligations.ScanStopsAreTold := by
  intro h s ha hscan
  set opened : State := { s with jobs := bypassGates h s.jobs } with hopened
  set latched := State.latchAll (s.head h).present.entries.length h opened with hlatched
  have hevaluates : opened.Evaluates h := ⟨ha, hscan⟩
  obtain ⟨hheads, hjobs⟩ := State.waitsTried_same allStreams latched
  have hstopped : s.scanStopped h = allStreams.foldl State.waitTried latched := by
    rw [State.scanStopped, State.completeWaits_eq]
  rw [hstopped]
  refine ⟨?_, fun k => ?_, ?_⟩
  · rw [hjobs, hlatched, State.latchAll_jobs, ← bypassGates_eq]
  · exact State.waitsTried_frame allStreams (State.latchAll_evaluates hevaluates) (.inl (mem_allStreams k))
  · rw [State.head, hheads]
    exact State.latchAll_settles hevaluates (List.countP_le_length)

end Sys2Proof.Machine
end

