-- ==== Sys2Proof/Proofs/LineStarts.lean ====
section
/-! SUPPORT. A line start: the Scan Unit at the next line, the gates that open, and the blanking start. -/

namespace Sys2Proof.Machine

set_option Elab.async false

/-! ## The Scan Unit (R84) -/

/-- A Scan Unit whose line has ended, at its next line start. -/
theorem Scan.endLine_advanced (sc : Scan) (m : Panel) (t : Timing) :
    (sc.endLine m).advanced t
      = ({ sc with
          frame := if sc.nextLine t = t.vAct then sc.frame + 1 else sc.frame
          shown := sc.wholeLine m } : Scan).beginLine (sc.nextLine t) := by
  have hnext : (sc.endLine m).nextLine t = sc.nextLine t := rfl
  rw [Scan.advanced, hnext]
  split <;> rfl

theorem Scan.advanced_line (sc : Scan) (t : Timing) : (sc.advanced t).line = sc.nextLine t := by
  unfold Scan.advanced
  split <;> rfl

/-! ## Gates that open (R34) -/

theorem openGates_at (h : HeadId) (sc : Scan) (jobs : List Job) (n : Nat) (j : Job) (hj : jobs[n]? = some j) :
    (openGates h sc jobs)[n]?
      = some (if (j.awaits h && j.targetReached sc) = true then { j with gateState := .opened } else j) := by
  simp only [openGates, List.getElem?_map, hj, Option.map_some]

/-- A gate opens where it awaits a target that the scan position has reached. -/
theorem Job.opens_iff (j : Job) (h : HeadId) (sc : Scan) :
    (j.awaits h && j.targetReached sc) = true
      ↔ ∃ (g : Gate) (f : Word) (l : Nat), j.gate = some g ∧ g.head = h ∧ j.gateState = .closed
          ∧ j.target = some (f, l) ∧ (f.toNat < sc.frame.toNat ∨ f = sc.frame ∧ l ≤ sc.line) := by
  rw [Bool.and_eq_true, j.awaits_iff, Option.map_eq_some_iff]
  constructor
  · rintro ⟨⟨⟨g, hg, hh⟩, hclosed, htarget⟩, hreached⟩
    obtain ⟨⟨f, l⟩, ht⟩ := Option.ne_none_iff_exists'.mp htarget
    rw [Job.targetReached, ht] at hreached
    exact ⟨g, f, l, hg, hh, hclosed, ht, (sc.reached_iff f l).mp hreached⟩
  · rintro ⟨g, f, l, hg, hh, hclosed, ht, hreached⟩
    refine ⟨⟨⟨g, hg, hh⟩, hclosed, by simp [ht]⟩, ?_⟩
    rw [Job.targetReached, ht]
    exact (sc.reached_iff f l).mpr hreached

/-! ## The blanking start (R85, R86) -/

/-- The reactions made before the latch step, where a gate has opened. -/
theorem State.gatesFirst_opened (s : State) :
    ∃ n : Nat, n ≤ s.workLeft
      ∧ (s.workLeft = 0 ∧ s.gatesFirst true = s
        ∨ 0 < s.workLeft ∧ s.gatesFirst true = ({ s with choices := s.choices + 1 } : State).settleFor n) := by
  obtain ⟨n, hn, h⟩ := s.gatesFirst_true
  refine ⟨n, hn, ?_⟩
  rcases Nat.eq_zero_or_pos s.workLeft with hw | hw
  · have hzero : n = 0 := Nat.le_zero.mp (hw ▸ hn)
    rw [State.pick, if_pos (by omega), hzero] at h
    exact .inl ⟨hw, h⟩
  · rw [State.pick, if_neg (by omega)] at h
    exact .inr ⟨hw, h⟩

/-- The reactions made first bring the part neither into FAULT nor out of it. -/
theorem State.gatesFirst_fault (s : State) (opened : Bool) :
    (s.gatesFirst opened).regs.device = .fault ↔ s.regs.device = .fault := by
  have hsettled : ∀ (u : State) (n : Nat), (u.settleFor n).regs.device = .fault ↔ u.regs.device = .fault := fun u n => by
    rcases u.settleFor_device n with e | ⟨e, e'⟩
    · rw [e]
    · simp [e, e']
  cases opened with
  | false => exact Iff.rfl
  | true =>
    obtain ⟨n, _, ⟨_, e⟩ | ⟨_, e⟩⟩ := s.gatesFirst_opened <;> rw [e]
    exact hsettled _ n

theorem Cause.mask_frame (h : HeadId) : (Cause.frame h).mask = 0x004#9 <<< h.val := by
  fin_cases h <;> decide

theorem State.blanked_eq (s : State) (h : HeadId) (frameCause : Bool) :
    s.blanked h frameCause
      = { s.setHead h
            (if s.regs.device = Device.fault then s.head h else ((s.head h).latchStep h .blanking).ramp) with
          regs := { s.regs with
            cause := if frameCause = true then s.regs.cause ||| (0x004#9 <<< h.val) else s.regs.cause } } := by
  have htold : (s.head h).blankingStart h (decide (s.regs.device = Device.fault))
      = if s.regs.device = Device.fault then s.head h else ((s.head h).latchStep h .blanking).ramp := by
    simp only [Head.blankingStart, decide_eq_true_iff]
  unfold State.blanked
  rw [htold]
  cases frameCause with
  | false => rfl
  | true =>
    simp only [State.raise, setCause, Cause.mask_frame, if_true]
    rfl

/-- A line start of a head whose raster is loaded. -/
theorem State.lineStarted_scanning {s : State} {h : HeadId} {t : Timing} (hs : (s.head h).scanning = true)
    (ht : (s.head h).scan.timing = some t) {sc : Scan} (hsc : sc = ((s.head h).scan.endLine s.panel).advanced t)
    {moved : State} (hm : moved = { s.setHead h { s.head h with scan := sc } with jobs := openGates h sc s.jobs }) :
    s.lineStarted h
      = if (s.head h).scan.nextLine t = t.vAct then
          ((moved.gatesFirst (decide (openGates h sc s.jobs ≠ s.jobs))).blanked h t.frameCause).settle
        else moved.settle := by
  have hline : sc.line = (s.head h).scan.nextLine t := by rw [hsc, Scan.advanced_line]; rfl
  rw [← hline, hm, hsc]
  simp only [State.lineStarted, ht, hs, if_true]

/-- Settles O53: the next line by its number; at line V_ACT the reactions that come first, then the blanking start. -/
theorem lineStartsMoveTheScan : Obligations.LineStartsMoveTheScan := by
  refine ⟨fun h s t hs ht => ?_, fun h sc jobs => ⟨openGates_length h sc jobs, fun n j hj => ?_⟩⟩
  · have hstarted := State.lineStarted_scanning hs ht rfl rfl
    set sc := ((s.head h).scan.endLine s.panel).advanced t with hsc
    set moved : State := { s.setHead h { s.head h with scan := sc } with jobs := openGates h sc s.jobs } with hmoved
    refine ⟨(s.head h).scan.nextLine t, sc, moved, rfl, Scan.endLine_advanced _ _ _, rfl, fun hline => ?_, fun hline => ?_⟩
    · rw [if_neg hline] at hstarted
      exact congrArg Host.Outcome.next hstarted
    · rw [if_pos hline] at hstarted
      refine ⟨moved.gatesFirst (decide (openGates h sc s.jobs ≠ s.jobs)), _, fun hsame => ?_, fun hopened => ?_, rfl, ?_⟩
      · rw [decide_eq_false (not_not_intro hsame), State.gatesFirst_false]
      · rw [decide_eq_true hopened]
        exact moved.gatesFirst_opened
      · refine (congrArg Host.Outcome.next hstarted).trans ?_
        have hfault := moved.gatesFirst_fault (decide (openGates h sc s.jobs ≠ s.jobs))
        have hdevice : moved.regs.device = s.regs.device := rfl
        rw [State.blanked_eq]
        simp only [hfault, hdevice]
  · exact ⟨_, j.opens_iff h sc, openGates_at h sc jobs n j hj⟩

end Sys2Proof.Machine
end

