-- ==== Sys2Proof/Proofs/HaltedStreams.lean ====
section
/-! SUPPORT. A stream without a current record and with ENDED jobs alone stands still while the part settles: no act brings
it a waiter, a palette read or an unlatched entry, or changes its contexts, halt point, ring and batch counter. -/

namespace Sys2Proof.Machine

set_option Elab.async false

/-! ## A stream that stands still -/

/-- The head is not engaged with stream `k`, and has unlatched entries of it of the batches `P` alone. -/
structure Head.IdleFor (hd : Head) (k : StreamId) (P : Word → Prop) : Prop where
  unengaged : hd.Unengaged k
  entries : ∀ e ∈ hd.present.entries, e.ref.stream = k → e.unlatched = true → P e.batch

/-- Stream `k` stands as `st` but for its completions, with these contexts, and nothing of it is under way. -/
structure State.StillOf (s : State) (k : StreamId) (st : Stream) (ctx : ContextId → Context) (P : Word → Prop) : Prop where
  idle : st.current = none
  stream : s.stream k = { st with kept := (s.stream k).kept }
  contexts : ∀ c : ContextId, s.context k c = ctx c
  heads : ∀ h : HeadId, (s.head h).IdleFor k P
  jobs : allEnded k s.jobs

/-- The head has no unlatched entry that it had not before. -/
def Head.NoNewEntries (a b : Head) : Prop :=
  ∀ e ∈ b.present.entries, e.unlatched = true →
    ∃ d ∈ a.present.entries, d.unlatched = true ∧ d.ref = e.ref ∧ d.batch = e.batch

theorem Head.NoNewEntries.of_subset {a b : Head} (h : b.present.entries ⊆ a.present.entries) : a.NoNewEntries b :=
  fun e he hu => ⟨e, h he, hu, rfl, rfl⟩

theorem Head.NoNewEntries.trans {a b c : Head} (h : a.NoNewEntries b) (g : b.NoNewEntries c) : a.NoNewEntries c := by
  intro e he hu
  obtain ⟨d, hd, hdu, hdr, hdb⟩ := g e he hu
  obtain ⟨f, hf, hfu, hfr, hfb⟩ := h d hd hdu
  exact ⟨f, hf, hfu, hfr.trans hdr, hfb.trans hdb⟩

/-- An eased head without new entries stays idle. -/
theorem Head.IdleFor.of_eases {a b : Head} {k : StreamId} {P : Word → Prop} (h : a.IdleFor k P) (he : a.Eases b)
    (hn : a.NoNewEntries b) : b.IdleFor k P := by
  refine ⟨h.unengaged.of_eases he, fun e hmem hk hu => ?_⟩
  obtain ⟨d, hd, hdu, hdr, hdb⟩ := hn e hmem hu
  rw [← hdb]
  exact h.entries d hd (by rw [hdr]; exact hk) hdu

/-! ## Entries, operation by operation -/

theorem Head.evaluated_noNewEntries (hd : Head) (jobs : List Job) (streams : Four Stream) :
    hd.NoNewEntries { hd with present := hd.present.evaluated jobs streams } := by
  intro e he hu
  obtain ⟨d, hmem, rfl⟩ := List.mem_map.mp he
  refine ⟨d, hmem, ?_⟩
  unfold Entry.evaluated at hu ⊢
  split at hu
  · rename_i hw
    exact ⟨by simp [Entry.unlatched, hw.1], by rw [if_pos hw], by rw [if_pos hw]⟩
  · rename_i hw
    exact ⟨hu, by rw [if_neg hw], by rw [if_neg hw]⟩

theorem Head.latchStep_noNewEntries (hd : Head) (h : HeadId) (kind : LatchKind)
    (hr : readyRun hd.present.entries kind hd.scan.frame ≠ []) : hd.NoNewEntries (hd.latchStep h kind) := by
  obtain ⟨skipped, rest, target, copies, flags, hes, _, _, _, _, heq⟩ := hd.latchStep_target h kind hr
  intro e he hu
  rw [heq] at he
  simp only [List.mem_append, List.mem_map] at he
  rcases he with ((he | ⟨d, _, rfl⟩) | he) | he
  · exact ⟨e, by rw [hes]; exact List.mem_append_left _ he, hu, rfl, rfl⟩
  · cases hu
  · unfold Entry.keptLatched at he
    split at he
    · cases he
    · obtain rfl := List.mem_singleton.mp he
      cases hu
  · exact ⟨e, by rw [hes]; exact List.mem_append_right _ (List.mem_append_right _ (List.mem_cons_of_mem _ he)), hu, rfl, rfl⟩

theorem Head.rewindBy_noNewEntries (hd : Head) (k : StreamId) (point : Nat) (ring : Option Ring) :
    hd.NoNewEntries (hd.rewindBy k point ring) := by
  obtain ⟨_, _, hpresent, _⟩ := hd.rewindBy_same k point ring
  exact .of_subset (by rw [hpresent]; exact List.Subset.refl _)

theorem Head.withdrawn_noNewEntries (hd : Head) (k : StreamId) : hd.NoNewEntries (hd.withdrawn k) := by
  obtain ⟨hpresent, _⟩ := hd.withdrawn_same k
  exact .of_subset (by rw [hpresent]; exact List.Subset.refl _)

/-- What an abandonment leaves: the queue without the entries it takes, the rest of the head but for staging. -/
theorem Head.abandonAndReload_same (hd : Head) (h : HeadId) (k : StreamId) (counter : Word) (first : Option Word) :
    (hd.abandonAndReload h k counter first).present = (hd.abandon h k counter first).present
      ∧ (hd.abandonAndReload h k counter first).link = hd.link
      ∧ (hd.abandonAndReload h k counter first).light = hd.light := by
  unfold Head.abandonAndReload
  dsimp only
  split
  · exact ⟨rfl, rfl, rfl⟩
  · exact ⟨Head.reload_present _ _, Head.reload_link _ _, Head.reload_light _ _⟩

theorem Head.abandonAndReload_noNewEntries (hd : Head) (h : HeadId) (k : StreamId) (counter : Word) (first : Option Word) :
    hd.NoNewEntries (hd.abandonAndReload h k counter first) := by
  refine .of_subset ?_
  rw [(hd.abandonAndReload_same h k counter first).1]
  exact List.filter_subset_self _

/-! ## The parts of a state -/

section
variable {s : State} {k : StreamId} {st : Stream} {ctx : ContextId → Context} {P : Word → Prop}
  (h : s.StillOf k st ctx P)
include h

theorem State.StillOf.running_ne {j : Job} (hj : s.runningJob = some j) : j.ref.stream ≠ k := by
  intro hk
  have hended := h.jobs j (s.runningJob_mem j hj) hk
  simp [Job.isEnded, s.runningJob_state j hj] at hended

theorem State.StillOf.current_ne {i : StreamId} {c : CurrentRecord} (hc : (s.stream i).current = some c) : i ≠ k := by
  rintro rfl
  rw [h.stream] at hc
  rw [h.idle] at hc
  cases hc

/-- What changes no context and no stream keeps it still where it keeps the heads and the jobs so. -/
theorem State.StillOf.of_parts {t : State} (hs : t.streams = s.streams) (hc : t.contexts = s.contexts)
    (hh : ∀ i : HeadId, (s.head i).IdleFor k P → (t.head i).IdleFor k P) (hj : allEnded k s.jobs → allEnded k t.jobs) :
    t.StillOf k st ctx P := by
  refine ⟨h.idle, ?_, fun c => by rw [State.context, hc]; exact h.contexts c, fun i => hh i (h.heads i), hj h.jobs⟩
  have hstream : t.stream k = s.stream k := by rw [State.stream, hs, State.stream]
  rw [hstream]
  exact h.stream

/-- A change of engine, writer, registers, Fetch Unit and choices alone. -/
theorem State.StillOf.of_same {t : State} (hs : t.streams = s.streams) (hc : t.contexts = s.contexts)
    (hh : t.heads = s.heads) (hj : t.jobs = s.jobs) : t.StillOf k st ctx P :=
  h.of_parts hs hc (fun i hd => by rw [State.head, hh]; exact hd) (fun hd => hj ▸ hd)

theorem State.StillOf.setStream_ne {i : StreamId} (hi : i ≠ k) (x : Stream) : (s.setStream i x).StillOf k st ctx P := by
  refine ⟨h.idle, ?_, h.contexts, h.heads, h.jobs⟩
  rw [State.stream_setStream, if_neg (Ne.symm hi)]
  exact h.stream

theorem State.StillOf.setKept (i : StreamId) (kept : List Completion) :
    (s.setStream i { s.stream i with kept := kept }).StillOf k st ctx P := by
  by_cases hi : i = k
  · subst hi
    refine ⟨h.idle, ?_, h.contexts, h.heads, h.jobs⟩
    rw [State.stream_setStream_same, h.stream]
  · exact h.setStream_ne hi _

theorem State.StillOf.setHead {i : HeadId} {x : Head} (hx : (s.head i).IdleFor k P → x.IdleFor k P) :
    (s.setHead i x).StillOf k st ctx P :=
  h.of_parts rfl rfl (fun j hd => by
    rw [State.head_setHead]
    split
    · rename_i e; subst e; exact hx hd
    · exact hd) id

theorem State.StillOf.setContext_ne {i : StreamId} (hi : i ≠ k) (c : ContextId) (x : Context) :
    (s.setContext i c x).StillOf k st ctx P := by
  refine ⟨h.idle, h.stream, fun d => ?_, h.heads, h.jobs⟩
  rw [State.context_setContext, if_neg (fun e => hi e.1.symm)]
  exact h.contexts d

/-! ## Moves -/

theorem State.StillOf.jobsRemoved {jobs : List Job} (hj : allEnded k s.jobs → allEnded k jobs) :
    (s.jobsRemoved jobs).StillOf k st ctx P := by
  refine h.of_parts rfl rfl (fun i hd => ?_) fun hs => (hj hs).evaluateGates _ _
  rw [State.jobsRemoved_head]
  exact hd.of_eases (Head.evaluated_eases _ _ _) (Head.evaluated_noNewEntries _ _ _)

theorem State.StillOf.endJob (o : Outcome) : (s.endJob o).StillOf k st ctx P := by
  unfold State.endJob
  split
  · exact h
  · split
    · have hfree : State.StillOf { s with engine := .free } k st ctx P := h.of_same rfl rfl rfl rfl
      exact hfree.jobsRemoved fun hs => hs.subset (List.filter_subset_self _)
    · exact h.of_parts rfl rfl (fun _ hd => hd) fun hs => hs.endRunningIn o

theorem State.StillOf.haltByJob {i : StreamId} (hi : i ≠ k) (point : Nat) : (s.haltByJob i point).StillOf k st ctx P := by
  refine (h.setStream_ne hi _).of_parts (t := s.haltByJob i point) rfl rfl (fun j hd => ?_) id
  have hhead : (s.haltByJob i point).head j = ((s.head j).withdrawn i).rewindBy i point (s.stream i).ring :=
    Two.get_map _ _ _
  rw [hhead]
  exact hd.of_eases ((Head.withdrawn_eases _ i).trans (Head.rewindBy_eases _ i _ _))
    ((Head.withdrawn_noNewEntries _ i).trans (Head.rewindBy_noNewEntries _ i _ _))

theorem State.StillOf.abandonFrom (i : StreamId) (first : Option Word) : (s.abandonFrom i first).StillOf k st ctx P := by
  refine h.of_parts rfl rfl (fun j hd => ?_) id
  match j with
  | 0 => exact hd.of_eases (Head.abandonAndReload_eases _ _ _ _ _) (Head.abandonAndReload_noNewEntries _ _ _ _ _)
  | 1 => exact hd.of_eases (Head.abandonAndReload_eases _ _ _ _ _) (Head.abandonAndReload_noNewEntries _ _ _ _ _)

theorem State.StillOf.failJob (status : Status) (written : Nat) : (s.failJob status written).StillOf k st ctx P := by
  unfold State.failJob
  split
  · exact h
  · rename_i j hj
    dsimp only
    apply State.StillOf.abandonFrom
    split
    · exact h.of_parts rfl rfl (fun _ hd => hd) fun hs => (hs.endRunningIn _).cancelQueued _
    · refine State.StillOf.haltByJob ?_ (h.running_ne hj) _
      exact h.of_parts rfl rfl (fun _ hd => hd) fun hs => (hs.endRunningIn _).cancelQueued _

theorem Follows.stillOf {t : State} (m : Follows s t) : t.StillOf k st ctx P := by
  cases m with
  | choose => exact h.of_same rfl rfl rfl rfl
  | phase p => exact h.of_same rfl rfl rfl rfl
  | pixelDone wrote =>
    unfold State.pixelDone
    split
    · exact h
    · rename_i j hj
      exact (h.setContext_ne (h.running_ne hj) _ _).of_same rfl rfl rfl rfl
  | endJob o => exact h.endJob o
  | failJob status written => exact h.failJob status written
  | window j c w hj _ => exact h.setContext_ne (h.running_ne hj) _ _
  | placed j m hj => exact h.setContext_ne (h.running_ne hj) _ _

theorem State.StillOf.finish {i : StreamId} (hi : i ≠ k) (o : Outcome) : (s.finish i o).StillOf k st ctx P := by
  unfold State.finish
  split
  · exact h.setStream_ne hi _
  · exact h

/-- A PRESENT of another stream brings an entry of that stream. -/
theorem State.StillOf.dispatchPresent {t : State} {i : StreamId} (ht : s.dispatchPresent i = some t) :
    t.StillOf k st ctx P := by
  obtain ⟨c, q, u, e, hc, _, _, rfl, he, rfl⟩ := s.dispatchPresent_some t i ht
  have hi := h.current_ne hc
  have hstream : e.ref.stream = i := by
    rw [he]
    unfold Entry.evaluated
    split <;> rfl
  refine (h.setStream_ne hi _).setHead fun hd => ⟨⟨hd.unengaged.waiters, hd.unengaged.reading⟩, fun d hmem hk => ?_⟩
  rcases List.mem_append.mp hmem with hmem | hmem
  · exact hd.entries d hmem hk
  · obtain rfl := List.mem_singleton.mp hmem
    exact absurd (hstream.symm.trans hk) hi

/-- A PALETTE of another stream begins a read of that stream. -/
theorem State.StillOf.dispatchPalette {t : State} {i : StreamId} (ht : s.dispatchPalette i = some t) :
    t.StillOf k st ctx P := by
  obtain ⟨c, q, read, hc, _, _, href, rfl⟩ := s.dispatchPalette_some t i ht
  have hi := h.current_ne hc
  refine State.StillOf.setStream_ne ?_ hi _
  refine h.setHead fun hd => ⟨⟨hd.unengaged.waiters, fun p hp => ?_⟩, hd.entries⟩
  obtain rfl := Option.some.inj hp
  rw [href]
  exact hi

/-- A job record of another stream brings a job of that stream. -/
theorem State.StillOf.dispatchJob {t : State} {i : StreamId} (ht : s.dispatchJob i = some t) : t.StillOf k st ctx P := by
  obtain ⟨c, kind, work, gate, hc, _, _, _, rfl⟩ := s.dispatchJob_some t i ht
  have hi := h.current_ne hc
  refine (h.setStream_ne hi { s.stream i with current := none }).of_parts rfl rfl (fun _ hd => hd) fun hs => ?_
  refine allEnded.evaluateGates (fun j hj hk => ?_) _ _
  rcases List.mem_append.mp hj with hj | hj
  · exact hs j hj hk
  · obtain rfl := List.mem_singleton.mp hj
    exact absurd hk hi

theorem State.StillOf.placeFrom {t : State} {p : Placer} (ht : s.placeFrom p = some t) : t.StillOf k st ctx P := by
  rcases s.placeFrom_cases t p ht with ⟨c, jobs, hj, rfl⟩ | ⟨i, c, before, after, _, rfl⟩ | ⟨i, c, before, after, _, rfl⟩
    | ⟨i, c, before, after, _, rfl⟩
  · have hplaced : (s.place [c]).StillOf k st ctx P := h.of_same rfl rfl rfl rfl
    obtain ⟨before, after, j, _, _, hs, _, rfl, _⟩ := takeEnded_split s.jobs jobs c hj
    refine hplaced.jobsRemoved fun hended => hended.subset ?_
    change before ++ after ⊆ s.jobs
    rw [hs]
    exact ((List.Sublist.refl before).append (List.sublist_cons_self j after)).subset
  · exact (h.setKept i _).of_same rfl rfl rfl rfl
  · refine State.StillOf.of_same (h.setHead (i := i) fun hd => ?_) rfl rfl rfl rfl
    exact ⟨⟨hd.unengaged.waiters, hd.unengaged.reading⟩, hd.entries⟩
  · refine State.StillOf.of_same (h.setHead (i := i) fun hd => ?_) rfl rfl rfl rfl
    exact ⟨⟨hd.unengaged.waiters, hd.unengaged.reading⟩, hd.entries⟩

theorem Starts.stillOf {t : State} (m : Starts s t) : t.StillOf k st ctx P := by
  cases m with
  | stop _ _ => exact h.of_same rfl rfl rfl rfl
  | latch i _ _ hr =>
    exact h.setHead fun hd => hd.of_eases (Head.latchStep_eases _ _ _) (Head.latchStep_noNewEntries _ _ _ hr)
  | answer n a _ => exact h.of_same rfl rfl rfl rfl
  | wait i c o hc _ _ => exact h.finish (h.current_ne hc) o
  | present _ i _ ht => exact h.dispatchPresent ht
  | palette _ i _ ht => exact h.dispatchPalette ht
  | job _ i _ ht => exact h.dispatchJob ht
  | engine jobs _ hj => exact h.of_parts rfl rfl (fun _ hd => hd) fun hs => hs.runOldestEligible _ hj
  | place _ p ht => exact h.placeFrom ht
  | grant _ ht =>
    obtain ⟨_, _, _, _, rfl⟩ := s.grant_some t ht
    exact h.of_same rfl rfl rfl rfl
  | write _ ht =>
    obtain ⟨_, _, rfl⟩ := s.issueWrite_some t ht
    exact h.of_same rfl rfl rfl rfl

theorem State.StillOf.settle : s.settle.StillOf k st ctx P :=
  State.settle_keeps_of_moves (fun u => u.StillOf k st ctx P) (fun _ _ m hu => Follows.stillOf hu m)
    (fun _ _ m hu => Starts.stillOf hu m) s h

end

end Sys2Proof.Machine
end

