-- ==== Sys2Proof/Proofs/JobErrors.lean ====
section
/-! SUPPORT. A job that ends with an error: the equations of the end, and what it leaves once the part has settled. -/

namespace Sys2Proof.Machine

set_option Elab.async false

/-! ## The end in two parts (R39, R40) -/

/-- The jobs after the RUNNING job `j` has ended with an error. -/
def State.failedJobs (s : State) (j : Job) (status : Status) (written : Nat) : List Job :=
  s.jobs.map (fun q =>
    if q.state = .running then
      { q with
        state := .ended
          { status := if (s.stream j.ref.stream).halt = none then status else .cancelled
            valueA := BitVec.ofNat 32 written, flags := { gateBypassed := j.bypassed } } true }
    else if q.state = .queued ∧ q.ref.stream = j.ref.stream then
      { q with state := .ended { status := .cancelled, flags := { gateBypassed := q.bypassed } } false }
    else q)

/-- The part with the engine free and the jobs ended, before the Sequencer and the queues learn of the error. -/
def State.jobFailed (s : State) (j : Job) (status : Status) (written : Nat) : State :=
  { s with engine := .free, jobs := s.failedJobs j status written }

/-- The list as the engine and the cancelling of QUEUED jobs make it. -/
theorem failedJobs_eq (s : State) (j : Job) (status : Status) (written : Nat) :
    cancelQueued (endRunningIn s.jobs
        { status := if (s.stream j.ref.stream).halt.isSome then .cancelled else status
          valueA := BitVec.ofNat 32 written, flags := .bypass j.bypassed }) j.ref.stream
      = s.failedJobs j status written := by
  have hstatus : (if (s.stream j.ref.stream).halt.isSome then Status.cancelled else status)
      = if (s.stream j.ref.stream).halt = none then status else .cancelled := by
    cases (s.stream j.ref.stream).halt <;> rfl
  simp only [cancelQueued, endRunningIn, State.failedJobs, List.map_map, hstatus]
  refine List.map_congr_left fun q _ => ?_
  simp only [Function.comp_apply, Job.isRunning, Job.isQueued, decide_eq_true_iff, Bool.and_eq_true]
  by_cases hr : q.state = .running
  · simp [hr, Flags.bypass]
  · simp only [hr, if_false]
    rfl

section
variable {s : State} {j : Job} (hj : s.runningJob = some j) (status : Status) (written : Nat)
include hj

/-- In a HALTED stream the halt stands. -/
theorem State.failJob_halted (hh : (s.stream j.ref.stream).halt ≠ none) :
    s.failJob status written = (s.jobFailed j status written).abandonFrom j.ref.stream (some j.batch) := by
  have hsome : (s.stream j.ref.stream).halt.isSome = true := Option.isSome_iff_ne_none.mpr hh
  rw [State.jobFailed, ← failedJobs_eq]
  simp only [State.failJob, hj, hsome, if_true]

/-- In any other the stream halts after the job's record. -/
theorem State.failJob_halts (hh : (s.stream j.ref.stream).halt = none) :
    s.failJob status written
      = ((s.jobFailed j status written).haltByJob j.ref.stream (j.ref.ringIndex + j.slots)).abandonFrom j.ref.stream
          (some j.batch) := by
  rw [State.jobFailed, ← failedJobs_eq]
  simp only [State.failJob, hj, hh, Option.isSome_none, Bool.false_eq_true, if_false]

end

theorem State.abandonFrom_head (s : State) (k : StreamId) (first : Option Word) (h : HeadId) :
    (s.abandonFrom k first).head h = (s.head h).abandonAndReload h k (s.stream k).batch first := by
  match h with
  | 0 => rfl
  | 1 => rfl

theorem State.haltByJob_head (s : State) (k : StreamId) (point : Nat) (h : HeadId) :
    (s.haltByJob k point).head h = ((s.head h).withdrawn k).rewindBy k point (s.stream k).ring := Two.get_map _ _ _

theorem State.haltByJob_stream (s : State) (k : StreamId) (point : Nat) :
    (s.haltByJob k point).stream k = { s.stream k with current := none }.haltAt ((s.stream k).wrap point) :=
  s.stream_setStream_same k _

theorem State.haltByJob_batch (s : State) (k : StreamId) (point : Nat) :
    ((s.haltByJob k point).stream k).batch = (s.stream k).batch := by
  rw [s.haltByJob_stream]
  rfl

/-! ## Heads -/

/-- A head as a job error of stream `k` leaves it, before the abandonment: the same where the stream is already HALTED. -/
def State.stoppedHead (s : State) (j : Job) (h : HeadId) : Head :=
  if (s.stream j.ref.stream).halt = none then
    ((s.head h).withdrawn j.ref.stream).rewindBy j.ref.stream (j.ref.ringIndex + j.slots) (s.stream j.ref.stream).ring
  else s.head h

theorem State.failJob_head {s : State} {j : Job} (hj : s.runningJob = some j) (status : Status) (written : Nat)
    (h : HeadId) :
    (s.failJob status written).head h
      = (s.stoppedHead j h).abandonAndReload h j.ref.stream (s.stream j.ref.stream).batch (some j.batch) := by
  by_cases hh : (s.stream j.ref.stream).halt = none
  · rw [State.failJob_halts hj status written hh, State.abandonFrom_head, State.haltByJob_batch, State.haltByJob_head,
      State.stoppedHead, if_pos hh]
    rfl
  · rw [State.failJob_halted hj status written hh, State.abandonFrom_head, State.stoppedHead, if_neg hh]
    rfl

theorem State.stoppedHead_present (s : State) (j : Job) (h : HeadId) :
    (s.stoppedHead j h).present = (s.head h).present := by
  unfold State.stoppedHead
  split
  · obtain ⟨_, _, hpresent, _⟩ := ((s.head h).withdrawn j.ref.stream).rewindBy_same j.ref.stream
      (j.ref.ringIndex + j.slots) (s.stream j.ref.stream).ring
    obtain ⟨hsame, _⟩ := (s.head h).withdrawn_same j.ref.stream
    rw [hpresent, hsame]
  · rfl

/-- The queue of a head after the job error: its condemned entries have left, with a completion each in queue order. -/
theorem State.failJob_present {s : State} {j : Job} (hj : s.runningJob = some j) (status : Status) (written : Nat)
    (h : HeadId) :
    ((s.failJob status written).head h).present.entries
        = (s.head h).present.entries.filter
            (fun e => !e.condemned j.ref.stream (s.stream j.ref.stream).batch (some j.batch))
      ∧ ((s.failJob status written).head h).present.outbox
        = (s.head h).present.outbox
            ++ ((s.head h).present.entries.filter
                (fun e => e.condemned j.ref.stream (s.stream j.ref.stream).batch (some j.batch))).map
              (fun e => e.abandoned h) := by
  obtain ⟨hpresent, _⟩ := (s.stoppedHead j h).abandonAndReload_same h j.ref.stream (s.stream j.ref.stream).batch
    (some j.batch)
  rw [State.failJob_head hj, hpresent]
  simp only [Head.abandon, Head.condemned, flatMap_reportAs_abandoned, s.stoppedHead_present, and_self]

theorem Entry.condemned_iff (e : Entry) (k : StreamId) (counter first : Word) :
    e.condemned k counter (some first) = true
      ↔ e.unlatched = true ∧ e.ref.stream = k ∧ (counter - e.batch).toNat ≤ (counter - first).toNat := by
  simp only [Entry.condemned, notAfter, Bool.and_eq_true, decide_eq_true_iff, and_assoc]

/-! ## Pending LINK and LIGHT records (R61) -/

/-- The slot of `ref` is read again after the error of job `j`. -/
def State.readsAgain (s : State) (j : Job) (ref : RecordRef) : Prop :=
  ref.stream = j.ref.stream ∧ (s.stream j.ref.stream).halt = none
    ∧ ∃ r : Ring, (s.stream j.ref.stream).ring = some r
      ∧ (ref.ringIndex + r.size - (j.ref.ringIndex + j.slots) % r.size) % r.size
        < (r.fetch + r.size - (j.ref.ringIndex + j.slots) % r.size) % r.size

theorem Head.withdrawn_link_light (hd : Head) (k : StreamId) :
    (hd.withdrawn k).link = hd.link ∧ (hd.withdrawn k).light = hd.light := by
  obtain ⟨_, _, hlink, hlight, _⟩ := (hd.withdraw k).abandonRead_same k
  exact ⟨hlink, hlight⟩

open Classical in
/-- A pending record is marked exactly where its slot is read again. -/
theorem State.stoppedHead_pending (s : State) (j : Job) (h : HeadId) :
    (s.stoppedHead j h).link.pending
        = (s.head h).link.pending.map (fun ref => { ref with rewound := decide (s.readsAgain j ref) || ref.rewound })
      ∧ (s.stoppedHead j h).light.pending
        = (s.head h).light.pending.map
            (fun ref => { ref with rewound := decide (s.readsAgain j ref) || ref.rewound }) := by
  have hunmarked : (∀ ref : RecordRef, ¬ s.readsAgain j ref) →
      (fun ref : RecordRef => { ref with rewound := decide (s.readsAgain j ref) || ref.rewound }) = id := fun hn => by
    funext ref
    simp [hn ref]
  obtain ⟨hlink, hlight⟩ := (s.head h).withdrawn_link_light j.ref.stream
  unfold State.stoppedHead
  split
  · rename_i hh
    cases hr : (s.stream j.ref.stream).ring with
    | none =>
      rw [hunmarked fun ref ⟨_, _, r, hring, _⟩ => by rw [hr] at hring; cases hring]
      simp only [Option.map_id, id]
      exact ⟨by rw [← hlink]; rfl, by rw [← hlight]; rfl⟩
    | some r =>
      have hmark : (fun ref : RecordRef => { ref with rewound := decide (s.readsAgain j ref) || ref.rewound })
          = fun ref => ref.rewind j.ref.stream ((j.ref.ringIndex + j.slots) % r.size) r.fetch r.size := by
        funext ref
        have hiff : s.readsAgain j ref ↔ ref.stream = j.ref.stream
            ∧ (ref.ringIndex + r.size - (j.ref.ringIndex + j.slots) % r.size) % r.size
              < (r.fetch + r.size - (j.ref.ringIndex + j.slots) % r.size) % r.size := by
          simp only [State.readsAgain, hh, hr, true_and, Option.some.injEq, exists_eq_left']
        unfold RecordRef.rewind
        split
        · rename_i hc; simp [hiff.mpr hc]
        · rename_i hc; simp [mt hiff.mp hc]
      rw [hmark, ← hlink, ← hlight]
      exact ⟨rfl, rfl⟩
  · rename_i hh
    rw [hunmarked fun ref ⟨_, hn, _⟩ => hh hn]
    simp only [Option.map_id, id, and_self]

/-- What the end of a job with an error does to the pending records of a head. -/
theorem State.failJob_pendingMarked {s : State} {j : Job} (hj : s.runningJob = some j) (status : Status) (written : Nat)
    (h : HeadId) (ref : RecordRef) :
    ∃ again : Bool, (again = true ↔ s.readsAgain j ref)
      ∧ ((s.head h).link.pending = some ref →
        ((s.failJob status written).head h).link.pending = some { ref with rewound := again || ref.rewound })
      ∧ ((s.head h).light.pending = some ref →
        ((s.failJob status written).head h).light.pending = some { ref with rewound := again || ref.rewound }) := by
  classical
  obtain ⟨_, hlink, hlight⟩ := (s.stoppedHead j h).abandonAndReload_same h j.ref.stream (s.stream j.ref.stream).batch
    (some j.batch)
  obtain ⟨hlinkMarked, hlightMarked⟩ := s.stoppedHead_pending j h
  refine ⟨decide (s.readsAgain j ref), decide_eq_true_iff, fun hp => ?_, fun hp => ?_⟩
  · rw [State.failJob_head hj, hlink, hlinkMarked, hp, Option.map_some]
  · rw [State.failJob_head hj, hlight, hlightMarked, hp, Option.map_some]

/-! ## The stream -/

theorem State.failJob_jobs {s : State} {j : Job} (hj : s.runningJob = some j) (status : Status) (written : Nat) :
    (s.failJob status written).jobs = s.failedJobs j status written
      ∧ (s.failJob status written).engine = .free := by
  by_cases hh : (s.stream j.ref.stream).halt = none
  · rw [State.failJob_halts hj status written hh]
    exact ⟨rfl, rfl⟩
  · rw [State.failJob_halted hj status written hh]
    exact ⟨rfl, rfl⟩

/-- The stream as a job error leaves it HALTED at a slot of its ring. -/
def Stream.stopped (st : Stream) (r : Ring) (point : Nat) : Stream :=
  { st with current := none, ring := some { r with fetch := point }, halt := some point }

theorem State.failJob_streams {s : State} {j : Job} (hj : s.runningJob = some j) (status : Status) (written : Nat) {r : Ring}
    (hh : (s.stream j.ref.stream).halt = none) (hr : (s.stream j.ref.stream).ring = some r) :
    (s.failJob status written).streams
      = s.streams.set j.ref.stream
          ((s.stream j.ref.stream).stopped r ((j.ref.ringIndex + j.slots) % r.size)) := by
  have hstopped : ({ s.stream j.ref.stream with current := none }.haltAt
      ((s.stream j.ref.stream).wrap (j.ref.ringIndex + j.slots)) : Stream)
        = (s.stream j.ref.stream).stopped r ((j.ref.ringIndex + j.slots) % r.size) := by
    simp only [Stream.haltAt, Stream.wrap, Stream.stopped, hr, Option.map_some]
  rw [State.failJob_halts hj status written hh, ← hstopped]
  rfl

/-- After the error every job of the stream is ENDED. -/
theorem allEnded_failedJobs (s : State) (j : Job) (status : Status) (written : Nat) :
    allEnded j.ref.stream (s.failedJobs j status written) := by
  intro q hq hk
  obtain ⟨p, _, rfl⟩ := List.mem_map.mp hq
  split
  · rfl
  · split
    · rfl
    · rename_i hrunning hqueued
      rw [if_neg hrunning, if_neg hqueued] at hk
      cases hstate : p.state with
      | queued => exact absurd ⟨hstate, hk⟩ hqueued
      | running => exact absurd hstate hrunning
      | ended o b => simp [Job.isEnded, hstate]

/-- A batch that the counter puts before the failed one. -/
def BeforeFailed (counter failed batch : Word) : Prop := (counter - batch).toNat > (counter - failed).toNat

/-- The stream of a job that has failed stands still. -/
theorem State.failJob_stillOf {s : State} {j : Job} (hj : s.runningJob = some j) (status : Status) (written : Nat) {r : Ring}
    (hh : (s.stream j.ref.stream).halt = none) (hr : (s.stream j.ref.stream).ring = some r) :
    (s.failJob status written).StillOf j.ref.stream
      ((s.stream j.ref.stream).stopped r ((j.ref.ringIndex + j.slots) % r.size)) (s.context j.ref.stream)
      (BeforeFailed (s.stream j.ref.stream).batch j.batch) where
  idle := rfl
  stream := by
    rw [State.stream, State.failJob_streams hj status written hh hr, Four.get_set_same]
  contexts c := by rw [State.context, s.failJob_contexts, State.context]
  heads h := by
    obtain ⟨hentries, _⟩ := State.failJob_present hj status written h
    refine ⟨?_, fun e he hk hu => ?_⟩
    · rw [State.failJob_head hj, State.stoppedHead, if_pos hh]
      exact ((Head.withdrawn_unengaged _ _).of_eases (Head.rewindBy_eases _ _ _ _)).of_eases
        (Head.abandonAndReload_eases _ _ _ _ _)
    · rw [hentries, List.mem_filter, Bool.not_eq_true', ← Bool.not_eq_true, Entry.condemned_iff] at he
      exact Nat.lt_of_not_le fun hle => he.2 ⟨hu, hk, hle⟩
  jobs := by
    rw [(State.failJob_jobs hj status written).1]
    exact allEnded_failedJobs s j status written

/-! ## The bus errors (R34, R38) -/

/-- A source pixel is expected for a running TRANSFER alone. -/
theorem State.sourceExpected_transfer {s : State} {n : Nat} (h : s.sourceExpected n = true) {j : Job}
    (hj : s.runningJob = some j) :
    ∃ (c : ContextId) (m : Mode) (source : Address) (f : Format) (count : Nat) (run : Option Run) (key : Option Key),
      j.work = .transfer c m source f count run key := by
  unfold State.sourceExpected at h
  rw [hj] at h
  cases hw : j.work with
  | transfer c m source f count run key => exact ⟨c, m, source, f, count, run, key, rfl⟩
  | window c w => simp [hw] at h
  | fill => simp [hw] at h
  | readback => simp [hw] at h

/-- A bus error on the next source pixel ends the job. -/
theorem State.sourceAnswered_busError {s : State} {j : Job} (hq : s.quiescent) (ha : s.active = true)
    (hj : s.runningJob = some j) (hp : s.engine.phase = .source)
    (he : s.sourceExpected (s.engine.processed + 1) = true) :
    s.sourceAnswered (s.engine.processed + 1) .busError = (s.failJob .sourceError s.engine.written).settle := by
  obtain ⟨c, m, source, f, count, run, key, hw⟩ := State.sourceExpected_transfer he hj
  rw [← s.takeSource_busError j c m source f count run key hj hw, State.sourceAnswered, if_pos (by simp [ha, he])]
  apply State.settle_of_react
  rw [s.react_setEngine _ hq]
  have hr : sparseRead (sparseWrite s.engine.ahead (s.engine.processed + 1) none) (s.engine.processed + 1)
      = some none := (sparseRead_write _ _ _ _).trans (if_pos rfl)
  refine (State.takeAhead_of_answer
    { s with engine := { s.engine with ahead := sparseWrite s.engine.ahead (s.engine.processed + 1) none } }
    none ha hp hr).trans ?_
  dsimp only
  rw [sparseErase_write _ _ _ (s.sourceExpected_unanswered _ he)]

/-- A bus error on a READBACK word ends the job. -/
theorem State.wordAnswered_busError {s : State} {write : HostWrite} (ha : s.active = true)
    (hp : s.engine.phase = .word write) :
    s.wordAnswered .busError = (s.failJob .sourceError s.engine.written).settle := by
  simp only [State.wordAnswered, ha, hp, if_true]

/-- Settles O51: the equations of the end, and a stream that stands still while the part settles. -/
theorem jobErrorsHaltTheStream : Obligations.JobErrorsHaltTheStream := by
  refine ⟨fun s j r i hq ha _ hj hr hh hi => ?_, fun s j status written hj => ?_⟩
  · have hexec : exec i s = .next (s.failJob .sourceError s.engine.written).settle := by
      rcases hi with ⟨rfl, write, hp⟩ | ⟨rfl, hp, he⟩
      · exact congrArg Host.Outcome.next (State.wordAnswered_busError ha hp)
      · exact congrArg Host.Outcome.next (State.sourceAnswered_busError hq ha hj hp he)
    have hstill := (State.failJob_stillOf hj .sourceError s.engine.written hh hr).settle
    have hsettles := (s.failJob_settlesTo .sourceError s.engine.written).trans (State.settle_settlesTo _)
    have hstream := hstill.stream
    refine ⟨_, hexec, rfl, ?_, ?_, ?_, ?_, hstill.contexts, hstill.jobs, fun a => ?_, fun h => ⟨(hsettles.head h).holder,
      (hstill.heads h).unengaged.waiters, (hstill.heads h).unengaged.reading, (hstill.heads h).entries⟩⟩
    · rw [hstream]; rfl
    · rw [hstream]; rfl
    · rw [hstream]; rfl
    · rw [hstream]; rfl
    · rw [hsettles.panel]
  · obtain ⟨hjobs, hengine⟩ := State.failJob_jobs hj status written
    refine ⟨_, fun e => e.condemned j.ref.stream (s.stream j.ref.stream).batch (some j.batch), rfl,
      fun e => e.condemned_iff _ _ _, hjobs, s.failJob_contexts status written, s.failJob_panel status written,
      hengine, fun hh => ?_, fun r hh hr => State.failJob_streams hj status written hh hr, fun h =>
        ⟨fun ref _ => State.failJob_pendingMarked hj status written h ref, State.failJob_present hj status written h⟩⟩
    rw [State.failJob_halted hj status written hh]
    rfl

end Sys2Proof.Machine
end

