-- ==== Sys2Proof/Proofs/RecordOutcomes.lean ====
section
/-! SUPPORT. When a record is taken up, what its stream holds once it has ended, and the records that end BAD_FIELD or
NOT_OWNER whatever their kind. -/

namespace Sys2Proof.Machine

set_option Elab.async false

/-! ## Taking up a record (R54, R57, R59) -/

theorem State.takeUp_eq_some_iff (s : State) (k : StreamId) (kind : Kind) (c : CurrentRecord) :
    s.takeUp k kind = some c ↔
      s.regs.device = .running ∧ (s.stream k).ring ≠ none ∧ (s.stream k).halt = none ∧ (s.stream k).kept = []
        ∧ (s.stream k).current = some c ∧ c.phase = .whole ∧ kindOf c.slots = some kind := by
  have hguard : (s.running && (s.stream k).ring.isSome && (s.stream k).halt.isNone && (s.stream k).kept.isEmpty) = true
      ↔ s.regs.device = .running ∧ (s.stream k).ring ≠ none ∧ (s.stream k).halt = none ∧ (s.stream k).kept = [] := by
    simp only [State.running, Bool.and_eq_true, decide_eq_true_eq, Option.isSome_iff_ne_none, Option.isNone_iff_eq_none,
      List.isEmpty_iff, and_assoc]
  rw [State.takeUp, Option.ite_none_right_eq_some, hguard]
  cases hc : (s.stream k).current with
  | none => simp
  | some d =>
    simp only [Option.ite_none_right_eq_some, Option.some.injEq, and_assoc]
    constructor
    · rintro ⟨hrun, hring, hhalt, hkept, hphase, hkind, rfl⟩
      exact ⟨hrun, hring, hhalt, hkept, rfl, hphase, hkind⟩
    · rintro ⟨hrun, hring, hhalt, hkept, rfl, hphase, hkind⟩
      exact ⟨hrun, hring, hhalt, hkept, hphase, hkind, rfl⟩

/-- A record command that takes up no record changes nothing (log 4). -/
theorem exec_of_takeUp_none {s : State} {k : StreamId} {kind : Kind} (h : s.takeUp k kind = none) :
    exec (kind.command k) s = .next s := by
  rcases execRecord_cases kind k s with hsame | ⟨c, u, hc, _⟩
  · exact hsame
  · cases h.symm.trans hc

/-! ## Ends of current records (R57, R60) -/

theorem kindByte_of_kindOf {slots : List (List Byte)} {kind : Kind} (h : kindOf slots = some kind) :
    kindByte slots = kind.code :=
  (beq_iff_eq.mp (List.find?_some (p := fun k : Kind => k.code == kindByte slots) h)).symm

theorem haltSlots_of_declared {c : CurrentRecord} (h1 : 1 ≤ declaredSlots c.slots) (h4 : declaredSlots c.slots ≤ 4) :
    haltSlots (some c) = declaredSlots c.slots :=
  if_pos ⟨h1, h4⟩

theorem haltSlots_of_misdeclared {c : CurrentRecord} (h : declaredSlots c.slots < 1 ∨ 4 < declaredSlots c.slots) :
    haltSlots (some c) = 1 :=
  if_neg (by omega)

theorem not_done_of_halting {status : Status} (h : status.halting = true) : status ≠ .done := by
  rintro rfl
  cases h

/-- A halting end HALTS the stream at the halt point and keeps the completion, whatever SILENT says. -/
theorem State.finishAs_halting {s : State} {k : StreamId} {r : Ring} (hr : (s.stream k).ring = some r) (ref : RecordRef)
    (kind : Byte) {o : Outcome} (ho : o.status.halting = true) :
    s.finishAs k ref kind o
      = s.setStream k
          { ring := some { r with fetch := (ref.ringIndex + haltSlots (s.stream k).current) % r.size }
            current := none
            kept := (s.stream k).kept ++ [completionOf ref kind o none]
            halt := some ((ref.ringIndex + haltSlots (s.stream k).current) % r.size)
            batch := (s.stream k).batch } := by
  simp only [State.finishAs, ho, if_true, Stream.haltAt, Stream.wrap, hr, Option.map_some,
    report_of_ne_done ref kind o none (not_done_of_halting ho)]

section
variable {s : State} {k : StreamId} {c : CurrentRecord} (hc : (s.stream k).current = some c)
include hc

/-- The slots and header of the current record say where and as what it is refused. -/
theorem State.finish_halting {r : Ring} (hr : (s.stream k).ring = some r) {o : Outcome} (ho : o.status.halting = true)
    {n : Nat} (hn : haltSlots (some c) = n) :
    s.finish k o
      = s.setStream k
          { ring := some { r with fetch := (c.index + n) % r.size }
            current := none
            kept := (s.stream k).kept ++ [completionOf (headerRef k c) (kindByte c.slots) o none]
            halt := some ((c.index + n) % r.size)
            batch := (s.stream k).batch } := by
  rw [s.finish_of_current k o c hc, State.finishAs_halting hr _ _ ho, hc, hn]
  rfl

theorem State.finish_eq_recordHalted {kind : Kind} (hk : kindOf c.slots = some kind) {r : Ring}
    (hr : (s.stream k).ring = some r) (h1 : 1 ≤ declaredSlots c.slots) (h4 : declaredSlots c.slots ≤ 4) {status : Status}
    (hs : status.halting = true) : s.finish k { status := status } = s.recordHalted k r c kind status := by
  rw [State.finish_halting hc hr hs (haltSlots_of_declared h1 h4), kindByte_of_kindOf hk]
  rfl

theorem State.finish_eq_recordDone {kind : Kind} (hk : kindOf c.slots = some kind) {o : Outcome}
    (ho : o.status.halting = false) : s.finish k o = s.recordDone k c kind o := by
  simp only [s.finish_of_current k o c hc, State.finishAs, ho, Bool.false_eq_true, if_false, kindByte_of_kindOf hk,
    State.recordDone]

end

/-! ## BAD_FIELD (step 3 of R53) -/

theorem eq_none_of_isSome_false {α : Type} {x : Option α} (h : x.isSome = false) : x = none :=
  Option.isNone_iff_eq_none.mp (Option.isSome_eq_false_iff.mp h)

section
variable {s : State} {k : StreamId} {c : CurrentRecord}

theorem State.takeJob_badField {kind : Kind} (hup : s.takeUp k kind = some c)
    (hf : (jobFields kind c.slots s.heads).isSome = false) : s.takeJob k kind = (s.badField k).settle := by
  simp only [State.takeJob, hup, eq_none_of_isSome_false hf]

theorem exec_badField {kind : Kind} (hup : s.takeUp k kind = some c) (hf : s.fieldsPass kind c.slots = false) :
    exec (kind.command k) s = .next (s.badField k).settle := by
  cases kind with
  | window => exact congrArg _ (State.takeJob_badField hup hf)
  | transfer => exact congrArg _ (State.takeJob_badField hup hf)
  | fill => exact congrArg _ (State.takeJob_badField hup hf)
  | readback => exact congrArg _ (State.takeJob_badField hup hf)
  | claim =>
    have hnone : claimFields c.slots = none := eq_none_of_isSome_false hf
    simp only [Kind.command, exec, execClaim, hup, hnone]
  | release =>
    have hnone : releaseFields c.slots = none := eq_none_of_isSome_false hf
    simp only [Kind.command, exec, execRelease, hup, hnone]
  | bands =>
    have hnone : bandsFields c.slots s.heads = none := eq_none_of_isSome_false hf
    simp only [Kind.command, exec, execBands, hup, hnone]
  | scroll =>
    have hnone : scrollFields c.slots s.heads = none := eq_none_of_isSome_false hf
    simp only [Kind.command, exec, execScroll, hup, hnone]
  | output =>
    have hnone : outputFields c.slots = none := eq_none_of_isSome_false hf
    simp only [Kind.command, exec, execOutput, hup, hnone]
  | palette =>
    have hnone : paletteFields c.slots = none := eq_none_of_isSome_false hf
    simp only [Kind.command, exec, execPalette, hup, hnone]
  | present =>
    have hnone : presentFields c.slots = none := eq_none_of_isSome_false hf
    simp only [Kind.command, exec, execPresent, hup, hnone]
  | link =>
    have hnone : linkFields c.slots = none := eq_none_of_isSome_false hf
    simp only [Kind.command, exec, execLink, hup, hnone]
  | light =>
    have hnone : lightFields c.slots = none := eq_none_of_isSome_false hf
    simp only [Kind.command, exec, execLight, hup, hnone]
  | wait =>
    have hnone : waitFields c.slots = none := eq_none_of_isSome_false hf
    simp only [Kind.command, exec, execWait, hup, hnone]
  | note => cases hf

end

/-! ## NOT_OWNER (step 4 of R53, R74, R77) -/

theorem headField_of_bandsFields {slots : List (List Byte)} {heads : Two Head} {h : HeadId} {p : List Band × Pixel}
    (e : bandsFields slots heads = some (h, p)) : headField slots = some h := by
  simp only [bandsFields, Option.bind_eq_bind, Option.bind_eq_some_iff, Option.ite_none_right_eq_some,
    Option.some.injEq, Prod.mk.injEq] at e
  obtain ⟨i, hi, _, _, _, _, _, rfl, _⟩ := e
  exact hi

theorem headField_of_scrollFields {slots : List (List Byte)} {heads : Two Head} {h : HeadId} {p : Nat × Nat}
    (e : scrollFields slots heads = some (h, p)) : headField slots = some h := by
  simp only [scrollFields, Option.bind_eq_bind, Option.bind_eq_some_iff, Option.ite_none_right_eq_some,
    Option.some.injEq, Prod.mk.injEq] at e
  obtain ⟨i, hi, _, _, _, rfl, _⟩ := e
  exact hi

theorem headField_of_outputFields {slots : List (List Byte)} {h : HeadId} {mode : OutputMode}
    (e : outputFields slots = some (h, mode)) : headField slots = some h := by
  simp only [outputFields, Option.bind_eq_bind, Option.bind_eq_some_iff, Option.some.injEq, Prod.mk.injEq] at e
  obtain ⟨i, hi, _, _, rfl, _⟩ := e
  exact hi

theorem headField_of_linkFields {slots : List (List Byte)} {h : HeadId} {target : LinkTarget}
    (e : linkFields slots = some (h, target)) : headField slots = some h := by
  simp only [linkFields, Option.bind_eq_bind, Option.bind_eq_some_iff, Option.some.injEq, Prod.mk.injEq] at e
  obtain ⟨i, hi, _, _, rfl, _⟩ := e
  exact hi

theorem headField_of_lightFields {slots : List (List Byte)} {r : LightRecord} (e : lightFields slots = some r) :
    headField slots = some r.head := by
  simp only [lightFields, Option.bind_eq_bind, Option.bind_eq_some_iff, Option.ite_none_left_eq_some,
    Option.some.injEq] at e
  obtain ⟨i, hi, _, _, _, rfl⟩ := e
  exact hi

section
variable {s : State} {k : StreamId} {c : CurrentRecord}

theorem exec_notOwner {kind : Kind} {h : HeadId} (hup : s.takeUp k kind = some c) (hk : kind.holderOnly = true)
    (hf : s.fieldsPass kind c.slots = true) (hh : headField c.slots = some h) (ho : (s.head h).lease.holder ≠ some k) :
    exec (kind.command k) s = .next (s.notOwner k).settle := by
  have howns : ∀ {i : HeadId}, headField c.slots = some i → ¬ s.owns k i = true := fun hi => by
    obtain rfl : h = _ := Option.some.inj (hh.symm.trans hi)
    exact mt (s.owns_iff k h).mp ho
  cases kind with
  | release =>
    obtain ⟨i, hi⟩ := Option.isSome_iff_exists.mp hf
    simp only [Kind.command, exec, execRelease, hup, hi, if_neg (howns hi)]
  | bands =>
    obtain ⟨⟨i, bands, background⟩, hi⟩ := Option.isSome_iff_exists.mp hf
    simp only [Kind.command, exec, execBands, hup, hi, if_neg (howns (headField_of_bandsFields hi))]
  | scroll =>
    obtain ⟨⟨i, index, scroll⟩, hi⟩ := Option.isSome_iff_exists.mp hf
    simp only [Kind.command, exec, execScroll, hup, hi, if_neg (howns (headField_of_scrollFields hi))]
  | output =>
    obtain ⟨⟨i, mode⟩, hi⟩ := Option.isSome_iff_exists.mp hf
    simp only [Kind.command, exec, execOutput, hup, hi, if_neg (howns (headField_of_outputFields hi))]
  | palette =>
    obtain ⟨r, hi⟩ := Option.isSome_iff_exists.mp hf
    simp only [Kind.command, exec, execPalette, hup, hi, if_neg (howns (headField_of_paletteFields hi))]
  | present =>
    obtain ⟨r, hi⟩ := Option.isSome_iff_exists.mp hf
    simp only [Kind.command, exec, execPresent, hup, hi, if_neg (howns (headField_of_presentFields hi))]
  | link =>
    obtain ⟨⟨i, target⟩, hi⟩ := Option.isSome_iff_exists.mp hf
    simp only [Kind.command, exec, execLink, hup, hi, if_neg (howns (headField_of_linkFields hi))]
  | light =>
    obtain ⟨r, hi⟩ := Option.isSome_iff_exists.mp hf
    simp only [Kind.command, exec, execLight, hup, hi, if_neg (howns (headField_of_lightFields hi))]
  | _ => cases hk

end

/-- Settles O37: a record is taken up or nothing changes, and the two refusals are halting ends of a whole record. -/
theorem refusedRecordsHalt : Obligations.RefusedRecordsHalt := by
  refine ⟨fun kind k s c => ⟨s.takeUp_eq_some_iff k kind c, exec_of_takeUp_none⟩,
    fun kind k s c r hup hr h1 h4 hf => ?_, fun kind k s c r h hup hr h1 h4 hk hf hh ho => ?_⟩
  · obtain ⟨_, _, _, hc, _, hkind⟩ := s.takeUp_some k kind c hup
    rw [exec_badField hup hf, State.badField, State.finish_eq_recordHalted hc hkind hr h1 h4 rfl]
  · obtain ⟨_, _, _, hc, _, hkind⟩ := s.takeUp_some k kind c hup
    rw [exec_notOwner hup hk hf hh ho, State.notOwner, State.finish_eq_recordHalted hc hkind hr h1 h4 rfl]

end Sys2Proof.Machine
end

