-- ==== Sys2Proof/Proofs/CommitsAndWaits.lean ====
section
/-! SUPPORT. The fields of PRESENT and WAIT records; a PRESENT that joins its queue or is held QUEUE_FULL; a WAIT whose
condition holds or not at dispatch; and NOTE. -/

namespace Sys2Proof.Machine

set_option Elab.async false

/-! ## Fields (R113, R174, R176) -/

theorem headField_eq_some (slots : List (List Byte)) (h : HeadId) :
    headField slots = some h ↔ h.val = recordField slots 0x03 1 := by
  unfold headField unitByte
  split
  case h_1 hu => fin_cases h <;> simp [hu]
  case h_2 hu => fin_cases h <;> simp [hu]
  case h_3 h0 h1 =>
    refine ⟨fun e => (by cases e), fun e => ?_⟩
    fin_cases h
    · exact absurd e.symm h0
    · exact absurd e.symm h1

/-- The policy a PRESENT's code names. -/
theorem policy_eq_some (n : Nat) (p : Policy) :
    (match n with
      | 0 => some Policy.queue
      | 1 => some Policy.latest
      | _ => none) = some p ↔ (if p = .latest then 1 else 0) = n := by
  split
  case h_1 => cases p <;> simp
  case h_2 => cases p <;> simp
  case h_3 h0 h1 =>
    refine ⟨fun e => (by cases e), fun e => ?_⟩
    cases p
    · exact absurd e.symm h0
    · exact absurd e.symm h1

theorem presentFields_eq_some (slots : List (List Byte)) (r : PresentRecord) :
    presentFields slots = some r ↔
      r.head.val = recordField slots 0x03 1 ∧ (if r.policy = .latest then 1 else 0) = recordField slots 0x10 1
        ∧ r.notBefore = BitVec.ofNat 32 (recordField slots 0x14 4) := by
  simp only [presentFields, Option.bind_eq_bind, Option.bind_eq_some_iff, Option.some.injEq, headField_eq_some]
  constructor
  · rintro ⟨h, hh, p, hp, rfl⟩
    exact ⟨hh, (policy_eq_some _ p).mp hp, rfl⟩
  · obtain ⟨h, p, n⟩ := r
    rintro ⟨hh, hp, rfl⟩
    exact ⟨h, hh, p, (policy_eq_some _ p).mpr hp, rfl⟩

theorem waitFields_frame (slots : List (List Byte)) (h : HeadId) (f : Word) :
    waitFields slots = some (.frame h f) ↔
      recordField slots 0x10 1 = 0 ∧ h.val = recordField slots 0x03 1
        ∧ f = BitVec.ofNat 32 (recordField slots 0x14 4) := by
  have hframe : (headField slots).map (fun i => WaitForm.frame i (BitVec.ofNat 32 (recordField slots 0x14 4)))
      = some (.frame h f) ↔ h.val = recordField slots 0x03 1 ∧ f = BitVec.ofNat 32 (recordField slots 0x14 4) := by
    rw [← headField_eq_some]
    cases headField slots <;> simp [eq_comm]
  rw [← hframe, waitFields]
  split <;> simp_all

theorem waitFields_retired (slots : List (List Byte)) (h : HeadId) :
    waitFields slots = some (.retired h) ↔ recordField slots 0x10 1 = 1 ∧ h.val = recordField slots 0x03 1 := by
  unfold waitFields
  split <;> simp_all [headField_eq_some]

theorem waitFields_jobs (slots : List (List Byte)) :
    waitFields slots = some .jobs ↔ recordField slots 0x10 1 = 2 := by
  unfold waitFields
  split <;> simp_all

/-! ## PRESENT (R65, R114, R116) -/

/-- A commit entry as it joins the queue: READY unless a job of its batch or an earlier one stands in the list. -/
theorem newEntry_evaluated (ref : RecordRef) (r : PresentRecord) (hd : Head) (batch : Word) (jobs : List Job)
    (streams : Four Stream) :
    (newEntry ref r hd batch).evaluated jobs streams
      = { ref := ref, policy := r.policy, notBefore := r.notBefore, missed := 0, snapshot := hd.staging.picture
          pal := hd.staging.dirty, batch := batch
          state :=
            if jobs.any (fun j => decide (j.ref.stream = ref.stream)
                && decide (((streams.get ref.stream).batch - batch).toNat
                  ≤ ((streams.get ref.stream).batch - j.batch).toNat)) = true
            then .waiting else .ready } := by
  have hblocked : (newEntry ref r hd batch).blocked jobs streams
      = jobs.any (fun j => decide (j.ref.stream = ref.stream)
          && decide (((streams.get ref.stream).batch - batch).toNat
            ≤ ((streams.get ref.stream).batch - j.batch).toNat)) := rfl
  rw [Entry.evaluated, hblocked]
  split
  · rename_i h
    rw [if_neg (Bool.eq_false_iff.mp h.2)]
    rfl
  · rename_i h
    rw [if_pos (by_contra fun hn => h ⟨rfl, Bool.eq_false_iff.mpr hn⟩)]
    rfl

section
variable {s : State} {k : StreamId} {c : CurrentRecord} {r : PresentRecord}

theorem State.dispatchPresent_of_room (hc : (s.stream k).current = some c) (hr : presentFields c.slots = some r)
    (hroom : (s.head r.head).present.places < queuePlaces) :
    s.dispatchPresent k
      = some ((s.setStream k { s.stream k with current := none, batch := (s.stream k).batch + 1 }).setHead r.head
          { s.head r.head with
            present := { (s.head r.head).present with
              entries := (s.head r.head).present.entries
                ++ [(newEntry (headerRef k c) r (s.head r.head) (s.stream k).batch).evaluated s.jobs
                    (s.streams.set k { s.stream k with current := none, batch := (s.stream k).batch + 1 })] }
            staging := { (s.head r.head).staging with dirty := false } }) := by
  simp only [State.dispatchPresent, hc, hr, if_pos hroom]
  rfl

theorem State.dispatchPresent_of_full (hc : (s.stream k).current = some c) (hr : presentFields c.slots = some r)
    (hfull : ¬ (s.head r.head).present.places < queuePlaces) : s.dispatchPresent k = none := by
  simp only [State.dispatchPresent, hc, hr, if_neg hfull]

/-- A holder's PRESENT is dispatched, or held QUEUE_FULL. -/
theorem execPresent_of_holder (hup : s.takeUp k .present = some c) (hr : presentFields c.slots = some r)
    (ho : (s.head r.head).lease.holder = some k) :
    exec (.present k) s = .next ((s.dispatchPresent k).getD (s.recordHeld k c .heldQueueFull)).settle := by
  obtain ⟨_, _, _, hc, _⟩ := s.takeUp_some k .present c hup
  simp only [exec, execPresent, hup, hr, if_pos ((s.owns_iff k r.head).mpr ho), ← s.setPhase_eq_recordHeld k c _ hc]
  cases s.dispatchPresent k <;> rfl

end

/-- Settles O43: the room in the queue decides, and the evaluation at dispatch says whether the entry is READY. -/
theorem presentAddsAnEntry : Obligations.PresentAddsAnEntry := by
  refine ⟨fun k s c r hup hr ho => ?_, presentFields_eq_some⟩
  obtain ⟨_, _, _, hc, _⟩ := s.takeUp_some k .present c hup
  rw [execPresent_of_holder hup hr ho]
  refine ⟨fun hroom => ?_, fun hfull => ?_⟩
  · rw [State.dispatchPresent_of_room hc hr hroom, newEntry_evaluated]
    simp only [show (headerRef k c).stream = k from rfl, Four.get_set_same, Option.getD_some]
  · rw [State.dispatchPresent_of_full hc hr (Nat.not_lt.mpr hfull)]
    rfl

/-! ## WAIT and NOTE (R66 to R68) -/

section
variable {s : State} {k : StreamId} {c : CurrentRecord}

/-- A WAIT is DONE at dispatch where its condition holds, and waits where it does not. -/
theorem execWait_of_form {form : WaitForm} (hup : s.takeUp k .wait = some c) (hf : waitFields c.slots = some form) :
    exec (.wait k) s
      = .next ((s.waitOutcome k form).elim (s.recordHeld k c .waitCondition) (s.recordDone k c .wait)).settle := by
  obtain ⟨_, _, _, hc, _, hkind⟩ := s.takeUp_some k .wait c hup
  simp only [exec, execWait, hup, hf]
  cases ho : s.waitOutcome k form with
  | none => simp only [s.setPhase_eq_recordHeld k c _ hc, Option.elim_none]
  | some o =>
    have hnot : o.status.halting = false := by rw [s.waitOutcome_status k form o ho]; rfl
    simp only [State.finish_eq_recordDone hc hkind hnot, Option.elim_some]

theorem execNote_of_takeUp (hup : s.takeUp k .note = some c) :
    exec (.note k) s = .next (s.recordDone k c .note { status := .done }).settle := by
  obtain ⟨_, _, _, hc, _, hkind⟩ := s.takeUp_some k .note c hup
  simp only [exec, execNote, hup, State.finish_eq_recordDone hc hkind (o := { status := .done }) rfl]

end

section
variable {s : State} {k : StreamId} {h : HeadId}

theorem State.waitOutcome_notScanning (f : Word) (hs : (s.head h).scanning = false) :
    s.waitOutcome k (.frame h f)
      = some { status := .done, valueA := (s.head h).scan.frame, flags := { notScanning := true } } := by
  simp [State.waitOutcome, hs]

theorem State.waitOutcome_reached {f : Word} (hs : (s.head h).scanning = true)
    (hf : f.toNat ≤ (s.head h).scan.frame.toNat) :
    s.waitOutcome k (.frame h f) = some { status := .done, valueA := (s.head h).scan.frame } := by
  simp [State.waitOutcome, hs, hf]

theorem State.waitOutcome_ahead {f : Word} (hs : (s.head h).scanning = true)
    (hf : (s.head h).scan.frame.toNat < f.toNat) : s.waitOutcome k (.frame h f) = none := by
  simp [State.waitOutcome, hs, hf]

theorem State.waitOutcome_retired :
    s.waitOutcome k (.retired h)
      = if ∃ e ∈ (s.head h).present.entries, e.ref.stream = k then none else some { status := .done } := by
  simp [State.waitOutcome]

theorem State.waitOutcome_jobs :
    s.waitOutcome k .jobs = if ∃ j ∈ s.jobs, j.ref.stream = k then none else some { status := .done } := by
  simp [State.waitOutcome]

end

/-- Settles O46: the condition of each form at dispatch, and the codes that name the forms. -/
theorem waitsAndNotes : Obligations.WaitsAndNotes := by
  refine ⟨fun k s c => ⟨execNote_of_takeUp, fun h f hup hf => ?_, fun h hup hf => ?_, fun hup hf => ?_⟩,
    fun slots => ⟨waitFields_frame slots, waitFields_retired slots, waitFields_jobs slots⟩⟩
  · rw [execWait_of_form hup hf]
    refine ⟨fun hs => ?_, fun hs hle => ?_, fun hs hlt => ?_⟩
    · rw [State.waitOutcome_notScanning f hs, Option.elim_some]
    · rw [State.waitOutcome_reached hs hle, Option.elim_some]
    · rw [State.waitOutcome_ahead hs hlt, Option.elim_none]
  · rw [execWait_of_form hup hf, State.waitOutcome_retired]
    refine ⟨fun hnone => ?_, fun hsome => ?_⟩
    · rw [if_neg (by push Not; exact hnone), Option.elim_some]
    · rw [if_pos hsome, Option.elim_none]
  · rw [execWait_of_form hup hf, State.waitOutcome_jobs]
    refine ⟨fun hnone => ?_, fun hsome => ?_⟩
    · rw [if_neg (by push Not; exact hnone), Option.elim_some]
    · rw [if_pos hsome, Option.elim_none]

end Sys2Proof.Machine
end

