-- ==== Sys2Proof/Proofs/SlotReads.lean ====
section
/-! SUPPORT. Which slot counts suit which kinds, what the Sequencer makes of the record in its buffer, and the answers to
slot reads. -/

namespace Sys2Proof.Machine

set_option Elab.async false

/-! ## Slot counts (R52) -/

theorem slotCountSuits_plain {kind : Kind} (ht : kind ≠ .transfer) (hf : kind ≠ .fill) (hr : kind ≠ .readback)
    (hb : kind ≠ .bands) (slots : List (List Byte)) (n : Nat) : slotCountSuits kind slots n = true ↔ n = 1 := by
  cases kind with
  | transfer => exact absurd rfl ht
  | fill => exact absurd rfl hf
  | readback => exact absurd rfl hr
  | bands => exact absurd rfl hb
  | _ => exact beq_iff_eq

theorem slotCountSuits_transfer (slots : List (List Byte)) (n : Nat) :
    slotCountSuits .transfer slots n = true ↔ n = if keyMark slots = true ∨ gateMark slots = true then 2 else 1 := by
  simp only [slotCountSuits, beq_iff_eq, Bool.or_eq_true]

theorem slotCountSuits_fill (slots : List (List Byte)) (n : Nat) :
    slotCountSuits .fill slots n = true ↔ n = if gateMark slots = true then 2 else 1 :=
  beq_iff_eq

theorem slotCountSuits_readback (slots : List (List Byte)) (n : Nat) :
    slotCountSuits .readback slots n = true ↔ n = if gateMark slots = true then 2 else 1 :=
  beq_iff_eq

theorem slotCountSuits_bands {slots : List (List Byte)} (h1 : 1 ≤ bandCount slots) (h8 : bandCount slots ≤ 8) (n : Nat) :
    slotCountSuits .bands slots n = true ↔ n = if bandCount slots ≤ 3 then 1 else 2 := by
  have hnamed : ¬ (bandCount slots < 1 || 8 < bandCount slots) = true := by
    simp only [Bool.or_eq_true, decide_eq_true_eq]; omega
  simp only [slotCountSuits, if_neg hnamed, beq_iff_eq]

/-- A band count outside 1..8 is left to the field check (log 7). -/
theorem slotCountSuits_bands_odd {slots : List (List Byte)} (h : bandCount slots = 0 ∨ 8 < bandCount slots) {n : Nat}
    (hn : n ≤ 2) : slotCountSuits .bands slots n = true := by
  have hodd : (bandCount slots < 1 || 8 < bandCount slots) = true := by
    simp only [Bool.or_eq_true, decide_eq_true_eq]; omega
  simp only [slotCountSuits, if_pos hodd, hn, decide_true, Bool.true_or]

/-! ## The record in its buffer (R51, steps 1 and 2 of R53) -/

section
variable {s : State} {k : StreamId} {c : CurrentRecord} (hc : (s.stream k).current = some c)
include hc

theorem State.examine_of_misdeclared (h : declaredSlots c.slots < 1 ∨ 4 < declaredSlots c.slots) :
    s.examine k = s.finish k { status := .badSize } := by
  simp only [State.examine, hc, if_pos h]

theorem State.examine_of_declared (h1 : 1 ≤ declaredSlots c.slots) (h4 : declaredSlots c.slots ≤ 4) :
    s.examine k
      = if c.slots.length < declaredSlots c.slots then s
        else (kindOf c.slots).elim (s.finish k { status := .badKind }) fun kind =>
          if slotCountSuits kind c.slots (declaredSlots c.slots) then s.setPhase k .whole
          else s.finish k { status := .badSize } := by
  simp only [State.examine, hc, if_neg (show ¬ (declaredSlots c.slots < 1 ∨ 4 < declaredSlots c.slots) by omega)]
  cases kindOf c.slots <;> rfl

end

/-- Settles O35: the checks in the order that `State.examine` makes them, each refusal a halting end. -/
theorem recordsAreExaminedInOrder : Obligations.RecordsAreExaminedInOrder := by
  constructor
  · intro s k c r hc hr
    refine ⟨fun h => ?_, fun h1 h4 => ?_⟩
    · rw [State.examine_of_misdeclared hc h, State.finish_halting hc hr rfl (haltSlots_of_misdeclared h)]
    · have hexamine := State.examine_of_declared hc h1 h4
      refine ⟨fun hmissing => by rw [hexamine, if_pos hmissing], fun hwhole => ?_⟩
      rw [if_neg (Nat.not_lt.mpr hwhole)] at hexamine
      refine ⟨fun hk => ?_, fun kind hk => ⟨fun hs => ?_, fun hs => ?_⟩⟩
      · rw [hexamine, hk, Option.elim_none, State.finish_halting hc hr rfl (haltSlots_of_declared h1 h4)]
        rfl
      · rw [hexamine, hk, Option.elim_some, if_pos hs, s.setPhase_eq_recordHeld k c _ hc]
      · rw [hexamine, hk, Option.elim_some, if_neg (Bool.not_eq_true _ ▸ hs),
          State.finish_eq_recordHalted hc hk hr h1 h4 rfl]
  · intro slots n
    exact ⟨fun kind ht hf hr hb => slotCountSuits_plain ht hf hr hb slots n, slotCountSuits_transfer slots n,
      slotCountSuits_fill slots n, slotCountSuits_readback slots n, fun h1 h8 => slotCountSuits_bands h1 h8 n,
      fun h hn => slotCountSuits_bands_odd h hn⟩

/-! ## Answers to slot reads (R49, R60) -/

/-- The part once a slot read has been answered, before the answer is placed: the bus is free and the answer counted. -/
def State.slotRead (s : State) : State :=
  { s with fetch := { s.fetch with read := none }, slotReads := s.slotReads + 1 }

@[simp] theorem State.slotRead_stream (s : State) (k : StreamId) : s.slotRead.stream k = s.stream k := rfl

section
variable {s : State} {read : SlotRead} (hread : s.fetch.read = some read)
include hread

theorem State.slotAnswered_data (bytes : List Byte) :
    s.slotAnswered (.data bytes)
      = if read.discard then s.slotRead.settle
        else ((s.slotRead.setStream read.stream
          ((s.stream read.stream).takeSlot s.slotReads bytes)).examine read.stream).settle := by
  simp only [State.slotAnswered, hread]
  rfl

theorem State.slotAnswered_failed :
    s.slotAnswered .busError
      = if read.discard then s.slotRead.settle else (s.slotRead.fetchFailed read.stream s.slotReads).settle := by
  simp only [State.slotAnswered, hread]
  rfl

end

section
variable {st : Stream} {r : Ring} (hr : st.ring = some r) (n : Nat) (bytes : List Byte)
include hr

theorem Stream.takeSlot_first (hc : st.current = none) :
    st.takeSlot n bytes
      = { st with
          ring := some { r with fetch := (r.fetch + 1) % r.size }
          current := some { index := r.fetch, slots := [bytes], phase := .reading, reading := n } } := by
  simp only [Stream.takeSlot, hr, hc]

theorem Stream.takeSlot_next {c : CurrentRecord} (hc : st.current = some c) :
    st.takeSlot n bytes
      = { st with
          ring := some { r with fetch := (r.fetch + 1) % r.size }
          current := some { c with slots := c.slots ++ [bytes] } } := by
  simp only [Stream.takeSlot, hr, hc]

end

section
variable {s : State} {k : StreamId} {r : Ring} (hr : (s.stream k).ring = some r) (n : Nat)
include hr

/-- A record whose first slot cannot be read is passed over as one slot, without a header. -/
theorem State.fetchFailed_first (hc : (s.stream k).current = none) :
    s.fetchFailed k n
      = s.setStream k
          { s.stream k with
            ring := some { r with fetch := (r.fetch + 1) % r.size }
            kept := (s.stream k).kept ++ [completionOf (unreadRef k r.fetch n) 0 { status := .fetchError } none]
            halt := some ((r.fetch + 1) % r.size) } := by
  have hfailed : s.fetchFailed k n = s.finishAs k (unreadRef k r.fetch n) 0 { status := .fetchError } := by
    simp only [State.fetchFailed, hc, hr]
  rw [hfailed, State.finishAs_halting hr _ _ rfl]
  simp only [hc]
  rfl

theorem State.fetchFailed_next {c : CurrentRecord} (hc : (s.stream k).current = some c)
    (h1 : 1 ≤ declaredSlots c.slots) (h4 : declaredSlots c.slots ≤ 4) :
    s.fetchFailed k n
      = s.setStream k
          { s.stream k with
            ring := some { r with fetch := r.afterRecord c }
            current := none
            kept := (s.stream k).kept ++ [completionOf (headerRef k c) (kindByte c.slots) { status := .fetchError } none]
            halt := some (r.afterRecord c) } := by
  have hfailed : s.fetchFailed k n = s.finish k { status := .fetchError } := by
    simp only [State.fetchFailed, hc]
  rw [hfailed, State.finish_halting hc hr rfl (haltSlots_of_declared h1 h4)]
  rfl

end

/-- Settles O34: an answer is discarded, or joins its record, or ends it. -/
theorem slotReadAnswers : Obligations.SlotReadAnswers := by
  intro s a read bytes r hread ha hr
  obtain rfl : a = s.slotRead := ha
  refine ⟨fun hd => ⟨congrArg Host.Outcome.next ?_, congrArg Host.Outcome.next ?_⟩,
    fun hd hc => ⟨congrArg Host.Outcome.next ?_, congrArg Host.Outcome.next ?_⟩,
    fun c hd hc => ⟨congrArg Host.Outcome.next ?_, fun h1 h4 => congrArg Host.Outcome.next ?_⟩⟩
  · rw [State.slotAnswered_data hread, if_pos hd]
  · rw [State.slotAnswered_failed hread, if_pos hd]
  · rw [State.slotAnswered_data hread, if_neg (by simp [hd]), Stream.takeSlot_first hr _ _ hc]
  · rw [State.slotAnswered_failed hread, if_neg (by simp [hd]), State.fetchFailed_first (s := s.slotRead) hr _ hc]
    rfl
  · rw [State.slotAnswered_data hread, if_neg (by simp [hd]), Stream.takeSlot_next hr _ _ hc]
  · rw [State.slotAnswered_failed hread, if_neg (by simp [hd]),
      State.fetchFailed_next (s := s.slotRead) hr _ hc h1 h4]
    rfl

end Sys2Proof.Machine
end

