-- ==== Sys2Proof/Proofs/FetchGrants.lean ====
section
/-! SUPPORT. Which streams are fetch candidates, whose turn it is in a class, and which class a grant takes. -/

namespace Sys2Proof.Machine

set_option Elab.async false

/-! ## Candidates (R47) -/

theorem Stream.needsSlot_iff (st : Stream) :
    st.needsSlot = true ↔
      st.halt = none ∧ st.kept = [] ∧ (∃ r : Ring, st.ring = some r ∧ r.fetch ≠ r.post)
        ∧ ∀ c : CurrentRecord, st.current = some c → c.phase = .reading := by
  unfold Stream.needsSlot
  cases hr : st.ring with
  | none => simp
  | some r =>
    cases hc : st.current <;>
      simp only [Bool.and_eq_true, Option.isNone_iff_eq_none, List.isEmpty_iff, decide_eq_true_eq, and_assoc,
        Option.some.injEq, exists_eq_left', reduceCtorEq, forall_eq', false_implies, implies_true]

theorem State.candidate_iff (s : State) (cls : FetchClass) (k : StreamId) :
    s.candidate cls k = true ↔
      (s.stream k).needsSlot = true ∧ ∃ r : Ring, (s.stream k).ring = some r ∧ r.fetchClass = cls := by
  rw [State.candidate, Bool.and_eq_true]
  cases (s.stream k).ring <;> simp

/-- Every stream that needs a slot is a candidate of one class. -/
theorem State.needsSlot_iff_candidate (s : State) (k : StreamId) :
    (s.stream k).needsSlot = true ↔ s.candidate .urgent k = true ∨ s.candidate .normal k = true := by
  simp only [State.candidate_iff]
  constructor
  · intro h
    obtain ⟨_, _, ⟨r, hr, _⟩, _⟩ := (Stream.needsSlot_iff _).mp h
    cases hcls : r.fetchClass with
    | urgent => exact .inl ⟨h, r, hr, hcls⟩
    | normal => exact .inr ⟨h, r, hr, hcls⟩
  · rintro (⟨h, _⟩ | ⟨h, _⟩) <;> exact h

/-! ## Turns (R48) -/

theorem mem_after (last i : StreamId) : i ∈ after last := by
  revert last i
  decide

theorem after_pairwise (last : StreamId) : (after last).Pairwise (fun a b => a - last - 1 ≤ b - last - 1) := by
  revert last
  decide

/-- The first stream with a property, in the order after `last`, is the nearest one after it. -/
theorem find?_after_some {p : StreamId → Bool} {last k : StreamId} (h : (after last).find? p = some k) :
    p k = true ∧ ∀ i : StreamId, p i = true → k - last - 1 ≤ i - last - 1 := by
  obtain ⟨hk, before, behind, hsplit, hbefore⟩ := List.find?_eq_some_iff_append.mp h
  refine ⟨hk, fun i hi => ?_⟩
  have hmem := mem_after last i
  have hord := after_pairwise last
  rw [hsplit] at hmem hord
  rcases List.mem_append.mp hmem with hi' | hi'
  · exact absurd hi (by simpa using hbefore i hi')
  · rcases List.mem_cons.mp hi' with rfl | hi'
    · exact le_refl _
    · exact (List.pairwise_cons.mp (List.pairwise_append.mp hord).2.1).1 i hi'

/-- The stream of a class that was granted last. -/
def FetchUnit.last (f : FetchUnit) (cls : FetchClass) : StreamId :=
  if cls = .urgent then f.lastUrgent else f.lastNormal

theorem State.turn_eq (s : State) (cls : FetchClass) :
    s.turn cls = (after (s.fetch.last cls)).find? (s.candidate cls) := by
  cases cls <;> rfl

theorem State.turn_some {s : State} {cls : FetchClass} {k : StreamId} (h : s.turn cls = some k) :
    s.candidate cls k = true
      ∧ ∀ i : StreamId, s.candidate cls i = true → k - s.fetch.last cls - 1 ≤ i - s.fetch.last cls - 1 :=
  find?_after_some (s.turn_eq cls ▸ h)

theorem State.turn_isSome_iff (s : State) (cls : FetchClass) :
    (s.turn cls).isSome = true ↔ ∃ i : StreamId, s.candidate cls i = true := by
  rw [s.turn_eq cls, List.find?_isSome]
  exact ⟨fun ⟨i, _, hi⟩ => ⟨i, hi⟩, fun ⟨i, hi⟩ => ⟨i, mem_after _ i, hi⟩⟩

/-! ## Grants (R48) -/

/-- The Fetch Unit once stream `k` of a class has been granted; `passed` says that a NORMAL candidate waits. -/
def FetchUnit.granted (f : FetchUnit) (cls : FetchClass) (k : StreamId) (passed : Prop) [Decidable passed] : FetchUnit :=
  { f with
    urgentRun := if cls = .urgent ∧ passed then f.urgentRun + 1 else 0
    lastUrgent := if cls = .urgent then k else f.lastUrgent
    lastNormal := if cls = .normal then k else f.lastNormal }

/-- The read of the next slot of stream `k`. -/
def Ring.nextRead (r : Ring) (k : StreamId) : SlotRead :=
  { stream := k, address := r.base + BitVec.ofNat 64 (64 * r.fetch), discard := false }

/-- The class that is granted: URGENT, unless NORMAL candidates wait and four URGENT grants have been made over them. -/
def State.grantsClass (s : State) (cls : FetchClass) : Prop :=
  (cls = .urgent → (s.turn .normal).isSome = true → s.fetch.urgentRun < 4)
    ∧ (cls = .normal → (s.turn .urgent).isSome = true → 4 ≤ s.fetch.urgentRun)

theorem State.issueSlot_ring {s t : State} {k : StreamId} {f : FetchUnit} (h : s.issueSlot k f = some t) :
    ∃ r : Ring, (s.stream k).ring = some r ∧ t = { s with fetch := { f with read := some (r.nextRead k) } } := by
  unfold State.issueSlot at h
  split at h
  · rename_i r hr; cases h; exact ⟨r, hr, rfl⟩
  · cases h

theorem State.grant_guard {s t : State} (h : s.grant = some t) : s.regs.device = .running ∧ s.fetch.read = none := by
  unfold State.grant at h
  split at h
  · rename_i hc
    rw [Bool.and_eq_true] at hc
    exact ⟨of_decide_eq_true hc.1, Option.isNone_iff_eq_none.mp hc.2⟩
  · cases h

/-- A grant goes to the stream whose turn it is in the class that is granted. -/
theorem State.grant_issues {s t : State} (h : s.grant = some t) :
    ∃ (cls : FetchClass) (k : StreamId), s.turn cls = some k ∧ s.grantsClass cls
      ∧ s.issueSlot k (s.fetch.granted cls k ((s.turn .normal).isSome = true)) = some t := by
  unfold State.grant at h
  split at h
  · split at h
    case h_1 u hu hn =>
      exact ⟨.urgent, u, hu, ⟨fun _ hw => by simp [hn] at hw, fun e => by cases e⟩,
        by simpa [FetchUnit.granted, hn] using h⟩
    case h_2 u n hu hn =>
      split at h
      · rename_i hrun
        exact ⟨.urgent, u, hu, ⟨fun _ _ => hrun, fun e => by cases e⟩, by simpa [FetchUnit.granted, hn] using h⟩
      · rename_i hrun
        exact ⟨.normal, n, hn, ⟨fun e => (by cases e), fun _ _ => Nat.not_lt.mp hrun⟩,
          by simpa [FetchUnit.granted] using h⟩
    case h_3 n hu hn =>
      exact ⟨.normal, n, hn, ⟨fun e => (by cases e), fun _ hw => by simp [hu] at hw⟩,
        by simpa [FetchUnit.granted] using h⟩
    case h_4 => cases h
  · cases h

theorem State.issueSlot_isSome {s : State} {cls : FetchClass} {k : StreamId} (h : s.turn cls = some k) (f : FetchUnit) :
    (s.issueSlot k f).isSome = true := by
  obtain ⟨_, r, hr, _⟩ := (s.candidate_iff cls k).mp (State.turn_some h).1
  simp only [State.issueSlot, hr, Option.isSome_some]

/-- A grant is made where it can be. -/
theorem State.grant_isSome_of_turn {s : State} (hrun : s.regs.device = .running) (hread : s.fetch.read = none)
    (ht : (s.turn .urgent).isSome = true ∨ (s.turn .normal).isSome = true) : s.grant.isSome = true := by
  have hguard : (s.running && s.fetch.read.isNone) = true := by simp [State.running, hrun, hread]
  rw [State.grant, if_pos hguard]
  split
  case h_1 u hu _ => exact State.issueSlot_isSome hu _
  case h_2 u n hu hn =>
    split
    · exact State.issueSlot_isSome hu _
    · exact State.issueSlot_isSome hn _
  case h_3 n _ hn => exact State.issueSlot_isSome hn _
  case h_4 hu hn => simp [hu, hn] at ht

theorem State.grant_ne_none_iff (s : State) :
    s.grant ≠ none ↔
      s.regs.device = .running ∧ s.fetch.read = none ∧ ∃ k : StreamId, (s.stream k).needsSlot = true := by
  constructor
  · intro h
    obtain ⟨t, ht⟩ := Option.ne_none_iff_exists'.mp h
    obtain ⟨hrun, hread⟩ := State.grant_guard ht
    obtain ⟨cls, k, hturn, _⟩ := State.grant_issues ht
    exact ⟨hrun, hread, k, ((s.candidate_iff cls k).mp (State.turn_some hturn).1).1⟩
  · rintro ⟨hrun, hread, k, hk⟩
    refine Option.isSome_iff_ne_none.mp (State.grant_isSome_of_turn hrun hread ?_)
    rw [s.turn_isSome_iff, s.turn_isSome_iff]
    exact ((s.needsSlot_iff_candidate k).mp hk).imp (fun h => ⟨k, h⟩) (fun h => ⟨k, h⟩)

/-- Settles O36: the grant is that of `State.grant_issues`, to the nearest candidate after the last one granted. -/
theorem grantsFollowTheClasses : Obligations.GrantsFollowTheClasses := by
  refine ⟨State.grant_ne_none_iff, Stream.needsSlot_iff, fun s t h => ?_⟩
  obtain ⟨cls, k, hturn, ⟨hurgent, hnormal⟩, hissue⟩ := State.grant_issues h
  obtain ⟨r, hr, rfl⟩ := State.issueSlot_ring hissue
  obtain ⟨hcand, hnearest⟩ := State.turn_some hturn
  obtain ⟨hneeds, q, hq, hcls⟩ := (s.candidate_iff cls k).mp hcand
  obtain rfl : r = q := Option.some.inj (hr.symm.trans hq)
  simp only [State.turn_isSome_iff] at hurgent hnormal
  refine ⟨k, r, hneeds, hr, rfl, ⟨cls, hcls, hurgent, hnormal, hnearest, rfl, rfl, ?_⟩, rfl⟩
  simp only [FetchUnit.granted, State.turn_isSome_iff]

end Sys2Proof.Machine
end

