-- ==== Sys2Proof/Proofs/RegisterWindow.lean ====
section
/-! SUPPORT. The fields of STATUS and what a stream shows; CONTROL commands taken and refused; writes to POST and RETIRE. -/

namespace Sys2Proof.Machine

set_option Elab.async false

/-! ## The codes of STATUS (R159, R172) -/

theorem Device.code_le (d : Device) : d.code ≤ 5 := by cases d <;> decide

theorem SetupError.code_le (e : SetupError) : e.code ≤ 9 := by cases e <;> decide

theorem FaultOrigin.code_le (o : FaultOrigin) : o.code ≤ 2 := by cases o <;> decide

theorem LinkState.code_le (l : LinkState) : l.code ≤ 6 := by cases l <;> decide

theorem WaitReason.code_le (r : WaitReason) : r.code ≤ 15 := by cases r <;> decide

theorem StreamCode.code_le (c : StreamCode) : c.code ≤ 15 := by
  cases c with
  | waiting r => exact r.code_le
  | _ => decide

theorem Registers.detail_eq (r : Registers) :
    r.detail = if r.device = .idle then r.setupError.code else if r.device = .fault then r.faultOrigin.code else 0 := by
  unfold Registers.detail
  cases r.device <;> rfl

theorem Registers.detail_le (r : Registers) : r.detail ≤ 9 := by
  have he := r.setupError.code_le
  have ho := r.faultOrigin.code_le
  rw [r.detail_eq]
  split
  · exact he
  · split <;> omega

/-! ## The bits of STATUS (R159, R172) -/

/-- A field of a register as a number. -/
theorem Word.field_toNat (w : Word) (low size : Nat) :
    (w.extractLsb' low size).toNat = w.toNat / 2 ^ low % 2 ^ size := by
  rw [BitVec.extractLsb'_toNat, Nat.shiftRight_eq_div_pow]

theorem State.status_fields (s : State) :
    (s.status.extractLsb' 0 3).toNat = s.regs.device.code
      ∧ (s.status.extractLsb' 3 1).toNat = 0
      ∧ (s.status.extractLsb' 4 4).toNat = s.regs.detail
      ∧ (s.status.extractLsb' 8 3).toNat = (s.head 0).link.state.code
      ∧ (s.status.extractLsb' 11 1).toNat = 0
      ∧ (s.status.extractLsb' 12 3).toNat = (s.head 1).link.state.code
      ∧ (s.status.extractLsb' 15 1).toNat = 0
      ∧ (s.status.extractLsb' 16 4).toNat = (s.streamCode 0).code
      ∧ (s.status.extractLsb' 20 4).toNat = (s.streamCode 1).code
      ∧ (s.status.extractLsb' 24 4).toNat = (s.streamCode 2).code
      ∧ (s.status.extractLsb' 28 4).toNat = (s.streamCode 3).code := by
  have hd := s.regs.device.code_le
  have he := s.regs.detail_le
  have hl0 := (s.head 0).link.state.code_le
  have hl1 := (s.head 1).link.state.code_le
  have hc0 := (s.streamCode 0).code_le
  have hc1 := (s.streamCode 1).code_le
  have hc2 := (s.streamCode 2).code_le
  have hc3 := (s.streamCode 3).code_le
  simp only [Word.field_toNat, State.status, BitVec.toNat_ofNat]
  refine ⟨?_, ?_, ?_, ?_, ?_, ?_, ?_, ?_, ?_, ?_, ?_⟩ <;> omega

/-! ## What a stream shows (R46, R58) -/

section
variable {st : Stream}

theorem Stream.shows_disabled (hr : st.ring = none) (d : Device) : st.shows d = .disabled := by
  simp only [Stream.shows, hr]

variable {r : Ring} (hr : st.ring = some r)
include hr

theorem Stream.shows_halted (hh : st.halt ≠ none) (d : Device) : st.shows d = .halted := by
  simp only [Stream.shows, hr, if_pos (Option.isSome_iff_ne_none.mpr hh)]

theorem Stream.shows_stopped (hh : st.halt = none) {d : Device} (hd : d = .stopping ∨ d = .stopped) :
    st.shows d = .stopped := by
  simp only [Stream.shows, hr, hh, Option.isSome_none, Bool.false_eq_true, if_false, if_pos hd]

/-- Below STOPPED, what the stream holds decides. -/
theorem Stream.shows_unstopped (hh : st.halt = none) {d : Device} (h1 : d ≠ .stopping) (h2 : d ≠ .stopped) :
    st.shows d
      = if st.kept ≠ [] then .waiting .completionSpace
        else st.current.elim (if r.fetch = r.post then .idle else .running) fun c =>
          (waitReason r c).elim .running .waiting := by
  simp only [Stream.shows, hr, hh, Option.isSome_none, Bool.false_eq_true, if_false, if_neg (not_or.mpr ⟨h1, h2⟩)]
  congr 1
  cases st.current with
  | none => rfl
  | some c => dsimp only [Option.elim_some]; cases waitReason r c <;> rfl

end

/-- A current record that its stream neither keeps back nor is HALTED with shows its reason to wait, or RUNNING. -/
theorem CurrentRecord.shown (r : Ring) (c : CurrentRecord) :
    (c.phase = .reading →
        (waitReason r c).elim StreamCode.running .waiting
          = if (r.post + r.size - r.fetch) % r.size < declaredSlots c.slots - c.slots.length
            then .waiting .posting else .running)
      ∧ (c.phase = .whole → (waitReason r c).elim StreamCode.running .waiting = .running)
      ∧ (c.phase = .heldJobSpace → (waitReason r c).elim StreamCode.running .waiting = .waiting .jobSpace)
      ∧ (c.phase = .heldQueueFull → (waitReason r c).elim StreamCode.running .waiting = .waiting .queueFull)
      ∧ (c.phase = .heldPaletteHazard → (waitReason r c).elim StreamCode.running .waiting = .waiting .paletteHazard)
      ∧ (c.phase = .waitLease → (waitReason r c).elim StreamCode.running .waiting = .waiting .lease)
      ∧ (c.phase = .waitPaletteRead → (waitReason r c).elim StreamCode.running .waiting = .waiting .paletteRead)
      ∧ (c.phase = .waitCondition → (waitReason r c).elim StreamCode.running .waiting = .waiting .waitRecord) := by
  refine ⟨fun h => ?_, fun h => ?_, fun h => ?_, fun h => ?_, fun h => ?_, fun h => ?_, fun h => ?_, fun h => ?_⟩
  · simp only [waitReason, h, apply_ite (fun x : Option WaitReason => x.elim StreamCode.running .waiting)]
    rfl
  all_goals simp only [waitReason, h, Option.elim_none, Option.elim_some]

/-- Settles O22: the fields by arithmetic on the number STATUS is, the stream states down R58's table. -/
theorem statusHoldsItsFields : Obligations.StatusHoldsItsFields := by
  refine ⟨fun s => ?_, rfl, rfl, rfl, rfl, rfl, rfl, fun s k => rfl, fun st d => ?_⟩
  · rw [← s.regs.detail_eq]
    exact s.status_fields
  · refine ⟨fun hr => Stream.shows_disabled hr d, fun r hr => ⟨fun hh => Stream.shows_halted hr hh d, fun hh =>
      ⟨Stream.shows_stopped hr hh, fun h1 h2 => ?_⟩⟩⟩
    rw [Stream.shows_unstopped hr hh h1 h2]
    refine ⟨fun hkept => if_pos hkept, fun hkept => ?_⟩
    rw [if_neg (not_not.mpr hkept)]
    refine ⟨fun hc => by rw [hc, Option.elim_none], fun c hc => ?_⟩
    rw [hc, Option.elim_some]
    exact CurrentRecord.shown r c

/-! ## CONTROL (R62, R63, R161, R163, R166, R167) -/

theorem Cause.mask_controlRefused : Cause.controlRefused.mask = 0x080#9 := by decide

theorem Cause.mask_postRejected : Cause.postRejected.mask = 0x040#9 := by decide

theorem Cause.mask_setup : Cause.setup.mask = 0x100#9 := by decide

theorem State.refuseControl_eq (s : State) :
    s.refuseControl = { s with regs := { s.regs with cause := s.regs.cause ||| 0x080#9 } } := by
  rw [State.refuseControl, State.raise, setCause, Cause.mask_controlRefused]

section
variable {s : State}

theorem State.startCommand_aligned (hd : s.regs.device = .idle) (ha : s.setupAddress.toNat % 64 = 0) :
    s.startCommand
      = { s with
          regs := { s.regs with device := .loading, setupError := .none }
          loader := some { address := s.setupAddress, quarters := [] } } := by
  simp only [State.startCommand, hd, if_pos ha]

theorem State.startCommand_misaligned (hd : s.regs.device = .idle) (ha : s.setupAddress.toNat % 64 ≠ 0) :
    s.startCommand
      = { s with regs := { s.regs with setupError := .tableAlign, cause := s.regs.cause ||| 0x100#9 } } := by
  simp only [State.startCommand, hd, if_neg ha, State.raise, setCause, Cause.mask_setup]

theorem State.startCommand_stopped (hd : s.regs.device = .stopped) : s.startCommand = (s.setDevice .running).settle := by
  simp only [State.startCommand, hd]

theorem State.startCommand_refused (h1 : s.regs.device ≠ .idle) (h2 : s.regs.device ≠ .stopped) :
    s.startCommand = s.refuseControl := by
  unfold State.startCommand
  split
  case h_1 hd => exact absurd hd h1
  case h_2 hd => exact absurd hd h2
  all_goals rfl

theorem State.stopCommand_refused (h : s.regs.device ≠ .running) : s.stopCommand = s.refuseControl :=
  if_neg h

theorem State.resumeCommand_taken {k : StreamId} (ha : s.active = true) (hh : (s.stream k).halt.isSome = true) :
    s.resumeCommand k = (s.setStream k { s.stream k with halt := none }).settle :=
  if_pos (Bool.and_eq_true_iff.mpr ⟨ha, hh⟩)

theorem State.resumeCommand_refused {k : StreamId} (h : s.active = false ∨ (s.stream k).halt = none) :
    s.resumeCommand k = s.refuseControl :=
  if_neg (by rcases h with h | h <;> simp [h])

theorem State.flushCommand_refused {k : StreamId} (h : s.active = false ∨ (s.stream k).ring = none) :
    s.flushCommand k = s.refuseControl :=
  if_neg (by rcases h with h | h <;> simp [h])

end

/-- Settles O26: each command by the device state and the stream it is for. -/
theorem controlCommandsAreTakenOrRefused : Obligations.ControlCommandsAreTakenOrRefused := by
  have hrefused : ∀ {s t : State}, t = s.refuseControl →
      (Host.Outcome.next t : Answer) = .next { s with regs := { s.regs with cause := s.regs.cause ||| 0x080#9 } } :=
    fun {s _} h => by rw [h, s.refuseControl_eq]
  refine ⟨fun s => ⟨fun hd ha => ?_, fun hd ha => ?_, fun hd => ?_⟩, fun k s ha hh => ?_, fun s k =>
    ⟨fun h1 h2 => hrefused (State.startCommand_refused h1 h2), fun h => hrefused (State.stopCommand_refused h),
      fun h => hrefused (State.resumeCommand_refused h), fun h => hrefused (State.flushCommand_refused h)⟩⟩
  · exact congrArg Host.Outcome.next (State.startCommand_aligned hd ha)
  · exact congrArg Host.Outcome.next (State.startCommand_misaligned hd ha)
  · exact congrArg Host.Outcome.next (State.startCommand_stopped hd)
  · exact congrArg Host.Outcome.next (State.resumeCommand_taken ha hh)

/-! ## POST and RETIRE (R46, R149) -/

section
variable {s : State} {v : Word}

theorem State.raise_postRejected (s : State) :
    s.raise .postRejected = { s with regs := { s.regs with cause := s.regs.cause ||| 0x040#9 } } := by
  rw [State.raise, setCause, Cause.mask_postRejected]

theorem State.postWrite_taken {r : Ring} (hr : (s.stream (postStream v)).ring = some r) (hv : indexField v < r.size) :
    s.postWrite v
      = (s.setStream (postStream v)
          { s.stream (postStream v) with ring := some { r with post := indexField v } }).settle := by
  simp only [State.postWrite, hr, if_pos hv]

theorem State.postWrite_outside {r : Ring} (hr : (s.stream (postStream v)).ring = some r) (hv : r.size ≤ indexField v) :
    s.postWrite v = s.raise .postRejected := by
  simp only [State.postWrite, hr, if_neg (Nat.not_lt.mpr hv)]

theorem State.postWrite_disabled (hr : (s.stream (postStream v)).ring = none) :
    s.postWrite v = s.raise .postRejected := by
  simp only [State.postWrite, hr]

theorem State.retireWrite_taken {r : CompletionRing} (hr : s.writer.ring = some r) (hv : indexField v < r.size) :
    s.retireWrite v
      = { s with writer := { s.writer with ring := some { r with retire := indexField v } } }.settle := by
  simp only [State.retireWrite, hr, if_pos hv]

theorem State.retireWrite_outside {r : CompletionRing} (hr : s.writer.ring = some r) (hv : r.size ≤ indexField v) :
    s.retireWrite v = s.raise .postRejected := by
  simp only [State.retireWrite, hr, if_neg (Nat.not_lt.mpr hv)]

theorem State.retireWrite_unloaded (hr : s.writer.ring = none) : s.retireWrite v = s.raise .postRejected := by
  simp only [State.retireWrite, hr]

end

/-- Settles O29: an index inside its ring is taken, every other write is rejected. -/
theorem postAndRetireMoveTheIndices : Obligations.PostAndRetireMoveTheIndices := by
  have hrejected : ∀ {s t : State}, t = s.raise .postRejected →
      (Host.Outcome.next t : Answer) = .next { s with regs := { s.regs with cause := s.regs.cause ||| 0x040#9 } } :=
    fun {s _} h => by rw [h, s.raise_postRejected]
  refine ⟨fun v s => ⟨fun r hr => ⟨fun hv => ?_, fun hv => hrejected (State.postWrite_outside hr hv)⟩,
      fun hr => hrejected (State.postWrite_disabled hr)⟩,
    fun v s => ⟨fun r hr => ⟨fun hv => ?_, fun hv => hrejected (State.retireWrite_outside hr hv)⟩,
      fun hr => hrejected (State.retireWrite_unloaded hr)⟩⟩
  · exact congrArg Host.Outcome.next (State.postWrite_taken hr hv)
  · exact congrArg Host.Outcome.next (State.retireWrite_taken hr hv)

end Sys2Proof.Machine
end

