-- ==== Sys2Proof/Proofs/ClaimsAndReleases.lean ====
section
/-! SUPPORT. A CLAIM by the lease it finds, with the fields of its record; a RELEASE, which hands the lease on and
reloads the staging set. -/

namespace Sys2Proof.Machine

set_option Elab.async false

/-! ## Fields (R71, R176) -/

theorem yesNoOf_eq_some (n : Nat) (b : Bool) : yesNoOf n = some b ↔ (if b = true then 1 else 0) = n := by
  unfold yesNoOf
  split
  case h_1 => cases b <;> simp
  case h_2 => cases b <;> simp
  case h_3 h0 h1 =>
    refine ⟨fun e => (by cases e), fun e => ?_⟩
    cases b
    · exact absurd e.symm h0
    · exact absurd e.symm h1

theorem claimFields_eq_some (slots : List (List Byte)) (r : ClaimRecord) :
    claimFields slots = some r ↔
      r.head.val = recordField slots 0x03 1 ∧ (if r.wait = true then 1 else 0) = recordField slots 0x10 1
        ∧ r.timeout = recordField slots 0x12 2 := by
  simp only [claimFields, Option.bind_eq_bind, Option.bind_eq_some_iff, Option.some.injEq, headField_eq_some,
    yesNoOf_eq_some]
  constructor
  · rintro ⟨h, hh, b, hb, rfl⟩
    exact ⟨hh, hb, rfl⟩
  · obtain ⟨h, b, t⟩ := r
    rintro ⟨hh, hb, rfl⟩
    exact ⟨h, hh, b, hb, rfl⟩

/-! ## CLAIM (R71, R72) -/

section
variable {s : State} {k : StreamId} {c : CurrentRecord} {r : ClaimRecord}

theorem execClaim_of_fields (hup : s.takeUp k .claim = some c) (hr : claimFields c.slots = some r) :
    exec (.claim k) s = .next (s.decideClaim k c r).settle := by
  simp only [exec, execClaim, hup, hr]

theorem State.decideClaim_free (hf : (s.head r.head).lease.holder = none) :
    s.decideClaim k c r
      = (s.setHead r.head
          { s.head r.head with lease := { (s.head r.head).lease with holder := some k } }).finish k
        { status := .done } := by
  simp only [State.decideClaim, hf]

theorem State.decideClaim_own (hf : (s.head r.head).lease.holder = some k) :
    s.decideClaim k c r = s.finish k { status := .done, flags := { alreadyHeld := true } } := by
  simp only [State.decideClaim, hf, if_true]

/-- A CLAIM that finds the lease held by another stream waits or is refused, as its wait choice says. -/
theorem State.decideClaim_other {o : StreamId} (ho : o ≠ k) (hf : (s.head r.head).lease.holder = some o) :
    s.decideClaim k c r
      = if r.wait = true then
          (s.setHead r.head
            { s.head r.head with
              lease := { (s.head r.head).lease with
                waiters := (s.head r.head).lease.waiters
                  ++ [{ ref := headerRef k c
                        remaining := if r.timeout = 0 then none else some r.timeout }] } }).setPhase k .waitLease
        else s.finish k { status := .claimRefused } := by
  simp only [State.decideClaim, hf, if_neg ho]

end

/-- Settles O39: the lease that the CLAIM finds decides. -/
theorem claimsAreDecided : Obligations.ClaimsAreDecided := by
  refine ⟨fun k s c r hup hr => ?_, claimFields_eq_some⟩
  obtain ⟨_, _, _, hc, _, hkind⟩ := s.takeUp_some k .claim c hup
  have hset : ∀ x : Head, ((s.setHead r.head x).stream k).current = some c := fun _ => hc
  rw [execClaim_of_fields hup hr]
  refine ⟨fun hfree => ?_, fun hown => ?_, fun o ho hother => ⟨fun hw => ?_, fun hw ring hring h1 h4 => ?_⟩⟩
  · rw [State.decideClaim_free hfree, State.finish_eq_recordDone (hset _) hkind rfl]
  · rw [State.decideClaim_own hown, State.finish_eq_recordDone hc hkind rfl]
  · rw [State.decideClaim_other ho hother, if_pos hw, State.setPhase_eq_recordHeld _ k c _ (hset _)]
  · rw [State.decideClaim_other ho hother, if_neg (Bool.eq_false_iff.mp hw),
      State.finish_eq_recordHalted hc hkind hring h1 h4 rfl]

/-! ## RELEASE (R74, R125, R126) -/

/-- A staging reload changes the staging set alone, and it looks at no lease. -/
theorem Head.reload_of_lease (hd : Head) (l : Lease) (b : Bool) :
    Head.reload { hd with lease := l } b = { hd with lease := l, staging := (hd.reload b).staging } := by
  unfold Head.reload
  dsimp only
  split <;> split <;> rfl

section
variable {s : State} {h : HeadId} (b : Bool)

theorem State.handOn_of_free (hw : (s.head h).lease.waiters = []) :
    s.handOn h b
      = s.setHead h
          { s.head h with lease := { holder := none, waiters := [] }, staging := ((s.head h).reload b).staging } := by
  simp only [State.handOn, hw, Head.reload_of_lease]

theorem State.handOn_of_waiter {w : Waiter} {rest : List Waiter} (hw : (s.head h).lease.waiters = w :: rest) :
    s.handOn h b
      = (s.setHead h
          { s.head h with
            lease := { holder := some w.ref.stream, waiters := rest }
            staging := ((s.head h).reload b).staging }).finishAs w.ref.stream w.ref 0x10 { status := .done } := by
  simp only [State.handOn, hw, Head.reload_of_lease]
  rfl

end

@[simp] theorem State.head_recordDone (s : State) (k : StreamId) (c : CurrentRecord) (kind : Kind) (o : Outcome)
    (h : HeadId) : (s.recordDone k c kind o).head h = s.head h := rfl

/-- The holder's RELEASE ends DONE, and then the lease is handed on. -/
theorem execRelease_of_holder {s : State} {k : StreamId} {c : CurrentRecord} {h : HeadId}
    (hup : s.takeUp k .release = some c) (hh : headField c.slots = some h) (ho : (s.head h).lease.holder = some k) :
    exec (.release k) s = .next ((s.recordDone k c .release { status := .done }).handOn h false).settle := by
  obtain ⟨_, _, _, hc, _, hkind⟩ := s.takeUp_some k .release c hup
  simp only [exec, execRelease, hup, releaseFields, hh, if_pos ((s.owns_iff k h).mpr ho),
    State.finish_eq_recordDone hc hkind (o := { status := .done }) rfl]

/-- Settles O40: the staging set is the reloaded one, and the waiters say to whom the lease goes. -/
theorem releaseHandsOn : Obligations.ReleaseHandsOn := by
  refine ⟨fun k s c h hup hh ho => ?_, fun slots h => ⟨headField_eq_some slots h, headField_eq_some slots h⟩⟩
  rw [execRelease_of_holder hup hh ho]
  refine ⟨((s.head h).reload false).staging, ?_, ?_, Head.reload_dirty _ _, Head.reload_reading _ _, fun hw => ?_,
    fun w rest hw => ?_⟩
  · rw [Head.reload_picture, newestUnlatched]
    split
    · rename_i hfind
      rw [hfind, Option.elim_some]
    · rename_i hfind
      rw [hfind, Option.elim_none]
  · simp only [Head.reload_palette, Bool.false_eq_true, or_false]
  · rw [State.handOn_of_free false (by rw [State.head_recordDone, hw]), State.head_recordDone]
  · rw [State.handOn_of_waiter false (by rw [State.head_recordDone, hw]), State.head_recordDone]

end Sys2Proof.Machine
end

