-- ==== Sys2Proof/Proofs/DueEnds.lean ====
section
/-! SUPPORT. What a mark of the timebase makes due: when a step or a waiter is due, that neither settling nor the end of
one of them makes another due, so that taking all that is due comes to an end; and the expiry of a waiter. -/

namespace Sys2Proof.Machine

set_option Elab.async false

/-! ## What is due (R73, R130) -/

theorem mem_allDue (d : Due) : d ∈ allDue := by
  cases d with
  | step h => fin_cases h <;> decide
  | waiter h k => fin_cases h <;> fin_cases k <;> decide

theorem State.mem_due_iff (s : State) (d : Due) : d ∈ s.due ↔ ∃ t : State, s.takeDue d = some t := by
  rw [State.due, List.mem_filter, Option.isSome_iff_exists, and_iff_right (mem_allDue d)]

theorem afterStep_isSome_iff (st : LinkState) (target : LinkTarget) :
    (∃ next, afterStep st target = some next) ↔ st ≠ .off ∧ st ≠ .on := by
  cases st <;> cases target <;> simp [afterStep]

theorem State.step_mem_due_iff (s : State) (h : HeadId) :
    .step h ∈ s.due ↔ s.regs.device ≠ .fault ∧ (s.head h).link.timer = some 0 ∧ (s.head h).link.state ≠ .off
      ∧ (s.head h).link.state ≠ .on := by
  rw [State.mem_due_iff, ← afterStep_isSome_iff _ (s.head h).link.target, ← and_assoc]
  simp only [State.takeDue, State.endStep, Option.ite_none_right_eq_some, Option.map_eq_some_iff, exists_and_left,
    and_congr_right_iff]
  exact fun _ => ⟨fun ⟨_, next, hn, _⟩ => ⟨next, hn⟩, fun ⟨next, hn⟩ => ⟨_, next, hn, rfl⟩⟩

theorem State.waiter_mem_due_iff (s : State) (h : HeadId) (k : StreamId) :
    .waiter h k ∈ s.due ↔
      s.active = true ∧ ∃ w ∈ (s.head h).lease.waiters, w.ref.stream = k ∧ w.remaining = some 0 := by
  have hfound : (∃ w, (s.head h).lease.due k = some w)
      ↔ ∃ w ∈ (s.head h).lease.waiters, w.ref.stream = k ∧ w.remaining = some 0 := by
    rw [← Option.isSome_iff_exists, Lease.due, List.find?_isSome]
    simp only [Bool.and_eq_true, decide_eq_true_eq]
  rw [State.mem_due_iff, ← hfound]
  simp only [State.takeDue, State.expire, Option.ite_none_right_eq_some, Option.map_eq_some_iff, exists_and_left,
    and_congr_right_iff]
  exact fun _ => ⟨fun ⟨_, w, hw, _⟩ => ⟨w, hw⟩, fun ⟨w, hw⟩ => ⟨_, w, hw, rfl⟩⟩

theorem State.not_fault_of_active {s : State} (h : s.active = true) : s.regs.device ≠ .fault := by
  intro hf
  rw [State.active, hf] at h
  cases h

theorem State.not_fault_of_due {s : State} {d : Due} (h : d ∈ s.due) : s.regs.device ≠ .fault := by
  cases d with
  | step i => exact ((s.step_mem_due_iff i).mp h).1
  | waiter i k => exact State.not_fault_of_active ((s.waiter_mem_due_iff i k).mp h).1

/-! ## What makes nothing due -/

/-- The head's link step stands, and its waiters are no others. -/
structure Head.KeepsTime (a b : Head) : Prop where
  state : b.link.state = a.link.state
  target : b.link.target = a.link.target
  timer : b.link.timer = a.link.timer
  waiters : b.lease.waiters.Sublist a.lease.waiters

/-- The timebase goes on as before, every link step stands, and no waiter is new. -/
structure State.KeepsTime (s t : State) : Prop where
  fault : t.regs.device = .fault ↔ s.regs.device = .fault
  active : t.active = s.active
  head : ∀ i : HeadId, (s.head i).KeepsTime (t.head i)

theorem Head.KeepsTime.refl (a : Head) : a.KeepsTime a := ⟨rfl, rfl, rfl, .refl _⟩

theorem Head.KeepsTime.trans {a b c : Head} (h : a.KeepsTime b) (g : b.KeepsTime c) : a.KeepsTime c :=
  ⟨g.state.trans h.state, g.target.trans h.target, g.timer.trans h.timer, g.waiters.trans h.waiters⟩

theorem Head.KeepsTime.of_same {a b : Head} (hk : b.link = a.link) (hl : b.lease = a.lease) : a.KeepsTime b := by
  refine ⟨?_, ?_, ?_, ?_⟩ <;> simp only [hk, hl, List.Sublist.refl]

theorem State.KeepsTime.refl (s : State) : s.KeepsTime s := ⟨.rfl, rfl, fun _ => .refl _⟩

theorem State.KeepsTime.trans {s t u : State} (h : s.KeepsTime t) (g : t.KeepsTime u) : s.KeepsTime u :=
  ⟨g.fault.trans h.fault, g.active.trans h.active, fun i => (h.head i).trans (g.head i)⟩

theorem State.KeepsTime.of_heads {s t : State} (hd : t.regs.device = s.regs.device)
    (hh : ∀ i : HeadId, (s.head i).KeepsTime (t.head i)) : s.KeepsTime t :=
  ⟨by rw [hd], by rw [State.active, State.active, hd], hh⟩

theorem State.KeepsTime.of_same {s t : State} (hd : t.regs.device = s.regs.device) (hh : t.heads = s.heads) :
    s.KeepsTime t :=
  .of_heads hd fun i => by rw [State.head, State.head, hh]; exact .refl _

theorem State.KeepsTime.setHead {s : State} {i : HeadId} {x : Head} (h : (s.head i).KeepsTime x) :
    s.KeepsTime (s.setHead i x) := by
  refine .of_heads rfl fun j => ?_
  rw [State.head_setHead]
  split
  · rename_i e; exact e ▸ h
  · exact .refl _

theorem State.KeepsTime.due_subset {s t : State} (h : s.KeepsTime t) {d : Due} (hd : d ∈ t.due) : d ∈ s.due := by
  cases d with
  | step i =>
    rw [State.step_mem_due_iff] at hd ⊢
    rwa [Ne, h.fault, (h.head i).timer, (h.head i).state] at hd
  | waiter i k =>
    rw [State.waiter_mem_due_iff] at hd ⊢
    obtain ⟨ha, w, hw, hdue⟩ := hd
    exact ⟨h.active ▸ ha, w, (h.head i).waiters.subset hw, hdue⟩

/-! ## Settling makes nothing due -/

theorem Head.withdraw_keepsTime (hd : Head) (k : StreamId) : hd.KeepsTime (hd.withdraw k) :=
  ⟨rfl, rfl, rfl, List.filter_sublist⟩

theorem Head.abandonRead_keepsTime (hd : Head) (k : StreamId) : hd.KeepsTime (hd.abandonRead k) := by
  obtain ⟨_, _, hlink, _, hlease, _⟩ := hd.abandonRead_same k
  exact .of_same hlink hlease

theorem Head.rewindBy_keepsTime (hd : Head) (k : StreamId) (point : Nat) (ring : Option Ring) :
    hd.KeepsTime (hd.rewindBy k point ring) := by
  obtain ⟨hlease, _, _, _, hstate, htarget, htimer, _⟩ := hd.rewindBy_same k point ring
  exact ⟨hstate, htarget, htimer, by rw [hlease]⟩

theorem Head.abandonAndReload_keepsTime (hd : Head) (h : HeadId) (k : StreamId) (counter : Word) (first : Option Word) :
    hd.KeepsTime (hd.abandonAndReload h k counter first) := by
  unfold Head.abandonAndReload
  dsimp only
  split
  · exact .of_same rfl rfl
  · exact .of_same (Head.reload_link _ _) (Head.reload_lease _ _)

theorem Head.latchStep_keepsTime (hd : Head) (h : HeadId) (kind : LatchKind) : hd.KeepsTime (hd.latchStep h kind) := by
  obtain ⟨hlease, _, hlink, _⟩ := hd.latchStep_same h kind
  exact .of_same hlink hlease

theorem State.jobsRemoved_keepsTime (s : State) (jobs : List Job) : s.KeepsTime (s.jobsRemoved jobs) :=
  .of_heads rfl fun i => by rw [State.jobsRemoved_head]; exact .of_same rfl rfl

theorem State.endJob_keepsTime (s : State) (o : Outcome) : s.KeepsTime (s.endJob o) := by
  unfold State.endJob
  split
  · exact .refl s
  · split
    · exact .trans (t := { s with engine := .free }) (.of_same rfl rfl) (State.jobsRemoved_keepsTime _ _)
    · exact .of_same rfl rfl

theorem State.haltByJob_keepsTime (s : State) (k : StreamId) (point : Nat) : s.KeepsTime (s.haltByJob k point) :=
  .of_heads rfl fun i => by
    rw [State.haltByJob_head]
    exact ((Head.withdraw_keepsTime _ k).trans (Head.abandonRead_keepsTime _ k)).trans (Head.rewindBy_keepsTime _ k _ _)

theorem State.abandonFrom_keepsTime (s : State) (k : StreamId) (first : Option Word) :
    s.KeepsTime (s.abandonFrom k first) :=
  .of_heads rfl fun i => by rw [State.abandonFrom_head]; exact Head.abandonAndReload_keepsTime _ _ _ _ _

theorem State.failJob_keepsTime (s : State) (status : Status) (written : Nat) :
    s.KeepsTime (s.failJob status written) := by
  unfold State.failJob
  split
  · exact .refl s
  · refine .trans ?_ (State.abandonFrom_keepsTime _ _ _)
    split
    · exact .of_same rfl rfl
    · refine .trans ?_ (State.haltByJob_keepsTime _ _ _)
      exact .of_same rfl rfl

theorem State.placeFrom_keepsTime {s t : State} {p : Placer} (h : s.placeFrom p = some t) : s.KeepsTime t := by
  have hplace : ∀ (u : State) (cs : List Completion), u.KeepsTime (u.place cs) := fun u cs => .of_same rfl rfl
  rcases s.placeFrom_cases t p h with ⟨_, _, _, rfl⟩ | ⟨_, _, _, _, _, rfl⟩ | ⟨_, _, _, _, _, rfl⟩
    | ⟨_, _, _, _, _, rfl⟩
  · exact (hplace s _).trans (State.jobsRemoved_keepsTime _ _)
  · exact .of_same rfl rfl
  · refine .trans (.setHead ?_) (hplace _ _)
    exact ⟨rfl, rfl, rfl, .refl _⟩
  · refine .trans (.setHead ?_) (hplace _ _)
    exact .of_same rfl rfl

theorem Follows.keepsTime {s t : State} (m : Follows s t) : s.KeepsTime t := by
  cases m with
  | choose => exact .of_same rfl rfl
  | phase p => exact .of_same rfl rfl
  | pixelDone wrote => exact .of_same (by rw [s.pixelDone_regs wrote]) (s.pixelDone_heads wrote)
  | endJob o => exact s.endJob_keepsTime o
  | failJob status written => exact s.failJob_keepsTime status written
  | window j c w _ _ => exact .of_same rfl rfl
  | placed j m _ => exact .of_same rfl rfl

theorem State.finish_keepsTime (s : State) (k : StreamId) (o : Outcome) : s.KeepsTime (s.finish k o) :=
  .of_same (by rw [s.finish_regs k o]) (s.finish_heads k o)

theorem Starts.keepsTime {s t : State} (m : Starts s t) : s.KeepsTime t := by
  cases m with
  | stop hd _ => exact ⟨by simp [State.setDevice, hd], by simp [State.active, State.setDevice, hd], fun _ => .refl _⟩
  | latch i _ _ _ => exact .setHead (Head.latchStep_keepsTime _ _ _)
  | answer n a _ => exact .of_same rfl rfl
  | wait k c o _ _ _ => exact s.finish_keepsTime k o
  | present _ k _ ht =>
    obtain ⟨_, _, _, _, _, _, _, rfl, _, rfl⟩ := s.dispatchPresent_some t k ht
    refine .trans (t := s.setStream k _) ?_ (.setHead ?_)
    · exact .of_same rfl rfl
    · exact .of_same rfl rfl
  | palette _ k _ ht =>
    obtain ⟨_, _, _, _, _, _, _, rfl⟩ := s.dispatchPalette_some t k ht
    refine .trans (.setHead ?_) (.of_same rfl rfl)
    exact .of_same rfl rfl
  | job _ k _ ht =>
    obtain ⟨_, _, _, _, _, _, _, _, rfl⟩ := s.dispatchJob_some t k ht
    exact .of_same rfl rfl
  | engine jobs _ _ => exact .of_same rfl rfl
  | place _ p ht => exact State.placeFrom_keepsTime ht
  | grant _ ht =>
    obtain ⟨_, _, _, _, rfl⟩ := s.grant_some t ht
    exact .of_same rfl rfl
  | write _ ht =>
    obtain ⟨_, _, rfl⟩ := s.issueWrite_some t ht
    exact .of_same rfl rfl

theorem State.settle_keepsTime (s : State) : s.KeepsTime s.settle :=
  State.settle_keeps_of_moves s.KeepsTime (fun _ _ m h => h.trans m.keepsTime) (fun _ _ m h => h.trans m.keepsTime) s
    (.refl s)

/-! ## Links (R89, R130, R131) -/

theorem State.latchAll_keepsTime (n : Nat) (h : HeadId) (s : State) : s.KeepsTime (State.latchAll n h s) := by
  induction n generalizing s with
  | zero => exact .refl s
  | succ n ih =>
    unfold State.latchAll
    split
    · rename_i t ht; exact (State.latchNow_moves h s t ht).keepsTime.trans (ih t)
    · exact .refl s

theorem State.completeWaits_keepsTime (s : State) : s.KeepsTime s.completeWaits := by
  have hone : ∀ (k : StreamId) (t : State), t.KeepsTime ((State.completeWait k t).getD t) := fun k t => by
    cases h : State.completeWait k t with
    | none => exact .refl t
    | some u =>
      obtain ⟨_, o, _, _, _, rfl⟩ := t.completeWait_some u k h
      exact t.finish_keepsTime k o
  exact (((hone 0 s).trans (hone 1 _)).trans (hone 2 _)).trans (hone 3 _)

theorem State.scanStopped_keepsTime (s : State) (h : HeadId) : s.KeepsTime (s.scanStopped h) :=
  .trans (t := { s with jobs := bypassGates h s.jobs }) (.of_same rfl rfl)
    ((State.latchAll_keepsTime _ h _).trans (State.completeWaits_keepsTime _))

/-- What an entry brings about beside the head's own change makes nothing due. -/
theorem State.enterLink_keepsTime (s : State) (h : HeadId) (st : LinkState) :
    (s.setHead h ((s.head h).enter st)).KeepsTime (s.enterLink h st) := by
  cases st with
  | quiescing => exact State.scanStopped_keepsTime _ h
  | _ => exact .of_same rfl rfl

theorem Link.complete_same (l : Link) :
    l.complete.state = l.state ∧ l.complete.target = l.target ∧ l.complete.timer = l.timer := by
  unfold Link.complete
  split <;> exact ⟨rfl, rfl, rfl⟩

theorem Head.enter_link (hd : Head) (st : LinkState) :
    (hd.enter st).link.state = st ∧ (hd.enter st).link.target = hd.link.target
      ∧ (hd.enter st).link.timer = hd.link.delayOf st := by
  cases st with
  | off =>
    simp only [Head.enter]
    split
    · exact Link.complete_same _
    · exact ⟨rfl, rfl, rfl⟩
  | on =>
    simp only [Head.enter]
    split
    · exact Link.complete_same _
    · exact ⟨rfl, rfl, rfl⟩
  | _ => exact ⟨rfl, rfl, rfl⟩

theorem Head.enter_lease (hd : Head) (st : LinkState) : (hd.enter st).lease = hd.lease := by
  cases st <;> rfl

theorem State.enterLink_link (s : State) (h : HeadId) (st : LinkState) :
    ((s.enterLink h st).head h).link.target = (s.head h).link.target
      ∧ ((s.enterLink h st).head h).link.timer = (s.head h).link.delayOf st := by
  have hkeeps := (s.enterLink_keepsTime h st).head h
  rw [State.head_setHead_same] at hkeeps
  obtain ⟨_, htarget, htimer⟩ := (s.head h).enter_link st
  exact ⟨hkeeps.target.trans htarget, hkeeps.timer.trans htimer⟩

/-- How many entries a passage can have at most, from the entry to a state on. -/
def LinkState.entriesFrom (st : LinkState) (target : LinkTarget) : Nat :=
  match st, target with
  | .on, _ => 1
  | .off, .off => 1
  | .off, .on => 4
  | .signalling, .on => 2
  | .signalling, .off => 4
  | .powering, _ => 3
  | .unpowering, .off => 2
  | .unpowering, .on => 5
  | .quiescing, .off => 3
  | .quiescing, .on => 6
  | .darkening, .off => 4
  | .darkening, .on => 7

theorem LinkState.entriesFrom_pos (st : LinkState) (target : LinkTarget) : 0 < st.entriesFrom target := by
  cases st <;> cases target <;> decide

theorem LinkState.entriesFrom_le (st : LinkState) (target : LinkTarget) : st.entriesFrom target ≤ linkEntries := by
  cases st <;> cases target <;> decide

theorem entriesFrom_afterStep {st next : LinkState} {target : LinkTarget} (h : afterStep st target = some next) :
    next.entriesFrom target < st.entriesFrom target := by
  cases st <;> cases target <;> cases h <;> decide

/-- The passage of a link: it goes on from an entry, to a state from which fewer entries can follow, or ends where no
timer stands at 0. -/
theorem State.linkTo_step (n : Nat) (s : State) (h : HeadId) (st : LinkState) :
    (∃ next : LinkState, next.entriesFrom (s.head h).link.target < st.entriesFrom (s.head h).link.target
        ∧ s.linkTo (n + 1) h st = (s.enterLink h st).linkTo n h next)
      ∨ s.linkTo (n + 1) h st = s.enterLink h st ∧ ((s.enterLink h st).head h).link.timer ≠ some 0 := by
  obtain ⟨htarget, htimer⟩ := s.enterLink_link h st
  rw [← htarget, State.linkTo.eq_def]
  dsimp only
  split
  · split
    · rename_i hon
      exact .inl ⟨.powering, by rw [hon]; decide, rfl⟩
    · exact .inr ⟨rfl, by rw [htimer]; exact nofun⟩
  · rename_i hoff
    split
    · rename_i hzero
      split
      · rename_i next hnext
        exact .inl ⟨next, entriesFrom_afterStep hnext, rfl⟩
      · rename_i hnone
        obtain rfl : st = .on := by_contra fun hon => by
          obtain ⟨next, hnext⟩ := (afterStep_isSome_iff st _).mpr ⟨hoff, hon⟩
          exact absurd (hnone.symm.trans hnext) nofun
        exact absurd (htimer.symm.trans hzero) nofun
    · rename_i hzero
      exact .inr ⟨rfl, hzero⟩

/-- A link that has gone on as far as it can has no step whose timer stands at 0. -/
theorem State.linkTo_timer (n : Nat) (s : State) (h : HeadId) (st : LinkState)
    (hn : st.entriesFrom (s.head h).link.target ≤ n) : ((s.linkTo n h st).head h).link.timer ≠ some 0 := by
  induction n generalizing s st with
  | zero => exact absurd hn (Nat.not_le.mpr (st.entriesFrom_pos _))
  | succ n ih =>
    rcases s.linkTo_step n h st with ⟨next, hlt, heq⟩ | ⟨heq, hzero⟩
    · rw [heq]
      refine ih _ next ?_
      rw [(s.enterLink_link h st).1]
      omega
    · rw [heq]
      exact hzero

/-- The entry to a link state makes nothing due but the step of its own head. -/
theorem State.enterLink_due {s : State} {h : HeadId} {st : LinkState} {d : Due} (hd : d ∈ (s.enterLink h st).due)
    (hne : d ≠ .step h) : d ∈ s.due := by
  have hset := (s.enterLink_keepsTime h st).due_subset hd
  cases d with
  | step i =>
    have hi : i ≠ h := fun e => hne (congrArg Due.step e)
    rw [State.step_mem_due_iff, State.head_setHead, if_neg hi] at hset
    exact (s.step_mem_due_iff i).mpr hset
  | waiter i k =>
    have hlease : ((s.setHead h ((s.head h).enter st)).head i).lease = (s.head i).lease := by
      rw [State.head_setHead]
      split
      · rename_i e; rw [e, Head.enter_lease]
      · rfl
    rw [State.waiter_mem_due_iff, hlease] at hset
    exact (s.waiter_mem_due_iff i k).mpr hset

theorem State.linkTo_due {n : Nat} {s : State} {h : HeadId} {st : LinkState} {d : Due}
    (hd : d ∈ (s.linkTo n h st).due) (hne : d ≠ .step h) : d ∈ s.due := by
  induction n generalizing s st with
  | zero => exact hd
  | succ n ih =>
    rcases s.linkTo_step n h st with ⟨next, _, heq⟩ | ⟨heq, _⟩
    · rw [heq] at hd
      exact State.enterLink_due (ih hd) hne
    · rw [heq] at hd
      exact State.enterLink_due hd hne

/-! ## What is due is taken -/

/-- The end of a due step leaves it no longer due, and makes nothing due. -/
theorem State.endStep_due {s t : State} {h : HeadId} (e : s.endStep h = some t) {d : Due} (hd : d ∈ t.due) :
    d ≠ .step h ∧ d ∈ s.due := by
  simp only [State.endStep, Option.ite_none_right_eq_some, Option.map_eq_some_iff] at e
  obtain ⟨_, next, _, rfl⟩ := e
  have hmoved := (State.settle_keepsTime _).due_subset hd
  have hne : d ≠ .step h := by
    rintro rfl
    exact s.linkTo_timer _ h next (next.entriesFrom_le _) ((State.step_mem_due_iff _ h).mp hmoved).2.1
  exact ⟨hne, State.linkTo_due hmoved hne⟩

/-- The expiry of a due waiter leaves it no longer due, and makes nothing due. -/
theorem State.expire_due {s t : State} {h : HeadId} {k : StreamId} (e : s.expire h k = some t) {d : Due}
    (hd : d ∈ t.due) : d ≠ .waiter h k ∧ d ∈ s.due := by
  simp only [State.expire, Option.ite_none_right_eq_some, Option.map_eq_some_iff] at e
  obtain ⟨_, w, _, rfl⟩ := e
  have hended := (State.settle_keepsTime _).due_subset hd
  have hset : d ∈ (s.setHead h ((s.head h).withdraw k)).due := by
    refine State.KeepsTime.due_subset ?_ hended
    exact .of_same rfl rfl
  refine ⟨?_, (State.KeepsTime.setHead (Head.withdraw_keepsTime _ k)).due_subset hset⟩
  rintro rfl
  obtain ⟨_, v, hv, hk, _⟩ := (State.waiter_mem_due_iff _ h k).mp hset
  rw [State.head_setHead_same] at hv
  exact of_decide_eq_true (List.mem_filter.mp hv).2 hk

theorem State.takeDue_due {s t : State} {d : Due} (e : s.takeDue d = some t) {x : Due} (hx : x ∈ t.due) :
    x ≠ d ∧ x ∈ s.due := by
  cases d with
  | step h => exact State.endStep_due e hx
  | waiter h k => exact State.expire_due e hx

/-- Each end taken leaves fewer due. -/
theorem State.takeDue_due_lt {s t : State} {d : Due} (e : s.takeDue d = some t) : t.due.length < s.due.length := by
  have hd : d ∈ s.due := (s.mem_due_iff d).mpr ⟨t, e⟩
  have hsub : t.due = s.due.filter (fun x => (t.takeDue x).isSome) := by
    rw [State.due, State.due, List.filter_filter]
    refine List.filter_congr fun x _ => ?_
    rw [Bool.eq_iff_iff, Bool.and_eq_true, Option.isSome_iff_exists, Option.isSome_iff_exists, ← State.mem_due_iff,
      ← State.mem_due_iff, iff_self_and]
    exact fun hx => (State.takeDue_due e hx).2
  rw [hsub]
  refine List.length_filter_lt_length_iff_exists.mpr ⟨d, hd, fun hsome => ?_⟩
  exact (State.takeDue_due e ((t.mem_due_iff d).mpr (Option.isSome_iff_exists.mp hsome))).1 rfl

/-- Where neither of two states has something due that the other has not, the same is due. -/
theorem State.KeepsTime.due_eq {s t : State} (h : s.KeepsTime t) (g : t.KeepsTime s) : t.due = s.due := by
  refine List.filter_congr fun x _ => ?_
  rw [Bool.eq_iff_iff, Option.isSome_iff_exists, Option.isSome_iff_exists, ← State.mem_due_iff, ← State.mem_due_iff]
  exact ⟨h.due_subset, g.due_subset⟩

theorem State.pick_due (s : State) (n : Nat) : (s.pick n).2.due = s.due := by
  rcases s.pick_state n with e | e <;> rw [e]
  exact State.KeepsTime.due_eq (.of_same rfl rfl) (.of_same rfl rfl)

/-- Where something is due, one of what is due is taken, and then the rest. -/
theorem State.takeAllDue_succ (s : State) (n : Nat) (hdue : s.due ≠ []) :
    ∃ (d : Due) (v : State), d ∈ s.due ∧ (s.pick s.due.length).2.takeDue d = some v ∧ v.due.length < s.due.length
      ∧ s.takeAllDue (n + 1) = v.takeAllDue n := by
  have hlt : (s.pick s.due.length).1 < s.due.length := s.pick_lt _ (List.length_pos_iff.mpr hdue)
  set d : Due := s.due.getD (s.pick s.due.length).1 (.step 0) with hd
  have hmem : d ∈ s.due := by
    rw [hd, List.getD_eq_getElem _ _ hlt]
    exact List.getElem_mem hlt
  obtain ⟨v, hv⟩ := ((s.pick s.due.length).2.mem_due_iff d).mp (by rwa [s.pick_due])
  refine ⟨d, v, hmem, hv, ?_, ?_⟩
  · have hless := State.takeDue_due_lt hv
    rwa [s.pick_due] at hless
  · rw [State.takeAllDue, if_neg (by simpa using hdue)]
    dsimp only
    rw [← hd, hv, Option.getD_some]

theorem State.takeAllDue_due (n : Nat) (s : State) (hn : s.due.length ≤ n) : (s.takeAllDue n).due = [] := by
  induction n generalizing s with
  | zero => exact List.length_eq_zero_iff.mp (Nat.le_zero.mp hn)
  | succ n ih =>
    by_cases hdue : s.due = []
    · rw [State.takeAllDue_of_none _ s hdue, hdue]
    · obtain ⟨_, v, _, _, hlt, heq⟩ := s.takeAllDue_succ n hdue
      rw [heq]
      exact ih v (by omega)

/-- What alone is due is taken as it stands: there is no choice. -/
theorem State.takeAllDue_single {s v : State} {d : Due} (hdue : s.due = [d]) (hv : s.takeDue d = some v) :
    s.takeAllDue s.due.length = v := by
  have hpick : (s.pick s.due.length).2 = s := by rw [hdue]; rfl
  obtain ⟨x, t, hx, ht, _, heq⟩ := s.takeAllDue_succ 0 (by rw [hdue]; exact List.cons_ne_nil _ _)
  rw [hdue, List.mem_singleton] at hx
  rw [hpick, hx, hv] at ht
  obtain rfl := Option.some.inj ht
  rw [hdue]
  exact heq

/-! ## The mark (R73, R130) -/

theorem exec_millisecondMark_of_fault {s : State} (h : s.regs.device = .fault) : exec .millisecondMark s = .next s := by
  simp only [exec, execMillisecondMark, if_pos h]

theorem exec_millisecondMark {s : State} (h : s.regs.device ≠ .fault) :
    exec .millisecondMark s = .next (s.takeAllDue s.due.length).ticked := by
  simp only [exec, execMillisecondMark, if_neg h]

/-- A mark at which one end alone is due makes that end and then counts. -/
theorem exec_millisecondMark_of_single {s : State} {d : Due} (hdue : s.due = [d]) :
    ∃ v : State, s.takeDue d = some v ∧ exec .millisecondMark s = .next v.ticked := by
  have hd : d ∈ s.due := by rw [hdue]; exact List.mem_cons_self
  obtain ⟨v, hv⟩ := (s.mem_due_iff d).mp hd
  exact ⟨v, hv, by rw [exec_millisecondMark (State.not_fault_of_due hd), State.takeAllDue_single hdue hv]⟩

theorem Head.tick_eq (hd : Head) :
    hd.tick
      = { hd with
          lease := { hd.lease with
            waiters := hd.lease.waiters.map (fun w =>
              { w with remaining := match w.remaining with
                  | some n => some (n - 1)
                  | none => none }) }
          link := { hd.link with timer := match hd.link.timer with
              | some n => some (n - 1)
              | none => none } } := by
  have hwaiter : ∀ w : Waiter, w.tick
      = { w with remaining := match w.remaining with
            | some n => some (n - 1)
            | none => none } := fun w => by
    rw [Waiter.tick]
    cases w.remaining <;> rfl
  rw [Head.tick, List.map_congr_left (fun w _ => hwaiter w)]
  cases hd.link.timer <;> rfl

/-! ## The expiry of a waiter (R73, R76) -/

theorem exec_waiterExpiry_of_not_due {s : State} {h : HeadId} {k : StreamId} (hd : .waiter h k ∉ s.due) :
    exec (.waiterExpiry h k) s = .next s := by
  have hnone : s.expire h k = none := by
    rw [Option.eq_none_iff_forall_ne_some]
    exact fun t ht => hd ((s.mem_due_iff _).mpr ⟨t, ht⟩)
  simp only [exec, execWaiterExpiry, hnone, Option.getD_none]

/-- The one waiter of the stream on the head is the one found due. -/
theorem Lease.due_eq_some {l : Lease} {k : StreamId} {w : Waiter} (hw : w ∈ l.waiters) (hk : w.ref.stream = k)
    (hzero : w.remaining = some 0) (hone : ∀ v ∈ l.waiters, v.ref.stream = k → v = w) : l.due k = some w := by
  have hsome : (l.due k).isSome = true := by
    rw [Lease.due, List.find?_isSome]
    exact ⟨w, hw, by simp [hk, hzero]⟩
  obtain ⟨v, hv⟩ := Option.isSome_iff_exists.mp hsome
  have hfound := List.find?_some hv
  rw [hv, hone v (List.mem_of_find?_eq_some hv) (of_decide_eq_true (Bool.and_eq_true_iff.mp hfound).1)]

theorem State.finishAs_eq_recordHalted {s : State} {k : StreamId} {c : CurrentRecord} {r : Ring} (kind : Kind)
    (hc : (s.stream k).current = some c) (hr : (s.stream k).ring = some r) (h1 : 1 ≤ declaredSlots c.slots)
    (h4 : declaredSlots c.slots ≤ 4) {status : Status} (hs : status.halting = true) :
    s.finishAs k (headerRef k c) kind.code { status := status } = s.recordHalted k r c kind status := by
  rw [State.finishAs_halting hr _ _ hs, hc, haltSlots_of_declared h1 h4]
  rfl

/-- A due waiter leaves the list, and its CLAIM ends CLAIM_TIMEOUT. -/
theorem exec_waiterExpiry_of_due {s : State} {h : HeadId} {k : StreamId} {w : Waiter} (ha : s.active = true)
    (hw : (s.head h).lease.due k = some w) :
    exec (.waiterExpiry h k) s
      = .next ((s.setHead h ((s.head h).withdraw k)).finishAs k w.ref Kind.claim.code
          { status := .claimTimeout }).settle := by
  simp only [exec, execWaiterExpiry, State.expire, if_pos ha, hw, Option.map_some, Option.getD_some]

/-- Settles O56: what is due is taken one by one, each end leaving fewer due. -/
theorem waitersCountDownAndExpire : Obligations.WaitersCountDownAndExpire := by
  refine ⟨fun s => ⟨exec_millisecondMark_of_fault, fun hf hdue => ?_, fun hf => ⟨s.takeAllDue_due _ le_rfl,
      exec_millisecondMark hf⟩, fun n => s.takeAllDue_of_none n, fun n hdue => ?_, fun d => (s.mem_due_iff d).mp,
      fun h v => execLinkStepEnd_of_due h s v, fun h k v => execWaiterExpiry_of_due h k s v, fun h hdue => ?_,
      fun h k hdue => ?_⟩,
    fun s => ⟨rfl, fun h => (s.ticked_head h).trans (s.head h).tick_eq⟩,
    fun s h => ⟨s.step_mem_due_iff h, s.waiter_mem_due_iff h⟩, fun h k s => exec_waiterExpiry_of_not_due,
    fun h k s w c r ha hw hzero hone href hc hr h1 h4 => ?_⟩
  · rw [exec_millisecondMark hf, State.takeAllDue_of_none _ s hdue]
  · obtain ⟨d, v, hd, hv, hlt, heq⟩ := s.takeAllDue_succ n hdue
    exact ⟨d, _, v, hd, s.pick_state _, hv, hlt, heq⟩
  · obtain ⟨v, hv, hmark⟩ := exec_millisecondMark_of_single hdue
    exact ⟨v, execLinkStepEnd_of_due h s v hv, hmark⟩
  · obtain ⟨v, hv, hmark⟩ := exec_millisecondMark_of_single hdue
    exact ⟨v, execWaiterExpiry_of_due h k s v hv, hmark⟩
  · have hk : w.ref.stream = k := by rw [href]; rfl
    rw [exec_waiterExpiry_of_due ha (Lease.due_eq_some hw hk hzero hone), href]
    exact congrArg (fun t => Host.Outcome.next t.settle)
      (State.finishAs_eq_recordHalted (s := s.setHead h ((s.head h).withdraw k)) .claim hc hr h1 h4
        (status := .claimTimeout) rfl)

end Sys2Proof.Machine
end

