-- ==== Sys2Proof/Proofs/PresentQueues.lean ====
section
/-! SUPPORT. The law of the places of one present queue and of the order of its entries, and the operations on a queue that
keep both: evaluation, a latch step, an abandonment, a new entry, a placement, a completion written. -/

namespace Sys2Proof.Machine

set_option Elab.async false

/-! ## Completions that take places, and the keys they name -/

/-- How many of some completions are those of ABANDONED entries. -/
def abandonedCount (cs : List Completion) : Nat := (cs.filter (fun c => c.isAbandoned)).length

/-- The keys of the other completions. -/
def latchKeys (cs : List Completion) : List (StreamId × Nat × Nat) := (cs.filter (fun c => !c.isAbandoned)).map Completion.key

/-- The keys of the LATCHED and SKIPPED entries. -/
def settledKeys (es : List Entry) : List (StreamId × Nat × Nat) := (es.filter (fun e => !e.unlatched)).map Entry.key

/-- Every LATCHED or SKIPPED entry stands before every WAITING or READY one. -/
def SettledFirst (es : List Entry) : Prop := es.Pairwise (fun a b => b.unlatched = false → a.unlatched = false)

@[simp] theorem abandonedCount_append (cs ds : List Completion) :
    abandonedCount (cs ++ ds) = abandonedCount cs + abandonedCount ds := by
  simp [abandonedCount]

@[simp] theorem latchKeys_append (cs ds : List Completion) : latchKeys (cs ++ ds) = latchKeys cs ++ latchKeys ds := by
  simp [latchKeys]

@[simp] theorem settledKeys_append (es fs : List Entry) : settledKeys (es ++ fs) = settledKeys es ++ settledKeys fs := by
  simp [settledKeys]

theorem abandonedCount_cons (c : Completion) (cs : List Completion) :
    abandonedCount (c :: cs) = (if c.isAbandoned = true then 1 else 0) + abandonedCount cs := by
  cases h : c.isAbandoned <;> simp [abandonedCount, h, Nat.add_comm]

theorem latchKeys_cons (c : Completion) (cs : List Completion) :
    latchKeys (c :: cs) = (if c.isAbandoned = true then [] else [c.key]) ++ latchKeys cs := by
  cases h : c.isAbandoned <;> simp [latchKeys, h]

theorem settledKeys_cons (e : Entry) (es : List Entry) :
    settledKeys (e :: es) = (if e.unlatched = true then [] else [e.key]) ++ settledKeys es := by
  cases h : e.unlatched <;> simp [settledKeys, h]

theorem abandonedCount_perm {cs ds : List Completion} (h : cs.Perm ds) : abandonedCount cs = abandonedCount ds :=
  (h.filter _).length_eq

theorem latchKeys_perm {cs ds : List Completion} (h : cs.Perm ds) : (latchKeys cs).Perm (latchKeys ds) :=
  (h.filter _).map _

/-- Each completion is one of an ABANDONED entry or names the key of another. -/
theorem length_eq_abandoned_add_latchKeys (cs : List Completion) :
    cs.length = abandonedCount cs + (latchKeys cs).length := by
  rw [abandonedCount, latchKeys, List.length_map]
  exact List.length_eq_length_filter_add _

theorem settledKeys_length_le (es : List Entry) : (settledKeys es).length ≤ es.length := by
  rw [settledKeys, List.length_map]
  exact List.length_filter_le _ _

/-- Unlatched entries have no completion. -/
theorem settledKeys_unlatched {es : List Entry} (h : ∀ e ∈ es, e.unlatched = true) : settledKeys es = [] := by
  rw [settledKeys, List.map_eq_nil_iff, List.filter_eq_nil_iff]
  exact fun e he => by simp [h e he]

/-- A change of entries that keeps what is unlatched, and what names their completions. -/
theorem settledKeys_map {f : Entry → Entry} (hu : ∀ e, (f e).unlatched = e.unlatched) (hk : ∀ e, (f e).key = e.key)
    (es : List Entry) : settledKeys (es.map f) = settledKeys es := by
  induction es with
  | nil => rfl
  | cons e rest ih => rw [List.map_cons, settledKeys_cons, settledKeys_cons, hu, hk, ih]

theorem SettledFirst.map {f : Entry → Entry} (hu : ∀ e, (f e).unlatched = e.unlatched) {es : List Entry}
    (h : SettledFirst es) : SettledFirst (es.map f) := by
  rw [SettledFirst, List.pairwise_map]
  exact List.Pairwise.imp (fun {a b} hab => by rw [hu, hu]; exact hab) h

theorem SettledFirst.sublist {es fs : List Entry} (h : SettledFirst es) (hs : fs.Sublist es) : SettledFirst fs :=
  List.Pairwise.sublist hs h

/-- Settled entries may be put before any others. -/
theorem SettledFirst.append_left {es fs : List Entry} (he : ∀ e ∈ es, e.unlatched = false) (hf : SettledFirst fs) :
    SettledFirst (es ++ fs) := by
  refine List.pairwise_append.mpr ⟨?_, hf, fun a ha _ _ _ => he a ha⟩
  exact List.Pairwise.imp_of_mem (R := fun _ _ => True) (fun {a b} ha _ _ _ => he a ha)
    (List.pairwise_of_forall fun _ _ => trivial)

/-- An unlatched entry may join the tail. -/
theorem SettledFirst.concat {es : List Entry} {e : Entry} (h : SettledFirst es) (he : e.unlatched = true) :
    SettledFirst (es ++ [e]) := by
  refine List.pairwise_append.mpr ⟨h, List.pairwise_singleton _ _, fun a _ b hb hf => ?_⟩
  rw [List.mem_singleton] at hb
  rw [hb, he] at hf
  cases hf

/-! ## The law of one queue -/

/-- The law of head `h`'s queue, of whose completions `placed` stand in the outbound list. -/
structure Present.Lawful (p : Present) (h : HeadId) (placed : List Completion) : Prop where
  own : ∀ c ∈ p.outbox, c.origin = some h
  places : p.places ≤ queuePlaces
  abandoned : abandonedCount (placed ++ p.outbox) = p.abandoned
  keys : (latchKeys (placed ++ p.outbox)).Perm (settledKeys p.entries)

/-- A lawful queue has as many completions not yet written as places for them, four at most. -/
theorem Present.Lawful.placed_le {p : Present} {h : HeadId} {placed : List Completion} (hp : p.Lawful h placed) :
    placed.length ≤ 4 := by
  have hall := length_eq_abandoned_add_latchKeys (placed ++ p.outbox)
  rw [hp.abandoned, hp.keys.length_eq, List.length_append] at hall
  have hsettled := settledKeys_length_le p.entries
  have hplaces : p.entries.length + p.abandoned ≤ 4 := hp.places
  omega

/-- A queue that goes from one state to another without a completion placed or written keeps its law and its order. -/
structure Present.Evolves (h : HeadId) (p q : Present) : Prop where
  lawful : ∀ placed : List Completion, p.Lawful h placed → q.Lawful h placed
  ordered : SettledFirst p.entries → SettledFirst q.entries

theorem Present.Evolves.refl (h : HeadId) (p : Present) : p.Evolves h p := ⟨fun _ => id, id⟩

theorem Present.Evolves.of_eq {h : HeadId} {p q : Present} (e : q = p) : p.Evolves h q := e ▸ .refl h p

theorem Present.Evolves.trans {h : HeadId} {p q r : Present} (a : p.Evolves h q) (b : q.Evolves h r) : p.Evolves h r :=
  ⟨fun placed hp => b.lawful placed (a.lawful placed hp), b.ordered ∘ a.ordered⟩

/-- A change of entries that keeps what is unlatched, and what names their completions. -/
theorem Present.Evolves.map (h : HeadId) (p : Present) {f : Entry → Entry} (hu : ∀ e, (f e).unlatched = e.unlatched)
    (hk : ∀ e, (f e).key = e.key) : p.Evolves h { p with entries := p.entries.map f } where
  lawful placed hp := by
    refine ⟨hp.own, ?_, hp.abandoned, ?_⟩
    · have hplaces := hp.places
      rwa [Present.places, ← List.length_map (f := f)] at hplaces
    · rw [settledKeys_map hu hk]
      exact hp.keys
  ordered := SettledFirst.map hu

theorem Entry.evaluated_unlatched (e : Entry) (jobs : List Job) (streams : Four Stream) :
    (e.evaluated jobs streams).unlatched = e.unlatched := by
  unfold Entry.evaluated
  split
  · rename_i hw; simp [Entry.unlatched, hw.1]
  · rfl

theorem Entry.evaluated_key (e : Entry) (jobs : List Job) (streams : Four Stream) :
    (e.evaluated jobs streams).key = e.key := by
  unfold Entry.evaluated
  split <;> rfl

theorem Present.evaluated_evolves (h : HeadId) (p : Present) (jobs : List Job) (streams : Four Stream) :
    p.Evolves h (p.evaluated jobs streams) :=
  .map h p (fun e => e.evaluated_unlatched jobs streams) fun e => e.evaluated_key jobs streams

/-! ## A new entry (R113, R114) -/

/-- An unlatched entry joins a queue with a free place. -/
theorem Present.Evolves.concat {h : HeadId} {p : Present} (hroom : p.places < queuePlaces) {e : Entry}
    (he : e.unlatched = true) : p.Evolves h { p with entries := p.entries ++ [e] } where
  lawful placed hp := by
    refine ⟨hp.own, ?_, hp.abandoned, ?_⟩
    · rw [Present.places] at hroom ⊢
      simp only [List.length_append, List.length_singleton]
      omega
    · rw [settledKeys_append, settledKeys_unlatched (es := [e]) (by simp [he]), List.append_nil]
      exact hp.keys
  ordered ho := ho.concat he

/-! ## Latch steps (R117, R120, R122) -/

/-- A completion that is placed names its entry; a suppressed one leaves no LATCHED entry behind. -/
theorem Entry.latchKeys_reportAs_done (e : Entry) (h : HeadId) (a : Word) (flags : Flags) :
    latchKeys (e.reportAs h .done a flags) = settledKeys (e.keptLatched flags) := by
  have hsame : suppressed e.ref.silent { status := .done, valueA := a, valueB := BitVec.ofNat 32 e.missed, flags := flags }
      = suppressed e.ref.silent { status := .done, flags := flags } := rfl
  unfold Entry.reportAs report Entry.keptLatched
  rw [hsame]
  split
  · rfl
  · rfl

theorem Entry.latchKeys_reportAs_skipped (e : Entry) (h : HeadId) (a : Word) (flags : Flags) :
    latchKeys (e.reportAs h .skipped a flags) = [e.key] := by
  rw [Entry.reportAs, report_of_ne_done _ _ _ _ (by simp)]
  rfl

theorem latchKeys_flatMap_skipped (es : List Entry) (h : HeadId) (a : Word) (flags : Flags) :
    latchKeys (es.flatMap (fun e => e.reportAs h .skipped a flags)) = es.map Entry.key := by
  induction es with
  | nil => rfl
  | cons e rest ih => rw [List.flatMap_cons, latchKeys_append, e.latchKeys_reportAs_skipped, ih]; rfl

theorem settledKeys_skipped (es : List Entry) :
    settledKeys (es.map (fun e => { e with state := .skipped })) = es.map Entry.key := by
  induction es with
  | nil => rfl
  | cons e rest ih => rw [List.map_cons, settledKeys_cons, ih]; rfl

/-- The completions of a latch step are none of ABANDONED entries. -/
theorem abandonedCount_eq_zero {cs : List Completion} (h : ∀ c ∈ cs, c.isAbandoned = false) : abandonedCount cs = 0 := by
  rw [abandonedCount, List.length_eq_zero_iff, List.filter_eq_nil_iff]
  exact fun c hc => by simp [h c hc]

theorem Entry.reportAs_origin {e : Entry} {h : HeadId} {status : Status} {a : Word} {flags : Flags} {c : Completion}
    (hc : c ∈ e.reportAs h status a flags) : c.origin = some h :=
  report_origin _ _ _ _ c hc

theorem Entry.reportAs_isAbandoned {e : Entry} {h : HeadId} {status : Status} {a : Word} {flags : Flags} {c : Completion}
    (hc : c ∈ e.reportAs h status a flags) : c.isAbandoned = decide (status = .abandoned) := by
  rw [Completion.isAbandoned, report_status _ _ _ _ c hc]

theorem missOldest_length (es : List Entry) : (missOldest es).length = es.length := by
  cases es <;> rfl

theorem missOldest_settledKeys (es : List Entry) : settledKeys (missOldest es) = settledKeys es := by
  cases es with
  | nil => rfl
  | cons e rest => rw [missOldest, settledKeys_cons, settledKeys_cons]; rfl

theorem settledPart_append_openPart (es : List Entry) : settledPart es ++ openPart es = es :=
  List.takeWhile_append_dropWhile

theorem settledPart_settled {es : List Entry} {e : Entry} (he : e ∈ settledPart es) : e.unlatched = false := by
  have hs := List.mem_takeWhile_imp (p := fun e : Entry => !e.unlatched) he
  simpa using hs

theorem SettledFirst.missOldest {es : List Entry} (h : SettledFirst es) : SettledFirst (missOldest es) := by
  cases es with
  | nil => exact h
  | cons e rest =>
    obtain ⟨he, hrest⟩ := List.pairwise_cons.mp h
    exact List.pairwise_cons.mpr ⟨he, hrest⟩

/-- A blanking step with an empty prefix raises a missed count alone. -/
theorem Present.Evolves.missed (h : HeadId) (p : Present) :
    p.Evolves h { p with entries := settledPart p.entries ++ missOldest (openPart p.entries) } where
  lawful placed hp := by
    refine ⟨hp.own, ?_, hp.abandoned, ?_⟩
    · have hlen := congrArg List.length (settledPart_append_openPart p.entries)
      have hplaces := hp.places
      rw [List.length_append] at hlen
      rw [Present.places] at hplaces ⊢
      simp only [List.length_append, missOldest_length]
      omega
    · rw [settledKeys_append, missOldest_settledKeys, ← settledKeys_append, settledPart_append_openPart]
      exact hp.keys
  ordered ho := by
    refine SettledFirst.append_left (fun e he => settledPart_settled he) (SettledFirst.missOldest ?_)
    exact ho.sublist (List.dropWhile_sublist _)

/-- A latch step gives each entry it skips or latches a completion, unless the entry leaves at once. -/
theorem Present.Evolves.latched {h : HeadId} {p : Present} {settled skipped rest : List Entry} {target : Entry}
    (hes : p.entries = settled ++ (skipped ++ target :: rest)) (hs : ∀ e ∈ settled, e.unlatched = false)
    (hk : ∀ e ∈ skipped, e.unlatched = true) (ht : target.unlatched = true) (a : Word) (flags flags' : Flags) :
    p.Evolves h
      { p with
        entries := settled ++ skipped.map (fun e => { e with state := .skipped }) ++ target.keptLatched flags ++ rest
        outbox := p.outbox ++ skipped.flatMap (fun e => e.reportAs h .skipped a flags')
          ++ target.reportAs h .done a flags } := by
  have hkept : (target.keptLatched flags).length ≤ 1 := by
    unfold Entry.keptLatched
    split <;> simp
  have hkeptSettled : ∀ e ∈ target.keptLatched flags, e.unlatched = false := fun e he => by
    unfold Entry.keptLatched at he
    split at he
    · cases he
    · rw [List.mem_singleton.mp he]; rfl
  have hold : settledKeys p.entries = settledKeys settled ++ settledKeys rest := by
    rw [hes, settledKeys_append, settledKeys_append, settledKeys_cons, settledKeys_unlatched hk, if_pos ht]
    rfl
  have hskipped : ∀ c ∈ skipped.flatMap (fun e => e.reportAs h .skipped a flags'),
      c.origin = some h ∧ c.isAbandoned = false := fun c hc => by
    obtain ⟨e, _, hc⟩ := List.mem_flatMap.mp hc
    exact ⟨Entry.reportAs_origin hc, Entry.reportAs_isAbandoned hc⟩
  refine ⟨fun placed hp => ⟨fun c hc => ?_, ?_, ?_, ?_⟩, fun ho => ?_⟩
  · rcases List.mem_append.mp hc with hc | hc
    · exact (List.mem_append.mp hc).elim (hp.own c) fun hc => (hskipped c hc).1
    · exact Entry.reportAs_origin hc
  · have hplaces := hp.places
    rw [Present.places, hes] at hplaces
    simp only [Present.places, List.length_append, List.length_map, List.length_cons] at hplaces ⊢
    omega
  · have hnone := abandonedCount_eq_zero fun c hc => (hskipped c hc).2
    have hdone := abandonedCount_eq_zero (cs := target.reportAs h .done a flags) fun c hc =>
      Entry.reportAs_isAbandoned hc
    have habandoned := hp.abandoned
    simp only [abandonedCount_append, hnone, hdone] at habandoned ⊢
    exact habandoned
  · have hkeys := hp.keys
    rw [hold] at hkeys
    simp only [latchKeys_append, latchKeys_flatMap_skipped, Entry.latchKeys_reportAs_done, settledKeys_append,
      settledKeys_skipped, ← List.append_assoc] at hkeys ⊢
    rw [List.append_assoc _ (skipped.map Entry.key), List.append_assoc _ (skipped.map Entry.key)]
    refine (hkeys.append_right _).trans ?_
    rw [List.append_assoc, List.append_assoc]
    exact List.Perm.append_left _ List.perm_append_comm
  · have hrest : SettledFirst rest :=
      ho.sublist (hes ▸ (((List.sublist_cons_self target rest).trans (List.sublist_append_right skipped _)).trans
        (List.sublist_append_right settled _)))
    refine SettledFirst.append_left (fun e he => ?_) hrest
    rcases List.mem_append.mp he with he | he
    · rcases List.mem_append.mp he with he | he
      · exact hs e he
      · obtain ⟨d, _, rfl⟩ := List.mem_map.mp he
        rfl
    · exact hkeptSettled e he

theorem Head.latchStep_evolves (hd : Head) (h : HeadId) (kind : LatchKind) :
    hd.present.Evolves h (hd.latchStep h kind).present := by
  by_cases hr : readyRun hd.present.entries kind hd.scan.frame = []
  · unfold Head.latchStep
    simp only [hr, List.drop_nil]
    cases kind with
    | blanking => exact .missed h hd.present
    | immediate => exact .refl h hd.present
  · obtain ⟨skipped, rest, target, copies, flags, hes, hsk, htg, _, _, heq⟩ := hd.latchStep_target h kind hr
    rw [heq]
    exact .latched hes (fun e he => settledPart_settled he) (fun e he => e.unlatched_of_eligible kind _ (hsk e he))
      (target.unlatched_of_eligible kind _ htg) _ _ _

/-! ## Abandonment (R122 to R124) -/

/-- The keys of completions of ABANDONED entries are none of those that name a LATCHED or SKIPPED one. -/
theorem latchKeys_abandoned (es : List Entry) (h : HeadId) : latchKeys (es.map (fun e => e.abandoned h)) = [] := by
  induction es with
  | nil => rfl
  | cons e rest ih => rw [List.map_cons, latchKeys_cons, ih]; rfl

theorem abandonedCount_abandoned (es : List Entry) (h : HeadId) :
    abandonedCount (es.map (fun e => e.abandoned h)) = es.length := by
  induction es with
  | nil => rfl
  | cons e rest ih =>
    rw [List.map_cons, abandonedCount_cons, ih, List.length_cons, Nat.add_comm]
    rfl

/-- The unlatched entries that leave hand their places to their completions. -/
theorem Present.Evolves.abandoned (h : HeadId) (p : Present) {gone : Entry → Bool}
    (hg : ∀ e : Entry, gone e = true → e.unlatched = true) :
    p.Evolves h
      { entries := p.entries.filter (fun e => !gone e), abandoned := p.abandoned + (p.entries.filter gone).length
        outbox := p.outbox ++ (p.entries.filter gone).map (fun e => e.abandoned h) } where
  lawful placed hp := by
    refine ⟨fun c hc => ?_, ?_, ?_, ?_⟩
    · rcases List.mem_append.mp hc with hc | hc
      · exact hp.own c hc
      · obtain ⟨e, _, rfl⟩ := List.mem_map.mp hc
        rfl
    · have hsplit := List.length_eq_length_filter_add gone (l := p.entries)
      have hplaces := hp.places
      rw [Present.places] at hplaces ⊢
      simp only
      omega
    · have habandoned := hp.abandoned
      simp only [abandonedCount_append, abandonedCount_abandoned] at habandoned ⊢
      omega
    · have hkept : settledKeys (p.entries.filter (fun e => !gone e)) = settledKeys p.entries := by
        rw [settledKeys, settledKeys, List.filter_filter]
        refine congrArg _ (List.filter_congr fun e _ => ?_)
        cases hge : gone e
        · simp
        · simp [hg e hge]
      have hkeys := hp.keys
      simp only [latchKeys_append, latchKeys_abandoned, List.append_nil, hkept] at hkeys ⊢
      exact hkeys
  ordered ho := ho.sublist List.filter_sublist

theorem Head.abandon_evolves (hd : Head) (h : HeadId) (k : StreamId) (counter : Word) (first : Option Word) :
    hd.present.Evolves h (hd.abandon h k counter first).present := by
  have hlost := Present.Evolves.abandoned h hd.present (gone := fun e => e.condemned k counter first) fun e he =>
    e.unlatched_of_condemned k counter first he
  rwa [← flatMap_reportAs_abandoned] at hlost

/-! ## Placements and completions written (R122, R145, R148) -/

/-- A list with one of its members taken out. -/
theorem sublist_without {α : Type} {l before after : List α} {a : α} (h : l = before ++ a :: after) :
    (before ++ after).Sublist l :=
  h ▸ (List.Sublist.refl before).append (List.sublist_cons_self a after)

/-- A Present Unit places a completion. -/
theorem Present.Lawful.place {h : HeadId} {p : Present} {placed before after : List Completion} {c : Completion}
    (hp : p.Lawful h placed) (hout : p.outbox = before ++ c :: after) :
    Present.Lawful { p with outbox := before ++ after } h (placed ++ [c]) := by
  have hperm : (placed ++ [c] ++ (before ++ after)).Perm (placed ++ p.outbox) := by
    rw [hout, List.append_assoc]
    exact List.Perm.append_left placed (List.perm_middle (a := c) (l₁ := before) (l₂ := after)).symm
  refine ⟨fun d hd => hp.own d ((sublist_without hout).subset hd), hp.places, ?_, (latchKeys_perm hperm).trans hp.keys⟩
  rw [← hp.abandoned]
  exact abandonedCount_perm hperm

theorem Entry.ownCompletion_iff (e : Entry) (c : Completion) :
    e.ownCompletion c = true ↔ e.unlatched = false ∧ e.key = c.key := by
  simp only [Entry.ownCompletion, Entry.key, Completion.key, Bool.and_eq_true, Bool.not_eq_true', decide_eq_true_iff,
    Prod.mk.injEq, and_assoc]

/-- The entry that leaves with a completion written is the first LATCHED or SKIPPED one that it names. -/
theorem settledKeys_dropWritten (c : Completion) (es : List Entry) :
    settledKeys (dropWritten c es) = (settledKeys es).erase c.key := by
  induction es with
  | nil => rfl
  | cons e rest ih =>
    rw [dropWritten, settledKeys_cons]
    split
    · rename_i ho
      obtain ⟨hu, hkey⟩ := (e.ownCompletion_iff c).mp ho
      rw [hu, hkey, if_neg (by decide), List.singleton_append, List.erase_cons_head]
    · rename_i ho
      rw [settledKeys_cons, ih]
      cases hu : e.unlatched
      · have hkey : e.key ≠ c.key := fun hk => ho ((e.ownCompletion_iff c).mpr ⟨hu, hk⟩)
        rw [if_neg (by decide), List.singleton_append, List.singleton_append,
          List.erase_cons_tail (by simpa using hkey)]
      · rfl

/-- A completion of the queue is written: it gives up its place. -/
theorem Present.Lawful.written {h : HeadId} {p : Present} {placed : List Completion} {c : Completion}
    (hp : p.Lawful h (c :: placed)) : (p.written c).Lawful h placed := by
  have hplaces := hp.places
  have habandoned := hp.abandoned
  have hkeys := hp.keys
  rw [List.cons_append, abandonedCount_cons] at habandoned
  rw [List.cons_append, latchKeys_cons] at hkeys
  unfold Present.written
  by_cases hc : c.isAbandoned = true
  · rw [if_pos hc] at habandoned hkeys
    rw [if_pos (of_decide_eq_true hc)]
    refine ⟨hp.own, ?_, ?_, hkeys⟩
    · rw [Present.places] at hplaces ⊢
      simp only
      omega
    · simp only
      omega
  · rw [if_neg hc] at habandoned hkeys
    rw [if_neg (fun e => hc (decide_eq_true e))]
    refine ⟨hp.own, ?_, by simpa using habandoned, ?_⟩
    · have hlen := (dropWritten_sublist c p.entries).length_le
      rw [Present.places] at hplaces ⊢
      simp only
      omega
    · rw [settledKeys_dropWritten]
      have herase := hkeys.erase c.key
      rwa [List.singleton_append, List.erase_cons_head] at herase

theorem SettledFirst.written {p : Present} (h : SettledFirst p.entries) (c : Completion) :
    SettledFirst (p.written c).entries := by
  unfold Present.written
  split
  · exact h
  · exact h.sublist (dropWritten_sublist c _)

end Sys2Proof.Machine
end

