-- ==== Sys2Proof/Proofs/OutboundLaw.lean ====
section
/-! SUPPORT. The law of the outbound list and the order of the queues, under the moves of a reaction and the operations that
commands are built from. Most change no queue but by the operations above and place nothing; a placement and a written
completion move one completion between the outbound list and its block. -/

namespace Sys2Proof.Machine

set_option Elab.async false

/-! ## The law, queue by queue -/

/-- What the Sequencers and the Link Controllers have to place is of class OTHER. -/
def State.OthersKept (s : State) : Prop :=
  (∀ k : StreamId, ∀ c ∈ (s.stream k).kept, c.origin = none) ∧ ∀ h : HeadId, ∀ c ∈ (s.head h).link.held, c.origin = none

/-- The completions of head `h` that stand in the outbound list. -/
def State.placedOf (s : State) (h : HeadId) : List Completion := s.writer.outbound.filter (fun c => c.fromHead h)

/-- The law of the outbound list, queue by queue. -/
structure State.LawfulQueues (s : State) : Prop where
  kept : s.OthersKept
  queues : ∀ h : HeadId, (s.head h).present.Lawful h (s.placedOf h)
  others : s.othersBounded

theorem State.outboundLaw_iff (s : State) : s.outboundLaw ↔ s.LawfulQueues := by
  constructor
  · rintro ⟨⟨hown, hkept, hheld⟩, hplaces, hothers⟩
    refine ⟨⟨hkept, hheld⟩, fun h => ?_, hothers⟩
    obtain ⟨hfour, habandoned, hkeys⟩ := hplaces h
    exact ⟨hown h, hfour, habandoned, hkeys⟩
  · rintro ⟨⟨hkept, hheld⟩, hqueues, hothers⟩
    exact ⟨⟨fun h => (hqueues h).own, hkept, hheld⟩,
      fun h => ⟨(hqueues h).places, (hqueues h).abandoned, (hqueues h).keys⟩, hothers⟩

/-! ## Changes that place nothing -/

/-- The head's queue evolves, and its Link Controller comes to hold completions of class OTHER alone. -/
structure Head.Evolves (h : HeadId) (a b : Head) : Prop where
  present : a.present.Evolves h b.present
  held : ∀ c ∈ b.link.held, c ∈ a.link.held ∨ c.origin = none

/-- The outbound list stands, every queue evolves, and what is kept to be placed stays of class OTHER. -/
structure State.Evolves (s t : State) : Prop where
  outbound : t.writer.outbound = s.writer.outbound
  kept : s.OthersKept → t.OthersKept
  queues : ∀ h : HeadId, (s.head h).present.Evolves h (t.head h).present

theorem Head.Evolves.refl (h : HeadId) (a : Head) : a.Evolves h a := ⟨.refl h _, fun _ hc => .inl hc⟩

theorem Head.Evolves.trans {h : HeadId} {a b c : Head} (f : a.Evolves h b) (g : b.Evolves h c) : a.Evolves h c :=
  ⟨f.present.trans g.present, fun d hd => (g.held d hd).elim (f.held d) .inr⟩

/-- A head whose queue and held completions stand. -/
theorem Head.Evolves.of_same {h : HeadId} {a b : Head} (hp : b.present = a.present) (hl : b.link.held = a.link.held) :
    a.Evolves h b :=
  ⟨.of_eq hp, fun _ hc => .inl (hl ▸ hc)⟩

theorem State.Evolves.refl (s : State) : s.Evolves s := ⟨rfl, id, fun h => .refl h _⟩

theorem State.Evolves.trans {s t u : State} (f : s.Evolves t) (g : t.Evolves u) : s.Evolves u :=
  ⟨g.outbound.trans f.outbound, g.kept ∘ f.kept, fun h => (f.queues h).trans (g.queues h)⟩

/-- A change of streams and heads that makes completions of class OTHER alone. -/
theorem State.Evolves.of_parts {s t : State} (hw : t.writer.outbound = s.writer.outbound)
    (hs : ∀ k : StreamId, ∀ c ∈ (t.stream k).kept, c ∈ (s.stream k).kept ∨ c.origin = none)
    (hh : ∀ h : HeadId, (s.head h).Evolves h (t.head h)) : s.Evolves t where
  outbound := hw
  kept hk := ⟨fun k c hc => (hs k c hc).elim (hk.1 k c) id, fun h c hc => ((hh h).held c hc).elim (hk.2 h c) id⟩
  queues h := (hh h).present

/-- A change of heads alone. -/
theorem State.Evolves.of_heads {s t : State} (hw : t.writer.outbound = s.writer.outbound) (hs : t.streams = s.streams)
    (hh : ∀ h : HeadId, (s.head h).Evolves h (t.head h)) : s.Evolves t :=
  .of_parts hw (fun k c hc => .inl (by rwa [State.stream, hs] at hc)) hh

/-- A change of nothing that the law speaks of. -/
theorem State.Evolves.of_same {s t : State} (hw : t.writer.outbound = s.writer.outbound) (hs : t.streams = s.streams)
    (hh : t.heads = s.heads) : s.Evolves t :=
  .of_heads hw hs fun h => by rw [State.head, State.head, hh]; exact .refl h _

theorem State.Evolves.setHead {s : State} {i : HeadId} {x : Head} (h : (s.head i).Evolves i x) :
    s.Evolves (s.setHead i x) := by
  refine .of_heads rfl rfl fun j => ?_
  rw [State.head_setHead]
  split
  · rename_i e; exact e ▸ h
  · exact .refl j _

theorem State.Evolves.mapHeads {s : State} {f : Head → Head} (h : ∀ (i : HeadId) (hd : Head), hd.Evolves i (f hd)) :
    s.Evolves { s with heads := s.heads.map f } :=
  .of_heads rfl rfl fun i => by
    change (s.heads.get i).Evolves i ((s.heads.map f).get i)
    rw [Two.get_map]
    exact h i _

/-- A stream comes to keep completions of class OTHER alone. -/
theorem State.Evolves.setStream {s : State} {k : StreamId} {x : Stream}
    (h : ∀ c ∈ x.kept, c ∈ (s.stream k).kept ∨ c.origin = none) : s.Evolves (s.setStream k x) := by
  refine .of_parts rfl (fun j c hc => ?_) fun i => .refl i _
  rw [State.stream_setStream] at hc
  split at hc
  · rename_i e; exact e ▸ h c hc
  · exact .inl hc

/-- A stream with some completions more of class OTHER. -/
theorem mem_append_report {cs : List Completion} {ref : RecordRef} {kind : Byte} {o : Outcome} {c : Completion}
    (h : c ∈ cs ++ report ref kind o) : c ∈ cs ∨ c.origin = none :=
  (List.mem_append.mp h).imp id (report_origin ref kind o none c)

/-! ## Heads -/

theorem Head.withdrawn_evolves (h : HeadId) (hd : Head) (k : StreamId) : hd.Evolves h (hd.withdrawn k) :=
  .of_same (hd.withdrawn_same k).1 (by rw [(hd.withdrawn_link_light k).1])

theorem Head.rewindBy_evolves (h : HeadId) (hd : Head) (k : StreamId) (point : Nat) (ring : Option Ring) :
    hd.Evolves h (hd.rewindBy k point ring) := by
  cases ring <;> exact .of_same rfl rfl

theorem Head.reload_evolves (h : HeadId) (hd : Head) (b : Bool) : hd.Evolves h (hd.reload b) :=
  .of_same (hd.reload_present b) (by rw [hd.reload_link])

theorem Head.Evolves.abandon (hd : Head) (h : HeadId) (k : StreamId) (counter : Word) (first : Option Word) :
    hd.Evolves h (hd.abandon h k counter first) :=
  ⟨hd.abandon_evolves h k counter first, fun _ hc => .inl hc⟩

theorem Head.abandonAndReload_evolves (hd : Head) (h : HeadId) (k : StreamId) (counter : Word) (first : Option Word) :
    hd.Evolves h (hd.abandonAndReload h k counter first) := by
  unfold Head.abandonAndReload
  dsimp only
  split
  · exact .abandon hd h k counter first
  · exact (Head.Evolves.abandon hd h k counter first).trans (Head.reload_evolves h _ _)

theorem Head.Evolves.latchStep (hd : Head) (h : HeadId) (kind : LatchKind) : hd.Evolves h (hd.latchStep h kind) :=
  ⟨hd.latchStep_evolves h kind, fun c hc => .inl (by rwa [(hd.latchStep_same h kind).2.2.1] at hc)⟩

theorem Head.ramp_evolves (h : HeadId) (hd : Head) : hd.Evolves h hd.ramp := by
  refine ⟨.of_eq hd.ramp_same.2.2.1, fun c hc => ?_⟩
  unfold Head.ramp at hc
  dsimp only at hc
  split at hc
  · split at hc
    · split at hc
      · exact mem_append_report hc
      · exact .inl hc
    · exact .inl hc
  · exact .inl hc

theorem Link.complete_held (l : Link) (c : Completion) (hc : c ∈ l.complete.held) : c ∈ l.held ∨ c.origin = none := by
  unfold Link.complete at hc
  split at hc
  · exact mem_append_report hc
  · exact .inl hc

theorem Light.superseded_origin (b : Light) (c : Completion) (hc : c ∈ b.superseded) : c.origin = none := by
  unfold Light.superseded at hc
  split at hc
  · exact report_origin _ _ _ none c hc
  · cases hc

theorem Head.enter_evolves (h : HeadId) (hd : Head) (st : LinkState) : hd.Evolves h (hd.enter st) := by
  cases st with
  | off =>
    refine ⟨.refl h _, fun c hc => ?_⟩
    simp only [Head.enter] at hc
    split at hc
    · exact Link.complete_held { hd.link with state := .off, timer := hd.link.delayOf .off } c hc
    · exact .inl hc
  | on =>
    refine ⟨.refl h _, fun c hc => ?_⟩
    simp only [Head.enter] at hc
    split at hc
    · exact Link.complete_held { hd.link with state := .on, timer := hd.link.delayOf .on } c hc
    · exact .inl hc
  | darkening => exact ⟨.refl h _, fun c hc => (List.mem_append.mp hc).imp id (hd.light.superseded_origin c)⟩
  | _ => exact .of_same rfl rfl

theorem Head.blankingStart_evolves (h : HeadId) (hd : Head) (frozen : Bool) : hd.Evolves h (hd.blankingStart h frozen) := by
  unfold Head.blankingStart
  split
  · exact .refl h hd
  · exact (Head.Evolves.latchStep hd h .blanking).trans (Head.ramp_evolves h _)

/-! ## Ends of current records, jobs and leases -/

theorem State.finishAs_evolves (s : State) (k : StreamId) (ref : RecordRef) (kind : Byte) (o : Outcome) :
    s.Evolves (s.finishAs k ref kind o) := by
  refine .setStream fun c hc => ?_
  split at hc <;> exact mem_append_report hc

theorem State.finish_evolves (s : State) (k : StreamId) (o : Outcome) : s.Evolves (s.finish k o) := by
  unfold State.finish
  split
  · exact s.finishAs_evolves k _ _ o
  · exact .refl s

theorem State.setPhase_evolves (s : State) (k : StreamId) (p : RecordPhase) : s.Evolves (s.setPhase k p) :=
  .setStream fun _ hc => .inl hc

theorem State.dropCurrent_evolves (s : State) (k : StreamId) : s.Evolves (s.dropCurrent k) :=
  .setStream fun _ hc => .inl hc

theorem State.handOn_evolves (s : State) (h : HeadId) (b : Bool) : s.Evolves (s.handOn h b) := by
  have hleased : ∀ l : Lease, s.Evolves (s.setHead h (Head.reload { s.head h with lease := l } b)) := fun l =>
    .setHead (.trans (b := { s.head h with lease := l }) (.of_same rfl rfl) (Head.reload_evolves h _ b))
  unfold State.handOn
  dsimp only
  split
  · exact hleased _
  · exact (hleased _).trans (State.finishAs_evolves _ _ _ _ _)

theorem State.jobsRemoved_evolves (s : State) (jobs : List Job) : s.Evolves (s.jobsRemoved jobs) :=
  .of_heads rfl rfl fun h => by
    rw [s.jobsRemoved_head jobs h]
    exact ⟨Present.evaluated_evolves h _ jobs s.streams, fun _ hc => .inl hc⟩

theorem State.endJob_evolves (s : State) (o : Outcome) : s.Evolves (s.endJob o) := by
  unfold State.endJob
  split
  · exact .refl s
  · split
    · exact .trans (t := { s with engine := .free }) (.of_same rfl rfl rfl) (State.jobsRemoved_evolves _ _)
    · exact .of_same rfl rfl rfl

theorem State.haltByJob_evolves (s : State) (k : StreamId) (point : Nat) : s.Evolves (s.haltByJob k point) := by
  refine .trans (t := s.setStream k ({ s.stream k with current := none }.haltAt ((s.stream k).wrap point)))
    (.setStream fun _ hc => .inl hc) (.of_heads rfl rfl fun h => ?_)
  rw [s.haltByJob_head k point h]
  exact (Head.withdrawn_evolves h (s.head h) k).trans (Head.rewindBy_evolves h _ k _ _)

theorem State.abandonFrom_evolves (s : State) (k : StreamId) (first : Option Word) : s.Evolves (s.abandonFrom k first) :=
  .of_heads rfl rfl fun h => by
    rw [s.abandonFrom_head k first h]
    exact Head.abandonAndReload_evolves _ h k _ first

theorem State.failJob_evolves (s : State) (status : Status) (written : Nat) : s.Evolves (s.failJob status written) := by
  unfold State.failJob
  split
  · exact .refl s
  · dsimp only
    refine .trans ?_ (State.abandonFrom_evolves _ _ _)
    split
    · exact .of_same rfl rfl rfl
    · refine .trans ?_ (State.haltByJob_evolves _ _ _)
      exact .of_same rfl rfl rfl

/-! ## The moves of a reaction -/

theorem Follows.evolves {s t : State} (m : Follows s t) : s.Evolves t := by
  cases m with
  | pixelDone wrote =>
    exact .of_same (by rw [s.pixelDone_writer wrote]) (s.pixelDone_streams wrote) (s.pixelDone_heads wrote)
  | endJob o => exact s.endJob_evolves o
  | failJob status written => exact s.failJob_evolves status written
  | choose => exact .of_same rfl rfl rfl
  | phase p => exact .of_same rfl rfl rfl
  | window j c w _ _ => exact .of_same rfl rfl rfl
  | placed j m _ => exact .of_same rfl rfl rfl

theorem FollowsAll.evolves {s t : State} (m : FollowsAll s t) : s.Evolves t :=
  m.keeps s.Evolves (fun _ _ m h => h.trans m.evolves) (.refl s)

theorem newEntry_unlatched (ref : RecordRef) (r : PresentRecord) (hd : Head) (batch : Word) (jobs : List Job)
    (streams : Four Stream) : ((newEntry ref r hd batch).evaluated jobs streams).unlatched = true :=
  Entry.evaluated_unlatched _ jobs streams

theorem State.dispatchPresent_evolves {s t : State} {k : StreamId} (h : s.dispatchPresent k = some t) : s.Evolves t := by
  obtain ⟨c, r, u, e, _, _, hroom, rfl, rfl, rfl⟩ := s.dispatchPresent_some t k h
  refine .trans (t := s.setStream k { s.stream k with current := none, batch := (s.stream k).batch + 1 })
    (.setStream fun _ hc => .inl hc) (.setHead ⟨?_, fun _ hc => .inl hc⟩)
  exact .concat hroom (newEntry_unlatched _ _ _ _ _ _)

theorem State.dispatchPalette_evolves {s t : State} {k : StreamId} (h : s.dispatchPalette k = some t) : s.Evolves t := by
  obtain ⟨c, r, read, _, _, _, _, rfl⟩ := s.dispatchPalette_some t k h
  refine .trans (t := s.setHead r.head
    { s.head r.head with staging := { (s.head r.head).staging with reading := some read } }) (.setHead ?_)
    (State.setPhase_evolves _ k _)
  exact .of_same rfl rfl

theorem State.dispatchJob_evolves {s t : State} {k : StreamId} (h : s.dispatchJob k = some t) : s.Evolves t := by
  obtain ⟨_, _, _, _, _, _, _, _, rfl⟩ := s.dispatchJob_some t k h
  exact (s.dropCurrent_evolves k).trans (.of_same rfl rfl rfl)

/-! ## Changes that keep the law -/

/-- The state after keeps the law of the outbound list and the order of the queues. -/
structure State.KeepsOutbound (s t : State) : Prop where
  lawful : s.LawfulQueues → t.LawfulQueues
  ordered : s.queuesOrdered → t.queuesOrdered

theorem State.KeepsOutbound.refl (s : State) : s.KeepsOutbound s := ⟨id, id⟩

theorem State.KeepsOutbound.trans {s t u : State} (f : s.KeepsOutbound t) (g : t.KeepsOutbound u) : s.KeepsOutbound u :=
  ⟨g.lawful ∘ f.lawful, g.ordered ∘ f.ordered⟩

theorem State.Evolves.keepsOutbound {s t : State} (h : s.Evolves t) : s.KeepsOutbound t where
  lawful hs := by
    refine ⟨h.kept hs.kept, fun i => ?_, ?_⟩
    · rw [State.placedOf, h.outbound]
      exact (h.queues i).lawful _ (hs.queues i)
    · rw [State.othersBounded, h.outbound]
      exact hs.others
  ordered hs i := (h.queues i).ordered (hs i)

/-- A change of nothing that the law speaks of. -/
theorem State.KeepsOutbound.of_same {s t : State} (hw : t.writer.outbound = s.writer.outbound)
    (hs : t.streams = s.streams) (hh : t.heads = s.heads) : s.KeepsOutbound t :=
  (State.Evolves.of_same hw hs hh).keepsOutbound

/-! ## Placements (R144, R145) -/

theorem State.placedOf_place (s : State) (c : Completion) (h : HeadId) :
    (s.place [c]).placedOf h = s.placedOf h ++ if c.fromHead h = true then [c] else [] := by
  rw [State.placedOf, State.place, List.filter_append, List.filter_singleton]
  cases c.fromHead h <;> rfl

/-- Class OTHER has room for one more. -/
theorem State.place_othersBounded {s : State} (hroom : otherRoom s.writer.outbound = true) (c : Completion) :
    (s.place [c]).othersBounded := by
  have hlt : (s.writer.outbound.filter (fun c => c.origin.isNone)).length < maxOther := of_decide_eq_true hroom
  have hle := List.length_filter_le (fun c : Completion => c.origin.isNone) [c]
  rw [State.othersBounded, State.place, List.filter_append, List.length_append]
  rw [List.length_singleton] at hle
  omega

/-- A completion of class OTHER that its block has given up is placed. -/
theorem State.KeepsOutbound.placeOther {s u : State} (h : s.Evolves u) {c : Completion}
    (hc : s.OthersKept → c.origin = none) (hroom : otherRoom s.writer.outbound = true) :
    s.KeepsOutbound (u.place [c]) where
  lawful hs := by
    have hu := h.keepsOutbound.lawful hs
    refine ⟨hu.kept, fun i => ?_, State.place_othersBounded (by rwa [h.outbound]) c⟩
    have hother : ¬ c.fromHead i = true := by simp [Completion.fromHead, hc hs.kept]
    rw [State.placedOf_place, if_neg hother, List.append_nil]
    exact hu.queues i
  ordered := h.keepsOutbound.ordered

/-- A Present Unit's completion is placed. -/
theorem State.KeepsOutbound.placeCommit {s : State} {h : HeadId} {c : Completion} {before after : List Completion}
    (hout : (s.head h).present.outbox = before ++ c :: after) :
    s.KeepsOutbound ((s.setHead h
      { s.head h with present := { (s.head h).present with outbox := before ++ after } }).place [c]) := by
  set x : Head := { s.head h with present := { (s.head h).present with outbox := before ++ after } } with hx
  have hhead : ∀ i : HeadId, ((s.setHead h x).place [c]).head i = if i = h then x else s.head i :=
    fun i => s.head_setHead h i x
  refine ⟨fun hs => ⟨⟨hs.kept.1, fun i => ?_⟩, fun i => ?_, ?_⟩, fun hs i => ?_⟩
  · rw [hhead]
    split
    · exact hs.kept.2 h
    · exact hs.kept.2 i
  · have hown := (hs.queues h).own c (by rw [hout]; simp)
    rw [hhead, State.placedOf_place]
    by_cases hi : i = h
    · subst hi
      rw [if_pos rfl, if_pos (by simp [Completion.fromHead, hown])]
      exact (hs.queues i).place hout
    · rw [if_neg hi, if_neg (by simpa [Completion.fromHead, hown] using Ne.symm hi), List.append_nil]
      exact hs.queues i
  · have hown := (hs.queues h).own c (by rw [hout]; simp)
    rw [State.othersBounded, State.place, List.filter_append, List.filter_singleton, hown, List.length_append]
    exact hs.others
  · rw [hhead]
    split
    · exact hs h
    · exact hs i

theorem State.placeFrom_keepsOutbound {s t : State} {p : Placer} (h : s.placeFrom p = some t) : s.KeepsOutbound t := by
  obtain ⟨c, hn, hroom⟩ := s.placeFrom_some t p h
  cases p with
  | jobList =>
    have hroom := hroom.resolve_left Bool.false_ne_true
    simp only [State.nextFrom] at hn
    split at hn
    · rename_i d jobs hd
      obtain ⟨_, _, j, _, _, _, _, _, rfl, _⟩ := takeEnded_split _ _ _ hd
      split at hn
      · cases hn
        exact .trans (.placeOther (.refl s) (fun _ => rfl) hroom) (State.jobsRemoved_evolves _ _).keepsOutbound
      · cases hn
    · cases hn
  | sequencer k =>
    have hroom := hroom.resolve_left Bool.false_ne_true
    simp only [State.nextFrom] at hn
    split at hn
    · rename_i d rest hd
      cases hn
      obtain ⟨before, after, hkept, rfl, _⟩ := takeOldest_split _ _ _ _ _ hd
      exact .placeOther (.setStream fun _ hd => .inl ((sublist_without hkept).subset hd))
        (fun hk => hk.1 k c (by rw [hkept]; simp)) hroom
    · cases hn
  | linkController i =>
    have hroom := hroom.resolve_left Bool.false_ne_true
    simp only [State.nextFrom] at hn
    split at hn
    · rename_i d rest hd
      cases hn
      obtain ⟨before, after, hheld, rfl, _⟩ := takeOldest_split _ _ _ _ _ hd
      refine .placeOther (.setHead ?_) (fun hk => hk.2 i c (by rw [hheld]; simp)) hroom
      exact ⟨.refl i _, fun _ hd => .inl ((sublist_without hheld).subset hd)⟩
    · cases hn
  | presentUnit i =>
    simp only [State.nextFrom] at hn
    split at hn
    · rename_i d rest hd
      cases hn
      obtain ⟨before, after, hout, rfl, _⟩ := takeOldest_split _ _ _ _ _ hd
      exact .placeCommit hout
    · cases hn

/-! ## Settling -/

theorem Starts.keepsOutbound {s t : State} (m : Starts s t) : s.KeepsOutbound t := by
  cases m with
  | stop _ _ => exact .of_same rfl rfl rfl
  | latch i _ _ _ => exact (State.Evolves.setHead (.latchStep _ i .immediate)).keepsOutbound
  | answer n a _ => exact .of_same rfl rfl rfl
  | wait k c o _ _ _ => exact (s.finish_evolves k o).keepsOutbound
  | present _ k _ ht => exact (State.dispatchPresent_evolves ht).keepsOutbound
  | palette _ k _ ht => exact (State.dispatchPalette_evolves ht).keepsOutbound
  | job _ k _ ht => exact (State.dispatchJob_evolves ht).keepsOutbound
  | engine jobs _ _ => exact .of_same rfl rfl rfl
  | place _ p ht => exact State.placeFrom_keepsOutbound ht
  | grant _ ht =>
    obtain ⟨_, _, _, _, rfl⟩ := s.grant_some t ht
    exact .of_same rfl rfl rfl
  | write _ ht =>
    obtain ⟨_, _, rfl⟩ := s.issueWrite_some t ht
    exact .of_same rfl rfl rfl

theorem State.settleFor_keepsOutbound (s : State) (n : Nat) : s.KeepsOutbound (s.settleFor n) :=
  State.settleFor_keeps_of_moves s.KeepsOutbound (fun _ _ m h => h.trans m.evolves.keepsOutbound)
    (fun _ _ m h => h.trans m.keepsOutbound) n s (.refl s)

theorem State.KeepsOutbound.settle {s t : State} (h : s.KeepsOutbound t) : s.KeepsOutbound t.settle :=
  h.trans (t.settleFor_keepsOutbound _)

theorem State.Evolves.settle {s t : State} (h : s.Evolves t) : s.KeepsOutbound t.settle := h.keepsOutbound.settle

end Sys2Proof.Machine
end

