-- ==== Sys2Proof/Proofs/OutboundCommands.lean ====
section
/-! SUPPORT. Every command keeps the law of the outbound list and the order of the queues; and the bounds on the list that
follow. -/

namespace Sys2Proof.Machine

set_option Elab.async false

/-! ## Links and scan stops (R89, R131) -/

theorem State.raise_evolves (s : State) (c : Cause) : s.Evolves (s.raise c) := .of_same rfl rfl rfl

theorem State.latchNow_evolves {s t : State} {h : HeadId} (e : State.latchNow h s = some t) : s.Evolves t := by
  simp only [State.latchNow, Option.ite_none_right_eq_some, Option.some.injEq] at e
  obtain ⟨_, rfl⟩ := e
  exact .setHead (.latchStep _ h .immediate)

theorem State.latchAll_evolves (n : Nat) (h : HeadId) (s : State) : s.Evolves (State.latchAll n h s) := by
  induction n generalizing s with
  | zero => exact .refl s
  | succ n ih =>
    unfold State.latchAll
    split
    · rename_i t ht; exact (State.latchNow_evolves ht).trans (ih t)
    · exact .refl s

theorem State.completeWaits_evolves (s : State) : s.Evolves s.completeWaits := by
  have hone : ∀ (k : StreamId) (t : State), t.Evolves ((State.completeWait k t).getD t) := fun k t => by
    cases h : State.completeWait k t with
    | none => exact .refl t
    | some u =>
      obtain ⟨_, o, _, _, _, rfl⟩ := t.completeWait_some u k h
      exact t.finish_evolves k o
  exact (((hone 0 s).trans (hone 1 _)).trans (hone 2 _)).trans (hone 3 _)

theorem State.scanStopped_evolves (s : State) (h : HeadId) : s.Evolves (s.scanStopped h) :=
  .trans (t := { s with jobs := bypassGates h s.jobs }) (.of_same rfl rfl rfl)
    ((State.latchAll_evolves _ h _).trans (State.completeWaits_evolves _))

theorem State.enterLink_evolves (s : State) (h : HeadId) (st : LinkState) : s.Evolves (s.enterLink h st) := by
  have henter : s.Evolves (s.setHead h ((s.head h).enter st)) := .setHead (Head.enter_evolves h _ st)
  cases st with
  | quiescing => exact henter.trans (State.scanStopped_evolves _ h)
  | off => exact henter.trans (State.raise_evolves _ _)
  | on => exact henter.trans (State.raise_evolves _ _)
  | _ => exact henter

theorem State.linkTo_evolves (n : Nat) (s : State) (h : HeadId) (st : LinkState) : s.Evolves (s.linkTo n h st) := by
  induction n generalizing s st with
  | zero => exact .refl s
  | succ n ih =>
    have henter := s.enterLink_evolves h st
    unfold State.linkTo
    dsimp only
    split
    · split
      · exact henter.trans (ih _ _)
      · exact henter
    · split
      · split
        · exact henter.trans (ih _ _)
        · exact henter
      · exact henter

theorem State.linkMove_evolves (s : State) (h : HeadId) : s.Evolves (s.linkMove h) := by
  unfold State.linkMove
  dsimp only
  split
  · exact s.linkTo_evolves _ h _
  · exact s.linkTo_evolves _ h _
  · exact .refl s

/-! ## LINK and LIGHT (R133, R136, R138) -/

/-- A Link Controller's completions, and others of class OTHER, go to a stream. -/
theorem State.Evolves.handKept {s t : State} (h : s.Evolves t) (k : StreamId) {cs : List Completion}
    (hcs : s.OthersKept → ∀ c ∈ cs, c.origin = none) : s.Evolves (t.handKept k cs) where
  outbound := h.outbound
  kept hs := by
    have ht := h.kept hs
    refine ⟨fun j c hc => ?_, ht.2⟩
    rw [State.handKept, State.stream_setStream] at hc
    split at hc
    · exact (List.mem_append.mp hc).elim (ht.1 k c) (hcs hs c)
    · exact ht.1 j c hc
  queues := h.queues

theorem State.dispatchLink_evolves (s : State) (k : StreamId) (ref : RecordRef) (h : HeadId) (target : LinkTarget) :
    s.Evolves (s.dispatchLink k ref h target) := by
  have hmoved : s.Evolves ((s.setHead h
      { s.head h with link := { (s.head h).link with pending := none, held := [], target := target } }).linkMove h) := by
    refine .trans (.setHead ?_) (State.linkMove_evolves _ h)
    exact ⟨.refl h _, fun c hc => nomatch hc⟩
  have hhanded : ∀ superseded : List Completion, (∀ c ∈ superseded, c.origin = none) → s.OthersKept →
      ∀ c ∈ (s.head h).link.held ++ superseded, c.origin = none := fun superseded hnone hs c hc =>
    (List.mem_append.mp hc).elim (hs.2 h c) (hnone c)
  have hsuperseded : ∀ old : RecordRef, ∀ c ∈ report old linkKind { status := .superseded }, c.origin = none :=
    fun old c => report_origin old linkKind _ none c
  unfold State.dispatchLink
  dsimp only
  split
  · refine (hmoved.handKept k fun hs c hc => ?_).trans (State.dropCurrent_evolves _ k)
    rcases List.mem_append.mp hc with hc | hc
    · refine hhanded _ ?_ hs c hc
      split
      · exact hsuperseded _
      · exact fun _ hc => nomatch hc
    · exact report_origin ref linkKind _ none c hc
  · refine (State.Evolves.handKept (hmoved.trans (.setHead ?_)) k (hhanded _ ?_)).trans (State.dropCurrent_evolves _ k)
    · exact ⟨.refl h _, fun _ hc => .inl hc⟩
    · split
      · exact hsuperseded _
      · exact fun _ hc => nomatch hc

theorem State.dispatchLight_evolves (s : State) (k : StreamId) (ref : RecordRef) (h : HeadId) (target : Nat) (dim : Bool)
    (step : Nat) : s.Evolves (s.dispatchLight k ref h target dim step) := by
  unfold State.dispatchLight
  dsimp only
  refine (State.Evolves.handKept (.setHead ?_) k fun hs c hc => ?_).trans (State.dropCurrent_evolves _ k)
  · exact ⟨.refl h _, fun c hc => nomatch hc⟩
  · rcases List.mem_append.mp hc with hc | hc
    · exact (List.mem_append.mp hc).elim (hs.2 h c) (Light.superseded_origin _ c)
    · split at hc
      · exact report_origin ref lightKind _ none c hc
      · cases hc

/-! ## Record commands -/

theorem RecordTaken.evolves {s u : State} {k : StreamId} {c : CurrentRecord} (h : RecordTaken s k c u) : s.Evolves u := by
  cases h with
  | finished o => exact s.finish_evolves k o
  | job _ ht => exact State.dispatchJob_evolves ht
  | waits p _ => exact s.setPhase_evolves k p
  | claimed h _ =>
    refine .trans (.setHead ?_) (State.finish_evolves _ k _)
    exact .of_same rfl rfl
  | queued h w _ _ _ _ =>
    refine .trans (.setHead ?_) (State.setPhase_evolves _ k _)
    exact .of_same rfl rfl
  | released h _ => exact (s.finish_evolves k _).trans (State.handOn_evolves _ h false)
  | staged h p =>
    refine .trans (t := s.stage h p) (.setHead ?_) (State.finish_evolves _ k _)
    exact .of_same rfl rfl
  | palette r _ _ _ ht => exact State.dispatchPalette_evolves ht
  | present r _ _ _ ht => exact State.dispatchPresent_evolves ht
  | heldBack p _ h _ _ => exact s.setPhase_evolves k p
  | link ref h target => exact s.dispatchLink_evolves k ref h target
  | light ref h target dim step => exact s.dispatchLight_evolves k ref h target dim step

theorem State.paletteAnswered_keepsOutbound (s : State) (h : HeadId) (i : Nat) (answer : ReadAnswer (BitVec 16)) :
    s.KeepsOutbound (s.paletteAnswered h i answer) := by
  have hstaged : ∀ st : Staging, s.Evolves (s.setHead h { s.head h with staging := st }) := fun st =>
    .setHead (.of_same rfl rfl)
  unfold State.paletteAnswered
  dsimp only
  split
  · exact .refl s
  · split
    · split
      · exact .refl s
      · exact ((hstaged _).trans (State.finishAs_evolves _ _ _ _ _)).settle
      · split
        · exact (hstaged _).keepsOutbound
        · exact ((hstaged _).trans (State.finishAs_evolves _ _ _ _ _)).settle
    · exact .refl s

/-! ## Slot reads (R49 to R53) -/

theorem State.examine_evolves (s : State) (k : StreamId) : s.Evolves (s.examine k) := by
  unfold State.examine
  split
  · exact .refl s
  · dsimp only
    split
    · exact s.finish_evolves k _
    · split
      · exact .refl s
      · split
        · exact s.finish_evolves k _
        · split
          · exact s.setPhase_evolves k _
          · exact s.finish_evolves k _

theorem Stream.takeSlot_kept (st : Stream) (n : Nat) (bytes : List Byte) : (st.takeSlot n bytes).kept = st.kept := by
  unfold Stream.takeSlot
  split <;> rfl

theorem State.fetchFailed_evolves (s : State) (k : StreamId) (n : Nat) : s.Evolves (s.fetchFailed k n) := by
  unfold State.fetchFailed
  split
  · exact s.finish_evolves k _
  · split
    · exact s.finishAs_evolves k _ _ _
    · exact .refl s

theorem State.slotAnswered_keepsOutbound (s : State) (answer : ReadAnswer (List Byte)) :
    s.KeepsOutbound (s.slotAnswered answer) := by
  unfold State.slotAnswered
  split
  · exact .refl s
  · dsimp only
    split
    · exact .refl s
    · split
      · exact State.Evolves.settle (.of_same rfl rfl rfl)
      · refine State.Evolves.settle (.trans ?_ (State.fetchFailed_evolves _ _ _))
        exact .of_same rfl rfl rfl
    · split
      · exact State.Evolves.settle (.of_same rfl rfl rfl)
      · refine State.Evolves.settle (.trans (.trans ?_ (.setStream fun c hc => ?_)) (State.examine_evolves _ _))
        · exact .of_same rfl rfl rfl
        · rw [Stream.takeSlot_kept] at hc
          exact .inl hc

/-! ## FLUSH (R41, R63, R79) -/

theorem State.flushStream_evolves (s : State) (k : StreamId) : s.Evolves (s.flushStream k) := by
  let t := s.finish k { status := .cancelled }
  let x : Stream := { t.stream k with
    ring := (t.stream k).ring.map (fun r => { r with fetch := r.post }), halt := none, batch := 0 }
  have hstream : t.Evolves (t.setStream k x) := .setStream fun _ hc => .inl hc
  exact (s.finish_evolves k _).trans (hstream.trans (.of_same rfl rfl rfl))

theorem State.flushJobs_evolves (s : State) (k : StreamId) : s.Evolves (s.flushJobs k) := by
  obtain ⟨hstreams, hheads⟩ := s.flushJobs_same k
  refine .of_same ?_ hstreams hheads
  by_cases hm : ∃ j, s.runningJob = some j ∧ j.ref.stream = k
  · obtain ⟨j, hj, hk⟩ := hm
    rw [s.flushJobs_running k j hj hk]
    exact congrArg Writer.outbound s.stopEngine_writer
  · rw [s.flushJobs_other k fun j hj hk => hm ⟨j, hj, hk⟩]

theorem State.flushHead_evolves (s : State) (h : HeadId) (k : StreamId) : s.Evolves (s.flushHead h k) := by
  have habandoned := Head.Evolves.abandon (s.head h) h k 0 none
  unfold State.flushHead
  dsimp only
  split
  · exact (State.Evolves.setHead habandoned).trans (State.handOn_evolves _ h _)
  · split
    · exact .setHead habandoned
    · exact .setHead (habandoned.trans (Head.reload_evolves h _ _))

theorem State.flushed_evolves (s : State) (k : StreamId) : s.Evolves (s.flushed k) := by
  rw [s.flushed_eq]
  refine .trans (.trans ?_ (State.flushHead_evolves _ 0 k)) (State.flushHead_evolves _ 1 k)
  exact (State.Evolves.mapHeads fun i hd => Head.withdrawn_evolves i hd k).trans
    ((State.flushStream_evolves _ k).trans (State.flushJobs_evolves _ k))

/-! ## Resets and FAULT (R168 to R170) -/

/-- A state with nothing to place and no entries. -/
theorem State.KeepsOutbound.of_empty {s t : State} (hw : t.writer.outbound = []) (hk : ∀ k : StreamId, (t.stream k).kept = [])
    (hh : ∀ h : HeadId, (t.head h).present = .empty ∧ (t.head h).link.held = []) : s.KeepsOutbound t where
  lawful _ := by
    refine ⟨⟨fun k c hc => (by rw [hk] at hc; cases hc), fun h c hc => (by rw [(hh h).2] at hc; cases hc)⟩, fun h => ?_, ?_⟩
    · rw [State.placedOf, hw, (hh h).1]
      exact ⟨fun c hc => (nomatch hc), Nat.zero_le _, rfl, .refl _⟩
    · rw [State.othersBounded, hw]
      exact Nat.zero_le _
  ordered _ h := by rw [(hh h).1]; exact List.Pairwise.nil

theorem State.afterReset_keepsOutbound (s : State) : s.KeepsOutbound s.afterReset :=
  .of_empty rfl (fun k => by rw [State.stream, State.afterReset]; exact congrArg Stream.kept (Four.get_all _ k))
    fun h => by rw [s.afterReset_head h]; exact ⟨rfl, rfl⟩

theorem State.afterPowerOn_keepsOutbound (s : State) : s.KeepsOutbound s.afterPowerOn :=
  .of_empty rfl (fun k => congrArg Stream.kept (Four.get_all _ k))
    fun h => by rw [show s.afterPowerOn.head h = Head.atPowerOn from State.reset_head h]; exact ⟨rfl, rfl⟩

theorem State.enterFault_evolves (s : State) (origin : FaultOrigin) : s.Evolves (s.enterFault origin) := by
  refine .of_heads (congrArg Writer.outbound s.stopEngine_writer) s.stopEngine_streams fun i => ?_
  change (s.head i).Evolves i ((s.stopEngine.heads.map _).get i)
  rw [s.stopEngine_heads, Two.get_map]
  exact .of_same rfl rfl

/-! ## Register writes -/

theorem State.refuseControl_keepsOutbound (s : State) : s.KeepsOutbound s.refuseControl :=
  (s.raise_evolves _).keepsOutbound

theorem State.startCommand_keepsOutbound (s : State) : s.KeepsOutbound s.startCommand := by
  unfold State.startCommand
  split
  · split
    · exact .of_same rfl rfl rfl
    · exact .of_same rfl rfl rfl
  · exact State.Evolves.settle (.of_same rfl rfl rfl)
  all_goals exact s.refuseControl_keepsOutbound

theorem State.stopCommand_keepsOutbound (s : State) : s.KeepsOutbound s.stopCommand := by
  unfold State.stopCommand
  split
  · exact State.Evolves.settle (.of_same rfl rfl rfl)
  · exact s.refuseControl_keepsOutbound

theorem State.resumeCommand_keepsOutbound (s : State) (k : StreamId) : s.KeepsOutbound (s.resumeCommand k) := by
  unfold State.resumeCommand
  split
  · exact State.Evolves.settle (.setStream fun _ hc => .inl hc)
  · exact s.refuseControl_keepsOutbound

theorem State.flushCommand_keepsOutbound (s : State) (k : StreamId) : s.KeepsOutbound (s.flushCommand k) := by
  unfold State.flushCommand
  split
  · exact (s.flushed_evolves k).settle
  · exact s.refuseControl_keepsOutbound

theorem State.postWrite_keepsOutbound (s : State) (value : Word) : s.KeepsOutbound (s.postWrite value) := by
  unfold State.postWrite
  dsimp only
  split
  · split
    · exact State.Evolves.settle (.setStream fun _ hc => .inl hc)
    · exact (s.raise_evolves _).keepsOutbound
  · exact (s.raise_evolves _).keepsOutbound

theorem State.retireWrite_keepsOutbound (s : State) (value : Word) : s.KeepsOutbound (s.retireWrite value) := by
  unfold State.retireWrite
  split
  · split
    · exact State.Evolves.settle (.of_same rfl rfl rfl)
    · exact (s.raise_evolves _).keepsOutbound
  · exact (s.raise_evolves _).keepsOutbound

theorem State.addressWritten_keepsOutbound (s : State) (half : AddressHalf) (value : Word) :
    s.KeepsOutbound (s.addressWritten half value) := by
  cases half <;> exact .of_same rfl rfl rfl

theorem State.windowWrite_keepsOutbound (s : State) (offset : BitVec 6) (value : Word) :
    s.KeepsOutbound (s.windowWrite offset value) := by
  unfold State.windowWrite
  split
  · exact s.startCommand_keepsOutbound
  · exact s.stopCommand_keepsOutbound
  · exact s.afterReset_keepsOutbound
  · exact s.resumeCommand_keepsOutbound _
  · exact s.flushCommand_keepsOutbound _
  · exact s.postWrite_keepsOutbound _
  · exact s.retireWrite_keepsOutbound _
  · exact .of_same rfl rfl rfl
  · exact .of_same rfl rfl rfl
  · exact s.addressWritten_keepsOutbound _ _
  · split
    · exact s.refuseControl_keepsOutbound
    · exact .refl s

/-! ## The Setup Table load (R163 to R165) -/

theorem loadedStream_kept (quarters : List (List Byte)) (k : StreamId) : (loadedStream quarters k).kept = [] := by
  unfold loadedStream
  split <;> rfl

theorem State.endLoad_keepsOutbound (s : State) (quarters : List (List Byte)) : s.KeepsOutbound (s.endLoad quarters) := by
  unfold State.endLoad
  split
  · refine State.Evolves.settle (.of_parts rfl (fun k c hc => ?_) fun i => ?_)
    · have hkept : ∀ j : StreamId, c ∉ (loadedStream quarters j).kept := fun j => by simp [loadedStream_kept]
      match k with
      | 0 => exact absurd hc (hkept 0)
      | 1 => exact absurd hc (hkept 1)
      | 2 => exact absurd hc (hkept 2)
      | 3 => exact absurd hc (hkept 3)
    · match i with
      | 0 => exact .of_same rfl rfl
      | 1 => exact .of_same rfl rfl
  · exact .of_same rfl rfl rfl

theorem State.setupAnswered_keepsOutbound (s : State) (answer : ReadAnswer (List Byte)) :
    s.KeepsOutbound (s.setupAnswered answer) := by
  unfold State.setupAnswered
  split
  · exact .refl s
  · split
    · exact .refl s
    · exact (s.enterFault_evolves _).keepsOutbound
    · split
      · exact .of_same rfl rfl rfl
      · exact s.endLoad_keepsOutbound _

/-! ## The engine -/

theorem State.engineServed_keepsOutbound (s : State) : s.KeepsOutbound s.engineServed := by
  unfold State.engineServed
  split
  · split
    · refine State.Evolves.settle (.trans ?_ (State.nextPixel_follows _).evolves)
      exact .of_same (by simp) (by simp) (by simp)
    · split
      · exact .of_same rfl rfl rfl
      · exact .refl s
    all_goals exact .refl s
  · exact .refl s

theorem State.sourceAnswered_keepsOutbound (s : State) (n : Nat) (answer : ReadAnswer Word) :
    s.KeepsOutbound (s.sourceAnswered n answer) := by
  unfold State.sourceAnswered
  split
  · split
    · exact .refl s
    · exact State.Evolves.settle (.of_same rfl rfl rfl)
    · exact State.Evolves.settle (.of_same rfl rfl rfl)
  · exact .refl s

theorem State.wordAnswered_keepsOutbound (s : State) (answer : WriteAnswer) : s.KeepsOutbound (s.wordAnswered answer) := by
  unfold State.wordAnswered
  split
  · split
    · split
      · exact .refl s
      · exact ((Follows.pixelDone s true).evolves.trans (State.nextPixel_follows _).evolves).settle
      · exact (s.failJob_evolves _ _).settle
    all_goals exact .refl s
  · exact .refl s

/-! ## Completion writes (R122, R148) -/

theorem State.completionWritten_head (s : State) (c : Completion) (rest : List Completion) (h : HeadId) :
    ((s.completionWritten c rest).head h).present
        = (if c.fromHead h = true then (s.head h).present.written c else (s.head h).present)
      ∧ ((s.completionWritten c rest).head h).link = (s.head h).link := by
  unfold State.completionWritten
  cases ho : c.origin with
  | none => exact ⟨by simp [Completion.fromHead, ho]; rfl, rfl⟩
  | some i =>
    change ((s.setHead i { s.head i with present := (s.head i).present.written c }).head h).present = _
      ∧ ((s.setHead i { s.head i with present := (s.head i).present.written c }).head h).link = _
    rw [State.head_setHead]
    by_cases hi : h = i
    · subst hi
      simp [Completion.fromHead, ho]
    · simp [Completion.fromHead, ho, hi, Ne.symm hi]

/-- A written completion leaves the outbound list, and gives up its place where it is one of a queue. -/
theorem State.completionWritten_keepsOutbound {s : State} {c : Completion} {rest : List Completion}
    (hout : s.writer.outbound = c :: rest) : s.KeepsOutbound (s.completionWritten c rest) where
  lawful hs := by
    refine ⟨⟨hs.kept.1, fun h d hd => ?_⟩, fun h => ?_, ?_⟩
    · rw [(s.completionWritten_head c rest h).2] at hd
      exact hs.kept.2 h d hd
    · have hplaced : s.placedOf h = (if c.fromHead h = true then [c] else []) ++ rest.filter (fun c => c.fromHead h) := by
        rw [State.placedOf, hout, List.filter_cons]
        split <;> rfl
      have hlaw := hs.queues h
      rw [(s.completionWritten_head c rest h).1]
      rw [hplaced] at hlaw
      split at hlaw
      · rename_i hc; rw [if_pos hc]; exact hlaw.written
      · rename_i hc; rw [if_neg hc]; exact hlaw
    · have hothers := hs.others
      rw [State.othersBounded, hout] at hothers
      exact (((List.sublist_cons_self c rest).filter _).length_le).trans hothers
  ordered hs h := by
    rw [(s.completionWritten_head c rest h).1]
    split
    · exact SettledFirst.written (hs h) c
    · exact hs h

theorem State.completionAnswered_keepsOutbound (s : State) (answer : WriteAnswer) :
    s.KeepsOutbound (s.completionAnswered answer) := by
  unfold State.completionAnswered
  split
  · rename_i hout
    split
    · exact .refl s
    · exact (State.completionWritten_keepsOutbound hout).settle
    · refine State.KeepsOutbound.trans ?_ (State.enterFault_evolves _ _).keepsOutbound
      exact .of_same rfl rfl rfl
  · exact .refl s

/-! ## Scan and timebase -/

theorem State.blanked_evolves (s : State) (h : HeadId) (frameCause : Bool) : s.Evolves (s.blanked h frameCause) := by
  have htold := State.Evolves.setHead
    (Head.blankingStart_evolves h (s.head h) (decide (s.regs.device = Device.fault)))
  unfold State.blanked
  dsimp only
  split
  · exact htold.trans (State.raise_evolves _ _)
  · exact htold

theorem State.gatesFirst_keepsOutbound (s : State) (opened : Bool) : s.KeepsOutbound (s.gatesFirst opened) := by
  cases opened with
  | false => exact .refl s
  | true =>
    obtain ⟨n, _, h⟩ := s.gatesFirst_true
    rw [h]
    refine .trans ?_ (State.settleFor_keepsOutbound _ n)
    rcases s.pick_state (s.workLeft + 1) with e | e <;> rw [e]
    · exact .refl s
    · exact .of_same rfl rfl rfl

theorem State.lineStarted_keepsOutbound (s : State) (h : HeadId) : s.KeepsOutbound (s.lineStarted h) := by
  unfold State.lineStarted
  dsimp only
  split
  · exact .refl s
  · split
    · have hmoved : ∀ sc : Scan, s.Evolves { s.setHead h { s.head h with scan := sc } with jobs := openGates h sc s.jobs } :=
        fun sc => .trans (t := s.setHead h { s.head h with scan := sc }) (.setHead (.of_same rfl rfl)) (.of_same rfl rfl rfl)
      split
      · exact (((hmoved _).keepsOutbound.trans (State.gatesFirst_keepsOutbound _ _)).trans
          (State.blanked_evolves _ h _).keepsOutbound).settle
      · exact (hmoved _).settle
    · exact .refl s

theorem State.scanServed_evolves (s : State) (h : HeadId) : s.Evolves (s.scanServed h) := by
  unfold State.scanServed
  dsimp only
  split
  · split
    · exact .setHead (.of_same rfl rfl)
    · exact .refl s
  · exact .refl s

theorem State.takeDue_keepsOutbound {s t : State} {d : Due} (e : s.takeDue d = some t) : s.KeepsOutbound t := by
  cases d with
  | step h =>
    simp only [State.takeDue, State.endStep] at e
    split at e
    · obtain ⟨st, _, rfl⟩ := Option.map_eq_some_iff.mp e
      exact (s.linkTo_evolves _ h st).settle
    · cases e
  | waiter h k =>
    simp only [State.takeDue, State.expire] at e
    split at e
    · obtain ⟨w, _, rfl⟩ := Option.map_eq_some_iff.mp e
      have hwithdrawn : s.Evolves (s.setHead h (Head.withdraw (s.head h) k)) := .setHead (.of_same rfl rfl)
      exact (hwithdrawn.trans (State.finishAs_evolves _ k w.ref _ _)).settle
    · cases e

theorem State.ticked_evolves (s : State) : s.Evolves s.ticked := .mapHeads fun _ _ => .of_same rfl rfl

/-! ## Every command -/

/-- A command answers a next state that keeps the law and the order. -/
def State.OutboundAnswer (s : State) (a : Answer) : Prop := ∃ t : State, a = .next t ∧ s.KeepsOutbound t

theorem State.OutboundAnswer.next {s t : State} (h : s.KeepsOutbound t) : s.OutboundAnswer (.next t) := ⟨t, rfl, h⟩

theorem execMillisecondMark_outboundAnswer (s : State) : s.OutboundAnswer (execMillisecondMark s) := by
  unfold execMillisecondMark
  split
  · exact .next (.refl s)
  · refine .next (State.KeepsOutbound.trans ?_ (State.ticked_evolves _).keepsOutbound)
    exact State.takeAllDue_keeps s.KeepsOutbound (fun u hu => hu.trans (.of_same rfl rfl rfl))
      (fun u t d e hu => hu.trans (State.takeDue_keepsOutbound e)) _ s (.refl s)

theorem State.getD_keepsOutbound (s : State) (d : Due) : s.KeepsOutbound ((s.takeDue d).getD s) := by
  cases h : s.takeDue d with
  | none => exact .refl s
  | some t => exact State.takeDue_keepsOutbound h

theorem execRecord_outboundAnswer (kind : Kind) (k : StreamId) (s : State) :
    s.OutboundAnswer (exec (kind.command k) s) := by
  rcases execRecord_cases kind k s with e | ⟨c, u, _, hu, e⟩ <;> rw [e]
  · exact .next (.refl s)
  · exact .next hu.evolves.settle

theorem exec_outboundAnswer (i : Instr) (s : State) : s.OutboundAnswer (exec i s) := by
  cases i with
  | powerOnReset => exact .next s.afterPowerOn_keepsOutbound
  | start => exact .next s.startCommand_keepsOutbound
  | stop => exact .next s.stopCommand_keepsOutbound
  | reset => exact .next s.afterReset_keepsOutbound
  | resume k => exact .next (s.resumeCommand_keepsOutbound k)
  | flush k => exact .next (s.flushCommand_keepsOutbound k)
  | post value => exact .next (s.postWrite_keepsOutbound value)
  | retire value => exact .next (s.retireWrite_keepsOutbound value)
  | causeWrite value => exact .next (.of_same rfl rfl rfl)
  | causeEnableWrite value => exact .next (.of_same rfl rfl rfl)
  | setupAddressWrite half value => exact .next (s.addressWritten_keepsOutbound half value)
  | registerWriteOther offset value => exact .next (s.windowWrite_keepsOutbound offset value)
  | setupReadAnswer answer => exact .next (s.setupAnswered_keepsOutbound answer)
  | slotReadAnswer answer => exact .next (s.slotAnswered_keepsOutbound answer)
  | window k => exact execRecord_outboundAnswer .window k s
  | transfer k => exact execRecord_outboundAnswer .transfer k s
  | fill k => exact execRecord_outboundAnswer .fill k s
  | readback k => exact execRecord_outboundAnswer .readback k s
  | claim k => exact execRecord_outboundAnswer .claim k s
  | release k => exact execRecord_outboundAnswer .release k s
  | bands k => exact execRecord_outboundAnswer .bands k s
  | scroll k => exact execRecord_outboundAnswer .scroll k s
  | output k => exact execRecord_outboundAnswer .output k s
  | palette k => exact execRecord_outboundAnswer .palette k s
  | paletteReadAnswer h n answer => exact .next (s.paletteAnswered_keepsOutbound h n answer)
  | present k => exact execRecord_outboundAnswer .present k s
  | link k => exact execRecord_outboundAnswer .link k s
  | light k => exact execRecord_outboundAnswer .light k s
  | wait k => exact execRecord_outboundAnswer .wait k s
  | note k => exact execRecord_outboundAnswer .note k s
  | engineAccessServed => exact .next s.engineServed_keepsOutbound
  | sourceReadAnswer n answer => exact .next (s.sourceAnswered_keepsOutbound n answer)
  | readbackWordAnswer answer => exact .next (s.wordAnswered_keepsOutbound answer)
  | completionWriteAnswer answer => exact .next (s.completionAnswered_keepsOutbound answer)
  | lineStart h => exact .next (s.lineStarted_keepsOutbound h)
  | millisecondMark => exact execMillisecondMark_outboundAnswer s
  | waiterExpiry h k => exact .next (s.getD_keepsOutbound (.waiter h k))
  | linkStepEnd h => exact .next (s.getD_keepsOutbound (.step h))
  | scanReadServed h => exact .next (s.scanServed_evolves h).keepsOutbound

theorem step_keepsOutbound {s t : State} (h : step s = .next t) : s.KeepsOutbound t := by
  rcases step_cases s t h with rfl | ⟨i, rest, hexec⟩
  · exact .refl _
  · obtain ⟨u, hu, hkeeps⟩ := exec_outboundAnswer i { s with pending := rest }
    obtain rfl : t = u := Host.Outcome.next.inj (hexec.symm.trans hu)
    refine State.KeepsOutbound.trans ?_ hkeeps
    exact .of_same rfl rfl rfl

/-! ## The bounds that follow -/

/-- A commit completion is one of either head's. -/
theorem commits_length (cs : List Completion) :
    (cs.filter (fun c => c.origin.isSome)).length
      = (cs.filter (fun c => c.fromHead 0)).length + (cs.filter (fun c => c.fromHead 1)).length := by
  induction cs with
  | nil => rfl
  | cons c rest ih =>
    simp only [List.filter_cons, Completion.fromHead] at ih ⊢
    cases ho : c.origin with
    | none => simpa using ih
    | some h => fin_cases h <;> simp [ih] <;> omega

theorem State.LawfulQueues.commits_le {s : State} (hs : s.LawfulQueues) :
    (s.writer.outbound.filter (fun c => c.origin.isSome)).length ≤ 8 := by
  have hzero : (s.writer.outbound.filter (fun c => c.fromHead 0)).length ≤ 4 := (hs.queues 0).placed_le
  have hone : (s.writer.outbound.filter (fun c => c.fromHead 1)).length ≤ 4 := (hs.queues 1).placed_le
  rw [commits_length]
  omega

/-- Settles O10: settling and every command keep the law and the order, and each queue has at most four completions in the
list. -/
theorem outboundLawIsKept : Obligations.OutboundLawIsKept := by
  refine ⟨fun s t hs h => ?_, fun s t hs h => (step_keepsOutbound h).ordered hs, fun s hs => ?_⟩
  · exact t.outboundLaw_iff.mpr ((step_keepsOutbound h).lawful (s.outboundLaw_iff.mp hs))
  · have hlaw := s.outboundLaw_iff.mp hs
    have hcommits := hlaw.commits_le
    have hothers : (s.writer.outbound.filter (fun c => c.origin.isNone)).length ≤ 8 := hlaw.others
    refine ⟨hcommits, hothers, ?_⟩
    have hsplit := List.length_eq_length_filter_add (fun c : Completion => c.origin.isSome) (l := s.writer.outbound)
    simp only [Option.not_isSome] at hsplit
    omega

end Sys2Proof.Machine
end

