-- ==== Sys2Proof/Proofs/LatchSteps.lean ====
section
/-! SUPPORT. What a latch step makes of a queue of which the settled entries, the skipped ones, the target and the rest are
known (R117, R120 to R122). -/

namespace Sys2Proof.Machine

set_option Elab.async false

/-! ## The parts of a queue -/

section
variable {settled skipped rest : List Entry} {target : Entry} {kind : LatchKind} {c : Word}

theorem settledPart_append (hs : ∀ e ∈ settled, e.unlatched = false) (hr : ∀ e ∈ rest.head?, e.unlatched = true) :
    settledPart (settled ++ rest) = settled := by
  rw [settledPart, List.takeWhile_append_of_pos fun e he => by rw [hs e he]; rfl]
  cases rest with
  | nil => exact List.append_nil settled
  | cons e rest => rw [List.takeWhile_cons_of_neg (by simp [hr e rfl]), List.append_nil]

theorem openPart_append (hs : ∀ e ∈ settled, e.unlatched = false) (hr : ∀ e ∈ rest.head?, e.unlatched = true) :
    openPart (settled ++ rest) = rest := by
  rw [openPart, List.dropWhile_append_of_pos fun e he => by rw [hs e he]; rfl]
  cases rest with
  | nil => rfl
  | cons e rest => exact List.dropWhile_cons_of_neg (by simp [hr e rfl])

/-! ## The run of a step, and its target -/

theorem skipCount_eq (run : List Entry) :
    skipCount run = (run.tail.takeWhile fun e => decide (e.policy = .latest)).length := by
  cases run <;> rfl

theorem takeWhile_latest_of_blocked (hr : ∀ e ∈ rest.head?, ¬ (e.policy = .latest ∧ e.eligible kind c = true)) :
    ((rest.takeWhile fun e => e.eligible kind c).takeWhile fun e => decide (e.policy = .latest)) = [] := by
  cases rest with
  | nil => rfl
  | cons e rest =>
    by_cases he : e.eligible kind c = true
    · have hpolicy : ¬ e.policy = .latest := fun hp => hr e rfl ⟨hp, he⟩
      rw [List.takeWhile_cons, if_pos he, List.takeWhile_cons_of_neg (by simpa using hpolicy)]
    · rw [List.takeWhile_cons, if_neg he, List.takeWhile_nil]

/-- The first entry of a run, and each LATEST one behind it, is passed over until the next is not LATEST. -/
theorem skipCount_run (hp : ∀ e ∈ (skipped ++ [target]).tail, e.policy = .latest)
    (hr : ∀ e ∈ rest.head?, ¬ (e.policy = .latest ∧ e.eligible kind c = true)) :
    skipCount (skipped ++ target :: rest.takeWhile fun e => e.eligible kind c) = skipped.length := by
  rw [List.append_cons, skipCount_eq, List.tail_append_of_ne_nil (by simp),
    List.takeWhile_append_of_pos fun e he => decide_eq_true (hp e he), takeWhile_latest_of_blocked hr]
  simp

/-- The step of a queue whose target and skipped entries are known. -/
theorem Head.latchStep_of_run (hd : Head) (h : HeadId) (hs : ∀ e ∈ settled, e.unlatched = false)
    (he : ∀ e ∈ skipped ++ [target], e.eligible kind hd.scan.frame = true)
    (hp : ∀ e ∈ (skipped ++ [target]).tail, e.policy = .latest)
    (hr : ∀ e ∈ rest.head?, ¬ (e.policy = .latest ∧ e.eligible kind hd.scan.frame = true))
    (hes : hd.present.entries = settled ++ skipped ++ target :: rest) {copies : Bool}
    (hc : copies = (skipped ++ [target]).any fun e => e.pal) {flags : Flags}
    (hf : flags = { kind.flags with palette := copies }) :
    hd.latchStep h kind
      = { hd with
          present := { hd.present with
            entries := settled ++ skipped.map (fun e => { e with state := .skipped }) ++ target.keptLatched flags ++ rest
            outbox := hd.present.outbox
              ++ skipped.flatMap (fun e => e.reportAs h .skipped hd.scan.frame kind.flags)
              ++ target.reportAs h .done hd.scan.frame flags }
          scan := { hd.scan with
            active := target.snapshot
            palette := if copies = true then hd.staging.palette else hd.scan.palette } } := by
  have hskipped : ∀ e ∈ skipped, e.eligible kind hd.scan.frame = true := fun e hm => he e (List.mem_append_left _ hm)
  have htarget : target.eligible kind hd.scan.frame = true := he target (by simp)
  have hfirst : ∀ e ∈ (skipped ++ target :: rest).head?, e.unlatched = true := fun e hm =>
    e.unlatched_of_eligible _ _ (he e (by cases skipped <;> simp_all))
  rw [List.append_assoc] at hes
  have hset : settledPart hd.present.entries = settled := by rw [hes, settledPart_append hs hfirst]
  have hopen : openPart hd.present.entries = skipped ++ target :: rest := by rw [hes, openPart_append hs hfirst]
  have hrun : readyRun hd.present.entries kind hd.scan.frame
      = skipped ++ target :: rest.takeWhile fun e => e.eligible kind hd.scan.frame := by
    rw [readyRun, hopen, List.takeWhile_append_of_pos hskipped, List.takeWhile_cons, if_pos htarget]
  have hdrop : (skipped ++ target :: rest).drop (skipped.length + 1) = rest := by
    rw [List.append_cons, List.drop_left' (by simp)]
  have hany : ((skipped.any fun e => e.pal) || target.pal) = copies := by rw [hc]; simp
  simp only [Head.latchStep, hrun, skipCount_run hp hr, List.drop_left, List.take_left, hset, hopen, hdrop, hany, ← hf]

/-! ## A queue whose oldest unlatched entry cannot be taken -/

theorem readyRun_of_blocked (hs : ∀ e ∈ settled, e.unlatched = false)
    (hr : ∀ e ∈ rest.head?, e.unlatched = true ∧ ¬ e.eligible kind c = true) :
    readyRun (settled ++ rest) kind c = [] := by
  rw [readyRun, openPart_append hs fun e he => (hr e he).1]
  cases rest with
  | nil => rfl
  | cons e rest => exact List.takeWhile_cons_of_neg (hr e rfl).2

theorem Head.latchStep_blanking_of_empty (hd : Head) (h : HeadId)
    (hrun : readyRun hd.present.entries .blanking hd.scan.frame = []) :
    hd.latchStep h .blanking
      = { hd with present := { hd.present with
            entries := settledPart hd.present.entries ++ missOldest (openPart hd.present.entries) } } := by
  simp only [Head.latchStep, hrun, List.drop_nil]

theorem Head.latchStep_immediate_of_empty (hd : Head) (h : HeadId)
    (hrun : readyRun hd.present.entries .immediate hd.scan.frame = []) : hd.latchStep h .immediate = hd := by
  simp only [Head.latchStep, hrun, List.drop_nil]

theorem missOldest_cons (e : Entry) (rest : List Entry) :
    missOldest (e :: rest) = { e with missed := if e.missed < 255 then e.missed + 1 else 255 } :: rest := by
  have hmissed : min 255 (e.missed + 1) = if e.missed < 255 then e.missed + 1 else 255 := by split <;> omega
  rw [missOldest, hmissed]

end

/-! ## The two kinds of step -/

theorem Entry.eligible_blanking (e : Entry) (c : Word) :
    e.eligible .blanking c = true ↔ e.state = .ready ∧ (e.notBefore = 0 ∨ e.notBefore.toNat ≤ c.toNat) := by
  simp [Entry.eligible]

theorem Entry.eligible_immediate (e : Entry) (c : Word) : e.eligible .immediate c = true ↔ e.state = .ready := by
  simp [Entry.eligible]

/-- A SKIPPED entry always has its completion: only DONE is suppressed. -/
theorem Entry.reportAs_skipped (e : Entry) (h : HeadId) (c : Word) (flags : Flags) :
    e.reportAs h .skipped c flags
      = [completionOf e.ref 0x24
          { status := .skipped, valueA := c, valueB := BitVec.ofNat 32 e.missed, flags := flags } (some h)] :=
  report_of_ne_done _ _ _ _ (by simp)

theorem flatMap_reportAs_skipped (es : List Entry) (h : HeadId) (c : Word) (flags : Flags) :
    es.flatMap (fun e => e.reportAs h .skipped c flags)
      = es.map (fun e => completionOf e.ref 0x24
          { status := .skipped, valueA := c, valueB := BitVec.ofNat 32 e.missed, flags := flags } (some h)) := by
  simp only [Entry.reportAs_skipped]
  exact List.map_eq_flatMap.symm

theorem suppressed_palette_iff (silent copies : Bool) (a b : Word) :
    suppressed silent { status := .done, valueA := a, valueB := b, flags := { palette := copies } } = true
      ↔ silent = true ∧ copies = false := by
  simp [suppressed, Flags.none]

theorem not_suppressed_notScanning (silent copies : Bool) (a b : Word) :
    ¬ suppressed silent
      { status := .done, valueA := a, valueB := b, flags := { notScanning := true, palette := copies } } = true := by
  simp [suppressed, Flags.none]

theorem Entry.keptLatched_blanking (e : Entry) (copies : Bool) :
    e.keptLatched { palette := copies }
      = if e.ref.silent = true ∧ copies = false then [] else [{ e with state := .latched }] :=
  if_congr (suppressed_palette_iff _ _ 0 0) rfl rfl

theorem Entry.keptLatched_immediate (e : Entry) (copies : Bool) :
    e.keptLatched { notScanning := true, palette := copies } = [{ e with state := .latched }] :=
  if_neg (not_suppressed_notScanning _ _ 0 0)

/-- A step's target made while the head is not scanning always has its completion. -/
theorem Entry.reportAs_immediate (e : Entry) (h : HeadId) (c : Word) (copies : Bool) :
    e.reportAs h .done c { notScanning := true, palette := copies }
      = [completionOf e.ref 0x24
          { status := .done, valueA := c, valueB := BitVec.ofNat 32 e.missed
            flags := { notScanning := true, palette := copies } } (some h)] :=
  report_of_not_suppressed (not_suppressed_notScanning _ _ _ _) ..

/-- Settles O52: the run of a blanking step and that of an immediate one are two cases of one, and an empty run raises the
missed count or changes nothing. -/
theorem latchStepsTakeTheTarget : Obligations.LatchStepsTakeTheTarget := by
  refine ⟨fun hd h settled skipped rest target hs he hp hr hes => ?_, fun hd h settled rest first hs hu hr hes => ?_,
    fun hd h settled skipped rest target hs he hp hr hes => ?_, fun hd h settled rest hs hr hes => ?_⟩
  · refine ⟨(skipped ++ [target]).any fun e => e.pal, _, List.any_eq_true, rfl, ?_⟩
    simp only [← Entry.eligible_blanking] at he hr
    rw [hd.latchStep_of_run h hs he hp hr hes rfl rfl]
    simp only [LatchKind.flags, flatMap_reportAs_skipped, Entry.keptLatched_blanking]
    rfl
  · simp only [← Entry.eligible_blanking] at hr
    have hfirst : ∀ e ∈ (first :: rest).head?, e.unlatched = true ∧ ¬ e.eligible .blanking hd.scan.frame = true := by
      rintro e ⟨⟩; exact ⟨hu, hr⟩
    have hunlatched := fun e he => (hfirst e he).1
    rw [hd.latchStep_blanking_of_empty h (hes ▸ readyRun_of_blocked hs hfirst), hes, settledPart_append hs hunlatched,
      openPart_append hs hunlatched, missOldest_cons]
  · refine ⟨(skipped ++ [target]).any fun e => e.pal, List.any_eq_true, ?_⟩
    simp only [← Entry.eligible_immediate _ hd.scan.frame] at he hr
    rw [hd.latchStep_of_run h hs he hp hr hes rfl rfl]
    simp only [LatchKind.flags, flatMap_reportAs_skipped, Entry.keptLatched_immediate, Entry.reportAs_immediate,
      List.append_assoc, List.singleton_append]
  · refine hd.latchStep_immediate_of_empty h ?_
    rw [hes]
    refine readyRun_of_blocked hs fun e he => ⟨(hr e he).1, ?_⟩
    rw [Entry.eligible_immediate]
    exact (hr e he).2

end Sys2Proof.Machine
end

