-- ==== Sys2Proof/Proofs/CompletionRing.lean ====
section
/-! SUPPORT. The Completion Writer: what an accepted write leaves behind, and when the next is issued (R122, R146 to
R148). -/

namespace Sys2Proof.Machine

set_option Elab.async false

/-! ## An accepted write -/

theorem writtenCauses_eq (c : Completion) (bits : Causes) :
    writtenCauses c bits
      = if c.outcome.status.halting = true then bits ||| 0x003#9
        else if c.notify = true then bits ||| 0x001#9 else bits := by
  have hboth : setCause .error (setCause .completion bits) = bits ||| 0x003#9 := BitVec.or_assoc ..
  rw [writtenCauses, hboth]
  rfl

theorem CompletionRing.advanced_eq (r : CompletionRing) (h : r.producer < r.size) :
    r.advanced
      = { r with
          producer := if r.producer + 1 = r.size then 0 else r.producer + 1
          lap := if r.producer + 1 = r.size then !r.lap else r.lap } := by
  by_cases hlast : r.producer + 1 = r.size
  · simp only [CompletionRing.advanced, hlast, Nat.mod_self, if_true]
  · have hmod : (r.producer + 1) % r.size = r.producer + 1 := Nat.mod_eq_of_lt (by omega)
    simp only [CompletionRing.advanced, hmod, Nat.succ_ne_zero, hlast, if_false]

theorem dropWritten_eq_eraseP (c : Completion) (es : List Entry) :
    dropWritten c es
      = es.eraseP (fun e =>
          !e.unlatched && decide (e.ref.stream = c.stream ∧ e.ref.ringIndex = c.ringIndex
            ∧ e.ref.reading = c.reading)) := by
  induction es with
  | nil => rfl
  | cons e es ih =>
    simp only [dropWritten, ih, List.eraseP_cons, Entry.ownCompletion, Bool.decide_and, Bool.and_assoc, cond_eq_ite]

theorem Present.written_eq (p : Present) (c : Completion) :
    p.written c
      = if c.outcome.status = .abandoned then { p with abandoned := p.abandoned - 1 }
        else
          { p with
            entries := p.entries.eraseP (fun e =>
              !e.unlatched && decide (e.ref.stream = c.stream ∧ e.ref.ringIndex = c.ringIndex
                ∧ e.ref.reading = c.reading)) } := by
  rw [Present.written, dropWritten_eq_eraseP]

theorem exec_completionWriteAnswer_accepted {s : State} {write : HostWrite} {c : Completion} {rest : List Completion}
    (hw : s.writer.write = some write) (ho : s.writer.outbound = c :: rest) :
    exec (.completionWriteAnswer .accepted) s = .next (s.completionWritten c rest).settle := by
  show Host.Outcome.next (s.completionAnswered .accepted) = _
  rw [State.completionAnswered, hw, ho]

/-! ## The issue of a write -/

theorem State.issueWrite_eq_none_iff (s : State) :
    s.issueWrite = none
      ↔ ¬ (s.active = true ∧ s.writer.write = none ∧ (∃ r ∈ s.writer.ring, r.hasRoom = true)
        ∧ s.writer.outbound ≠ []) := by
  rw [← Option.not_isSome_iff_eq_none, s.issueWrite_isSome]
  simp [Option.any_eq_true, and_assoc]

theorem State.issueWrite_of_hasRoom {s : State} {r : CompletionRing} {c : Completion} {rest : List Completion}
    (ha : s.active = true) (hr : s.writer.ring = some r) (hw : s.writer.write = none)
    (ho : s.writer.outbound = c :: rest) (hroom : (r.producer + 1) % r.size ≠ r.retire) :
    s.issueWrite
      = some { s with writer := { s.writer with
          write := some { address := r.base + BitVec.ofNat 64 (16 * r.producer), bytes := c.bytes r.lap } } } := by
  have hroom : r.hasRoom = true := decide_eq_true hroom
  simp only [State.issueWrite, ha, hw, hr, ho, hroom, Option.isNone_none, Bool.and_self, if_true]

/-- Settles O59: the accepted write takes its completion out of the list and out of its head's queue, and the next is issued
exactly where nothing holds it back. -/
theorem completionWritesFollowTheRing : Obligations.CompletionWritesFollowTheRing := by
  refine ⟨fun s write c rest r hw ho hr hlt => ?_, fun s h => ?_, fun s r ha hr hw => ⟨fun ho => ?_, fun c rest ho =>
    ⟨fun hfull => ?_, State.issueWrite_of_hasRoom ha hr hw ho⟩⟩⟩
  · refine ⟨writtenCauses c s.regs.cause, (s.completionWritten c rest).heads, writtenCauses_eq c _, fun hc => ?_,
      fun h hc => ?_, ?_⟩
    · rw [State.completionWritten, hc]
    · rw [← Present.written_eq, State.completionWritten, hc]
    · rw [exec_completionWriteAnswer_accepted hw ho, ← r.advanced_eq hlt]
      rw [State.completionWritten, hr]
      rfl
  · rw [s.issueWrite_eq_none_iff]
    rintro ⟨ha, hw, ⟨r, hr, -⟩, -⟩
    rcases h with h | h | h
    · rw [h] at ha; cases ha
    · rw [h] at hr; cases hr
    · exact h hw
  · rw [s.issueWrite_eq_none_iff]
    rintro ⟨-, -, -, hne⟩
    exact hne ho
  · rw [s.issueWrite_eq_none_iff]
    rintro ⟨-, -, ⟨q, hq, hroom⟩, -⟩
    obtain rfl : r = q := Option.some.inj (hr.symm.trans hq)
    exact of_decide_eq_true hroom hfull

end Sys2Proof.Machine
end

