-- ==== Sys2Proof/Proofs/PaletteReads.lean ====
section
/-! SUPPORT. The fields of PALETTE records; a PALETTE that begins its component read or is held PALETTE_HAZARD; the answers
to component reads; and the components a buffer writes into a palette (R109 to R111). -/

namespace Sys2Proof.Machine

set_option Elab.async false

/-! ## Fields (R109, R176) -/

theorem paletteFields_eq_some (slots : List (List Byte)) (r : PaletteRecord) :
    paletteFields slots = some r ↔
      r.head.val = recordField slots 0x03 1 ∧ r.start = recordField slots 0x10 2 ∧ r.count = recordField slots 0x12 2
        ∧ r.source = BitVec.ofNat 64 (recordField slots 0x18 8) ∧ recordField slots 0x18 8 % 2 = 0
        ∧ r.start ≤ 255 ∧ 1 ≤ r.count ∧ r.count ≤ 768 := by
  simp only [paletteFields, Option.bind_eq_bind, Option.bind_eq_some_iff, Option.ite_none_right_eq_some,
    Option.some.injEq, headField_eq_some]
  constructor
  · rintro ⟨h, hh, ⟨hstart, hcount, hmost, hsource⟩, rfl⟩
    exact ⟨hh, rfl, rfl, rfl, hsource, hstart, hcount, hmost⟩
  · obtain ⟨h, start, count, source⟩ := r
    rintro ⟨hh, rfl, rfl, rfl, hsource, hstart, hcount, hmost⟩
    exact ⟨h, hh, ⟨hstart, hcount, hmost, hsource⟩, rfl⟩

/-! ## Dispatch (R110, R111) -/

theorem Present.hazard_iff (p : Present) : p.hazard = true ↔ ∃ e ∈ p.entries, e.unlatched = true ∧ e.pal = true := by
  simp only [Present.hazard, List.any_eq_true, Bool.and_eq_true]

section
variable {s : State} {k : StreamId} {c : CurrentRecord} {r : PaletteRecord}

theorem State.dispatchPalette_of_hazard (hc : (s.stream k).current = some c) (hr : paletteFields c.slots = some r)
    (hz : (s.head r.head).present.hazard = true) : s.dispatchPalette k = none := by
  simp only [State.dispatchPalette, hc, hr, if_pos hz]

theorem State.dispatchPalette_of_clear (hc : (s.stream k).current = some c) (hr : paletteFields c.slots = some r)
    (hz : ¬ (s.head r.head).present.hazard = true) :
    s.dispatchPalette k
      = some ((s.setHead r.head
            { s.head r.head with
              staging := { (s.head r.head).staging with
                reading := some { ref := headerRef k c, start := r.start, count := r.count
                                  source := r.source, buffer := [] } } }).recordHeld k c .waitPaletteRead) := by
  simp only [State.dispatchPalette, hc, hr, if_neg hz]
  exact congrArg some (State.setPhase_eq_recordHeld _ k c _ hc)

/-- A holder's PALETTE is dispatched, or held PALETTE_HAZARD. -/
theorem execPalette_of_holder (hup : s.takeUp k .palette = some c) (hr : paletteFields c.slots = some r)
    (ho : (s.head r.head).lease.holder = some k) :
    exec (.palette k) s = .next ((s.dispatchPalette k).getD (s.recordHeld k c .heldPaletteHazard)).settle := by
  obtain ⟨_, _, _, hc, _⟩ := s.takeUp_some k .palette c hup
  simp only [exec, execPalette, hup, hr, if_pos ((s.owns_iff k r.head).mpr ho), ← s.setPhase_eq_recordHeld k c _ hc]
  cases s.dispatchPalette k <;> rfl

end

/-! ## Answers (R111, R112) -/

theorem sparseWrite_length_of_none {α : Type} {l : Sparse α} {i : Nat} (h : sparseRead l i = none) (x : α) :
    (sparseWrite l i x).length = l.length + 1 := by
  have herase := sparseErase_length (sparseWrite l i x) i x (by rw [sparseRead_write, if_pos rfl])
  rw [← herase, sparseErase_write l i x h]

section
variable {s : State} {h : HeadId} {i : Nat} {r : PaletteRead}

/-- The part after data for a component that the read in progress waits for. -/
theorem State.paletteAnswered_data (ha : s.active = true) (hr : (s.head h).staging.reading = some r) (hi : i < r.taken)
    (hnone : sparseRead r.buffer i = none) (word : BitVec 16) :
    s.paletteAnswered h i (.data word)
      = if r.buffer.length + 1 < r.taken then
          s.setHead h
            { s.head h with
              staging := { (s.head h).staging with
                reading := some { r with buffer := sparseWrite r.buffer i (word.extractLsb' 0 10) } } }
        else
          ((s.setHead h
              { s.head h with
                staging := { (s.head h).staging with
                  palette := (s.head h).staging.palette.writeComponents r.start
                    (sparseWrite r.buffer i (word.extractLsb' 0 10))
                  dirty := true
                  reading := none } }).finishAs r.ref.stream r.ref 0x23 r.outcome).settle := by
  have hword : word.truncate 10 = word.extractLsb' 0 10 := BitVec.setWidth_eq_extractLsb' (by decide)
  simp only [State.paletteAnswered, hr, ha, hi, hnone, hword, sparseWrite_length_of_none hnone, decide_true,
    Option.isNone_none, Bool.and_self, if_true]
  rfl

theorem State.paletteAnswered_busError (ha : s.active = true) (hr : (s.head h).staging.reading = some r)
    (hi : i < r.taken) (hnone : sparseRead r.buffer i = none) :
    s.paletteAnswered h i .busError
      = ((s.setHead h { s.head h with staging := { (s.head h).staging with reading := none } }).finishAs r.ref.stream
          r.ref 0x23 { status := .sourceError }).settle := by
  simp only [State.paletteAnswered, hr, ha, hi, hnone, decide_true, Option.isNone_none, Bool.and_self, if_true]
  rfl

end

/-! ## Components -/

theorem Palette.entry_get (p : Palette) (n : Fin 256) : p.entry n.val = p.get n := by
  simp [Palette.entry, Vector.get]

theorem Palette.setComponent_get_ne (p : Palette) {start i : Nat} (v : BitVec 10) {n : Fin 256}
    (h : n.val ≠ start + i / 3) : (p.setComponent start i v).get n = p.get n :=
  Vector.getElem_setIfInBounds_ne n.isLt h.symm

theorem Palette.setComponent_get_same (p : Palette) {start i : Nat} (v : BitVec 10) {n : Fin 256}
    (h : n.val = start + i / 3) :
    (p.setComponent start i v).get n
      = { red := if i % 3 = 0 then v else (p.get n).red
          green := if i % 3 = 1 then v else (p.get n).green
          blue := if i % 3 = 2 then v else (p.get n).blue } := by
  have hset : ∀ e : Rgb10, (p.setIfInBounds n.val e).get n = e := fun e => Vector.getElem_setIfInBounds_self n.isLt
  simp only [Palette.setComponent, ← h, hset, Palette.entry_get]
  have hlt : i % 3 < 3 := Nat.mod_lt i (by decide)
  interval_cases i % 3 <;> rfl

/-- Settles O42: the hazard decides at dispatch, the number of components that have come in at each answer. -/
theorem paletteRecordsAreRead : Obligations.PaletteRecordsAreRead := by
  refine ⟨fun k s c r hup hr ho => ?_, fun h i word s r ha hr hi hnone => ⟨fun hmore => ?_, fun hlast => ?_, ?_⟩,
    fun p start i v _ n => ?_, fun p start => ⟨rfl, fun _ _ _ => rfl⟩, paletteFields_eq_some⟩
  · obtain ⟨_, _, _, hc, _⟩ := s.takeUp_some k .palette c hup
    rw [execPalette_of_holder hup hr ho, ← Present.hazard_iff]
    refine ⟨fun hz => ?_, fun hz => ?_⟩
    · rw [State.dispatchPalette_of_hazard hc hr hz]
      rfl
    · rw [State.dispatchPalette_of_clear hc hr, Option.getD_some]
      rw [Present.hazard_iff]
      rintro ⟨e, he, hu, hp⟩
      exact absurd hp (Bool.eq_false_iff.mp (hz e he hu))
  · exact congrArg Host.Outcome.next ((State.paletteAnswered_data ha hr hi hnone word).trans (if_pos hmore))
  · exact congrArg Host.Outcome.next
      ((State.paletteAnswered_data ha hr hi hnone word).trans (if_neg (Nat.not_lt.mpr hlast)))
  · exact congrArg Host.Outcome.next (State.paletteAnswered_busError ha hr hi hnone)
  · by_cases hn : n.val = start + i / 3
    · simp only [p.setComponent_get_same v hn, hn, true_and, and_self]
    · simp only [p.setComponent_get_ne v hn, hn, false_and, if_false, and_self]

end Sys2Proof.Machine
end

