-- ==== Sys2Proof/Proofs/Backlight.lean ====
section
/-! SUPPORT. The ramp of the backlight, with the level after any number of steps; the fields of LIGHT records; and a
LIGHT by the link state and the level it finds. -/

namespace Sys2Proof.Machine

set_option Elab.async false

/-! ## The ramp (R139) -/

section
variable {level target : Nat} (step : Nat)

theorem rampToward_of_lt (h : level < target) : rampToward level target step = min target (level + step) := if_pos h

theorem rampToward_of_le (h : target ≤ level) : rampToward level target step = max target (level - step) :=
  if_neg (Nat.not_lt.mpr h)

theorem rampToward_target (target step : Nat) : rampToward target target step = target := by
  rw [rampToward_of_le step (le_refl target)]
  omega

theorem iterate_rampToward_of_lt (h : level < target) (n : Nat) :
    (fun l => rampToward l target step)^[n] level = min target (level + step * n) := by
  induction n with
  | zero => rw [Function.iterate_zero_apply]; omega
  | succ n ih =>
    rw [Function.iterate_succ_apply', ih, Nat.mul_succ]
    rcases Nat.lt_or_ge (level + step * n) target with hbelow | habove
    · rw [min_eq_right hbelow.le, rampToward_of_lt step hbelow, Nat.add_assoc]
    · rw [min_eq_left habove, rampToward_target]
      omega

theorem iterate_rampToward_of_le (h : target ≤ level) (n : Nat) :
    (fun l => rampToward l target step)^[n] level = max target (level - step * n) := by
  induction n with
  | zero => rw [Function.iterate_zero_apply]; omega
  | succ n ih =>
    rw [Function.iterate_succ_apply', ih, Nat.mul_succ, rampToward_of_le step (le_max_left _ _)]
    omega

end

/-- A ramp has arrived once its steps make up the distance. -/
theorem iterate_rampToward_eq_target_iff (level target step n : Nat) :
    (fun l => rampToward l target step)^[n] level = target ↔ target - level + (level - target) ≤ step * n := by
  rcases Nat.lt_or_ge level target with h | h
  · rw [iterate_rampToward_of_lt step h]
    omega
  · rw [iterate_rampToward_of_le step h]
    omega

section
variable {hd : Head}

theorem Head.ramp_of_still (h : hd.link.state ≠ .on ∨ hd.light.ramping = false) : hd.ramp = hd :=
  if_neg fun ⟨hon, hramping⟩ => h.elim (fun hn => hn hon) (fun hn => Bool.noConfusion (hn.symm.trans hramping))

variable (hon : hd.link.state = .on) (hramping : hd.light.ramping = true)
include hon hramping

theorem Head.ramp_of_short (h : rampToward hd.light.level hd.light.target hd.light.step ≠ hd.light.target) :
    hd.ramp
      = { hd with
          light := { hd.light with level := rampToward hd.light.level hd.light.target hd.light.step } } := by
  simp only [Head.ramp, hon, hramping, and_self, if_true, if_neg h]

variable (h : rampToward hd.light.level hd.light.target hd.light.step = hd.light.target)
include h

theorem Head.ramp_of_arrival (hp : hd.light.pending = none) :
    hd.ramp = { hd with light := { hd.light with level := hd.light.target, ramping := false } } := by
  simp only [Head.ramp, hon, hramping, and_self, if_true, h, hp]

theorem Head.ramp_of_pendingArrival (ref : RecordRef) (hp : hd.light.pending = some ref) :
    hd.ramp
      = { hd with
          light := { hd.light with level := hd.light.target, ramping := false, pending := none }
          link := { hd.link with
            held := hd.link.held
              ++ report ref 0x31 { status := .done, valueA := BitVec.ofNat 32 hd.light.target } } } := by
  simp only [Head.ramp, hon, hramping, and_self, if_true, h, hp]
  rfl

end

/-- Settles O55: the level after any number of steps in closed form, and the cases of one ramp step. -/
theorem rampsEndExactly : Obligations.RampsEndExactly := by
  refine ⟨fun level target step n hstep => ?_, fun hd => ⟨Head.ramp_of_still, fun hon hramping =>
    ⟨rampToward hd.light.level hd.light.target hd.light.step, rfl, Head.ramp_of_short hon hramping,
      Head.ramp_of_arrival hon hramping, fun ref h => Head.ramp_of_pendingArrival hon hramping h ref⟩⟩⟩
  rw [iterate_rampToward_eq_target_iff, Nat.div_le_iff_le_mul_add_pred hstep]
  omega

/-! ## LIGHT (R136, R138, R140) -/

theorem lightFields_eq_some (slots : List (List Byte)) (r : LightRecord) :
    lightFields slots = some r ↔
      r.head.val = recordField slots 0x03 1 ∧ r.target = recordField slots 0x10 1
        ∧ (if r.dim = true then 1 else 0) = recordField slots 0x11 1 ∧ r.step = recordField slots 0x12 1
        ∧ 1 ≤ r.step := by
  simp only [lightFields, Option.bind_eq_bind, Option.bind_eq_some_iff, Option.ite_none_left_eq_some,
    Option.some.injEq, headField_eq_some, yesNoOf_eq_some]
  constructor
  · rintro ⟨h, hh, dim, hdim, hstep, rfl⟩
    exact ⟨hh, rfl, hdim, rfl, Nat.one_le_iff_ne_zero.mpr hstep⟩
  · obtain ⟨h, target, dim, step⟩ := r
    rintro ⟨hh, rfl, hdim, rfl, hstep⟩
    exact ⟨h, hh, dim, hdim, Nat.one_le_iff_ne_zero.mp hstep, rfl⟩

/-- The completion of a pending LIGHT that is superseded at the level that stands is never suppressed. -/
theorem Light.superseded_eq (b : Light) :
    b.superseded
      = match b.pending with
        | some old => [completionOf old 0x31 { status := .superseded, valueA := BitVec.ofNat 32 b.level } none]
        | none => [] := by
  unfold Light.superseded
  cases b.pending with
  | none => rfl
  | some old => exact report_of_ne_done old _ _ none nofun

section
variable (b : Light) (ref : RecordRef) (target : Nat) (dim : Bool) (step : Nat)

theorem Light.take_stored (on : Bool) :
    (b.take on ref target dim step).1.target = target ∧ (b.take on ref target dim step).1.dim = dim
      ∧ (b.take on ref target dim step).1.step = step := by
  simp only [Light.take]
  split
  · exact ⟨rfl, rfl, rfl⟩
  · split
    · exact ⟨rfl, rfl, rfl⟩
    · split <;> exact ⟨rfl, rfl, rfl⟩

theorem Light.take_outside :
    b.take false ref target dim step
      = ({ b with target := target, dim := dim, step := step, pending := none }, some (lightOutcome .done 0)) := rfl

theorem Light.take_reached (h : dim = false ∨ b.level = target) :
    b.take true ref target dim step
      = ({ level := target, target := target, dim := dim, step := step, ramping := false, pending := none },
        some (lightOutcome .done target)) := by
  cases dim with
  | false => rfl
  | true =>
    have hlevel : b.level = target := h.resolve_left nofun
    simp only [Light.take, hlevel, Bool.not_true, Bool.false_eq_true, if_false, if_true]

theorem Light.take_ramps (hdim : dim = true) (h : b.level ≠ target) :
    b.take true ref target dim step
      = ({ b with target := target, dim := dim, step := step, ramping := true, pending := some ref }, none) := by
  simp only [Light.take, hdim, h, Bool.not_true, Bool.false_eq_true, if_false]

end

/-- The completion of a LIGHT whose outcome is known at its dispatch. -/
def lightReport (ref : RecordRef) (o : Option Outcome) : List Completion := o.elim [] (report ref lightKind)

@[simp] theorem State.setStream_setStream (s : State) (k : StreamId) (x y : Stream) :
    (s.setStream k x).setStream k y = s.setStream k y := by
  rw [State.setStream, State.setStream, State.setStream]
  fin_cases k <;> rfl

/-- A stream's record ends with completions from its Link Controller. -/
theorem State.handKept_dropCurrent (s : State) (k : StreamId) (cs : List Completion) :
    (s.handKept k cs).dropCurrent k
      = s.setStream k { s.stream k with current := none, kept := (s.stream k).kept ++ cs } := by
  rw [State.handKept, State.dropCurrent, State.stream_setStream_same, State.setStream_setStream]

theorem State.dispatchLight_eq (s : State) (k : StreamId) (ref : RecordRef) (h : HeadId) (target : Nat) (dim : Bool)
    (step : Nat) {light : Light} {o : Option Outcome}
    (ht : (s.head h).light.take (decide ((s.head h).link.state = .on)) ref target dim step = (light, o)) :
    s.dispatchLight k ref h target dim step
      = (s.setHead h
            { s.head h with light := light, link := { (s.head h).link with held := [] } }).setStream k
          { s.stream k with
            current := none
            kept := (s.stream k).kept
              ++ ((s.head h).link.held ++ (s.head h).light.superseded ++ lightReport ref o) } := by
  simp only [State.dispatchLight, ht]
  rw [State.handKept_dropCurrent]
  cases o <;> rfl

theorem execLight_of_holder {s : State} {k : StreamId} {c : CurrentRecord} {r : LightRecord}
    (hup : s.takeUp k .light = some c) (hr : lightFields c.slots = some r)
    (ho : (s.head r.head).lease.holder = some k) :
    exec (.light k) s = .next (s.dispatchLight k (headerRef k c) r.head r.target r.dim r.step).settle := by
  simp only [exec, execLight, hup, hr, if_pos ((s.owns_iff k r.head).mpr ho)]

/-- Settles O45: whether the link is ON, and then dim and the level, decide. -/
theorem lightRecordsSetTheLevel : Obligations.LightRecordsSetTheLevel := by
  refine ⟨fun k s c r hup hr ho => ?_, lightFields_eq_some⟩
  obtain ⟨light, o, ht⟩ : ∃ (light : Light) (o : Option Outcome),
      (s.head r.head).light.take (decide ((s.head r.head).link.state = .on)) (headerRef k c) r.target r.dim r.step
        = (light, o) := ⟨_, _, rfl⟩
  obtain ⟨htarget, hdim, hstep⟩ := ht ▸ (s.head r.head).light.take_stored (headerRef k c) r.target r.dim r.step _
  refine ⟨_, rfl, light, lightReport (headerRef k c) o, htarget, hdim, hstep, fun hoff => ?_,
    fun hon => ⟨fun hreached => ?_, fun hd hlevel => ?_⟩, ?_⟩
  · rw [decide_eq_false hoff, Light.take_outside] at ht
    cases ht
    exact ⟨rfl, rfl, rfl, rfl⟩
  · rw [decide_eq_true hon, Light.take_reached _ _ _ _ _ hreached] at ht
    cases ht
    exact ⟨rfl, rfl, rfl, rfl⟩
  · rw [decide_eq_true hon, Light.take_ramps _ _ _ _ _ hd hlevel] at ht
    cases ht
    exact ⟨rfl, rfl, rfl, rfl⟩
  · have heq := State.dispatchLight_eq s k _ _ _ _ _ ht
    rw [Light.superseded_eq] at heq
    exact (execLight_of_holder hup hr ho).trans (congrArg (fun t => Host.Outcome.next t.settle) heq)

end Sys2Proof.Machine
end

