-- ==== Sys2Proof/Proofs/Links.lean ====
section
/-! SUPPORT. The fields of LINK records; what a link enters at once where it moves, through delays of 0 too; and a LINK
by the link state it finds. -/

namespace Sys2Proof.Machine

set_option Elab.async false

/-! ## Fields (R133, R176) -/

/-- The target a LINK's code names. -/
theorem linkTarget_eq_some (n : Nat) (t : LinkTarget) :
    (match n with
      | 0 => some LinkTarget.off
      | 1 => some LinkTarget.on
      | _ => none) = some t ↔ (if t = .on then 1 else 0) = n := by
  have hcode : (match n with
      | 0 => some LinkTarget.off
      | 1 => some LinkTarget.on
      | _ => none) = (yesNoOf n).map (fun on => if on = true then LinkTarget.on else .off) := by
    rcases n with _ | _ | n <;> rfl
  rw [hcode, Option.map_eq_some_iff]
  simp only [yesNoOf_eq_some, Bool.exists_bool]
  cases t <;> simp

theorem linkFields_eq_some (slots : List (List Byte)) (h : HeadId) (target : LinkTarget) :
    linkFields slots = some (h, target) ↔
      h.val = recordField slots 0x03 1 ∧ (if target = .on then 1 else 0) = recordField slots 0x10 1 := by
  simp only [linkFields, Option.bind_eq_bind, Option.bind_eq_some_iff, Option.some.injEq, Prod.mk.injEq,
    headField_eq_some]
  constructor
  · rintro ⟨i, hi, t, ht, rfl, rfl⟩
    exact ⟨hi, (linkTarget_eq_some _ t).mp ht⟩
  · rintro ⟨hh, ht⟩
    exact ⟨h, hh, target, (linkTarget_eq_some _ target).mpr ht, rfl, rfl⟩

/-! ## Entries (R88, R130, R141) -/

@[simp] theorem State.setHead_setHead (s : State) (h : HeadId) (x y : Head) :
    (s.setHead h x).setHead h y = s.setHead h y := by
  rw [State.setHead, State.setHead, State.setHead]
  fin_cases h <;> rfl

/-- The delays by name, of a link that has been given them. -/
theorem Link.delayOf_of_delays {l : Link} {d : Delays} (hd : l.delays = some d) :
    l.delayOf .powering = some d.supply ∧ l.delayOf .signalling = some d.signal ∧ l.delayOf .darkening = some d.light
      ∧ l.delayOf .quiescing = some d.signal := by
  simp only [Link.delayOf, hd, Option.getD_some, and_self]

theorem Light.atOn_eq (b : Light) :
    b.atOn
      = if b.dim = true ∧ b.target ≠ 0 then { b with level := 0, ramping := true }
        else { b with level := b.target, ramping := false } := by
  unfold Light.atOn
  cases b.dim <;> simp

theorem Head.enter_quiescing (hd : Head) :
    hd.enter .quiescing
      = { hd with
          scan := { hd.scan with sent := [], shown := [] }
          link := { hd.link with state := .quiescing, timer := hd.link.delayOf .quiescing } } := rfl

/-- The entry to ON of a link that no LINK is pending for. -/
theorem Head.enter_on (hd : Head) (hp : hd.link.pending = none) :
    hd.enter .on = { hd with link := { hd.link with state := .on, timer := none }, light := hd.light.atOn } := by
  simp only [Head.enter, Link.complete, hp]
  exact congrArg (fun l => ({ hd with link := l, light := hd.light.atOn } : Head)) (ite_self _)

section
variable (s : State) (h : HeadId) (hd : Head)

/-- An entry that neither raises the LINK cause nor stops the scan changes the head alone. -/
theorem State.enterLink_setHead {st : LinkState} (hst : st = .powering ∨ st = .signalling ∨ st = .darkening) :
    (s.setHead h hd).enterLink h st = s.setHead h (hd.enter st) := by
  rcases hst with rfl | rfl | rfl <;> simp only [State.enterLink, State.head_setHead_same, State.setHead_setHead]

theorem State.enterLink_setHead_on :
    (s.setHead h hd).enterLink h .on = (s.setHead h (hd.enter .on)).raise (.link h) := by
  simp only [State.enterLink, State.head_setHead_same, State.setHead_setHead]

theorem State.enterLink_setHead_quiescing :
    (s.setHead h hd).enterLink h .quiescing = (s.setHead h (hd.enter .quiescing)).scanStopped h := by
  simp only [State.enterLink, State.head_setHead_same, State.setHead_setHead]

end

/-! ## The passage of a link (R130, R131) -/

section
variable {s : State} {h : HeadId} {hd : Head} (n : Nat) {st : LinkState}

/-- The passage ends at an entry that sets no timer of 0. -/
theorem State.linkTo_of_rest (hoff : st ≠ .off) (hz : hd.link.delayOf st ≠ some 0) :
    (s.setHead h hd).linkTo (n + 1) h st = (s.setHead h hd).enterLink h st := by
  obtain ⟨_, htimer⟩ := (s.setHead h hd).enterLink_link h st
  rw [State.head_setHead_same] at htimer
  rw [← htimer] at hz
  cases st with
  | off => exact absurd rfl hoff
  | _ => exact if_neg hz

theorem State.linkTo_of_delay {delay : Nat} (hdelay : hd.link.delayOf st = some delay) (hpos : 0 < delay) :
    (s.setHead h hd).linkTo (n + 1) h st = (s.setHead h hd).enterLink h st := by
  refine State.linkTo_of_rest n ?_ ?_
  · rintro rfl
    cases hdelay
  · rw [hdelay]
    exact fun e => hpos.ne' (Option.some.inj e)

theorem State.linkTo_on : (s.setHead h hd).linkTo (n + 1) h .on = (s.setHead h hd).enterLink h .on :=
  State.linkTo_of_rest n nofun nofun

/-- The passage goes on through a step of delay 0. -/
theorem State.linkTo_of_pass {next : LinkState} (hdelay : hd.link.delayOf st = some 0)
    (hnext : afterStep st hd.link.target = some next) :
    (s.setHead h hd).linkTo (n + 1) h st = ((s.setHead h hd).enterLink h st).linkTo n h next := by
  obtain ⟨htarget, htimer⟩ := (s.setHead h hd).enterLink_link h st
  rw [State.head_setHead_same] at htarget htimer
  rw [← htarget] at hnext
  rw [hdelay] at htimer
  cases st with
  | off => cases hdelay
  | _ => simp only [State.linkTo, htimer, hnext, if_true]

end

section
variable {s : State} {h : HeadId} {hd : Head} {d : Delays} (hdelays : hd.link.delays = some d)
include hdelays

theorem State.rise_of_supply (hsupply : 0 < d.supply) :
    (s.setHead h hd).linkTo linkEntries h .powering
      = s.setHead h { hd with link := { hd.link with state := .powering, timer := some d.supply } } := by
  obtain ⟨hpowering, _⟩ := Link.delayOf_of_delays hdelays
  rw [linkEntries, State.linkTo_of_delay 7 hpowering hsupply, State.enterLink_setHead s h hd (.inl rfl), Head.enter,
    hpowering]

/-- Without a supply delay POWERING is left at once, for SIGNALLING. -/
theorem State.rise_to_signalling (htarget : hd.link.target = .on) (hsupply : d.supply = 0) :
    (s.setHead h hd).linkTo linkEntries h .powering
      = (s.setHead h { hd with link := { hd.link with state := .powering, timer := some 0 } }).linkTo 7 h
          .signalling := by
  obtain ⟨hpowering, _⟩ := Link.delayOf_of_delays hdelays
  rw [hsupply] at hpowering
  rw [linkEntries, State.linkTo_of_pass 7 hpowering (next := .signalling) (by rw [htarget]; rfl),
    State.enterLink_setHead s h hd (.inl rfl), Head.enter, hpowering]

theorem State.rise_of_signal (htarget : hd.link.target = .on) (hsupply : d.supply = 0) (hsignal : 0 < d.signal) :
    (s.setHead h hd).linkTo linkEntries h .powering
      = s.setHead h
          { hd with
            scan := hd.scan.beginLine 0
            link := { hd.link with state := .signalling, timer := some d.signal } } := by
  obtain ⟨_, hsignalling, _⟩ :=
    Link.delayOf_of_delays (l := { hd.link with state := .powering, timer := some 0 }) hdelays
  rw [State.rise_to_signalling hdelays htarget hsupply, State.linkTo_of_delay 6 hsignalling hsignal,
    State.enterLink_setHead s h _ (.inr (.inl rfl)), Head.enter, hsignalling]

theorem State.rise_to_on (htarget : hd.link.target = .on) (hp : hd.link.pending = none) (hsupply : d.supply = 0)
    (hsignal : d.signal = 0) :
    (s.setHead h hd).linkTo linkEntries h .powering
      = (s.setHead h
            { hd with
              scan := hd.scan.beginLine 0
              link := { hd.link with state := .on, timer := none }
              light := hd.light.atOn }).raise (.link h) := by
  obtain ⟨_, hsignalling, _⟩ :=
    Link.delayOf_of_delays (l := { hd.link with state := .powering, timer := some 0 }) hdelays
  rw [hsignal] at hsignalling
  rw [State.rise_to_signalling hdelays htarget hsupply,
    State.linkTo_of_pass 6 hsignalling (next := .on) (by rw [htarget]; rfl),
    State.enterLink_setHead s h _ (.inr (.inl rfl)), State.linkTo_on 5, State.enterLink_setHead_on, Head.enter_on]
  · rfl
  · exact hp

theorem State.fall_of_light (hlight : 0 < d.light) :
    (s.setHead h hd).linkTo linkEntries h .darkening
      = s.setHead h
          { hd with
            link := { hd.link with
              state := .darkening, timer := some d.light, held := hd.link.held ++ hd.light.superseded }
            light := hd.light.atFall } := by
  obtain ⟨_, _, hdarkening, _⟩ := Link.delayOf_of_delays hdelays
  rw [linkEntries, State.linkTo_of_delay 7 hdarkening hlight, State.enterLink_setHead s h hd (.inr (.inr rfl)),
    Head.enter, hdarkening]

/-- Without a light delay DARKENING is left at once, for QUIESCING, where the scan stops. -/
theorem State.fall_to_quiescing (hlight : d.light = 0) (hsignal : 0 < d.signal) :
    (s.setHead h hd).linkTo linkEntries h .darkening
      = (s.setHead h
            { hd with
              scan := { hd.scan with sent := [], shown := [] }
              link := { hd.link with
                state := .quiescing, timer := some d.signal, held := hd.link.held ++ hd.light.superseded }
              light := hd.light.atFall }).scanStopped h := by
  obtain ⟨_, _, hdarkening, _⟩ := Link.delayOf_of_delays hdelays
  obtain ⟨_, _, _, hquiescing⟩ := Link.delayOf_of_delays (l := (hd.enter .darkening).link) hdelays
  rw [hlight] at hdarkening
  rw [linkEntries, State.linkTo_of_pass 7 hdarkening (next := .quiescing) rfl,
    State.enterLink_setHead s h hd (.inr (.inr rfl)), State.linkTo_of_delay 6 hquiescing hsignal,
    State.enterLink_setHead_quiescing, Head.enter_quiescing, hquiescing]
  rfl

end

theorem Link.arrived_iff (l : Link) :
    l.arrived = true ↔ l.state = .off ∧ l.target = .off ∨ l.state = .on ∧ l.target = .on := by
  obtain ⟨state, target, _, _, _, _⟩ := l
  cases state <;> cases target <;> simp [Link.arrived]

/-- A head whose link has a new target, its pending LINK and the completions held taken from it. -/
def Head.retargeted (hd : Head) (target : LinkTarget) : Head :=
  { hd with link := { hd.link with pending := none, held := [], target := target } }

section
variable {s : State} {h : HeadId} {hd : Head}

theorem State.linkMove_of_on (hs : hd.link.state = .off) :
    (s.setHead h (hd.retargeted .on)).linkMove h
      = (s.setHead h (hd.retargeted .on)).linkTo linkEntries h .powering := by
  simp only [State.linkMove, State.head_setHead_same, Head.retargeted, hs]

theorem State.linkMove_of_off (hs : hd.link.state = .on) :
    (s.setHead h (hd.retargeted .off)).linkMove h
      = (s.setHead h (hd.retargeted .off)).linkTo linkEntries h .darkening := by
  simp only [State.linkMove, State.head_setHead_same, Head.retargeted, hs]

theorem State.linkMove_of_still (hoff : hd.link.state = .off → hd.link.target ≠ .on)
    (hon : hd.link.state = .on → hd.link.target ≠ .off) : (s.setHead h hd).linkMove h = s.setHead h hd := by
  rw [State.linkMove, State.head_setHead_same]
  split
  · rename_i hs ht
    exact absurd ht (hoff hs)
  · rename_i hs ht
    exact absurd ht (hon hs)
  · rfl

theorem State.linkMove_of_arrived (ha : hd.link.arrived = true) : (s.setHead h hd).linkMove h = s.setHead h hd := by
  rcases hd.link.arrived_iff.mp ha with ⟨hs, ht⟩ | ⟨hs, ht⟩
  · exact State.linkMove_of_still (fun _ => by rw [ht]; exact nofun) (fun hn => absurd (hs.symm.trans hn) nofun)
  · exact State.linkMove_of_still (fun hn => absurd (hs.symm.trans hn) nofun) (fun _ => by rw [ht]; exact nofun)

end

theorem Link.not_arrived_of_step {l : Link} (hoff : l.state ≠ .off) (hon : l.state ≠ .on) : l.arrived = false := by
  rw [Bool.eq_false_iff, Ne, l.arrived_iff]
  exact fun h => h.elim (fun h => hoff h.1) (fun h => hon h.1)

/-! ## LINK (R133, R134, R136, R141) -/

/-- The completions that a LINK takes from a Link Controller: those held, and that of the LINK it supersedes. -/
def Link.handed (l : Link) : List Completion :=
  l.held
    ++ match l.pending with
      | some old => [completionOf old 0x30 { status := .superseded } none]
      | none => []

section
variable {s : State} {k : StreamId} {ref : RecordRef} {h : HeadId} {target : LinkTarget} {m : State}
  (hm : (s.setHead h ((s.head h).retargeted target)).linkMove h = m)
include hm

theorem State.dispatchLink_eq :
    s.dispatchLink k ref h target
      = if (m.head h).link.arrived = true then
          (m.handKept k ((s.head h).link.handed ++ report ref 0x30 { status := .done })).dropCurrent k
        else
          ((m.setHead h { m.head h with link := { (m.head h).link with pending := some ref } }).handKept k
            (s.head h).link.handed).dropCurrent k := by
  subst hm
  have hsuperseded : ∀ p : Option RecordRef,
      (match p with
        | some old => [completionOf old 0x30 { status := .superseded } none]
        | none => [])
        = match p with
          | some old => report old linkKind { status := .superseded }
          | none => [] := fun p => by
    cases p with
    | none => rfl
    | some old => exact (report_of_ne_done old linkKind { status := .superseded } none nofun).symm
  rw [Link.handed, hsuperseded]
  rfl

theorem State.dispatchLink_of_arrived (ha : (m.head h).link.arrived = true) :
    s.dispatchLink k ref h target
      = m.setStream k
          { m.stream k with
            current := none
            kept := (m.stream k).kept ++ ((s.head h).link.handed ++ report ref 0x30 { status := .done }) } := by
  rw [State.dispatchLink_eq hm, if_pos ha, State.handKept_dropCurrent]

theorem State.dispatchLink_of_moving (ha : (m.head h).link.arrived = false) :
    s.dispatchLink k ref h target
      = (m.setHead h { m.head h with link := { (m.head h).link with pending := some ref } }).setStream k
          { m.stream k with current := none, kept := (m.stream k).kept ++ (s.head h).link.handed } := by
  rw [State.dispatchLink_eq hm, if_neg (Bool.eq_false_iff.mp ha), State.handKept_dropCurrent]
  rfl

end

theorem execLink_of_holder {s : State} {k : StreamId} {c : CurrentRecord} {h : HeadId} {target : LinkTarget}
    (hup : s.takeUp k .link = some c) (hr : linkFields c.slots = some (h, target))
    (ho : (s.head h).lease.holder = some k) :
    exec (.link k) s = .next (s.dispatchLink k (headerRef k c) h target).settle := by
  simp only [exec, execLink, hup, hr, if_pos ((s.owns_iff k h).mpr ho)]

section
variable {s : State} {k : StreamId} {c : CurrentRecord} {h : HeadId} {target : LinkTarget}
  (hup : s.takeUp k .link = some c) (hr : linkFields c.slots = some (h, target))
  (ho : (s.head h).lease.holder = some k)
include hup hr ho

theorem execLink_of_arrived {m : State} (hm : (s.setHead h ((s.head h).retargeted target)).linkMove h = m)
    (ha : (m.head h).link.arrived = true) {t : State}
    (ht : t = m.setStream k
      { m.stream k with
        current := none
        kept := (m.stream k).kept
          ++ ((s.head h).link.handed ++ report (headerRef k c) 0x30 { status := .done }) }) :
    exec (.link k) s = .next t.settle := by
  rw [execLink_of_holder hup hr ho, State.dispatchLink_of_arrived hm ha, ht]

theorem execLink_of_moving {m : State} (hm : (s.setHead h ((s.head h).retargeted target)).linkMove h = m)
    (ha : (m.head h).link.arrived = false) :
    exec (.link k) s
      = .next ((m.setHead h
            { m.head h with link := { (m.head h).link with pending := some (headerRef k c) } }).setStream k
          { m.stream k with current := none, kept := (m.stream k).kept ++ (s.head h).link.handed }).settle := by
  rw [execLink_of_holder hup hr ho, State.dispatchLink_of_moving hm ha]

/-- Where the move changes the head alone, and it has not arrived. -/
theorem execLink_of_headMoving {hd : Head}
    (hmove : (s.setHead h ((s.head h).retargeted target)).linkMove h = s.setHead h hd) (ha : hd.link.arrived = false)
    {t : State}
    (ht : t = (s.setHead h { hd with link := { hd.link with pending := some (headerRef k c) } }).setStream k
      { s.stream k with current := none, kept := (s.stream k).kept ++ (s.head h).link.handed }) :
    exec (.link k) s = .next t.settle := by
  rw [execLink_of_moving hup hr ho hmove (by rw [State.head_setHead_same]; exact ha), State.setHead_setHead,
    State.head_setHead_same, State.stream_setHead, ht]

end

/-- The LINK cause of a head, in the bits of CAUSE (R172). -/
theorem mask_link (h : HeadId) : (Cause.link h).mask = 0x010#9 <<< h.val :=
  BitVec.shiftLeft_add 1#9 4 h.val

/-- Settles O44: the link state and the target decide where the link moves to, the delays how far it goes at once. -/
theorem linkRecordsSetTheTarget : Obligations.LinkRecordsSetTheTarget := by
  refine ⟨fun k s c h target hup hr ho => ⟨(s.head h).link.handed, rfl, fun hreached => ?_, fun hoff hon => ?_,
    fun d hoff ht hd hsupply => ?_, fun d hoff ht hd hsupply => ⟨fun hsignal => ?_, fun hsignal => ?_⟩,
    fun d hon ht hd hlight hsignal => ?_, fun d hon ht hd hlight => ?_⟩, linkFields_eq_some⟩
  · have ha : ((s.head h).retargeted target).link.arrived = true := (Link.arrived_iff _).mpr hreached
    exact execLink_of_arrived hup hr ho (State.linkMove_of_arrived ha) (by rw [State.head_setHead_same]; exact ha) rfl
  · have hmove : (s.setHead h ((s.head h).retargeted target)).linkMove h
        = s.setHead h ((s.head h).retargeted target) :=
      State.linkMove_of_still (fun hs => absurd hs hoff) (fun hs => absurd hs hon)
    exact execLink_of_headMoving hup hr ho hmove (Link.not_arrived_of_step hoff hon) rfl
  · subst ht
    exact execLink_of_headMoving hup hr ho ((State.linkMove_of_on hoff).trans (State.rise_of_supply hd hsupply)) rfl rfl
  · subst ht
    exact execLink_of_headMoving hup hr ho
      ((State.linkMove_of_on hoff).trans (State.rise_of_signal hd rfl hsupply hsignal)) rfl rfl
  · subst ht
    have hmove := (State.linkMove_of_on (s := s) (h := h) hoff).trans (State.rise_to_on hd rfl rfl hsupply hsignal)
    rw [← mask_link, ← Light.atOn_eq]
    refine execLink_of_arrived hup hr ho hmove ?_ rfl
    rw [State.head, State.raise_heads, ← State.head, State.head_setHead_same]
    rfl
  · subst ht
    have hmove := (State.linkMove_of_off (s := s) (h := h) hon).trans (State.fall_to_quiescing hd hlight hsignal)
    rw [Light.superseded_eq] at hmove
    refine ⟨_, rfl, execLink_of_moving hup hr ho hmove (Link.not_arrived_of_step ?_ ?_)⟩
    all_goals
      rw [((State.scanStopped_keepsTime _ h).head h).state, State.head_setHead_same]
      exact nofun
  · subst ht
    have hmove := (State.linkMove_of_off (s := s) (h := h) hon).trans (State.fall_of_light hd hlight)
    rw [Light.superseded_eq] at hmove
    exact execLink_of_headMoving hup hr ho hmove rfl rfl

end Sys2Proof.Machine
end

