-- ==== Sys2Proof/Proofs/CompletionLayout.lean ====
section
/-! SUPPORT. The bytes of a completion: numbers laid out between other bytes, the first byte and the flags byte bit by bit,
the status codes, and the write at a ring entry (R146, R150, R171, R177). -/

namespace Sys2Proof.Machine

set_option Elab.async false

/-! ## Numbers between other bytes (R171) -/

theorem bytesOf_length (value n : Nat) : (bytesOf value n).length = n := by
  induction n generalizing value with
  | zero => rfl
  | succ n ih => rw [bytesOf, List.length_cons, ih]

/-- A field that ends within the first bytes does not read those that follow. -/
theorem fieldAt_append_left (xs ys : List Byte) (offset n : Nat) (h : offset + n ≤ xs.length) :
    fieldAt (xs ++ ys) offset n = fieldAt xs offset n := by
  induction n generalizing offset with
  | zero => rfl
  | succ n ih =>
    have hbyte : byteAt (xs ++ ys) offset = byteAt xs offset := List.getD_append _ _ _ _ (by omega)
    rw [fieldAt, fieldAt, hbyte, ih (offset + 1) (by omega)]

theorem fieldAt_append_right (xs ys : List Byte) (n : Nat) : fieldAt (xs ++ ys) xs.length n = fieldAt ys 0 n := by
  induction xs with
  | nil => rfl
  | cons x xs ih => rw [List.cons_append, List.length_cons, fieldAt_cons, ih]

/-- A number laid out between other bytes is read back from its place. -/
theorem fieldAt_of_between {bytes front back : List Byte} {value n offset : Nat}
    (hbytes : bytes = front ++ (bytesOf value n ++ back)) (hoffset : front.length = offset) (hv : value < 256 ^ n) :
    fieldAt bytes offset n = value := by
  rw [hbytes, ← hoffset, fieldAt_append_right, fieldAt_append_left _ _ _ _ (by rw [bytesOf_length, Nat.zero_add]),
    fieldAt_bytesOf, Nat.mod_eq_of_lt hv]

/-! ## Bits (R150, R177) -/

theorem bitAt_getLsbD (b : Bool) {n : Nat} (hn : n < 8) (i : Nat) : (bitAt b n).getLsbD i = (b && decide (i = n)) := by
  cases b with
  | false => exact BitVec.getLsbD_zero
  | true =>
    rw [bitAt, if_pos rfl, BitVec.getLsbD_shiftLeft, BitVec.getLsbD_one, Bool.eq_iff_iff]
    simp only [Bool.and_eq_true, Bool.not_eq_true', decide_eq_true_eq, decide_eq_false_iff_not, true_and]
    omega

theorem Flags.byte_getLsbD (f : Flags) (i : Nat) :
    f.byte.getLsbD i
      = (f.overrun && decide (i = 0) || f.gateBypassed && decide (i = 1) || f.alreadyHeld && decide (i = 2)
        || f.partialEntry && decide (i = 3) || f.notScanning && decide (i = 4) || f.palette && decide (i = 5)) := by
  simp only [Flags.byte, BitVec.getLsbD_or, bitAt_getLsbD, Nat.reduceLT]

theorem Flags.byte_flags (f : Flags) :
    f.byte.getLsbD 0 = f.overrun ∧ f.byte.getLsbD 1 = f.gateBypassed ∧ f.byte.getLsbD 2 = f.alreadyHeld
      ∧ f.byte.getLsbD 3 = f.partialEntry ∧ f.byte.getLsbD 4 = f.notScanning ∧ f.byte.getLsbD 5 = f.palette := by
  simp only [Flags.byte_getLsbD]
  simp

/-- Bits 6 and 7 of the flags byte are no flag's. -/
theorem Flags.byte_unassigned (f : Flags) : f.byte.extractLsb' 6 2 = 0 := by
  apply BitVec.eq_of_getLsbD_eq
  intro i _
  have hno (n : Nat) (hn : n < 6) : decide (6 + i = n) = false := decide_eq_false (by omega)
  simp [Flags.byte_getLsbD, hno]

/-- The lap bit and the stream number share the first byte. -/
theorem firstByte_fields (lap : Bool) (k : StreamId) :
    let b := (if lap then 0x80#8 else 0#8) ||| BitVec.ofNat 8 k.val
    b.getLsbD 7 = lap ∧ (b.extractLsb' 2 5).toNat = 0 ∧ (b.extractLsb' 0 2).toNat = k.val := by
  revert lap k
  decide

/-- Bit 7 of its code says whether a status halts. -/
theorem Status.code_halting (st : Status) : st.code.getLsbD 7 = st.halting := by cases st <;> rfl

/-! ## The numbers of a completion (R177) -/

section
variable (c : Completion) (lap : Bool)

theorem Completion.bytes_length : (c.bytes lap).length = 16 := rfl

theorem Completion.bytes_tag : fieldAt (c.bytes lap) 4 2 = c.tag.toNat :=
  fieldAt_of_between (by rw [Completion.bytes, List.append_assoc, List.append_assoc, List.append_assoc]) rfl c.tag.isLt

theorem Completion.bytes_ringIndex (h : c.ringIndex < 256 ^ 2) : fieldAt (c.bytes lap) 6 2 = c.ringIndex :=
  fieldAt_of_between (by rw [Completion.bytes, List.append_assoc, List.append_assoc]) rfl h

theorem Completion.bytes_valueA : fieldAt (c.bytes lap) 8 4 = c.outcome.valueA.toNat :=
  fieldAt_of_between (by rw [Completion.bytes, List.append_assoc]) rfl c.outcome.valueA.isLt

theorem Completion.bytes_valueB : fieldAt (c.bytes lap) 12 4 = c.outcome.valueB.toNat :=
  fieldAt_of_between (by rw [Completion.bytes, List.append_nil]) rfl c.outcome.valueB.isLt

end

/-! ## The write at a ring entry (R146, R147) -/

/-- The write that is issued is that of the oldest outbound entry, at the producer index. -/
theorem State.issueWrite_write {s t : State} {r : CompletionRing} {c : Completion} {rest : List Completion}
    (ht : s.issueWrite = some t) (hr : s.writer.ring = some r) (ho : s.writer.outbound = c :: rest) :
    t.writer.write = some { address := r.base + BitVec.ofNat 64 (16 * r.producer), bytes := c.bytes r.lap } := by
  have hissued : s.issueWrite ≠ none := by rw [ht]; exact Option.some_ne_none t
  rw [Ne, s.issueWrite_eq_none_iff, not_not] at hissued
  obtain ⟨ha, hw, ⟨q, hq, hroom⟩, -⟩ := hissued
  obtain rfl : r = q := Option.some.inj (hr.symm.trans hq)
  rw [State.issueWrite_of_hasRoom ha hr hw ho (of_decide_eq_true hroom)] at ht
  obtain rfl := Option.some.inj ht
  rfl

/-- Settles O24: the write issued carries the oldest completion to the producer's entry, and its sixteen bytes hold each field
at its place. -/
theorem completionsAreLaidOut : Obligations.CompletionsAreLaidOut := by
  refine ⟨fun s t r c rest ht hr ho => ⟨_, State.issueWrite_write ht hr ho, rfl, address_add_toNat _ _⟩,
    fun c lap hindex => ?_, rfl, rfl, rfl, rfl, rfl, rfl, rfl, rfl, rfl, rfl, rfl, rfl, rfl, rfl⟩
  obtain ⟨hlap, hunassigned, hstream⟩ := firstByte_fields lap c.stream
  obtain ⟨hoverrun, hbypassed, hheld, hpartial, hnotScanning, hpalette⟩ := c.outcome.flags.byte_flags
  exact ⟨c.bytes_length lap, hlap, hunassigned, hstream, rfl, rfl, c.outcome.status.code_halting, hoverrun, hbypassed, hheld,
    hpartial, hnotScanning, hpalette, congrArg BitVec.toNat c.outcome.flags.byte_unassigned, c.bytes_tag lap,
    c.bytes_ringIndex lap (by omega), c.bytes_valueA lap, c.bytes_valueB lap⟩

end Sys2Proof.Machine
end

