-- ==== Sys2Proof/Proofs/RegisterWrites.lean ====
section
/-! SUPPORT. CAUSE and CAUSE_ENABLE bit by bit, the interrupt line, writes to places without a command, and offsets that name
no register (R153 to R157, R160, R161, R172). -/

namespace Sys2Proof.Machine

set_option Elab.async false

/-! ## Causes (R154, R155) -/

theorem clearCauses_getLsbD (bits : Causes) (v : Word) (i : Fin 9) :
    (clearCauses bits v).getLsbD i = (bits.getLsbD i && !v.getLsbD i) := by
  simp only [clearCauses, BitVec.truncate_eq_setWidth, BitVec.getLsbD_and, BitVec.getLsbD_not, BitVec.getLsbD_setWidth,
    i.isLt, decide_true, Bool.true_and]

theorem truncate_getLsbD (v : Word) (i : Fin 9) : (v.truncate 9 : Causes).getLsbD i = v.getLsbD i := by
  simp only [BitVec.truncate_eq_setWidth, BitVec.getLsbD_setWidth, i.isLt, decide_true, Bool.true_and]

/-- Two words of nine bits meet exactly where some bit is set in both. -/
theorem and_ne_zero_iff (a b : Causes) : a &&& b ≠ 0 ↔ ∃ i : Fin 9, a.getLsbD i = true ∧ b.getLsbD i = true := by
  constructor
  · intro hne
    by_contra hnone
    refine hne (BitVec.eq_of_getLsbD_eq fun i hi => ?_)
    have hbit : ¬ (a.getLsbD i = true ∧ b.getLsbD i = true) := fun h => hnone ⟨⟨i, hi⟩, h⟩
    rw [BitVec.getLsbD_and, Bool.eq_false_iff.mpr (mt Bool.and_eq_true_iff.mp hbit)]
    exact BitVec.getLsbD_zero.symm
  · rintro ⟨i, ha, hb⟩ hzero
    have hbit : (a &&& b).getLsbD i = true := by rw [BitVec.getLsbD_and, ha, hb, Bool.and_self]
    rw [hzero] at hbit
    exact Bool.false_ne_true (BitVec.getLsbD_zero.symm.trans hbit)

theorem interruptLine_iff (s : State) :
    interruptLine s = true ↔ ∃ i : Fin 9, s.regs.cause.getLsbD i = true ∧ s.regs.causeEnable.getLsbD i = true := by
  rw [interruptLine, decide_eq_true_iff, and_ne_zero_iff]

/-! ## Places of the window (R157, R172) -/

theorem Register.at?_eq_control_iff (offset : BitVec 6) : Register.at? offset = some .control ↔ offset = 0x04#6 := by
  revert offset
  decide

theorem Register.at?_eq_none (offset : BitVec 6)
    (h : offset ∉ [0x00#6, 0x04#6, 0x08#6, 0x0C#6, 0x10#6, 0x14#6, 0x18#6, 0x1C#6, 0x20#6]) :
    Register.at? offset = none := by
  revert offset
  decide

/-- A CONTROL write whose code names no command decodes to none. -/
theorem decodeWindowWrite_control (offset : BitVec 6) (v : Word) (ho : Register.at? offset = some .control)
    (hv : controlNamesCommand v = false) : decodeWindowWrite offset v = .registerWriteOther offset v := by
  rw [controlNamesCommand, Bool.and_eq_false_iff, decide_eq_false_iff_not, decide_eq_false_iff_not] at hv
  rw [decodeWindowWrite, ho]
  dsimp only
  split
  case h_6 => rfl
  all_goals omega

theorem decodeWindowWrite_of_otherPlace {offset : BitVec 6} {v : Word} (h : otherPlace offset v = true) :
    decodeWindowWrite offset v = .registerWriteOther offset v := by
  cases ho : Register.at? offset with
  | none => rw [decodeWindowWrite, ho]
  | some r =>
    rw [otherPlace, ho] at h
    cases r with
    | ident => rw [decodeWindowWrite, ho]
    | status => rw [decodeWindowWrite, ho]
    | control => exact decodeWindowWrite_control offset v ho ((Bool.not_eq_true' _).mp h)
    | _ => cases h

theorem State.windowWrite_of_otherPlace (s : State) {offset : BitVec 6} {v : Word} (h : otherPlace offset v = true) :
    s.windowWrite offset v = if offset = 0x04#6 then s.refuseControl else s := by
  rw [State.windowWrite, decodeWindowWrite_of_otherPlace h]
  simp only [Register.at?_eq_control_iff]

/-! ## Reads (R157, R172) -/

theorem Causes.zeroExtend_toNat (bits : Causes) : (bits.zeroExtend 32 : Word).toNat = bits.toNat :=
  BitVec.toNat_setWidth_of_le (by decide)

theorem State.readRegister_retire (s : State) :
    s.readRegister 0x20#6 = s.writer.ring.elim 0 fun r => BitVec.ofNat 32 r.retire := by
  rw [State.readRegister, show Register.at? 0x20#6 = some .retire from rfl]
  cases s.writer.ring <;> rfl

theorem State.readRegister_of_none (s : State) {offset : BitVec 6} (h : Register.at? offset = none) :
    s.readRegister offset = 0 := by
  rw [State.readRegister, h]

/-- Settles O25: what a write to CAUSE, CAUSE_ENABLE, SETUP_LO, SETUP_HI or a place without a command does, and what each
offset reads. -/
theorem registerWritesTakeEffect : Obligations.RegisterWritesTakeEffect := by
  refine ⟨fun v s => ⟨⟨_, rfl, clearCauses_getLsbD _ v⟩, ⟨_, rfl, truncate_getLsbD v⟩, interruptLine_iff s⟩,
    fun v s => ⟨rfl, rfl, rfl, rfl, fun offset h => ?_⟩,
    fun s => ⟨rfl, rfl, Causes.zeroExtend_toNat _, Causes.zeroExtend_toNat _, rfl, rfl, rfl, fun hr => ?_, fun r hr => ?_,
      fun offset h => s.readRegister_of_none (Register.at?_eq_none offset h)⟩⟩
  · show Host.Outcome.next (s.windowWrite offset v) = _
    rw [s.windowWrite_of_otherPlace h, s.refuseControl_eq]
    split <;> rfl
  · rw [s.readRegister_retire, hr, Option.elim_none]
  · rw [s.readRegister_retire, hr, Option.elim_some]

end Sys2Proof.Machine
end

