-- ==== Sys2Proof/Proofs/WindowWrites.lean ====
section
/-! SUPPORT. Window writes and the commands that they are: the two fields of a word written to CONTROL, the five codes, and
IDENT (R157, R158, R161, R172). -/

namespace Sys2Proof.Machine

set_option Elab.async false

/-! ## IDENT (R158) -/

theorem State.readRegister_ident (s : State) : s.readRegister 0x00#6 = identWord := rfl

/-- Settles O21: IDENT reads one word, whose fields are those of R158. -/
theorem identIsFixed : Obligations.IdentIsFixed := by
  intro s
  rw [s.readRegister_ident]
  decide

/-! ## The fields of a word written to CONTROL (R172) -/

section
variable {code : Nat} (hcode : code < 16) (k : StreamId)
include hcode

theorem controlWord_code : ((controlWord code k).extractLsb' 0 4).toNat = code := by
  rw [Word.field_toNat, controlWord, BitVec.toNat_ofNat]
  omega

theorem controlStream_controlWord : controlStream (controlWord code k) = k := by
  apply Fin.ext
  show ((controlWord code k).extractLsb' 8 2).toNat = k.val
  rw [Word.field_toNat, controlWord, BitVec.toNat_ofNat]
  omega

end

/-! ## The commands written to CONTROL (R161) -/

/-- A CONTROL write with command code 1 to 5 decodes by its code, and for codes 4 and 5 by its stream number. -/
theorem decodeWindowWrite_codes (v : Word) :
    ((v.extractLsb' 0 4).toNat = 1 → decodeWindowWrite 0x04#6 v = .start)
      ∧ ((v.extractLsb' 0 4).toNat = 2 → decodeWindowWrite 0x04#6 v = .stop)
      ∧ ((v.extractLsb' 0 4).toNat = 3 → decodeWindowWrite 0x04#6 v = .reset)
      ∧ ((v.extractLsb' 0 4).toNat = 4 → decodeWindowWrite 0x04#6 v = .resume (controlStream v))
      ∧ ((v.extractLsb' 0 4).toNat = 5 → decodeWindowWrite 0x04#6 v = .flush (controlStream v)) := by
  have hplace : Register.at? 0x04#6 = some .control := rfl
  refine ⟨fun h => ?_, fun h => ?_, fun h => ?_, fun h => ?_, fun h => ?_⟩ <;>
    simp only [decodeWindowWrite, hplace, h]

theorem code_of_controlNamesCommand {v : Word} (h : controlNamesCommand v = true) :
    (v.extractLsb' 0 4).toNat = 1 ∨ (v.extractLsb' 0 4).toNat = 2 ∨ (v.extractLsb' 0 4).toNat = 3
      ∨ (v.extractLsb' 0 4).toNat = 4 ∨ (v.extractLsb' 0 4).toNat = 5 := by
  rw [controlNamesCommand, Bool.and_eq_true_iff, decide_eq_true_iff, decide_eq_true_iff] at h
  omega

/-- Of a CONTROL write that names a command, the code and the stream number alone decide. -/
theorem decodeWindowWrite_congr {v w : Word} (hcode : v.extractLsb' 0 4 = w.extractLsb' 0 4)
    (hstream : v.extractLsb' 8 2 = w.extractLsb' 8 2) (hnames : controlNamesCommand v = true) :
    decodeWindowWrite 0x04#6 v = decodeWindowWrite 0x04#6 w := by
  have hsame : controlStream v = controlStream w := congrArg BitVec.toFin hstream
  obtain ⟨vStart, vStop, vReset, vResume, vFlush⟩ := decodeWindowWrite_codes v
  obtain ⟨wStart, wStop, wReset, wResume, wFlush⟩ := decodeWindowWrite_codes w
  rw [← hcode] at wStart wStop wReset wResume wFlush
  rcases code_of_controlNamesCommand hnames with h | h | h | h | h
  · exact (vStart h).trans (wStart h).symm
  · exact (vStop h).trans (wStop h).symm
  · exact (vReset h).trans (wReset h).symm
  · rw [vResume h, wResume h, hsame]
  · rw [vFlush h, wFlush h, hsame]

theorem decodeWindowWrite_controlWord (k : StreamId) :
    decodeWindowWrite 0x04#6 (controlWord 4 k) = .resume k ∧ decodeWindowWrite 0x04#6 (controlWord 5 k) = .flush k := by
  obtain ⟨-, -, -, hresume, -⟩ := decodeWindowWrite_codes (controlWord 4 k)
  obtain ⟨-, -, -, -, hflush⟩ := decodeWindowWrite_codes (controlWord 5 k)
  have h4 : 4 < 16 := by decide
  have h5 : 5 < 16 := by decide
  rw [hresume (controlWord_code h4 k), hflush (controlWord_code h5 k), controlStream_controlWord h4,
    controlStream_controlWord h5]
  exact ⟨rfl, rfl⟩

/-! ## Decoding and encoding -/

/-- A write whose place has a command of its own decodes to no REGISTER_WRITE_OTHER, and every other command that is a write
takes any operand. -/
theorem decodeWindowWrite_wellFormed (offset : BitVec 6) (v : Word) : (decodeWindowWrite offset v).wellFormed = true := by
  by_cases hother : otherPlace offset v = true
  · rw [decodeWindowWrite_of_otherPlace hother]
    exact hother
  cases ho : Register.at? offset with
  | none => exact absurd (by rw [otherPlace, ho]) hother
  | some r =>
    cases r with
    | ident => exact absurd (by rw [otherPlace, ho]) hother
    | status => exact absurd (by rw [otherPlace, ho]) hother
    | control =>
      have hnames : controlNamesCommand v = true := by
        rw [otherPlace, ho] at hother
        simpa using hother
      obtain rfl := (Register.at?_eq_control_iff offset).mp ho
      obtain ⟨hstart, hstop, hreset, hresume, hflush⟩ := decodeWindowWrite_codes v
      rcases code_of_controlNamesCommand hnames with h | h | h | h | h
      · rw [hstart h, Instr.wellFormed]
      · rw [hstop h, Instr.wellFormed]
      · rw [hreset h, Instr.wellFormed]
      · rw [hresume h, Instr.wellFormed]
      · rw [hflush h, Instr.wellFormed]
    | _ => rw [decodeWindowWrite, ho]; rfl

theorem decodeWindowWrite_of_encode {i : Instr} {offset : BitVec 6} {v : Word} (hi : i.wellFormed = true)
    (h : encodeWindowWrite i = some (offset, v)) : decodeWindowWrite offset v = i := by
  cases i with
  | resume k => cases h; exact (decodeWindowWrite_controlWord k).1
  | flush k => cases h; exact (decodeWindowWrite_controlWord k).2
  | setupAddressWrite half value => cases half <;> cases h <;> rfl
  | registerWriteOther o value => cases h; exact decodeWindowWrite_of_otherPlace hi
  | _ => cases h <;> rfl

/-- Settles O23: the code and the stream number of a CONTROL word, the offset elsewhere. -/
theorem windowWritesDecode : Obligations.WindowWritesDecode :=
  ⟨fun _ _ _ => decodeWindowWrite_of_encode, decodeWindowWrite_wellFormed, fun _ _ => decodeWindowWrite_congr⟩

end Sys2Proof.Machine
end

