-- ==== Sys2Proof/Proofs/SetupTable.lean ====
section
/-! SUPPORT. The Setup Table: each check of R164 as the reader that answers none where it fails, the order of the checks, and
the answers to the four reads (R163 to R165, R173). -/

namespace Sys2Proof.Machine

set_option Elab.async false

/-! ## Ring sizes -/

theorem ringSize_iff (n : Nat) : ringSize n = true ↔ RingSizePasses n := by
  rw [ringSize, List.contains_iff_mem]
  constructor
  · intro hmem
    have hpow : [16, 32, 64, 128, 256, 512, 1024, 2048, 4096] = (List.range' 4 9).map (2 ^ ·) := rfl
    rw [hpow, List.mem_map] at hmem
    obtain ⟨e, he, rfl⟩ := hmem
    obtain ⟨hlow, hhigh⟩ := List.mem_range'_1.mp he
    exact ⟨e, hlow, by omega, rfl⟩
  · rintro ⟨e, hlow, hhigh, rfl⟩
    interval_cases e <;> decide

/-! ## What a descriptor gives (R164, R165, R173)

Each reader answers a record where its check passes and none where it fails. -/

section
variable (quarters : List (List Byte))

theorem tableRing_ringFor (base size : Nat) (c : FetchClass) :
    (base % 64 = 0 ∧ RingSizePasses size →
        tableRing.ringFor base size c
          = some { base := BitVec.ofNat 64 base, size := size, fetchClass := c, post := 0, fetch := 0 })
      ∧ (¬ (base % 64 = 0 ∧ RingSizePasses size) → tableRing.ringFor base size c = none) := by
  rw [← ringSize_iff]
  exact ⟨fun h => if_pos h, fun h => if_neg h⟩

theorem tableRing_of_passes {k : StreamId} (h : StreamPasses quarters k) :
    tableRing quarters k
      = some { base := BitVec.ofNat 64 (tableField quarters (16 * k.val) 8)
               size := tableField quarters (16 * k.val + 8) 2
               fetchClass := if tableField quarters (16 * k.val + 10) 1 = 1 then .urgent else .normal
               post := 0, fetch := 0 } := by
  obtain ⟨hbase, hsize, hclass⟩ := h
  rcases Nat.le_one_iff_eq_zero_or_eq_one.mp hclass with hc | hc
  · simp only [tableRing, hc]
    exact (tableRing_ringFor _ _ .normal).1 ⟨hbase, hsize⟩
  · simp only [tableRing, hc]
    exact (tableRing_ringFor _ _ .urgent).1 ⟨hbase, hsize⟩

theorem tableRing_of_fails {k : StreamId} (h : ¬ StreamPasses quarters k) : tableRing quarters k = none := by
  have hfails (hclass : tableField quarters (16 * k.val + 10) 1 ≤ 1) (c : FetchClass) :=
    (tableRing_ringFor (tableField quarters (16 * k.val) 8) (tableField quarters (16 * k.val + 8) 2) c).2
      fun ⟨hbase, hsize⟩ => h ⟨hbase, hsize, hclass⟩
  rw [tableRing]
  split
  case h_1 hc => exact hfails (by omega) .normal
  case h_2 hc => exact hfails (by omega) .urgent
  case h_3 => rfl

theorem tableRing_isNone_iff (k : StreamId) : (tableRing quarters k).isNone = true ↔ ¬ StreamPasses quarters k := by
  rw [Option.isNone_iff_eq_none]
  refine ⟨fun hnone hpasses => ?_, tableRing_of_fails quarters⟩
  rw [tableRing_of_passes quarters hpasses] at hnone
  cases hnone

theorem tableCompletionRing_of_passes (h : RingPasses quarters) :
    tableCompletionRing quarters
      = some { base := BitVec.ofNat 64 (tableField quarters 0x40 8), size := tableField quarters 0x48 2
               producer := 0, lap := true, retire := 0 } := by
  rw [RingPasses, ← ringSize_iff] at h
  simp only [tableCompletionRing, if_pos h]

theorem tableCompletionRing_isNone_iff : (tableCompletionRing quarters).isNone = true ↔ ¬ RingPasses quarters := by
  constructor
  · intro hnone hpasses
    rw [tableCompletionRing_of_passes quarters hpasses] at hnone
    cases hnone
  · intro hfails
    rw [RingPasses, ← ringSize_iff] at hfails
    simp only [tableCompletionRing, if_neg hfails, Option.isNone_none]

/-- A field of a head descriptor: the offset in the table of head 0's, 32 bytes further for head 1. -/
theorem headOffset (h : HeadId) (n : Nat) : 0x60 + 0x20 * h.val + n = 0x60 + n + 32 * h.val := Nat.add_right_comm ..

theorem tableTiming_of_passes {h : HeadId} (hpasses : HeadPasses quarters h) :
    tableTiming quarters h
      = some { hAct := tableField quarters (0x60 + 32 * h.val) 2
               vAct := tableField quarters (0x62 + 32 * h.val) 2
               vBlank := tableField quarters (0x64 + 32 * h.val) 2
               linePeriod := tableField quarters (0x66 + 32 * h.val) 2
               frameCause := (tableField quarters 0x50 1).testBit h.val } := by
  rw [HeadPasses] at hpasses
  simp only [tableTiming, headOffset, Nat.reduceAdd, if_pos hpasses]

theorem tableTiming_isNone_iff (h : HeadId) : (tableTiming quarters h).isNone = true ↔ ¬ HeadPasses quarters h := by
  constructor
  · intro hnone hpasses
    rw [tableTiming_of_passes quarters hpasses] at hnone
    cases hnone
  · intro hfails
    rw [HeadPasses] at hfails
    simp only [tableTiming, headOffset, Nat.reduceAdd, if_neg hfails, Option.isNone_none]

theorem tableDelays_eq (h : HeadId) :
    tableDelays quarters h
      = { supply := tableField quarters (0x68 + 32 * h.val) 1, signal := tableField quarters (0x69 + 32 * h.val) 1
          light := tableField quarters (0x6A + 32 * h.val) 1 } := by
  simp only [tableDelays, headOffset, Nat.reduceAdd]

theorem loadedStream_off {k : StreamId} (h : ¬ StreamEnabled quarters k) : loadedStream quarters k = Stream.disabled :=
  if_neg h

theorem loadedStream_on {k : StreamId} (he : StreamEnabled quarters k) :
    loadedStream quarters k = { Stream.disabled with ring := tableRing quarters k } :=
  if_pos he

end

/-! ## The checks in their order (R164) -/

/-- The first stream with a property. -/
theorem find?_allStreams {p : StreamId → Bool} {k : StreamId} (hk : p k = true)
    (hfirst : ∀ i : StreamId, i < k → p i = false) : allStreams.find? p = some k := by
  have hget : ∀ i : StreamId, allStreams[i.val]'i.isLt = i := by decide
  refine List.find?_eq_some_iff_getElem.mpr ⟨hk, k.val, k.isLt, hget k, fun i hi => ?_⟩
  exact (Bool.not_eq_true' _).mpr ((congrArg p (hget ⟨i, hi.trans k.isLt⟩)).trans (hfirst _ hi))

theorem streamError_code (k : StreamId) : (streamError k).code = 3 + k.val := by
  revert k
  decide

section
variable {quarters : List (List Byte)}

theorem streamFails_iff (k : StreamId) :
    (tableEnabled quarters k && (tableRing quarters k).isNone) = true
      ↔ StreamEnabled quarters k ∧ ¬ StreamPasses quarters k := by
  rw [Bool.and_eq_true_iff, tableRing_isNone_iff]
  rfl

theorem anyEnabled_iff : allStreams.any (tableEnabled quarters) = true ↔ ∃ k : StreamId, StreamEnabled quarters k := by
  simp only [List.any_eq_true, mem_allStreams, true_and]
  rfl

/-- Check 1. -/
theorem tableError_of_noneEnabled (h : ∀ k : StreamId, ¬ StreamEnabled quarters k) : tableError quarters = .noStream := by
  have hany : allStreams.any (tableEnabled quarters) = false :=
    Bool.eq_false_iff.mpr fun hany => (anyEnabled_iff.mp hany).elim h
  rw [tableError, hany, Bool.not_false, if_pos rfl]

/-- Check 2, of the lowest enabled stream that fails it. -/
theorem tableError_of_streamFails {k : StreamId} (he : StreamEnabled quarters k) (hfails : ¬ StreamPasses quarters k)
    (hbelow : ∀ i : StreamId, i < k → StreamEnabled quarters i → StreamPasses quarters i) :
    tableError quarters = streamError k := by
  have hany := anyEnabled_iff.mpr ⟨k, he⟩
  have hfind := find?_allStreams ((streamFails_iff k).mpr ⟨he, hfails⟩) fun i hi =>
    Bool.eq_false_iff.mpr fun h => ((streamFails_iff i).mp h).2 (hbelow i hi ((streamFails_iff i).mp h).1)
  simp only [tableError, hany, hfind, Bool.not_true, Bool.false_eq_true, if_false]

/-- How checks 1 and 2 can end: no stream enabled, a lowest enabled stream that fails, or neither. -/
theorem streamChecks_cases (quarters : List (List Byte)) :
    (∀ k : StreamId, ¬ StreamEnabled quarters k)
      ∨ (∃ k : StreamId, StreamEnabled quarters k ∧ ¬ StreamPasses quarters k
          ∧ ∀ i : StreamId, i < k → StreamEnabled quarters i → StreamPasses quarters i)
      ∨ ((∃ k : StreamId, StreamEnabled quarters k)
          ∧ ∀ k : StreamId, StreamEnabled quarters k → StreamPasses quarters k) := by
  by_cases hany : ∃ k : StreamId, StreamEnabled quarters k
  · by_cases hpass : ∀ k : StreamId, StreamEnabled quarters k → StreamPasses quarters k
    · exact .inr (.inr ⟨hany, hpass⟩)
    · obtain ⟨j, hj⟩ := not_forall.mp hpass
      obtain ⟨k, ⟨he, hfails⟩, hmin⟩ :=
        wellFounded_lt.has_min {k : StreamId | StreamEnabled quarters k ∧ ¬ StreamPasses quarters k}
          ⟨j, Classical.not_imp.mp hj⟩
      exact .inr (.inl ⟨k, he, hfails, fun i hi hei => by_contra fun hfi => hmin i ⟨hei, hfi⟩ hi⟩)
  · exact .inl (not_exists.mp hany)

section
variable (hany : ∃ k : StreamId, StreamEnabled quarters k)
  (hpass : ∀ k : StreamId, StreamEnabled quarters k → StreamPasses quarters k)
include hany hpass

/-- How checks 3 to 5 end, where every enabled stream passes check 2. -/
theorem laterChecks_cases :
    (¬ RingPasses quarters ∧ tableError quarters = .ring)
      ∨ (RingPasses quarters ∧ ¬ HeadPasses quarters 0 ∧ tableError quarters = .head0)
      ∨ (RingPasses quarters ∧ HeadPasses quarters 0 ∧ ¬ HeadPasses quarters 1 ∧ tableError quarters = .head1)
      ∨ (RingPasses quarters ∧ HeadPasses quarters 0 ∧ HeadPasses quarters 1 ∧ tableError quarters = .none) := by
  have hfind : allStreams.find? (fun k => tableEnabled quarters k && (tableRing quarters k).isNone) = none :=
    List.find?_eq_none.mpr fun k _ h => ((streamFails_iff k).mp h).2 (hpass k ((streamFails_iff k).mp h).1)
  simp only [tableError, anyEnabled_iff.mpr hany, hfind, Bool.not_true, Bool.false_eq_true, if_false]
  have hring := tableCompletionRing_isNone_iff quarters
  have hhead := tableTiming_isNone_iff quarters
  by_cases hr : (tableCompletionRing quarters).isNone = true
  · exact .inl ⟨hring.mp hr, if_pos hr⟩
  have ringPasses := not_not.mp (mt hring.mpr hr)
  rw [if_neg hr]
  by_cases h0 : (tableTiming quarters 0).isNone = true
  · exact .inr (.inl ⟨ringPasses, (hhead 0).mp h0, if_pos h0⟩)
  have head0Passes := not_not.mp (mt (hhead 0).mpr h0)
  rw [if_neg h0]
  by_cases h1 : (tableTiming quarters 1).isNone = true
  · exact .inr (.inr (.inl ⟨ringPasses, head0Passes, (hhead 1).mp h1, if_pos h1⟩))
  · exact .inr (.inr (.inr ⟨ringPasses, head0Passes, not_not.mp (mt (hhead 1).mpr h1), if_neg h1⟩))

theorem tableError_iff_of_streamsPass :
    (tableError quarters = .ring ↔ ¬ RingPasses quarters)
      ∧ (tableError quarters = .head0 ↔ RingPasses quarters ∧ ¬ HeadPasses quarters 0)
      ∧ (tableError quarters = .head1 ↔ RingPasses quarters ∧ HeadPasses quarters 0 ∧ ¬ HeadPasses quarters 1)
      ∧ (tableError quarters = .none ↔ RingPasses quarters ∧ HeadPasses quarters 0 ∧ HeadPasses quarters 1) := by
  rcases laterChecks_cases hany hpass with ⟨hr, he⟩ | ⟨hr, h0, he⟩ | ⟨hr, h0, h1, he⟩ | ⟨hr, h0, h1, he⟩
  · simp [he, hr]
  · simp [he, hr, h0]
  · simp [he, hr, h0, h1]
  · simp [he, hr, h0, h1]

/-- The codes of the later checks lie above those of the stream descriptors. -/
theorem tableError_code_of_streamsPass : (tableError quarters).code = 0 ∨ 7 ≤ (tableError quarters).code := by
  rcases laterChecks_cases hany hpass with ⟨-, he⟩ | ⟨-, -, he⟩ | ⟨-, -, -, he⟩ | ⟨-, -, -, he⟩ <;> rw [he] <;> decide

end

theorem tableError_noStream_iff : tableError quarters = .noStream ↔ ∀ k : StreamId, ¬ StreamEnabled quarters k := by
  refine ⟨fun h => ?_, tableError_of_noneEnabled⟩
  have hcode : (tableError quarters).code = 2 := congrArg SetupError.code h
  rcases streamChecks_cases quarters with hnone | ⟨k, he, hfails, hbelow⟩ | ⟨hany, hpass⟩
  · exact hnone
  · rw [tableError_of_streamFails he hfails hbelow, streamError_code] at hcode
    omega
  · have hlater := tableError_code_of_streamsPass hany hpass
    omega

theorem tableError_stream_iff (k : StreamId) :
    (tableError quarters).code = 3 + k.val
      ↔ StreamEnabled quarters k ∧ ¬ StreamPasses quarters k
        ∧ ∀ i : StreamId, i < k → StreamEnabled quarters i → StreamPasses quarters i := by
  constructor
  · intro hcode
    rcases streamChecks_cases quarters with hnone | ⟨j, he, hfails, hbelow⟩ | ⟨hany, hpass⟩
    · have htwo : (tableError quarters).code = 2 := congrArg SetupError.code (tableError_of_noneEnabled hnone)
      omega
    · rw [tableError_of_streamFails he hfails hbelow, streamError_code] at hcode
      obtain rfl : j = k := Fin.ext (by omega)
      exact ⟨he, hfails, hbelow⟩
    · have hlater := tableError_code_of_streamsPass hany hpass
      omega
  · rintro ⟨he, hfails, hbelow⟩
    rw [tableError_of_streamFails he hfails hbelow, streamError_code]

/-- A clean table has passed the check of its completion ring. -/
theorem ringPasses_of_clean (h : tableError quarters = .none) : RingPasses quarters := by
  have hcode : (tableError quarters).code = 0 := congrArg SetupError.code h
  rcases streamChecks_cases quarters with hnone | ⟨k, he, hfails, hbelow⟩ | ⟨hany, hpass⟩
  · rw [tableError_of_noneEnabled hnone] at h
    cases h
  · rw [tableError_of_streamFails he hfails hbelow, streamError_code] at hcode
    omega
  · obtain ⟨-, -, -, hclean⟩ := tableError_iff_of_streamsPass hany hpass
    exact (hclean.mp h).1

end

/-! ## The answers to the four reads (R163, R165) -/

theorem SetupLoad.readAddress_append (l : SetupLoad) (bytes : List Byte) :
    ({ l with quarters := l.quarters ++ [bytes] } : SetupLoad).readAddress = l.readAddress + 64 := by
  have hnext : 64 * (l.quarters.length + 1) = 64 * l.quarters.length + 64 := rfl
  rw [SetupLoad.readAddress, SetupLoad.readAddress, List.length_append, List.length_singleton, hnext, BitVec.ofNat_add,
    ← BitVec.add_assoc]
  rfl

section
variable {s : State} {quarters : List (List Byte)}

theorem State.endLoad_fails (h : tableError quarters ≠ .none) :
    s.endLoad quarters
      = { s with
          regs := { s.regs with device := .idle, setupError := tableError quarters, cause := s.regs.cause ||| 0x100#9 }
          loader := none } := by
  unfold State.endLoad
  split
  case h_1 hclean => exact absurd hclean h
  case h_2 => rw [State.raise, setCause, Cause.mask_setup]

theorem State.endLoad_clean (h : tableError quarters = .none) :
    s.endLoad quarters
      = { s with
          regs := { s.regs with device := .running }
          loader := none
          streams := ⟨loadedStream quarters 0, loadedStream quarters 1, loadedStream quarters 2, loadedStream quarters 3⟩
          heads := ⟨s.heads.at0.loaded quarters 0, s.heads.at1.loaded quarters 1⟩
          writer := { s.writer with ring := tableCompletionRing quarters } }.settle := by
  unfold State.endLoad
  rw [h]

variable {l : SetupLoad} {bytes : List Byte} (hl : s.loader = some l)
include hl

theorem State.setupAnswered_quarter (h : l.quarters.length < 3) :
    s.setupAnswered (.data bytes) = { s with loader := some { l with quarters := l.quarters ++ [bytes] } } := by
  simp only [State.setupAnswered, hl, if_pos (Nat.succ_lt_succ h)]

theorem State.setupAnswered_last (h : l.quarters.length = 3) :
    s.setupAnswered (.data bytes) = s.endLoad (l.quarters ++ [bytes]) := by
  have hlast : ¬ l.quarters.length + 1 < 4 := by omega
  simp only [State.setupAnswered, hl, if_neg hlast]

end

/-- Settles O32: the answers by the number of quarters read, the checks by how checks 1 and 2 end. -/
theorem setupTableLoads : Obligations.SetupTableLoads := by
  refine ⟨fun s l bytes hl => ⟨fun h => ⟨?_, l.readAddress_append bytes⟩, fun h herror => ?_, fun h hclean => ?_⟩,
    fun quarters => ⟨tableError_noStream_iff, tableError_stream_iff, tableError_iff_of_streamsPass⟩,
    fun quarters => ⟨fun k => ⟨loadedStream_off quarters, fun he hpasses => ?_⟩, tableCompletionRing_of_passes quarters,
      fun h => ⟨tableTiming_of_passes quarters, tableDelays_eq quarters h⟩⟩⟩
  · exact congrArg Host.Outcome.next (State.setupAnswered_quarter hl h)
  · exact congrArg Host.Outcome.next ((State.setupAnswered_last hl h).trans (State.endLoad_fails herror))
  · have hring := tableCompletionRing_of_passes _ (ringPasses_of_clean hclean)
    refine ⟨_, hring, rfl, rfl, rfl, ?_⟩
    rw [← hring]
    exact congrArg Host.Outcome.next ((State.setupAnswered_last hl h).trans (State.endLoad_clean hclean))
  · rw [loadedStream_on quarters he, tableRing_of_passes quarters hpasses]
    rfl

end Sys2Proof.Machine
end

