-- ==== Sys2Proof/Proofs/WaitingCommands.lean ====
section
/-! SUPPORT. The queue of waiting commands: a step runs its front command, and no command changes it. Each operation that a
command is built from leaves the queue alone, which simp then uses for the commands. -/

namespace Sys2Proof.Machine

set_option Elab.async false

/-! ## Settling -/

@[simp] theorem State.settleFor_pending (s : State) (n : Nat) : (s.settleFor n).pending = s.pending :=
  (s.settleFor_settlesTo n).pending

@[simp] theorem State.settle_pending (s : State) : s.settle.pending = s.pending := s.settle_settlesTo.pending

@[simp] theorem State.pick_pending (s : State) (n : Nat) : (s.pick n).2.pending = s.pending := by
  rcases s.pick_state n with e | e <;> rw [e]

/-! ## Links and scan stops (R89, R131) -/

@[simp] theorem State.latchAll_pending (n : Nat) (h : HeadId) (s : State) :
    (State.latchAll n h s).pending = s.pending := by
  induction n generalizing s with
  | zero => rfl
  | succ n ih =>
    unfold State.latchAll
    split
    case h_1 t ht => exact (ih t).trans (State.latchNow_moves h s t ht).settlesTo.pending
    case h_2 => rfl

@[simp] theorem State.completeWaits_pending (s : State) : s.completeWaits.pending = s.pending := by
  have hone : ∀ (k : StreamId) (t : State), ((State.completeWait k t).getD t).pending = t.pending := fun k t => by
    cases h : State.completeWait k t with
    | none => rfl
    | some u =>
      obtain ⟨_, o, _, _, _, rfl⟩ := t.completeWait_some u k h
      exact t.finish_pending k o
  exact (hone 3 _).trans ((hone 2 _).trans ((hone 1 _).trans (hone 0 s)))

@[simp] theorem State.scanStopped_pending (s : State) (h : HeadId) : (s.scanStopped h).pending = s.pending := by
  simp [State.scanStopped]

@[simp] theorem State.enterLink_pending (s : State) (h : HeadId) (st : LinkState) :
    (s.enterLink h st).pending = s.pending := by
  cases st <;> simp [State.enterLink]

@[simp] theorem State.linkTo_pending (n : Nat) (s : State) (h : HeadId) (st : LinkState) :
    (s.linkTo n h st).pending = s.pending := by
  induction n generalizing s st with
  | zero => rfl
  | succ n ih =>
    unfold State.linkTo
    dsimp only
    split
    · split <;> simp [ih]
    · split
      · split <;> simp [ih]
      · simp

@[simp] theorem State.linkMove_pending (s : State) (h : HeadId) : (s.linkMove h).pending = s.pending := by
  unfold State.linkMove
  dsimp only
  split <;> simp

/-! ## Records -/

@[simp] theorem State.dispatchLink_pending (s : State) (k : StreamId) (ref : RecordRef) (h : HeadId)
    (target : LinkTarget) : (s.dispatchLink k ref h target).pending = s.pending := by
  unfold State.dispatchLink
  dsimp only
  split <;> simp

@[simp] theorem State.dispatchLight_pending (s : State) (k : StreamId) (ref : RecordRef) (h : HeadId) (target : Nat)
    (dim : Bool) (step : Nat) : (s.dispatchLight k ref h target dim step).pending = s.pending := rfl

/-- Whatever becomes of a record taken up, the queue is left alone. -/
theorem RecordTaken.pending {s t : State} {k : StreamId} {c : CurrentRecord} (h : RecordTaken s k c t) :
    t.pending = s.pending := by
  cases h with
  | finished o => exact s.finish_pending k o
  | job _ ht => exact (s.dispatchJob_settlesTo t k ht).pending
  | waits p _ => rfl
  | claimed h _ => exact State.finish_pending _ k _
  | queued h w _ _ _ _ => rfl
  | released h _ => exact (State.handOn_pending _ h false).trans (s.finish_pending k _)
  | staged h p => exact State.finish_pending _ k _
  | palette _ _ _ _ ht => exact (s.dispatchPalette_settlesTo t k ht).pending
  | present _ _ _ _ ht =>
    obtain ⟨_, _, _, _, _, _, _, rfl, _, rfl⟩ := s.dispatchPresent_some t k ht
    rfl
  | heldBack p _ h _ _ => rfl
  | link ref h target => exact s.dispatchLink_pending k ref h target
  | light ref h target dim step => exact s.dispatchLight_pending k ref h target dim step

@[simp] theorem State.examine_pending (s : State) (k : StreamId) : (s.examine k).pending = s.pending := by
  unfold State.examine
  dsimp only
  split
  · rfl
  · split
    · simp
    · split
      · rfl
      · split
        · simp
        · split <;> simp

@[simp] theorem State.fetchFailed_pending (s : State) (k : StreamId) (n : Nat) :
    (s.fetchFailed k n).pending = s.pending := by
  unfold State.fetchFailed
  split
  · simp
  · split <;> simp

@[simp] theorem State.slotAnswered_pending (s : State) (answer : ReadAnswer (List Byte)) :
    (s.slotAnswered answer).pending = s.pending := by
  unfold State.slotAnswered
  dsimp only
  split
  · rfl
  · split
    · rfl
    · split <;> simp
    · split <;> simp

@[simp] theorem State.paletteAnswered_pending (s : State) (h : HeadId) (i : Nat) (answer : ReadAnswer (BitVec 16)) :
    (s.paletteAnswered h i answer).pending = s.pending := by
  unfold State.paletteAnswered
  dsimp only
  split
  · rfl
  · split
    · split
      · rfl
      · simp
      · split <;> simp
    · rfl

/-! ## FLUSH (R41, R63, R79) -/

@[simp] theorem State.flushStream_pending (s : State) (k : StreamId) : (s.flushStream k).pending = s.pending :=
  s.finish_pending k _

@[simp] theorem State.flushJobs_pending (s : State) (k : StreamId) : (s.flushJobs k).pending = s.pending := by
  by_cases hm : ∃ j, s.runningJob = some j ∧ j.ref.stream = k
  · obtain ⟨j, hj, hk⟩ := hm
    rw [s.flushJobs_running k j hj hk]
    exact s.stopEngine_pending
  · rw [s.flushJobs_other k fun j hj hk => hm ⟨j, hj, hk⟩]

@[simp] theorem State.flushHead_pending (s : State) (h : HeadId) (k : StreamId) :
    (s.flushHead h k).pending = s.pending := by
  unfold State.flushHead
  dsimp only
  split
  · simp
  · split <;> simp

@[simp] theorem State.flushed_pending (s : State) (k : StreamId) : (s.flushed k).pending = s.pending := by
  simp [State.flushed]

/-! ## Resets, FAULT and register writes -/

@[simp] theorem State.afterReset_pending (s : State) : s.afterReset.pending = s.pending := rfl

@[simp] theorem State.enterFault_pending (s : State) (origin : FaultOrigin) :
    (s.enterFault origin).pending = s.pending := s.stopEngine_pending

@[simp] theorem State.refuseControl_pending (s : State) : s.refuseControl.pending = s.pending := rfl

@[simp] theorem State.startCommand_pending (s : State) : s.startCommand.pending = s.pending := by
  unfold State.startCommand
  split
  · split <;> simp
  all_goals simp

@[simp] theorem State.stopCommand_pending (s : State) : s.stopCommand.pending = s.pending := by
  unfold State.stopCommand
  split <;> simp

@[simp] theorem State.resumeCommand_pending (s : State) (k : StreamId) : (s.resumeCommand k).pending = s.pending := by
  unfold State.resumeCommand
  split <;> simp

@[simp] theorem State.flushCommand_pending (s : State) (k : StreamId) : (s.flushCommand k).pending = s.pending := by
  unfold State.flushCommand
  split <;> simp

@[simp] theorem State.postWrite_pending (s : State) (value : Word) : (s.postWrite value).pending = s.pending := by
  unfold State.postWrite
  dsimp only
  split
  · split <;> simp
  · simp

@[simp] theorem State.retireWrite_pending (s : State) (value : Word) : (s.retireWrite value).pending = s.pending := by
  unfold State.retireWrite
  split
  · split <;> simp
  · simp

@[simp] theorem State.causeWritten_pending (s : State) (value : Word) : (s.causeWritten value).pending = s.pending := rfl

@[simp] theorem State.enableWritten_pending (s : State) (value : Word) : (s.enableWritten value).pending = s.pending :=
  rfl

@[simp] theorem State.addressWritten_pending (s : State) (half : AddressHalf) (value : Word) :
    (s.addressWritten half value).pending = s.pending := by
  cases half <;> rfl

/-- A write anywhere in the window leaves the queue alone, whichever command its place decodes to. -/
@[simp] theorem State.windowWrite_pending (s : State) (offset : BitVec 6) (value : Word) :
    (s.windowWrite offset value).pending = s.pending := by
  unfold State.windowWrite
  split
  case h_11 => split <;> simp
  all_goals simp

/-! ## The Setup Table load (R163 to R165) -/

@[simp] theorem State.endLoad_pending (s : State) (quarters : List (List Byte)) :
    (s.endLoad quarters).pending = s.pending := by
  unfold State.endLoad
  split <;> simp

@[simp] theorem State.setupAnswered_pending (s : State) (answer : ReadAnswer (List Byte)) :
    (s.setupAnswered answer).pending = s.pending := by
  unfold State.setupAnswered
  split
  · rfl
  · split
    · rfl
    · simp
    · split <;> simp

/-! ## The engine and the Completion Writer -/

@[simp] theorem State.engineServed_pending (s : State) : s.engineServed.pending = s.pending := by
  unfold State.engineServed
  split
  · split
    · simp
    · split <;> rfl
    all_goals rfl
  · rfl

@[simp] theorem State.sourceAnswered_pending (s : State) (n : Nat) (answer : ReadAnswer Word) :
    (s.sourceAnswered n answer).pending = s.pending := by
  unfold State.sourceAnswered
  split
  · split <;> simp
  · rfl

@[simp] theorem State.wordAnswered_pending (s : State) (answer : WriteAnswer) :
    (s.wordAnswered answer).pending = s.pending := by
  unfold State.wordAnswered
  split
  · split
    · split <;> simp
    all_goals rfl
  · rfl

@[simp] theorem State.completionAnswered_pending (s : State) (answer : WriteAnswer) :
    (s.completionAnswered answer).pending = s.pending := by
  unfold State.completionAnswered
  split
  · split <;> simp [State.completionWritten]
  · rfl

/-! ## Scan and timebase -/

@[simp] theorem State.blanked_pending (s : State) (h : HeadId) (frameCause : Bool) :
    (s.blanked h frameCause).pending = s.pending := by
  unfold State.blanked
  dsimp only
  split <;> simp

@[simp] theorem State.gatesFirst_pending (s : State) (opened : Bool) : (s.gatesFirst opened).pending = s.pending := by
  unfold State.gatesFirst
  split <;> simp

@[simp] theorem State.lineStarted_pending (s : State) (h : HeadId) : (s.lineStarted h).pending = s.pending := by
  unfold State.lineStarted
  dsimp only
  split
  · rfl
  · split
    · split <;> simp
    · rfl

@[simp] theorem State.scanServed_pending (s : State) (h : HeadId) : (s.scanServed h).pending = s.pending := by
  unfold State.scanServed
  dsimp only
  split
  · split <;> simp
  · rfl

theorem State.takeDue_pending {s t : State} {d : Due} (e : s.takeDue d = some t) : t.pending = s.pending := by
  cases d with
  | step h =>
    simp only [State.takeDue, State.endStep, Option.ite_none_right_eq_some, Option.map_eq_some_iff] at e
    obtain ⟨_, st, _, rfl⟩ := e
    simp
  | waiter h k =>
    simp only [State.takeDue, State.expire, Option.ite_none_right_eq_some, Option.map_eq_some_iff] at e
    obtain ⟨_, w, _, rfl⟩ := e
    simp

/-- What LINK_STEP_END and WAITER_EXPIRY answer: an end that is due, or the part as it is. -/
theorem State.takeDue_getD_pending (s : State) (d : Due) : ((s.takeDue d).getD s).pending = s.pending := by
  cases e : s.takeDue d with
  | none => rfl
  | some t => exact State.takeDue_pending e

@[simp] theorem State.takeAllDue_pending (s : State) (n : Nat) : (s.takeAllDue n).pending = s.pending :=
  State.takeAllDue_keeps (fun u => u.pending = s.pending) (fun _ hu => hu)
    (fun _ _ _ e hu => (State.takeDue_pending e).trans hu) n s rfl

/-! ## Every command -/

/-- A command answers a next state with the same commands waiting. -/
def State.CompletesWith (s : State) (a : Answer) : Prop := ∃ t : State, a = .next t ∧ t.pending = s.pending

theorem State.CompletesWith.next {s t : State} (h : t.pending = s.pending) : s.CompletesWith (.next t) := ⟨t, rfl, h⟩

theorem execMillisecondMark_completes (s : State) : s.CompletesWith (execMillisecondMark s) := by
  unfold execMillisecondMark
  split
  · exact .next rfl
  · exact .next (s.takeAllDue_pending _)

theorem execRecord_completes (kind : Kind) (k : StreamId) (s : State) : s.CompletesWith (exec (kind.command k) s) := by
  rcases execRecord_cases kind k s with e | ⟨c, u, _, hu, e⟩ <;> rw [e]
  · exact .next rfl
  · exact .next (u.settle_pending.trans hu.pending)

theorem exec_completes (i : Instr) (s : State) : s.CompletesWith (exec i s) := by
  cases i with
  | powerOnReset => exact .next rfl
  | start => exact .next s.startCommand_pending
  | stop => exact .next s.stopCommand_pending
  | reset => exact .next s.afterReset_pending
  | resume k => exact .next (s.resumeCommand_pending k)
  | flush k => exact .next (s.flushCommand_pending k)
  | post value => exact .next (s.postWrite_pending value)
  | retire value => exact .next (s.retireWrite_pending value)
  | causeWrite value => exact .next (s.causeWritten_pending value)
  | causeEnableWrite value => exact .next (s.enableWritten_pending value)
  | setupAddressWrite half value => exact .next (s.addressWritten_pending half value)
  | registerWriteOther offset value => exact .next (s.windowWrite_pending offset value)
  | setupReadAnswer answer => exact .next (s.setupAnswered_pending answer)
  | slotReadAnswer answer => exact .next (s.slotAnswered_pending answer)
  | window k => exact execRecord_completes .window k s
  | transfer k => exact execRecord_completes .transfer k s
  | fill k => exact execRecord_completes .fill k s
  | readback k => exact execRecord_completes .readback k s
  | claim k => exact execRecord_completes .claim k s
  | release k => exact execRecord_completes .release k s
  | bands k => exact execRecord_completes .bands k s
  | scroll k => exact execRecord_completes .scroll k s
  | output k => exact execRecord_completes .output k s
  | palette k => exact execRecord_completes .palette k s
  | paletteReadAnswer h n answer => exact .next (s.paletteAnswered_pending h n answer)
  | present k => exact execRecord_completes .present k s
  | link k => exact execRecord_completes .link k s
  | light k => exact execRecord_completes .light k s
  | wait k => exact execRecord_completes .wait k s
  | note k => exact execRecord_completes .note k s
  | engineAccessServed => exact .next s.engineServed_pending
  | sourceReadAnswer n answer => exact .next (s.sourceAnswered_pending n answer)
  | readbackWordAnswer answer => exact .next (s.wordAnswered_pending answer)
  | completionWriteAnswer answer => exact .next (s.completionAnswered_pending answer)
  | lineStart h => exact .next (s.lineStarted_pending h)
  | millisecondMark => exact execMillisecondMark_completes s
  | waiterExpiry h k => exact .next (s.takeDue_getD_pending (.waiter h k))
  | linkStepEnd h => exact .next (s.takeDue_getD_pending (.step h))
  | scanReadServed h => exact .next (s.scanServed_pending h)

/-- Settles O2: the record commands by what becomes of the record they take up, the others by the operation they are. -/
theorem everyCommandCompletes : Obligations.EveryCommandCompletes := exec_completes

/-! ## One step -/

theorem step_of_pending {s : State} {c : Instr} {rest : List Instr} (h : s.pending = c :: rest) :
    step s = exec c { s with pending := rest } := by
  unfold step
  rw [h]

theorem step_of_empty {s : State} (h : s.pending = []) : step s = .next s := by
  unfold step
  rw [h]

/-- Settles O1: the two forms of the queue. -/
theorem stepRunsTheFrontCommand : Obligations.StepRunsTheFrontCommand :=
  ⟨fun _ _ _ => step_of_pending, fun _ => step_of_empty⟩

end Sys2Proof.Machine
end

