-- ==== Sys2Proof/Proofs/BandTables.lean ====
section
/-! SUPPORT. Bands: the circle of memory lines a band shows, the table that bands in order make, and the fields of BANDS,
SCROLL and OUTPUT records, by which a staged table stays lawful. -/

namespace Sys2Proof.Machine

set_option Elab.async false

/-! ## The circle of memory lines (R95) -/

theorem succ_mod_eq_ite {n : Nat} (m : Nat) (hn : 1 ≤ n) :
    (m + 1) % n = if m % n + 1 = n then 0 else m % n + 1 := by
  have hlt := Nat.mod_lt m hn
  conv_lhs => rw [← Nat.div_add_mod m n, Nat.add_assoc, Nat.mul_add_mod]
  split
  · rename_i hlast
    rw [hlast, Nat.mod_self]
  · exact Nat.mod_eq_of_lt (by omega)

section
variable (b : Band)

theorem Band.covers_iff (y : Nat) : b.covers y = true ↔ b.screenFirst ≤ y ∧ y < b.screenFirst + b.lineCount := by
  simp only [Band.covers, Bool.and_eq_true, decide_eq_true_iff]

theorem Band.memoryLine_mem (y : Nat) (hextent : 1 ≤ b.memExtent) :
    b.memBase ≤ b.memoryLine y ∧ b.memoryLine y < b.memBase + b.memExtent :=
  ⟨Nat.le_add_right _ _, Nat.add_lt_add_left (Nat.mod_lt _ hextent) _⟩

theorem Band.memoryLine_first (hscroll : b.scroll < b.memExtent) :
    b.memoryLine b.screenFirst = b.memBase + b.scroll := by
  rw [Band.memoryLine, Nat.sub_self, Nat.zero_add, Nat.mod_eq_of_lt hscroll]

/-- The next screen line shows the next region line, or the first again after the last. -/
theorem Band.memoryLine_succ {y : Nat} (hy : b.screenFirst ≤ y) (hextent : 1 ≤ b.memExtent) :
    b.memoryLine (y + 1)
      = if b.memoryLine y + 1 = b.memBase + b.memExtent then b.memBase else b.memoryLine y + 1 := by
  have hnext : y + 1 - b.screenFirst + b.scroll = y - b.screenFirst + b.scroll + 1 := by omega
  simp only [Band.memoryLine, hnext, succ_mod_eq_ite _ hextent, Nat.add_assoc b.memBase, Nat.add_left_cancel_iff]
  split <;> rfl

/-- A scroll one greater turns the circle by one screen line. -/
theorem Band.memoryLine_scrolled {y : Nat} (hy : b.screenFirst ≤ y) :
    ({ b with scroll := b.scroll + 1 } : Band).memoryLine y = b.memoryLine (y + 1) := by
  have hturn : y - b.screenFirst + (b.scroll + 1) = y + 1 - b.screenFirst + b.scroll := by omega
  simp only [Band.memoryLine, hturn]

end

/-- Settles O20: each part of the circle by its own lemma. -/
theorem bandsMapInACircle : Obligations.BandsMapInACircle := by
  intro b y hcovers hextent hscroll
  obtain ⟨hy, _⟩ := (b.covers_iff y).mp hcovers
  obtain ⟨hlow, hhigh⟩ := b.memoryLine_mem y hextent
  exact ⟨hlow, hhigh, b.memoryLine_first hscroll, b.memoryLine_succ hy hextent, b.memoryLine_scrolled hy⟩

/-! ## Tables in order (R93, R104) -/

/-- A band ends before another begins. -/
def Band.Before (a b : Band) : Prop := a.screenFirst + a.lineCount ≤ b.screenFirst

theorem Band.Before.trans {a b c : Band} (h : a.Before b) (g : b.Before c) : a.Before c := by
  unfold Band.Before at *
  omega

theorem bandsAscend_iff_isChain (bands : List Band) : bandsAscend bands = true ↔ bands.IsChain Band.Before := by
  induction bands using bandsAscend.induct with
  | case1 => simp [bandsAscend]
  | case2 a => simp [bandsAscend]
  | case3 a b rest ih =>
    rw [bandsAscend, Bool.and_eq_true, decide_eq_true_iff, ih, List.isChain_cons_cons]
    rfl

/-- The order by neighbours. -/
theorem bandsAscend_iff_next (bands : List Band) :
    bandsAscend bands = true ↔
      ∀ (k : Nat) (a b : Band), bands[k]? = some a → bands[k + 1]? = some b →
        a.screenFirst + a.lineCount ≤ b.screenFirst := by
  rw [bandsAscend_iff_isChain, List.isChain_iff_getElem]
  constructor
  · intro h k a b ha hb
    obtain ⟨_, rfl⟩ := List.getElem?_eq_some_iff.mp ha
    obtain ⟨hk, rfl⟩ := List.getElem?_eq_some_iff.mp hb
    exact h k hk
  · intro h k hk
    exact h k _ _ (List.getElem?_eq_getElem (Nat.lt_of_succ_lt hk)) (List.getElem?_eq_getElem hk)

/-- Every screen line lies after the first of two such bands or before the second. -/
theorem Band.Before.not_both {a b : Band} (h : a.Before b) {y : Nat} (ha : a.covers y = true) : ¬ b.covers y = true := by
  intro hb
  obtain ⟨_, hlast⟩ := (a.covers_iff y).mp ha
  obtain ⟨hfirst, _⟩ := (b.covers_iff y).mp hb
  unfold Band.Before at h
  omega

/-- In a table in order two bands that cover one screen line are one band. -/
theorem eq_of_covers {bands : List Band} (horder : bandsAscend bands = true) {y : Nat} {a b : Band} (ha : a ∈ bands)
    (hb : b ∈ bands) (hay : a.covers y = true) (hby : b.covers y = true) : a = b := by
  have htrans : Trans Band.Before Band.Before Band.Before := ⟨Band.Before.trans⟩
  have hbefore := List.pairwise_iff_getElem.mp
    (List.isChain_iff_pairwise.mp ((bandsAscend_iff_isChain bands).mp horder))
  obtain ⟨i, hi, rfl⟩ := List.getElem_of_mem ha
  obtain ⟨j, hj, rfl⟩ := List.getElem_of_mem hb
  rcases Nat.lt_trichotomy i j with hij | rfl | hij
  · exact absurd hby ((hbefore i j hi hj hij).not_both hay)
  · rfl
  · exact absurd hay ((hbefore j i hj hi hij).not_both hby)

theorem bandAt_eq_some {bands : List Band} (horder : bandsAscend bands = true) {y : Nat} {a : Band} (ha : a ∈ bands)
    (hy : a.covers y = true) : bandAt bands y = some a := by
  cases hc : bandAt bands y with
  | none => exact absurd hy (by simp [(bandAt_none_iff bands y).mp hc a ha])
  | some c =>
    have hcy : c.covers y = true := List.find?_some (p := fun b : Band => b.covers y) hc
    rw [eq_of_covers horder ha (List.mem_of_find?_eq_some hc) hy hcy]

/-! ## Fields of BANDS, SCROLL and OUTPUT (R105, R107, R108, R176) -/

/-- The use a band's code names. -/
theorem bandUse_eq_some (n : Nat) (u : BandUse) :
    (match n with
      | 0 => some BandUse.direct
      | 1 => some BandUse.indexed
      | _ => none) = some u ↔ u.code = n := by
  rcases n with _ | _ | n <;> cases u <;> simp [BandUse.code]

/-- The mode an OUTPUT's code names. -/
theorem outputMode_eq_some (n : Nat) (m : OutputMode) :
    (match n with
      | 0 => some OutputMode.full
      | 1 => some OutputMode.depth6
      | 2 => some OutputMode.monoLuma
      | 3 => some OutputMode.monoEven
      | 4 => some OutputMode.monoGreen
      | _ => none) = some m ↔ m.code = n := by
  rcases n with _ | _ | _ | _ | _ | n <;> cases m <;> simp [OutputMode.code]

theorem Band.suits_iff (b : Band) (t : Timing) :
    b.suits t = true ↔
      b.screenFirst < t.vAct ∧ 1 ≤ b.lineCount ∧ b.screenFirst + b.lineCount ≤ t.vAct ∧ b.memBase < panelSide
        ∧ 1 ≤ b.memExtent ∧ b.memBase + b.memExtent ≤ panelSide ∧ b.scroll < b.memExtent
        ∧ b.colBase + t.hAct ≤ panelSide := by
  simp only [Band.suits, Bool.and_eq_true, decide_eq_true_iff, and_assoc]

/-- A band stands at its place in a record and suits a timing. -/
theorem bandFields_suits_iff (slots : List (List Byte)) (k : Nat) (t : Timing) (b : Band) :
    bandFields slots k = some b ∧ b.suits t = true ↔ BandPart slots (bandOffset k) t b := by
  rw [Band.suits_iff]
  unfold BandPart
  simp only [bandFields, Option.bind_eq_bind, Option.bind_eq_some_iff, Option.some.injEq]
  constructor
  · rintro ⟨⟨use, huse, rfl⟩, hfirst, hcount, hlast, hbase, hrest⟩
    exact ⟨rfl, rfl, rfl, rfl, rfl, rfl, (bandUse_eq_some _ use).mp huse, hfirst, hcount, hlast, Nat.le_of_lt_succ hbase, hrest⟩
  · rintro ⟨hfirst, hcount, hbase, hextent, hscroll, hcol, huse, hin, hone, hend, hmem, hrest⟩
    refine ⟨⟨b.use, (bandUse_eq_some _ b.use).mpr huse, ?_⟩, hin, hone, hend, Nat.lt_succ_of_le hmem, hrest⟩
    rw [← hfirst, ← hcount, ← hbase, ← hextent, ← hscroll, ← hcol]

/-- The bands of a record, one by one. -/
theorem bandList_eq_some (slots : List (List Byte)) (k n : Nat) (bands : List Band) :
    bandList slots k n = some bands ↔
      bands.length = n ∧ ∀ (i : Nat) (b : Band), bands[i]? = some b → bandFields slots (k + i) = some b := by
  induction n generalizing k bands with
  | zero =>
    simp only [bandList, Option.some.injEq, List.length_eq_zero_iff]
    constructor
    · rintro rfl
      exact ⟨rfl, nofun⟩
    · rintro ⟨rfl, _⟩
      rfl
  | succ n ih =>
    constructor
    · intro h
      simp only [bandList] at h
      split at h
      · rename_i a rest ha hrest
        cases h
        obtain ⟨hlen, hat⟩ := (ih (k + 1) rest).mp hrest
        refine ⟨congrArg Nat.succ hlen, fun i b hb => ?_⟩
        cases i with
        | zero => cases hb; exact ha
        | succ i => rw [show k + (i + 1) = k + 1 + i by omega]; exact hat i b hb
      · cases h
    · rintro ⟨hlen, hat⟩
      cases bands with
      | nil => cases hlen
      | cons a rest =>
        have hrest := (ih (k + 1) rest).mpr ⟨Nat.succ.inj hlen, fun i b hb => by
          rw [show k + 1 + i = k + (i + 1) by omega]; exact hat (i + 1) b hb⟩
        simp only [bandList, show bandFields slots k = some a from hat 0 a rfl, hrest]

theorem bandsFields_eq_some (slots : List (List Byte)) (heads : Two Head) (h : HeadId) (bands : List Band)
    (background : Pixel) :
    bandsFields slots heads = some (h, bands, background) ↔
      h.val = recordField slots 0x03 1 ∧ background = BitVec.ofNat 24 (recordField slots 0x14 4)
        ∧ bands.length = recordField slots 0x10 1 ∧ 1 ≤ bands.length ∧ bands.length ≤ 8
        ∧ (∃ t : Timing, (heads.get h).scan.timing = some t
            ∧ ∀ (k : Nat) (b : Band), bands[k]? = some b → BandPart slots (bandOffset k) t b)
        ∧ bandsAscend bands = true := by
  have hall : ∀ t : Timing, bands.all (fun b => b.suits t) = true ↔
      ∀ (k : Nat) (b : Band), bands[k]? = some b → b.suits t = true := fun t => by
    simp only [List.all_eq_true, List.mem_iff_getElem?, forall_exists_index]
    exact forall_comm
  simp only [bandsFields, Option.bind_eq_bind, Option.bind_eq_some_iff, Option.ite_none_right_eq_some, Bool.and_eq_true,
    Option.some.injEq, Prod.mk.injEq, headField_eq_some]
  constructor
  · rintro ⟨i, hi, t, ht, bs, ⟨hcount, hlist⟩, ⟨hsuits, horder⟩, rfl, rfl, rfl⟩
    obtain ⟨hlen, hat⟩ := (bandList_eq_some slots 0 _ bs).mp hlist
    rw [← hlen] at hcount
    refine ⟨hi, rfl, hlen, hcount.1, hcount.2, ⟨t, ht, fun k b hb => ?_⟩, horder⟩
    have hb' := hat k b hb
    rw [Nat.zero_add] at hb'
    exact (bandFields_suits_iff slots k t b).mp ⟨hb', (hall t).mp hsuits k b hb⟩
  · rintro ⟨hi, rfl, hlen, hone, height, ⟨t, ht, hparts⟩, horder⟩
    have hfields := fun k b hb => (bandFields_suits_iff slots k t b).mpr (hparts k b hb)
    refine ⟨h, hi, t, ht, bands, ⟨by rw [bandCount, ← hlen]; exact ⟨hone, height⟩, ?_⟩,
      ⟨(hall t).mpr fun k b hb => (hfields k b hb).2, horder⟩, rfl, rfl, rfl⟩
    exact (bandList_eq_some slots 0 _ bands).mpr ⟨hlen, fun k b hb => by rw [Nat.zero_add]; exact (hfields k b hb).1⟩

theorem scrollFields_eq_some (slots : List (List Byte)) (heads : Two Head) (h : HeadId) (index scroll : Nat) :
    scrollFields slots heads = some (h, index, scroll) ↔
      h.val = recordField slots 0x03 1 ∧ index = recordField slots 0x10 1 ∧ scroll = recordField slots 0x12 2
        ∧ ∃ b : Band, (heads.get h).staging.picture.bands[index]? = some b ∧ scroll < b.memExtent := by
  simp only [scrollFields, Option.bind_eq_bind, Option.bind_eq_some_iff, Option.ite_none_right_eq_some,
    Option.some.injEq, Prod.mk.injEq, headField_eq_some]
  constructor
  · rintro ⟨i, hi, b, hb, hscroll, rfl, rfl, rfl⟩
    exact ⟨hi, rfl, rfl, b, hb, hscroll⟩
  · rintro ⟨hi, rfl, rfl, b, hb, hscroll⟩
    exact ⟨h, hi, b, hb, hscroll, rfl, rfl, rfl⟩

theorem outputFields_eq_some (slots : List (List Byte)) (h : HeadId) (mode : OutputMode) :
    outputFields slots = some (h, mode) ↔ h.val = recordField slots 0x03 1 ∧ mode.code = recordField slots 0x10 1 := by
  simp only [outputFields, Option.bind_eq_bind, Option.bind_eq_some_iff, Option.some.injEq, Prod.mk.injEq,
    headField_eq_some]
  constructor
  · rintro ⟨i, hi, m, hm, rfl, rfl⟩
    exact ⟨hi, (outputMode_eq_some _ m).mp hm⟩
  · rintro ⟨hi, hm⟩
    exact ⟨h, hi, mode, (outputMode_eq_some _ mode).mpr hm, rfl, rfl⟩

/-! ## Staging (R106 to R108) -/

/-- A table with the scroll of one band replaced. -/
theorem scrollBand_getElem? (bands : List Band) (index scroll i : Nat) :
    (scrollBand bands index scroll)[i]?
      = if index = i then bands[i]?.map (fun b => { b with scroll := scroll }) else bands[i]? := by
  rw [scrollBand, List.getElem?_modify]
  split <;> simp

section
variable {s : State} {k : StreamId} {c : CurrentRecord} {h : HeadId}

/-- A staged picture leaves the record where it stands. -/
theorem State.stage_finish {kind : Kind} (hup : s.takeUp k kind = some c) (p : Picture) :
    (s.stage h p).finish k { status := .done } = (s.stage h p).recordDone k c kind { status := .done } := by
  obtain ⟨_, _, _, hc, _, hkind⟩ := s.takeUp_some k kind c hup
  exact State.finish_eq_recordDone (s := s.stage h p) hc hkind rfl

variable (ho : (s.head h).lease.holder = some k)
include ho

theorem execBands_of_holder {bands : List Band} {background : Pixel} (hup : s.takeUp k .bands = some c)
    (hf : bandsFields c.slots s.heads = some (h, bands, background)) :
    exec (.bands k) s
      = .next ((s.stage h { (s.head h).staging.picture with bands := bands, background := background }).recordDone k c
          .bands { status := .done }).settle := by
  rw [← State.stage_finish hup]
  simp only [exec, execBands, hup, hf, (s.owns_iff k h).mpr ho, if_true]

theorem execScroll_of_holder {index scroll : Nat} (hup : s.takeUp k .scroll = some c)
    (hf : scrollFields c.slots s.heads = some (h, index, scroll)) :
    exec (.scroll k) s
      = .next ((s.stage h { (s.head h).staging.picture with
          bands := scrollBand (s.head h).staging.picture.bands index scroll }).recordDone k c .scroll
          { status := .done }).settle := by
  rw [← State.stage_finish hup]
  simp only [exec, execScroll, hup, hf, (s.owns_iff k h).mpr ho, if_true]

theorem execOutput_of_holder {mode : OutputMode} (hup : s.takeUp k .output = some c)
    (hf : outputFields c.slots = some (h, mode)) :
    exec (.output k) s
      = .next ((s.stage h { (s.head h).staging.picture with mode := mode }).recordDone k c .output
          { status := .done }).settle := by
  rw [← State.stage_finish hup]
  simp only [exec, execOutput, hup, hf, (s.owns_iff k h).mpr ho, if_true]

end

/-- Settles O41: the three records by what they stage, and the fields of each by its own characterization. -/
theorem stagingRecordsStage : Obligations.StagingRecordsStage := by
  refine ⟨fun k s c h ho => ⟨fun bands background hup hf => execBands_of_holder ho hup hf, fun index scroll hup hf => ?_,
    fun mode hup hf => execOutput_of_holder ho hup hf⟩, fun slots heads h bands background => ?_, scrollFields_eq_some,
    outputFields_eq_some⟩
  · obtain ⟨_, _, _, b, hb, hscroll⟩ := (scrollFields_eq_some c.slots s.heads h index scroll).mp hf
    have hat := scrollBand_getElem? (s.head h).staging.picture.bands index scroll
    refine ⟨scrollBand (s.head h).staging.picture.bands index scroll, List.length_modify _ _ _, fun i hi => ?_,
      ⟨b, hb, hscroll, ?_⟩, execScroll_of_holder ho hup hf⟩
    · rw [hat, if_neg (Ne.symm hi)]
    · rw [hat, if_pos rfl, show (s.head h).staging.picture.bands[index]? = some b from hb, Option.map_some]
  · rw [bandsFields_eq_some, bandsAscend_iff_next]
    rfl

end Sys2Proof.Machine
end

