-- ==== Sys2Proof/Proofs/OutputValues.lean ====
section
/-! SUPPORT. Pixels on their way out: the components of a pixel through a DIRECT and an INDEXED band, and what the output
modes make of them. -/

namespace Sys2Proof.Machine

set_option Elab.async false

/-! ## DIRECT bands (R97) -/

theorem pixelField_eq_extract (p : Pixel) (low width : Nat) : bitsOf p.toNat low width = (p.extractLsb' low width).toNat := by
  rw [bitsOf, BitVec.extractLsb'_toNat, Nat.shiftRight_eq_div_pow]

/-- An 8-bit field as ten bits: its own, then its two most significant ones again. -/
theorem widen_pixelField (p : Pixel) (low : Nat) :
    widen 8 10 (bitsOf p.toNat low 8) = (p.extractLsb' low 8 ++ p.extractLsb' (low + 6) 2).toNat := by
  rw [toNat_append_eq, widen, bitsOf_div _ _ _ _ (by decide), pixelField_eq_extract, pixelField_eq_extract]

theorem widen_mono (n m : Nat) {a b : Nat} (h : a ≤ b) : widen n m a ≤ widen n m b :=
  Nat.add_le_add (Nat.mul_le_mul_right _ h) (Nat.div_le_div_right h)

/-! ## INDEXED bands (R98) -/

/-- The blue field names the palette entry. -/
theorem Palette.entry_blueOf (palette : Palette) (p : Pixel) :
    palette.entry (blueOf p) = palette.get (p.extractLsb' 0 8).toFin := by
  rw [blueOf, pixelField_eq_extract]
  exact palette.entry_get _

/-! ## Output modes (R99) -/

section
variable (c : Components)

/-- The weights of each grey mode add up to its divisor. -/
theorem reduceOutput_grey (hr : c.red = c.green) (hg : c.green = c.blue) :
    reduceOutput .monoLuma c = .grey c.green ∧ reduceOutput .monoEven c = .grey c.green := by
  simp only [reduceOutput, PixelOut.grey.injEq]
  omega

theorem Components.reduced_le (hr : c.red ≤ 1023) (hg : c.green ≤ 1023) (hb : c.blue ≤ 1023) :
    c.red / 16 ≤ 63 ∧ c.green / 16 ≤ 63 ∧ c.blue / 16 ≤ 63
      ∧ (5 * c.red + 9 * c.green + 2 * c.blue) / 16 ≤ 1023 ∧ (c.red + c.green + c.blue) / 3 ≤ 1023 := by
  omega

end

/-- Settles O19: the components a use reads, and the five modes. -/
theorem pixelsBecomeOutputValues : Obligations.PixelsBecomeOutputValues := by
  refine ⟨⟨fun _ _ _ => rfl, fun p => ⟨widen_pixelField p 16, widen_pixelField p 8, widen_pixelField p 0⟩, rfl, rfl,
    fun _ _ h _ => widen_mono 8 10 h⟩, fun palette mode p => ?_, fun c => ⟨rfl, rfl, rfl, rfl, rfl, reduceOutput_grey c,
    c.reduced_le⟩⟩
  simp only [outputOf, indexedComponents, palette.entry_blueOf]

end Sys2Proof.Machine
end

