-- ==== Sys2Proof/Proofs/LinkSteps.lean ====
section
/-! SUPPORT. The end of a timed link step: what a scan stop leaves alone, the link's passage from the state it stands in, and
the entry each step leads to. -/

namespace Sys2Proof.Machine

set_option Elab.async false

/-! ## A scan stop leaves alone what settling does (R89) -/

theorem State.latchAll_settlesTo (n : Nat) (h : HeadId) (s : State) : s.SettlesTo (State.latchAll n h s) := by
  induction n generalizing s with
  | zero => exact .refl s
  | succ n ih =>
    unfold State.latchAll
    split
    · rename_i t ht
      exact (Starts.settlesTo (State.latchNow_moves h s t ht)).trans (ih t)
    · exact .refl s

theorem State.waitTried_settlesTo (s : State) (k : StreamId) : s.SettlesTo (s.waitTried k) := by
  unfold State.waitTried
  cases h : State.completeWait k s with
  | none => exact .refl s
  | some t =>
    obtain ⟨_, o, _, _, _, rfl⟩ := s.completeWait_some t k h
    exact s.finish_settlesTo k o

theorem State.completeWaits_settlesTo (s : State) : s.SettlesTo s.completeWaits :=
  (((s.waitTried_settlesTo 0).trans (State.waitTried_settlesTo _ 1)).trans (State.waitTried_settlesTo _ 2)).trans
    (State.waitTried_settlesTo _ 3)

theorem State.scanStopped_settlesTo (s : State) (h : HeadId) : s.SettlesTo (s.scanStopped h) :=
  .trans (.of_engine s s.contexts (bypassGates h s.jobs) s.engine s.fetch s.choices)
    ((State.latchAll_settlesTo _ h _).trans (State.completeWaits_settlesTo _))

/-! ## Entries (R88, R130, R135, R141) -/

/-- The completion, if any, of the LINK that is pending, once the link has arrived. -/
def Link.arrival (l : Link) : List Completion :=
  match l.pending with
  | some ref => report ref 0x30 { status := .done }
  | none => []

theorem Link.complete_eq (l : Link) : l.complete = { l with pending := none, held := l.held ++ l.arrival } := by
  obtain ⟨_, _, _, pending, _, held⟩ := l
  cases pending with
  | none => simp [Link.complete, Link.arrival]
  | some ref => rfl

/-- An entry to the stable state a link wants. -/
theorem Head.enter_wanted_on (hd : Head) (ht : hd.link.target = .on) :
    hd.enter .on
      = { hd with
          link := { hd.link with state := .on, timer := none, pending := none, held := hd.link.held ++ hd.link.arrival }
          light := hd.light.atOn } := by
  simp only [Head.enter, ht, if_true, Link.complete_eq]
  rfl

theorem Head.enter_wanted_off (hd : Head) (ht : hd.link.target = .off) :
    hd.enter .off
      = { hd with
          link := { hd.link with
            state := .off, timer := none, pending := none, held := hd.link.held ++ hd.link.arrival } } := by
  simp only [Head.enter, ht, if_true, Link.complete_eq]
  rfl

theorem Head.enter_passing_off (hd : Head) (ht : hd.link.target = .on) :
    hd.enter .off = { hd with link := { hd.link with state := .off, timer := none } } := by
  simp only [Head.enter, ht, reduceCtorEq, if_false]
  rfl

/-- The LINK cause of a head set. -/
theorem State.raise_link (s : State) (h : HeadId) :
    s.raise (.link h) = { s with regs := { s.regs with cause := s.regs.cause ||| (0x010#9 <<< h.val) } } := by
  rw [← mask_link]
  rfl

theorem State.raise_setHead (s : State) (c : Cause) (h : HeadId) (x : Head) :
    (s.raise c).setHead h x = (s.setHead h x).raise c := rfl

/-! ## The passage from the state a link stands in (R130, R131) -/

theorem State.setHead_head (s : State) (h : HeadId) : s.setHead h (s.head h) = s :=
  congrArg (fun heads => ({ s with heads := heads } : State)) (Two.set_get s.heads h)

theorem Link.delayOf_unpowering {l : Link} {d : Delays} (hd : l.delays = some d) : l.delayOf .unpowering = some d.supply := by
  simp only [Link.delayOf, hd, Option.getD_some]

section
variable {s : State} {h : HeadId} (n : Nat) {st : LinkState}

theorem State.linkTo_stays {delay : Nat} (hdelay : (s.head h).link.delayOf st = some delay) (hpos : 0 < delay) :
    s.linkTo (n + 1) h st = s.enterLink h st := by
  have hlink := State.linkTo_of_delay (s := s) (h := h) n hdelay hpos
  rwa [State.setHead_head] at hlink

theorem State.linkTo_passes {next : LinkState} (hdelay : (s.head h).link.delayOf st = some 0)
    (hnext : afterStep st (s.head h).link.target = some next) :
    s.linkTo (n + 1) h st = (s.enterLink h st).linkTo n h next := by
  have hlink := State.linkTo_of_pass (s := s) (h := h) n hdelay hnext
  rwa [State.setHead_head] at hlink

theorem State.linkTo_stays_on : s.linkTo (n + 1) h .on = s.enterLink h .on := by
  have hlink := State.linkTo_on (s := s) (h := h) (hd := s.head h) n
  rwa [State.setHead_head] at hlink

/-- OFF is left at once where the target is ON. -/
theorem State.linkTo_off :
    s.linkTo (n + 1) h .off
      = if (s.head h).link.target = .on then (s.enterLink h .off).linkTo n h .powering else s.enterLink h .off := by
  obtain ⟨htarget, _⟩ := s.enterLink_link h .off
  rw [← htarget]
  rfl

/-- The end of a timed step moves the link on from the state it stands in. -/
theorem exec_linkStepEnd_of_next {next : LinkState} (hdevice : s.regs.device ≠ .fault)
    (htimer : (s.head h).link.timer = some 0)
    (hnext : afterStep (s.head h).link.state (s.head h).link.target = some next) :
    exec (.linkStepEnd h) s = .next (s.linkTo linkEntries h next).settle := by
  simp only [exec, execLinkStepEnd, State.endStep, if_pos (And.intro hdevice htimer), hnext, Option.map_some,
    Option.getD_some]

end

section
variable {s : State} {h : HeadId} {d : Delays} (hdelays : (s.head h).link.delays = some d)
include hdelays

theorem State.linkTo_signalling (hsignal : 0 < d.signal) :
    s.linkTo linkEntries h .signalling
      = s.setHead h
          { s.head h with
            link := { (s.head h).link with state := .signalling, timer := some d.signal }
            scan := (s.head h).scan.beginLine 0 } := by
  obtain ⟨_, hsignalling, _⟩ := Link.delayOf_of_delays hdelays
  rw [linkEntries, State.linkTo_stays 7 hsignalling hsignal, State.enterLink, Head.enter, hsignalling]

theorem State.linkTo_powering (n : Nat) (hsupply : 0 < d.supply) :
    s.linkTo (n + 1) h .powering
      = s.setHead h { s.head h with link := { (s.head h).link with state := .powering, timer := some d.supply } } := by
  obtain ⟨hpowering, _⟩ := Link.delayOf_of_delays hdelays
  rw [State.linkTo_stays n hpowering hsupply, State.enterLink, Head.enter, hpowering]

theorem State.linkTo_unpowering (n : Nat) (hsupply : 0 < d.supply) :
    s.linkTo (n + 1) h .unpowering
      = s.setHead h
          { s.head h with link := { (s.head h).link with state := .unpowering, timer := some d.supply } } := by
  have hunpowering := Link.delayOf_unpowering hdelays
  rw [State.linkTo_stays n hunpowering hsupply, State.enterLink, Head.enter, hunpowering]

/-- An entry to QUIESCING, whose delay may be 0, stops the scan. -/
theorem State.enterLink_quiescing :
    s.enterLink h .quiescing
      = (s.setHead h
          { s.head h with
            link := { (s.head h).link with state := .quiescing, timer := some d.signal }
            scan := { (s.head h).scan with sent := [], shown := [] } }).scanStopped h := by
  obtain ⟨_, _, _, hquiescing⟩ := Link.delayOf_of_delays hdelays
  rw [State.enterLink, Head.enter, hquiescing]

theorem State.linkTo_quiescing (hsignal : 0 < d.signal) :
    s.linkTo linkEntries h .quiescing
      = (s.setHead h
          { s.head h with
            link := { (s.head h).link with state := .quiescing, timer := some d.signal }
            scan := { (s.head h).scan with sent := [], shown := [] } }).scanStopped h := by
  obtain ⟨_, _, _, hquiescing⟩ := Link.delayOf_of_delays hdelays
  rw [linkEntries, State.linkTo_stays 7 hquiescing hsignal, State.enterLink_quiescing hdelays]

/-- Without a signal delay QUIESCING is left at once, for UNPOWERING, but the scan stops first. -/
theorem State.linkTo_through_quiescing {u : State} (hsignal : d.signal = 0) (hsupply : 0 < d.supply)
    (hu : u = (s.setHead h
      { s.head h with
        link := { (s.head h).link with state := .quiescing, timer := some 0 }
        scan := { (s.head h).scan with sent := [], shown := [] } }).scanStopped h) :
    s.linkTo linkEntries h .quiescing
      = u.setHead h
          { u.head h with link := { (u.head h).link with state := .unpowering, timer := some d.supply } } := by
  obtain ⟨_, _, _, hquiescing⟩ := Link.delayOf_of_delays hdelays
  have hstopped := State.enterLink_quiescing hdelays
  rw [hsignal] at hquiescing hstopped
  rw [← hu] at hstopped
  have hkept : (u.head h).link.delays = some d := by
    rw [hu, ((State.scanStopped_settlesTo _ h).head h).link, State.head_setHead_same]
    exact hdelays
  rw [linkEntries, State.linkTo_passes 7 hquiescing (next := .unpowering) rfl, hstopped, State.linkTo_unpowering hkept 6 hsupply]

omit hdelays in
theorem State.linkTo_wanted_on (n : Nat) (htarget : (s.head h).link.target = .on) :
    s.linkTo (n + 1) h .on
      = (s.setHead h
          { s.head h with
            link := { (s.head h).link with
              state := .on, timer := none, pending := none, held := (s.head h).link.held ++ (s.head h).link.arrival }
            light := (s.head h).light.atOn }).raise (.link h) := by
  rw [State.linkTo_stays_on n, State.enterLink, Head.enter_wanted_on _ htarget]

/-- Without a signal delay SIGNALLING is left at once, for ON. -/
theorem State.linkTo_through_signalling (htarget : (s.head h).link.target = .on) (hsignal : d.signal = 0) :
    s.linkTo linkEntries h .signalling
      = (s.setHead h
          { s.head h with
            scan := (s.head h).scan.beginLine 0
            link := { (s.head h).link with
              state := .on, timer := none, pending := none, held := (s.head h).link.held ++ (s.head h).link.arrival }
            light := (s.head h).light.atOn }).raise (.link h) := by
  obtain ⟨_, hsignalling, _⟩ := Link.delayOf_of_delays hdelays
  rw [hsignal] at hsignalling
  have hentered : (s.enterLink h .signalling).head h = (s.head h).enter .signalling := State.head_setHead_same _ _ _
  rw [linkEntries, State.linkTo_passes 7 hsignalling (next := .on) (by rw [htarget]; rfl), State.linkTo_wanted_on 6, hentered,
    State.enterLink, State.setHead_setHead]
  · rfl
  · rw [hentered]
    exact htarget

omit hdelays in
theorem State.linkTo_wanted_off (htarget : (s.head h).link.target = .off) :
    s.linkTo linkEntries h .off
      = (s.setHead h
          { s.head h with
            link := { (s.head h).link with
              state := .off, timer := none, pending := none
              held := (s.head h).link.held ++ (s.head h).link.arrival } }).raise (.link h) := by
  rw [linkEntries, State.linkTo_off 7, if_neg (by rw [htarget]; exact nofun), State.enterLink, Head.enter_wanted_off _ htarget]

theorem State.linkTo_through_off (htarget : (s.head h).link.target = .on) (hsupply : 0 < d.supply) :
    s.linkTo linkEntries h .off
      = (s.setHead h
          { s.head h with link := { (s.head h).link with state := .powering, timer := some d.supply } }).raise
          (.link h) := by
  have hentered : (s.enterLink h .off).head h
      = { s.head h with link := { (s.head h).link with state := .off, timer := none } } :=
    (State.head_setHead_same _ _ _).trans (Head.enter_passing_off _ htarget)
  have hkept : ((s.enterLink h .off).head h).link.delays = some d := by rw [hentered]; exact hdelays
  rw [linkEntries, State.linkTo_off 7, if_pos htarget, State.linkTo_powering hkept 6 hsupply, hentered, State.enterLink,
    State.raise_setHead, State.setHead_setHead]

end

/-- Settles O57: the state and the target name the next entry, the delays how far the link goes on at once. -/
theorem linkStepsEnd : Obligations.LinkStepsEnd := by
  refine ⟨fun h s d hdevice htimer hd => ⟨fun hs ht hsignal => ?_, fun hs hsupply => ?_, fun hs ht => ?_,
    fun hs hsignal => ?_, fun hs ht => ?_, fun hs ht hsupply => ?_⟩,
    fun h s d hdevice htimer hd hsignal => ⟨fun hs ht => ?_, fun hs hsupply => ⟨_, rfl, ?_⟩⟩⟩
  · rw [exec_linkStepEnd_of_next hdevice htimer (by rw [hs, ht]; rfl), State.linkTo_signalling hd hsignal]
  · have hnext : afterStep (s.head h).link.state (s.head h).link.target = some .unpowering := by
      rcases hs with ⟨hs, ht⟩ | hs
      · rw [hs, ht]; rfl
      · rw [hs]; rfl
    rw [exec_linkStepEnd_of_next hdevice htimer hnext, linkEntries, State.linkTo_unpowering hd 7 hsupply]
  · rw [exec_linkStepEnd_of_next hdevice htimer (by rw [hs, ht]; rfl), linkEntries, State.linkTo_wanted_on 7 ht,
      State.raise_link, Light.atOn_eq]
    rfl
  · have hnext : afterStep (s.head h).link.state (s.head h).link.target = some .quiescing := by
      rcases hs with hs | ⟨hs, ht⟩
      · rw [hs]; rfl
      · rw [hs, ht]; rfl
    rw [exec_linkStepEnd_of_next hdevice htimer hnext, State.linkTo_quiescing hd hsignal]
  · rw [exec_linkStepEnd_of_next hdevice htimer (by rw [hs]; rfl), State.linkTo_wanted_off ht, State.raise_link]
    rfl
  · rw [exec_linkStepEnd_of_next hdevice htimer (by rw [hs]; rfl), State.linkTo_through_off hd ht hsupply,
      State.raise_link]
    rfl
  · rw [exec_linkStepEnd_of_next hdevice htimer (by rw [hs, ht]; rfl), State.linkTo_through_signalling hd ht hsignal,
      State.raise_link, Light.atOn_eq]
    rfl
  · rw [exec_linkStepEnd_of_next hdevice htimer (by rw [hs]; rfl), State.linkTo_through_quiescing hd hsignal hsupply rfl]

end Sys2Proof.Machine
end

