-- ==== Sys2Proof/Proofs/Pictures.lean ====
section
/-! SUPPORT. Pictures, frame counters and the registers the host alone sets: what the operations that commands are built
from, and the moves of a reaction, carry over of them. A band table comes into a head by staging alone, and from there goes
on into its queue and its active set. -/

namespace Sys2Proof.Machine

set_option Elab.async false

/-! ## Lawful pictures (R93, R104) -/

/-- The pictures of a head: the staged one, the active one, and the snapshots in its queue. -/
def Head.pictures (hd : Head) : List Picture :=
  hd.staging.picture :: hd.scan.active :: hd.present.entries.map Entry.snapshot

theorem Head.mem_pictures (hd : Head) (p : Picture) :
    p ∈ hd.pictures ↔
      p = hd.staging.picture ∨ p = hd.scan.active ∨ ∃ e ∈ hd.present.entries, e.snapshot = p := by
  simp only [Head.pictures, List.mem_cons, List.mem_map]

theorem State.picturesLawful_iff (s : State) :
    s.picturesLawful ↔ ∀ h : HeadId, ∀ p ∈ (s.head h).pictures, p.lawful := by
  simp only [State.picturesLawful, Head.mem_pictures, or_imp, forall_and, forall_eq, forall_exists_index, and_imp,
    forall_apply_eq_imp_iff₂]

theorem Picture.lawful_of_parts {bands : List Band} {background : Pixel} {mode : OutputMode} (hlen : bands.length ≤ 8)
    (horder : bandsAscend bands = true)
    (hparts : ∀ (k : Nat) (b : Band), bands[k]? = some b →
      1 ≤ b.lineCount ∧ 1 ≤ b.memExtent ∧ b.memBase + b.memExtent ≤ panelSide ∧ b.scroll < b.memExtent) :
    Picture.lawful { bands := bands, background := background, mode := mode } :=
  ⟨hlen, horder, fun b hb => by
    obtain ⟨k, hk⟩ := List.mem_iff_getElem?.mp hb
    exact hparts k b hk⟩

/-- The table of a BANDS record that passes its checks is lawful. -/
theorem Picture.lawful_of_bandsFields {slots : List (List Byte)} {heads : Two Head} {h : HeadId} {bands : List Band}
    {background : Pixel} (hf : bandsFields slots heads = some (h, bands, background)) (mode : OutputMode) :
    Picture.lawful { bands := bands, background := background, mode := mode } := by
  obtain ⟨_, _, _, _, hlen, ⟨t, _, hparts⟩, horder⟩ := (bandsFields_eq_some slots heads h bands background).mp hf
  refine Picture.lawful_of_parts hlen horder fun k b hb => ?_
  obtain ⟨_, _, _, _, _, _, _, _, hcount, _, _, hextent, hregion, hscroll, _⟩ := hparts k b hb
  exact ⟨hcount, hextent, hregion, hscroll⟩

/-- A scroll inside the region of its band keeps a table lawful. -/
theorem Picture.lawful.scrolled {p : Picture} (hp : p.lawful) {index scroll : Nat}
    (hscroll : ∀ b : Band, p.bands[index]? = some b → scroll < b.memExtent) :
    Picture.lawful { p with bands := scrollBand p.bands index scroll } := by
  obtain ⟨hlen, horder, hbands⟩ := hp
  have hat := scrollBand_getElem? p.bands index scroll
  have hold : ∀ (i : Nat) (b : Band), (scrollBand p.bands index scroll)[i]? = some b →
      ∃ a ∈ p.bands, b.screenFirst = a.screenFirst ∧ b.lineCount = a.lineCount ∧ b.memBase = a.memBase
        ∧ b.memExtent = a.memExtent ∧ b.scroll < a.memExtent ∧ p.bands[i]? = some a := fun i b hb => by
    rw [hat] at hb
    split at hb
    · rename_i hi
      obtain ⟨a, ha, rfl⟩ := Option.map_eq_some_iff.mp hb
      exact ⟨a, List.mem_of_getElem? ha, rfl, rfl, rfl, rfl, hscroll a (hi ▸ ha), ha⟩
    · obtain ⟨_, _, _, hin⟩ := hbands b (List.mem_of_getElem? hb)
      exact ⟨b, List.mem_of_getElem? hb, rfl, rfl, rfl, rfl, hin, hb⟩
  refine Picture.lawful_of_parts ((List.length_modify _ _ _).trans_le hlen) ?_ fun i b hb => ?_
  · rw [bandsAscend_iff_next] at horder ⊢
    intro i b d hb hd
    obtain ⟨a, _, hfirst, hcount, _, _, _, ha⟩ := hold i b hb
    obtain ⟨c, _, hnext, _, _, _, _, hc⟩ := hold (i + 1) d hd
    rw [hfirst, hcount, hnext]
    exact horder i a c ha hc
  · obtain ⟨a, ha, _, hcount, hbase, hextent, hin, _⟩ := hold i b hb
    obtain ⟨hone, hregion, hinside, _⟩ := hbands a ha
    rw [hcount, hbase, hextent]
    exact ⟨hone, hregion, hinside, hin⟩

/-! ## What is carried over -/

/-- A head whose pictures are all pictures of the head before, at the same frame. -/
structure Head.Carries (a b : Head) : Prop where
  pictures : b.pictures ⊆ a.pictures
  frame : b.scan.frame = a.scan.frame

/-- The registers that the host alone sets. -/
def Registers.hostSet (r : Registers) : Causes × Word × Word := (r.causeEnable, r.setupLo, r.setupHi)

/-- Lawful pictures stay lawful, the frame counters of the heads named `still` stand, and so do the registers the host alone
sets. -/
structure State.Carries (still : HeadId → Prop) (s t : State) : Prop where
  pictures : s.picturesLawful → t.picturesLawful
  frame : ∀ h : HeadId, still h → (t.head h).scan.frame = (s.head h).scan.frame
  hostSet : t.regs.hostSet = s.regs.hostSet

theorem Head.Carries.refl (a : Head) : a.Carries a := ⟨List.Subset.refl _, rfl⟩

theorem Head.Carries.trans {a b c : Head} (f : a.Carries b) (g : b.Carries c) : a.Carries c :=
  ⟨List.Subset.trans g.pictures f.pictures, g.frame.trans f.frame⟩

/-- A head that takes its pictures from those before. -/
theorem Head.Carries.of_parts {a b : Head} (hs : b.staging.picture ∈ a.pictures) (ha : b.scan.active ∈ a.pictures)
    (he : ∀ e ∈ b.present.entries, e.snapshot ∈ a.pictures) (hf : b.scan.frame = a.scan.frame) : a.Carries b := by
  refine ⟨fun p hp => ?_, hf⟩
  rcases (b.mem_pictures p).mp hp with rfl | rfl | ⟨e, hmem, rfl⟩
  · exact hs
  · exact ha
  · exact he e hmem

section
variable (hd : Head)

theorem Head.staged_mem : hd.staging.picture ∈ hd.pictures := (hd.mem_pictures _).mpr (.inl rfl)

theorem Head.active_mem : hd.scan.active ∈ hd.pictures := (hd.mem_pictures _).mpr (.inr (.inl rfl))

theorem Head.snapshot_mem {e : Entry} (he : e ∈ hd.present.entries) : e.snapshot ∈ hd.pictures :=
  (hd.mem_pictures _).mpr (.inr (.inr ⟨e, he, rfl⟩))

end

/-- A head that changes in its queue alone, to entries with snapshots as before. -/
theorem Head.Carries.of_entries {a b : Head} (hs : b.staging.picture = a.staging.picture)
    (hc : b.scan.active = a.scan.active) (hf : b.scan.frame = a.scan.frame)
    (he : ∀ e ∈ b.present.entries, ∃ d ∈ a.present.entries, d.snapshot = e.snapshot) : a.Carries b := by
  refine .of_parts (hs ▸ a.staged_mem) (hc ▸ a.active_mem) (fun e hmem => ?_) hf
  obtain ⟨d, hd, hsame⟩ := he e hmem
  exact hsame ▸ a.snapshot_mem hd

theorem Head.Carries.of_same {a b : Head} (hs : b.staging.picture = a.staging.picture)
    (hc : b.scan.active = a.scan.active) (hf : b.scan.frame = a.scan.frame)
    (he : b.present.entries = a.present.entries) : a.Carries b :=
  .of_entries hs hc hf fun e hmem => ⟨e, he ▸ hmem, rfl⟩

section
variable {still : HeadId → Prop}

theorem State.Carries.refl (s : State) : s.Carries still s := ⟨id, fun _ _ => rfl, rfl⟩

theorem State.Carries.trans {s t u : State} (f : s.Carries still t) (g : t.Carries still u) : s.Carries still u :=
  ⟨g.pictures ∘ f.pictures, fun h hh => (g.frame h hh).trans (f.frame h hh), g.hostSet.trans f.hostSet⟩

theorem State.Carries.of_heads {s t : State} (hr : t.regs.hostSet = s.regs.hostSet)
    (hh : ∀ h : HeadId, (s.head h).Carries (t.head h)) : s.Carries still t where
  pictures hs := by
    rw [State.picturesLawful_iff] at hs ⊢
    exact fun h p hp => hs h p ((hh h).pictures hp)
  frame h _ := (hh h).frame
  hostSet := hr

/-- A change of nothing that is carried over. -/
theorem State.Carries.of_same {s t : State} (hr : t.regs.hostSet = s.regs.hostSet) (hh : t.heads = s.heads) :
    s.Carries still t :=
  .of_heads hr fun h => by rw [State.head, State.head, hh]; exact .refl _

theorem State.Carries.setHead {s : State} {i : HeadId} {x : Head} (h : (s.head i).Carries x) :
    s.Carries still (s.setHead i x) := by
  refine .of_heads rfl fun j => ?_
  rw [State.head_setHead]
  split
  · rename_i e; exact e ▸ h
  · exact .refl _

theorem State.Carries.mapHeads {s : State} {f : Head → Head} (h : ∀ hd : Head, hd.Carries (f hd)) :
    s.Carries still { s with heads := s.heads.map f } :=
  .of_heads rfl fun i => by
    change (s.heads.get i).Carries ((s.heads.map f).get i)
    rw [Two.get_map]
    exact h _

/-- A lawful picture is staged. -/
theorem State.Carries.stage {s : State} {h : HeadId} {p : Picture} (hp : s.picturesLawful → p.lawful) :
    s.Carries still (s.stage h p) where
  pictures hs := by
    intro i
    rw [State.stage, State.head_setHead]
    split
    · obtain ⟨_, hactive, hentries⟩ := hs h
      exact ⟨hp hs, hactive, hentries⟩
    · exact hs i
  frame i _ := by
    rw [State.stage, State.head_setHead]
    split
    · rename_i e; rw [e]
    · rfl
  hostSet := rfl

end

/-! ## Heads -/

section
variable (hd : Head)

theorem Head.evaluated_carries (jobs : List Job) (streams : Four Stream) :
    hd.Carries { hd with present := hd.present.evaluated jobs streams } := by
  refine .of_entries rfl rfl rfl fun e he => ?_
  obtain ⟨d, hmem, rfl⟩ := List.mem_map.mp he
  refine ⟨d, hmem, ?_⟩
  unfold Entry.evaluated
  split <;> rfl

theorem missOldest_snapshot {es : List Entry} {e : Entry} (he : e ∈ missOldest es) :
    ∃ d ∈ es, d.snapshot = e.snapshot := by
  cases es with
  | nil => cases he
  | cons d rest =>
    rcases List.mem_cons.mp he with rfl | he
    · exact ⟨d, List.mem_cons_self, rfl⟩
    · exact ⟨e, List.mem_cons_of_mem d he, rfl⟩

theorem Entry.keptLatched_snapshot {d e : Entry} {flags : Flags} (he : e ∈ d.keptLatched flags) :
    e.snapshot = d.snapshot := by
  unfold Entry.keptLatched at he
  split at he
  · cases he
  · rw [List.mem_singleton.mp he]

/-- A latch step makes a snapshot of the queue the active picture. -/
theorem Head.latchStep_carries (h : HeadId) (kind : LatchKind) : hd.Carries (hd.latchStep h kind) := by
  by_cases hr : readyRun hd.present.entries kind hd.scan.frame = []
  · unfold Head.latchStep
    simp only [hr, List.drop_nil]
    cases kind with
    | immediate => exact .refl hd
    | blanking =>
      refine .of_entries rfl rfl rfl fun e he => ?_
      rcases List.mem_append.mp he with he | he
      · exact ⟨e, (List.takeWhile_sublist _).subset he, rfl⟩
      · obtain ⟨d, hmem, hsame⟩ := missOldest_snapshot he
        exact ⟨d, (List.dropWhile_sublist _).subset hmem, hsame⟩
  · obtain ⟨skipped, rest, target, copies, flags, hes, _, _, _, _, heq⟩ := hd.latchStep_target h kind hr
    have hin : ∀ e : Entry, e ∈ settledPart hd.present.entries ∨ e ∈ skipped ∨ e = target ∨ e ∈ rest →
        e ∈ hd.present.entries := fun e he => by
      rw [hes]
      simpa only [List.mem_append, List.mem_cons] using he
    rw [heq]
    refine .of_parts hd.staged_mem (hd.snapshot_mem (hin target (.inr (.inr (.inl rfl))))) (fun e he => ?_) rfl
    simp only [List.mem_append, List.mem_map] at he
    rcases he with ((he | ⟨d, hmem, rfl⟩) | he) | he
    · exact hd.snapshot_mem (hin e (.inl he))
    · exact hd.snapshot_mem (e := d) (hin d (.inr (.inl hmem)))
    · rw [Entry.keptLatched_snapshot he]
      exact hd.snapshot_mem (hin target (.inr (.inr (.inl rfl))))
    · exact hd.snapshot_mem (hin e (.inr (.inr (.inr he))))

/-- A staging reload takes its picture from the queue or the active set (R125). -/
theorem Head.reload_carries (b : Bool) : hd.Carries (hd.reload b) := by
  refine .of_parts ?_ ?_ (fun e he => ?_) (by rw [hd.reload_scan b])
  · have hpicture : (hd.reload b).staging.picture
        = match newestUnlatched hd.present.entries with
          | some e => e.snapshot
          | none => hd.scan.active := by
      unfold Head.reload
      dsimp only
      split <;> rfl
    rw [hpicture]
    split
    · rename_i e he
      exact hd.snapshot_mem (List.mem_reverse.mp (List.mem_of_find?_eq_some he))
    · exact hd.active_mem
  · rw [hd.reload_scan b]
    exact hd.active_mem
  · rw [hd.reload_present b] at he
    exact hd.snapshot_mem he

theorem Head.abandon_carries (h : HeadId) (k : StreamId) (counter : Word) (first : Option Word) :
    hd.Carries (hd.abandon h k counter first) :=
  .of_entries rfl rfl rfl fun e he => ⟨e, List.mem_of_mem_filter he, rfl⟩

theorem Head.abandonAndReload_carries (h : HeadId) (k : StreamId) (counter : Word) (first : Option Word) :
    hd.Carries (hd.abandonAndReload h k counter first) := by
  unfold Head.abandonAndReload
  dsimp only
  split
  · exact hd.abandon_carries h k counter first
  · exact (hd.abandon_carries h k counter first).trans (Head.reload_carries _ _)

theorem Head.withdrawn_carries (k : StreamId) : hd.Carries (hd.withdrawn k) := by
  obtain ⟨hpresent, hscan, hpicture, _⟩ := hd.withdrawn_same k
  exact .of_same hpicture (by rw [hscan]) (by rw [hscan]) (by rw [hpresent])

theorem Head.rewindBy_carries (k : StreamId) (point : Nat) (ring : Option Ring) :
    hd.Carries (hd.rewindBy k point ring) := by
  obtain ⟨_, hstaging, hpresent, hscan, _⟩ := hd.rewindBy_same k point ring
  exact .of_same (by rw [hstaging]) (by rw [hscan]) (by rw [hscan]) (by rw [hpresent])

theorem Head.ramp_carries : hd.Carries hd.ramp := by
  obtain ⟨_, hstaging, hpresent, hscan, _⟩ := hd.ramp_same
  exact .of_same (by rw [hstaging]) (by rw [hscan]) (by rw [hscan]) (by rw [hpresent])

theorem Head.blankingStart_carries (h : HeadId) (frozen : Bool) : hd.Carries (hd.blankingStart h frozen) := by
  unfold Head.blankingStart
  split
  · exact .refl hd
  · exact (hd.latchStep_carries h .blanking).trans (Head.ramp_carries _)

theorem Head.enter_carries (st : LinkState) : hd.Carries (hd.enter st) := by
  cases st <;> exact .of_same rfl rfl rfl rfl

theorem Head.written_carries (c : Completion) : hd.Carries { hd with present := hd.present.written c } := by
  refine .of_entries rfl rfl rfl fun e he => ⟨e, ?_, rfl⟩
  unfold Present.written at he
  split at he
  · exact he
  · exact (dropWritten_sublist c _).subset he

end

/-! ## Ends of records and jobs, leases and dispatches -/

section
variable {still : HeadId → Prop} (s : State)

theorem State.raise_carries (c : Cause) : s.Carries still (s.raise c) := .of_same rfl rfl

theorem State.finishAs_carries (k : StreamId) (ref : RecordRef) (kind : Byte) (o : Outcome) :
    s.Carries still (s.finishAs k ref kind o) :=
  .of_same rfl rfl

theorem State.finish_carries (k : StreamId) (o : Outcome) : s.Carries still (s.finish k o) :=
  .of_same (by rw [s.finish_regs k o]) (s.finish_heads k o)

theorem State.setPhase_carries (k : StreamId) (p : RecordPhase) : s.Carries still (s.setPhase k p) := .of_same rfl rfl

theorem State.setStream_carries (k : StreamId) (x : Stream) : s.Carries still (s.setStream k x) := .of_same rfl rfl

theorem State.dropCurrent_carries (k : StreamId) : s.Carries still (s.dropCurrent k) := .of_same rfl rfl

theorem State.handOn_carries (h : HeadId) (b : Bool) : s.Carries still (s.handOn h b) := by
  have hleased : ∀ l : Lease, s.Carries still (s.setHead h (Head.reload { s.head h with lease := l } b)) := fun l =>
    .setHead (.trans (b := { s.head h with lease := l }) (.of_same rfl rfl rfl rfl) (Head.reload_carries _ b))
  unfold State.handOn
  dsimp only
  split
  · exact hleased _
  · exact (hleased _).trans (State.finishAs_carries _ _ _ _ _)

theorem State.jobsRemoved_carries (jobs : List Job) : s.Carries still (s.jobsRemoved jobs) :=
  .of_heads rfl fun h => by
    rw [s.jobsRemoved_head jobs h]
    exact Head.evaluated_carries _ jobs s.streams

theorem State.endJob_carries (o : Outcome) : s.Carries still (s.endJob o) := by
  unfold State.endJob
  split
  · exact .refl s
  · split
    · exact .trans (t := { s with engine := .free }) (.of_same rfl rfl) (State.jobsRemoved_carries _ _)
    · exact .of_same rfl rfl

theorem State.haltByJob_carries (k : StreamId) (point : Nat) : s.Carries still (s.haltByJob k point) :=
  .of_heads rfl fun h => by
    rw [s.haltByJob_head k point h]
    exact (Head.withdrawn_carries _ k).trans (Head.rewindBy_carries _ k _ _)

theorem State.abandonFrom_carries (k : StreamId) (first : Option Word) : s.Carries still (s.abandonFrom k first) :=
  .of_heads rfl fun h => by
    rw [s.abandonFrom_head k first h]
    exact Head.abandonAndReload_carries _ h k _ first

theorem State.failJob_carries (status : Status) (written : Nat) : s.Carries still (s.failJob status written) := by
  unfold State.failJob
  split
  · exact .refl s
  · dsimp only
    refine .trans ?_ (State.abandonFrom_carries _ _ _)
    split
    · exact .of_same rfl rfl
    · refine .trans ?_ (State.haltByJob_carries _ _ _)
      exact .of_same rfl rfl

end

section
variable {still : HeadId → Prop} {s t : State}

/-- The snapshot of a commit is the staged picture (R114). -/
theorem State.dispatchPresent_carries {k : StreamId} (h : s.dispatchPresent k = some t) : s.Carries still t := by
  obtain ⟨c, r, u, e, _, _, _, rfl, he, rfl⟩ := s.dispatchPresent_some t k h
  refine .trans (State.setStream_carries s k _) (.setHead (.of_parts (Head.staged_mem _) (Head.active_mem _)
    (fun d hd => ?_) rfl))
  have hsnapshot : e.snapshot = (s.head r.head).staging.picture := by
    rw [he]
    unfold Entry.evaluated
    split <;> rfl
  rcases List.mem_append.mp hd with hd | hd
  · exact Head.snapshot_mem _ hd
  · rw [List.mem_singleton.mp hd, hsnapshot]
    exact Head.staged_mem (s.head r.head)

theorem State.dispatchPalette_carries {k : StreamId} (h : s.dispatchPalette k = some t) : s.Carries still t := by
  obtain ⟨_, _, _, _, _, _, _, rfl⟩ := s.dispatchPalette_some t k h
  refine .trans (.setHead ?_) (State.setPhase_carries _ k _)
  exact .of_same rfl rfl rfl rfl

theorem State.dispatchJob_carries {k : StreamId} (h : s.dispatchJob k = some t) : s.Carries still t := by
  obtain ⟨_, _, _, _, _, _, _, _, rfl⟩ := s.dispatchJob_some t k h
  exact .of_same rfl rfl

theorem State.placeFrom_carries {p : Placer} (h : s.placeFrom p = some t) : s.Carries still t := by
  have hplace : ∀ (u : State) (cs : List Completion), u.Carries still (u.place cs) := fun u cs => .of_same rfl rfl
  rcases s.placeFrom_cases t p h with ⟨_, _, _, rfl⟩ | ⟨_, _, _, _, _, rfl⟩ | ⟨_, _, _, _, _, rfl⟩
    | ⟨_, _, _, _, _, rfl⟩
  · exact (hplace s _).trans (State.jobsRemoved_carries _ _)
  · exact .of_same rfl rfl
  · refine .trans (.setHead ?_) (hplace _ _)
    exact .of_same rfl rfl rfl rfl
  · refine .trans (.setHead ?_) (hplace _ _)
    exact .of_same rfl rfl rfl rfl

/-! ## The moves of a reaction -/

theorem Follows.carries (m : Follows s t) : s.Carries still t := by
  cases m with
  | choose => exact .of_same rfl rfl
  | phase p => exact .of_same rfl rfl
  | pixelDone wrote => exact .of_same (by rw [s.pixelDone_regs wrote]) (s.pixelDone_heads wrote)
  | endJob o => exact s.endJob_carries o
  | failJob status written => exact s.failJob_carries status written
  | window j c w _ _ => exact .of_same rfl rfl
  | placed j m _ => exact .of_same rfl rfl

theorem FollowsAll.carries (m : FollowsAll s t) : s.Carries still t :=
  m.keeps (s.Carries still) (fun _ _ m h => h.trans m.carries) (.refl s)

theorem Starts.carries (m : Starts s t) : s.Carries still t := by
  cases m with
  | stop _ _ => exact .of_same rfl rfl
  | latch i _ _ _ => exact .setHead (Head.latchStep_carries _ i .immediate)
  | answer n a _ => exact .of_same rfl rfl
  | wait k c o _ _ _ => exact s.finish_carries k o
  | present _ k _ ht => exact State.dispatchPresent_carries ht
  | palette _ k _ ht => exact State.dispatchPalette_carries ht
  | job _ k _ ht => exact State.dispatchJob_carries ht
  | engine jobs _ _ => exact .of_same rfl rfl
  | place _ p ht => exact State.placeFrom_carries ht
  | grant _ ht =>
    obtain ⟨_, _, _, _, rfl⟩ := s.grant_some t ht
    exact .of_same rfl rfl
  | write _ ht =>
    obtain ⟨_, _, rfl⟩ := s.issueWrite_some t ht
    exact .of_same rfl rfl

theorem State.settleFor_carries (s : State) (n : Nat) : s.Carries still (s.settleFor n) :=
  State.settleFor_keeps_of_moves (s.Carries still) (fun _ _ m h => h.trans m.carries) (fun _ _ m h => h.trans m.carries) n
    s (.refl s)

theorem State.Carries.settle (h : s.Carries still t) : s.Carries still t.settle := h.trans (t.settleFor_carries _)

end

/-! ## Links and scan stops (R89, R131) -/

section
variable {still : HeadId → Prop}

theorem State.latchAll_carries (n : Nat) (h : HeadId) (s : State) : s.Carries still (State.latchAll n h s) := by
  induction n generalizing s with
  | zero => exact .refl s
  | succ n ih =>
    unfold State.latchAll
    split
    · rename_i t ht
      exact (Starts.carries (State.latchNow_moves h s t ht)).trans (ih t)
    · exact .refl s

theorem State.waitTried_carries (s : State) (k : StreamId) : s.Carries still (s.waitTried k) := by
  rcases s.waitTried_cases k with ⟨_, e⟩ | ⟨o, e⟩ <;> rw [e]
  · exact .refl s
  · exact s.finish_carries k o

theorem State.scanStopped_carries (s : State) (h : HeadId) : s.Carries still (s.scanStopped h) := by
  have hwaits : ∀ t : State, t.Carries still t.completeWaits := fun t =>
    (((t.waitTried_carries 0).trans (State.waitTried_carries _ 1)).trans (State.waitTried_carries _ 2)).trans
      (State.waitTried_carries _ 3)
  exact .trans (t := { s with jobs := bypassGates h s.jobs }) (.of_same rfl rfl)
    ((State.latchAll_carries _ h _).trans (hwaits _))

theorem State.enterLink_carries (s : State) (h : HeadId) (st : LinkState) : s.Carries still (s.enterLink h st) := by
  have henter : s.Carries still (s.setHead h ((s.head h).enter st)) := .setHead (Head.enter_carries _ st)
  cases st with
  | quiescing => exact henter.trans (State.scanStopped_carries _ h)
  | off => exact henter.trans (State.raise_carries _ _)
  | on => exact henter.trans (State.raise_carries _ _)
  | _ => exact henter

theorem State.linkTo_carries (n : Nat) (s : State) (h : HeadId) (st : LinkState) :
    s.Carries still (s.linkTo n h st) := by
  induction n generalizing s st with
  | zero => exact .refl s
  | succ n ih =>
    have henter := s.enterLink_carries (still := still) h st
    unfold State.linkTo
    dsimp only
    split
    · split
      · exact henter.trans (ih _ _)
      · exact henter
    · split
      · split
        · exact henter.trans (ih _ _)
        · exact henter
      · exact henter

theorem State.linkMove_carries (s : State) (h : HeadId) : s.Carries still (s.linkMove h) := by
  unfold State.linkMove
  dsimp only
  split
  · exact s.linkTo_carries _ h _
  · exact s.linkTo_carries _ h _
  · exact .refl s

theorem State.dispatchLink_carries (s : State) (k : StreamId) (ref : RecordRef) (h : HeadId) (target : LinkTarget) :
    s.Carries still (s.dispatchLink k ref h target) := by
  have hlinked : ∀ (t : State) (l : Link), t.Carries still (t.setHead h { t.head h with link := l }) := fun t l =>
    .setHead (.of_same rfl rfl rfl rfl)
  have hmoved := (hlinked s { (s.head h).link with pending := none, held := [], target := target }).trans
    (State.linkMove_carries _ h)
  unfold State.dispatchLink
  dsimp only
  split
  · exact hmoved.trans (.of_same rfl rfl)
  · exact (hmoved.trans (hlinked _ _)).trans (.of_same rfl rfl)

theorem State.dispatchLight_carries (s : State) (k : StreamId) (ref : RecordRef) (h : HeadId) (target : Nat) (dim : Bool)
    (step : Nat) : s.Carries still (s.dispatchLight k ref h target dim step) := by
  refine .trans (.setHead ?_) (.of_same rfl rfl)
  exact .of_same rfl rfl rfl rfl

end

end Sys2Proof.Machine
end

