-- ==== Sys2Proof/Proofs/PictureCommands.lean ====
section
/-! SUPPORT. What each command carries over of pictures, frame counters and the registers the host alone sets; that lawful
pictures stay lawful, and who changes a frame counter, CAUSE_ENABLE or the Setup Table address. -/

namespace Sys2Proof.Machine

set_option Elab.async false

/-! ## Slot reads and palette reads (R49, R111) -/

section
variable {still : HeadId → Prop} (s : State)

theorem State.examine_carries (k : StreamId) : s.Carries still (s.examine k) := by
  unfold State.examine
  split
  · exact .refl s
  · dsimp only
    split
    · exact s.finish_carries k _
    · split
      · exact .refl s
      · split
        · exact s.finish_carries k _
        · split
          · exact s.setPhase_carries k _
          · exact s.finish_carries k _

theorem State.fetchFailed_carries (k : StreamId) (n : Nat) : s.Carries still (s.fetchFailed k n) := by
  unfold State.fetchFailed
  split
  · exact s.finish_carries k _
  · split
    · exact s.finishAs_carries k _ _ _
    · exact .refl s

theorem State.slotAnswered_carries (answer : ReadAnswer (List Byte)) : s.Carries still (s.slotAnswered answer) := by
  unfold State.slotAnswered
  split
  · exact .refl s
  · rename_i read _
    have hread : s.Carries still { s with fetch := { s.fetch with read := none }, slotReads := s.slotReads + 1 } :=
      .of_same rfl rfl
    dsimp only
    split
    · exact .refl s
    · split
      · exact hread.settle
      · exact (hread.trans (State.fetchFailed_carries _ _ _)).settle
    · split
      · exact hread.settle
      · exact ((hread.trans (State.setStream_carries _ _ _)).trans (State.examine_carries _ _)).settle

theorem State.paletteAnswered_carries (h : HeadId) (i : Nat) (answer : ReadAnswer (BitVec 16)) :
    s.Carries still (s.paletteAnswered h i answer) := by
  have hstaged : ∀ st : Staging, st.picture = (s.head h).staging.picture →
      s.Carries still (s.setHead h { s.head h with staging := st }) := fun st hst =>
    .setHead (.of_same hst rfl rfl rfl)
  unfold State.paletteAnswered
  dsimp only
  split
  · exact .refl s
  · split
    · split
      · exact .refl s
      · exact ((hstaged _ (by rfl)).trans (State.finishAs_carries _ _ _ _ _)).settle
      · split
        · exact hstaged _ (by rfl)
        · exact ((hstaged _ (by rfl)).trans (State.finishAs_carries _ _ _ _ _)).settle
    · exact .refl s

/-! ## FLUSH and FAULT (R63, R79, R169) -/

theorem State.flushedJobs_carries (k : StreamId) : s.Carries still (s.flushedJobs k) :=
  .of_heads (by rw [s.flushedJobs_regs k]) fun h => by
    rw [s.flushedJobs_head k h]
    exact Head.withdrawn_carries _ k

theorem State.flushHead_carries (h : HeadId) (k : StreamId) : s.Carries still (s.flushHead h k) := by
  have habandoned := (s.head h).abandon_carries h k 0 none
  unfold State.flushHead
  dsimp only
  split
  · exact (State.Carries.setHead habandoned).trans (State.handOn_carries _ h _)
  · split
    · exact .setHead habandoned
    · exact .setHead (habandoned.trans (Head.reload_carries _ _))

theorem State.flushed_carries (k : StreamId) : s.Carries still (s.flushed k) := by
  rw [s.flushed_eq]
  exact ((s.flushedJobs_carries k).trans (State.flushHead_carries _ 0 k)).trans (State.flushHead_carries _ 1 k)

theorem State.enterFault_carries (origin : FaultOrigin) : s.Carries still (s.enterFault origin) :=
  .of_heads rfl fun h => by
    change (s.head h).Carries ((s.stopEngine.heads.map _).get h)
    rw [s.stopEngine_heads, Two.get_map]
    exact .of_same rfl rfl rfl rfl

/-! ## Register writes -/

theorem State.refuseControl_carries : s.Carries still s.refuseControl := s.raise_carries _

theorem State.startCommand_carries : s.Carries still s.startCommand := by
  unfold State.startCommand
  split
  · split
    · exact .of_same rfl rfl
    · exact .of_same rfl rfl
  · exact State.Carries.settle (.of_same rfl rfl)
  all_goals exact s.refuseControl_carries

theorem State.stopCommand_carries : s.Carries still s.stopCommand := by
  unfold State.stopCommand
  split
  · exact State.Carries.settle (.of_same rfl rfl)
  · exact s.refuseControl_carries

theorem State.resumeCommand_carries (k : StreamId) : s.Carries still (s.resumeCommand k) := by
  unfold State.resumeCommand
  split
  · exact (s.setStream_carries k _).settle
  · exact s.refuseControl_carries

theorem State.flushCommand_carries (k : StreamId) : s.Carries still (s.flushCommand k) := by
  unfold State.flushCommand
  split
  · exact (s.flushed_carries k).settle
  · exact s.refuseControl_carries

theorem State.postWrite_carries (value : Word) : s.Carries still (s.postWrite value) := by
  unfold State.postWrite
  dsimp only
  split
  · split
    · exact (s.setStream_carries _ _).settle
    · exact s.raise_carries _
  · exact s.raise_carries _

theorem State.retireWrite_carries (value : Word) : s.Carries still (s.retireWrite value) := by
  unfold State.retireWrite
  split
  · split
    · exact State.Carries.settle (.of_same rfl rfl)
    · exact s.raise_carries _
  · exact s.raise_carries _

theorem State.causeWritten_carries (value : Word) : s.Carries still (s.causeWritten value) := .of_same rfl rfl

/-- A place without a command. -/
theorem State.windowWrite_carries {offset : BitVec 6} {value : Word} (h : otherPlace offset value = true) :
    s.Carries still (s.windowWrite offset value) := by
  rw [s.windowWrite_of_otherPlace h]
  split
  · exact s.refuseControl_carries
  · exact .refl s

/-! ## The Setup Table load (R163 to R165) -/

theorem Head.loaded_carries (hd : Head) (quarters : List (List Byte)) (h : HeadId) :
    hd.Carries (hd.loaded quarters h) :=
  .of_same rfl rfl rfl rfl

theorem State.endLoad_carries (quarters : List (List Byte)) : s.Carries still (s.endLoad quarters) := by
  unfold State.endLoad
  split
  · refine State.Carries.settle (.of_heads rfl fun i => ?_)
    match i with
    | 0 => exact s.heads.at0.loaded_carries quarters 0
    | 1 => exact s.heads.at1.loaded_carries quarters 1
  · exact .of_same rfl rfl

theorem State.setupAnswered_carries (answer : ReadAnswer (List Byte)) : s.Carries still (s.setupAnswered answer) := by
  unfold State.setupAnswered
  split
  · exact .refl s
  · split
    · exact .refl s
    · exact s.enterFault_carries _
    · split
      · exact .of_same rfl rfl
      · exact s.endLoad_carries _

/-! ## The engine -/

theorem State.engineServed_carries : s.Carries still s.engineServed := by
  unfold State.engineServed
  split
  · split
    · refine State.Carries.settle (.trans ?_ (State.nextPixel_follows _).carries)
      exact .of_same (by simp) (by simp)
    · split
      · exact .of_same rfl rfl
      · exact .refl s
    all_goals exact .refl s
  · exact .refl s

theorem State.sourceAnswered_carries (n : Nat) (answer : ReadAnswer Word) : s.Carries still (s.sourceAnswered n answer) := by
  unfold State.sourceAnswered
  split
  · split
    · exact .refl s
    · exact State.Carries.settle (.of_same rfl rfl)
    · exact State.Carries.settle (.of_same rfl rfl)
  · exact .refl s

theorem State.wordAnswered_carries (answer : WriteAnswer) : s.Carries still (s.wordAnswered answer) := by
  unfold State.wordAnswered
  split
  · split
    · split
      · exact .refl s
      · exact ((Follows.pixelDone s true).carries.trans (State.nextPixel_follows _).carries).settle
      · exact (s.failJob_carries _ _).settle
    all_goals exact .refl s
  · exact .refl s

/-! ## Completion writes (R148, R152) -/

theorem State.completionWritten_carries (c : Completion) (rest : List Completion) :
    s.Carries still (s.completionWritten c rest) := by
  unfold State.completionWritten
  cases c.origin with
  | none => exact .of_same rfl rfl
  | some h => exact (State.Carries.setHead ((s.head h).written_carries c)).trans (.of_same rfl rfl)

theorem State.completionAnswered_carries (answer : WriteAnswer) : s.Carries still (s.completionAnswered answer) := by
  unfold State.completionAnswered
  split
  · split
    · exact .refl s
    · exact (s.completionWritten_carries _ _).settle
    · refine .trans ?_ (State.enterFault_carries _ _)
      exact .of_same rfl rfl
  · exact .refl s

/-! ## Scan and timebase (R84, R130) -/

theorem State.blanked_carries (h : HeadId) (frameCause : Bool) : s.Carries still (s.blanked h frameCause) := by
  have htold : s.Carries still
      (s.setHead h ((s.head h).blankingStart h (decide (s.regs.device = Device.fault)))) :=
    .setHead (Head.blankingStart_carries _ h _)
  unfold State.blanked
  dsimp only
  split
  · exact htold.trans (State.raise_carries _ _)
  · exact htold

theorem State.gatesFirst_carries (opened : Bool) : s.Carries still (s.gatesFirst opened) := by
  cases opened with
  | false => exact .refl s
  | true =>
    obtain ⟨n, _, h⟩ := s.gatesFirst_true
    rw [h]
    refine .trans ?_ (State.settleFor_carries _ n)
    rcases s.pick_state (s.workLeft + 1) with e | e <;> rw [e]
    · exact .refl s
    · exact .of_same rfl rfl

/-- A scan position that moves keeps the active picture, and the frame counters of the other heads. -/
theorem State.setScan_carries (h : HeadId) (sc : Scan) (hactive : sc.active = (s.head h).scan.active) (hstill : ¬ still h) :
    s.Carries still (s.setHead h { s.head h with scan := sc }) where
  pictures hs := by
    intro i
    rw [State.head_setHead]
    split
    · obtain ⟨hstaged, hshown, hentries⟩ := hs h
      exact ⟨hstaged, hactive ▸ hshown, hentries⟩
    · exact hs i
  frame i hi := by
    have hne : i ≠ h := fun e => hstill (e ▸ hi)
    rw [State.head_setHead, if_neg hne]
  hostSet := rfl

theorem State.lineStarted_carries (h : HeadId) (hstill : ¬ still h) : s.Carries still (s.lineStarted h) := by
  unfold State.lineStarted
  dsimp only
  split
  · exact .refl s
  · rename_i t _
    split
    · have hactive : (((s.head h).scan.endLine s.panel).advanced t).active = (s.head h).scan.active := by
        rw [Scan.endLine_advanced]
        rfl
      have hmoved : ∀ jobs : List Job, s.Carries still
          { s.setHead h { s.head h with scan := ((s.head h).scan.endLine s.panel).advanced t } with jobs := jobs } :=
        fun jobs => (s.setScan_carries h _ hactive hstill).trans (.of_same rfl rfl)
      split
      · exact (((hmoved _).trans (State.gatesFirst_carries _ _)).trans (State.blanked_carries _ h _)).settle
      · exact (hmoved _).settle
    · exact .refl s

theorem State.scanServed_carries (h : HeadId) : s.Carries still (s.scanServed h) := by
  unfold State.scanServed
  dsimp only
  split
  · split
    · exact .setHead (.of_same rfl rfl rfl rfl)
    · exact .refl s
  · exact .refl s

theorem State.ticked_carries : s.Carries still s.ticked := .mapHeads fun _ => .of_same rfl rfl rfl rfl

end

theorem State.takeDue_carries {still : HeadId → Prop} {s t : State} {d : Due} (e : s.takeDue d = some t) :
    s.Carries still t := by
  cases d with
  | step h =>
    simp only [State.takeDue, State.endStep] at e
    split at e
    · obtain ⟨st, _, rfl⟩ := Option.map_eq_some_iff.mp e
      exact (s.linkTo_carries _ h st).settle
    · cases e
  | waiter h k =>
    simp only [State.takeDue, State.expire] at e
    split at e
    · obtain ⟨w, _, rfl⟩ := Option.map_eq_some_iff.mp e
      have hwithdrawn : s.Carries still (s.setHead h (Head.withdraw (s.head h) k)) :=
        .setHead (.of_same rfl rfl rfl rfl)
      exact (hwithdrawn.trans (State.finishAs_carries _ k w.ref _ _)).settle
    · cases e

theorem State.getD_carries {still : HeadId → Prop} (s : State) (d : Due) :
    s.Carries still ((s.takeDue d).getD s) := by
  cases h : s.takeDue d with
  | none => exact .refl s
  | some t => exact State.takeDue_carries h

/-! ## Record commands -/

/-- A command answers a next state that carries over what it found. -/
def State.CarriesTo (still : HeadId → Prop) (s : State) (a : Answer) : Prop :=
  ∃ t : State, a = .next t ∧ s.Carries still t

theorem State.Carries.next {still : HeadId → Prop} {s t : State} (h : s.Carries still t) :
    s.CarriesTo still (.next t) :=
  ⟨t, rfl, h⟩

section
variable {still : HeadId → Prop} (s : State) (k : StreamId)

theorem State.badField_carries : s.Carries still (s.badField k) := s.finish_carries k _

theorem State.notOwner_carries : s.Carries still (s.notOwner k) := s.finish_carries k _

/-- A record that stages a picture ends DONE. -/
theorem State.stage_finish_carries {h : HeadId} {p : Picture} (hp : s.picturesLawful → p.lawful) :
    s.Carries still ((s.stage h p).finish k { status := .done }).settle :=
  ((State.Carries.stage hp).trans (State.finish_carries _ k _)).settle

theorem State.takeJob_carries (kind : Kind) : s.Carries still (s.takeJob k kind) := by
  unfold State.takeJob
  split
  · exact .refl s
  · split
    · exact (s.badField_carries k).settle
    · split
      · rename_i ht; exact (State.dispatchJob_carries ht).settle
      · exact (s.setPhase_carries k _).settle

theorem State.decideClaim_carries (c : CurrentRecord) (r : ClaimRecord) : s.Carries still (s.decideClaim k c r) := by
  have hleased : ∀ l : Lease, s.Carries still (s.setHead r.head { s.head r.head with lease := l }) := fun l =>
    .setHead (.of_same rfl rfl rfl rfl)
  unfold State.decideClaim
  dsimp only
  split
  · exact (hleased _).trans (State.finish_carries _ k _)
  · split
    · exact s.finish_carries k _
    · split
      · exact (hleased _).trans (State.setPhase_carries _ k _)
      · exact s.finish_carries k _

theorem execClaim_carries : s.CarriesTo still (execClaim k s) := by
  unfold execClaim
  split
  · exact (State.Carries.refl s).next
  · split
    · exact (s.badField_carries k).settle.next
    · exact (s.decideClaim_carries k _ _).settle.next

theorem execRelease_carries : s.CarriesTo still (execRelease k s) := by
  unfold execRelease
  split
  · exact (State.Carries.refl s).next
  · split
    · exact (s.badField_carries k).settle.next
    · split
      · exact ((s.finish_carries k _).trans (State.handOn_carries _ _ _)).settle.next
      · exact (s.notOwner_carries k).settle.next

theorem execBands_carries : s.CarriesTo still (execBands k s) := by
  unfold execBands
  split
  · exact (State.Carries.refl s).next
  · split
    · exact (s.badField_carries k).settle.next
    · rename_i hf
      split
      · exact (s.stage_finish_carries k fun _ => Picture.lawful_of_bandsFields hf _).next
      · exact (s.notOwner_carries k).settle.next

theorem execScroll_carries : s.CarriesTo still (execScroll k s) := by
  unfold execScroll
  split
  · exact (State.Carries.refl s).next
  · split
    · exact (s.badField_carries k).settle.next
    · rename_i h index scroll hf
      split
      · obtain ⟨_, _, _, b, hb, hin⟩ := (scrollFields_eq_some _ _ _ _ _).mp hf
        have hscroll : ∀ a : Band, (s.head h).staging.picture.bands[index]? = some a → scroll < a.memExtent :=
          fun a ha => Option.some.inj (hb.symm.trans ha) ▸ hin
        exact (s.stage_finish_carries k fun hs => Picture.lawful.scrolled (hs h).1 hscroll).next
      · exact (s.notOwner_carries k).settle.next

theorem execOutput_carries : s.CarriesTo still (execOutput k s) := by
  unfold execOutput
  split
  · exact (State.Carries.refl s).next
  · split
    · exact (s.badField_carries k).settle.next
    · rename_i h mode _
      split
      · have hstaged : s.picturesLawful → Picture.lawful { (s.head h).staging.picture with mode := mode } := fun hs =>
          (hs h).1
        exact (s.stage_finish_carries k hstaged).next
      · exact (s.notOwner_carries k).settle.next

theorem execPalette_carries : s.CarriesTo still (execPalette k s) := by
  unfold execPalette
  split
  · exact (State.Carries.refl s).next
  · split
    · exact (s.badField_carries k).settle.next
    · split
      · split
        · rename_i ht; exact (State.dispatchPalette_carries ht).settle.next
        · exact (s.setPhase_carries k _).settle.next
      · exact (s.notOwner_carries k).settle.next

theorem execPresent_carries : s.CarriesTo still (execPresent k s) := by
  unfold execPresent
  split
  · exact (State.Carries.refl s).next
  · split
    · exact (s.badField_carries k).settle.next
    · split
      · split
        · rename_i ht; exact (State.dispatchPresent_carries ht).settle.next
        · exact (s.setPhase_carries k _).settle.next
      · exact (s.notOwner_carries k).settle.next

theorem execLink_carries : s.CarriesTo still (execLink k s) := by
  unfold execLink
  split
  · exact (State.Carries.refl s).next
  · split
    · exact (s.badField_carries k).settle.next
    · split
      · exact (s.dispatchLink_carries k _ _ _).settle.next
      · exact (s.notOwner_carries k).settle.next

theorem execLight_carries : s.CarriesTo still (execLight k s) := by
  unfold execLight
  split
  · exact (State.Carries.refl s).next
  · split
    · exact (s.badField_carries k).settle.next
    · split
      · exact (s.dispatchLight_carries k _ _ _ _ _).settle.next
      · exact (s.notOwner_carries k).settle.next

theorem execWait_carries : s.CarriesTo still (execWait k s) := by
  unfold execWait
  split
  · exact (State.Carries.refl s).next
  · split
    · exact (s.badField_carries k).settle.next
    · split
      · exact (s.finish_carries k _).settle.next
      · exact (s.setPhase_carries k _).settle.next

theorem execNote_carries : s.CarriesTo still (execNote k s) := by
  unfold execNote
  split
  · exact (State.Carries.refl s).next
  · exact (s.finish_carries k _).settle.next

theorem execMillisecondMark_carries : s.CarriesTo still (execMillisecondMark s) := by
  unfold execMillisecondMark
  split
  · exact (State.Carries.refl s).next
  · refine State.Carries.next (.trans ?_ (State.ticked_carries _))
    exact State.takeAllDue_keeps (s.Carries still) (fun u hu => hu.trans (.of_same rfl rfl))
      (fun u t d e hu => hu.trans (State.takeDue_carries e)) _ s (.refl s)

end

/-! ## Every command -/

/-- The commands that set registers or heads anew: both resets, the writes of CAUSE_ENABLE and of the Setup Table address,
and a window write at a place that has a command. -/
def setsAnew : Instr → Bool
  | .powerOnReset => true
  | .reset => true
  | .causeEnableWrite _ => true
  | .setupAddressWrite _ _ => true
  | .registerWriteOther offset value => !otherPlace offset value
  | _ => false

/-- A frame counter stands at every command but its head's line start. -/
theorem exec_carries (i : Instr) (s : State) (hi : setsAnew i = false) :
    s.CarriesTo (fun h => i ≠ .lineStart h) (exec i s) := by
  cases i with
  | powerOnReset => cases hi
  | reset => cases hi
  | causeEnableWrite value => cases hi
  | setupAddressWrite half value => cases hi
  | registerWriteOther offset value => exact (s.windowWrite_carries ((Bool.not_eq_false' _).mp hi)).next
  | start => exact s.startCommand_carries.next
  | stop => exact s.stopCommand_carries.next
  | resume k => exact (s.resumeCommand_carries k).next
  | flush k => exact (s.flushCommand_carries k).next
  | post value => exact (s.postWrite_carries value).next
  | retire value => exact (s.retireWrite_carries value).next
  | causeWrite value => exact (s.causeWritten_carries value).next
  | setupReadAnswer answer => exact (s.setupAnswered_carries answer).next
  | slotReadAnswer answer => exact (s.slotAnswered_carries answer).next
  | window k => exact (s.takeJob_carries k .window).next
  | transfer k => exact (s.takeJob_carries k .transfer).next
  | fill k => exact (s.takeJob_carries k .fill).next
  | readback k => exact (s.takeJob_carries k .readback).next
  | claim k => exact execClaim_carries s k
  | release k => exact execRelease_carries s k
  | bands k => exact execBands_carries s k
  | scroll k => exact execScroll_carries s k
  | output k => exact execOutput_carries s k
  | palette k => exact execPalette_carries s k
  | paletteReadAnswer h n answer => exact (s.paletteAnswered_carries h n answer).next
  | present k => exact execPresent_carries s k
  | link k => exact execLink_carries s k
  | light k => exact execLight_carries s k
  | wait k => exact execWait_carries s k
  | note k => exact execNote_carries s k
  | engineAccessServed => exact s.engineServed_carries.next
  | sourceReadAnswer n answer => exact (s.sourceAnswered_carries n answer).next
  | readbackWordAnswer answer => exact (s.wordAnswered_carries answer).next
  | completionWriteAnswer answer => exact (s.completionAnswered_carries answer).next
  | lineStart h => exact (s.lineStarted_carries h fun hne => hne rfl).next
  | millisecondMark => exact execMillisecondMark_carries s
  | waiterExpiry h k => exact (s.getD_carries (.waiter h k)).next
  | linkStepEnd h => exact (s.getD_carries (.step h)).next
  | scanReadServed h => exact (s.scanServed_carries h).next

theorem carries_of_exec {i : Instr} {s t : State} (hi : setsAnew i = false) (he : exec i s = .next t) :
    s.Carries (fun h => i ≠ .lineStart h) t := by
  obtain ⟨u, hu, hcarries⟩ := exec_carries i s hi
  obtain rfl : t = u := Host.Outcome.next.inj (he.symm.trans hu)
  exact hcarries

/-! ## Lawful pictures stay lawful -/

/-- RESET stages the active picture and empties the queue (R168). -/
theorem State.afterReset_picturesLawful {s : State} (hs : s.picturesLawful) : s.afterReset.picturesLawful := fun h => by
  rw [s.afterReset_head h]
  obtain ⟨_, hactive, _⟩ := hs h
  exact ⟨hactive, hactive, fun _ he => nomatch he⟩

theorem State.addressWritten_heads (s : State) (half : AddressHalf) (value : Word) :
    (s.addressWritten half value).heads = s.heads := by
  cases half <;> rfl

theorem State.picturesLawful_of_heads {s t : State} (hh : t.heads = s.heads) (hs : s.picturesLawful) :
    t.picturesLawful := fun h => by
  rw [State.head, hh]
  exact hs h

/-- A write at any place of the window, also one that spells a command. -/
theorem State.windowWrite_picturesLawful {s : State} (offset : BitVec 6) (value : Word) (hs : s.picturesLawful) :
    (s.windowWrite offset value).picturesLawful := by
  have hcarried : ∀ {t : State}, s.Carries (fun _ => True) t → t.picturesLawful := fun h => h.pictures hs
  unfold State.windowWrite
  split
  · exact hcarried s.startCommand_carries
  · exact hcarried s.stopCommand_carries
  · exact State.afterReset_picturesLawful hs
  · exact hcarried (s.resumeCommand_carries _)
  · exact hcarried (s.flushCommand_carries _)
  · exact hcarried (s.postWrite_carries _)
  · exact hcarried (s.retireWrite_carries _)
  · exact hcarried (s.causeWritten_carries _)
  · exact State.picturesLawful_of_heads rfl hs
  · exact State.picturesLawful_of_heads (s.addressWritten_heads _ _) hs
  · split
    · exact hcarried s.refuseControl_carries
    · exact hs

theorem exec_picturesLawful {i : Instr} {s t : State} (hs : s.picturesLawful) (he : exec i s = .next t) :
    t.picturesLawful := by
  by_cases hi : setsAnew i = false
  · exact (carries_of_exec hi he).pictures hs
  · cases i with
    | powerOnReset =>
      obtain rfl := Host.Outcome.next.inj he
      exact State.reset_picturesLawful
    | reset =>
      obtain rfl := Host.Outcome.next.inj he
      exact State.afterReset_picturesLawful hs
    | causeEnableWrite value =>
      obtain rfl := Host.Outcome.next.inj he
      exact State.picturesLawful_of_heads rfl hs
    | setupAddressWrite half value =>
      obtain rfl := Host.Outcome.next.inj he
      exact State.picturesLawful_of_heads (s.addressWritten_heads half value) hs
    | registerWriteOther offset value =>
      obtain rfl := Host.Outcome.next.inj he
      exact State.windowWrite_picturesLawful offset value hs
    | _ => exact absurd rfl hi

theorem step_picturesLawful {s t : State} (hs : s.picturesLawful) (h : step s = .next t) : t.picturesLawful := by
  rcases step_cases s t h with rfl | ⟨i, rest, he⟩
  · exact hs
  · exact exec_picturesLawful (s := { s with pending := rest }) hs he

/-- A band of a lawful table shows lines of panel memory. -/
theorem Picture.lawful.memoryLine_lt {p : Picture} (hp : p.lawful) {b : Band} (hb : b ∈ p.bands) (y : Nat) :
    b.memoryLine y < panelSide := by
  obtain ⟨_, _, hbands⟩ := hp
  obtain ⟨_, hextent, hregion, _⟩ := hbands b hb
  obtain ⟨_, hline⟩ := b.memoryLine_mem y hextent
  exact hline.trans_le hregion

/-- Settles O11: every step carries lawful pictures over, and the order of a lawful table leaves one band to a line. -/
theorem picturesStayLawful : Obligations.PicturesStayLawful := by
  refine ⟨fun s t hs h => step_picturesLawful hs h, fun p hp y a b ha hb hay hby => ?_⟩
  have hline := Picture.lawful.memoryLine_lt hp ha y
  obtain ⟨_, horder, _⟩ := hp
  exact ⟨eq_of_covers horder ha hb hay hby, bandAt_eq_some horder ha hay, hline⟩

/-! ## Who changes the counters and the registers the host alone sets -/

/-- What a well-formed command leaves of the frame counters, where it is neither reset. -/
theorem exec_frame {i : Instr} {s t : State} {h : HeadId} (hw : i.wellFormed = true) (hl : i ≠ .lineStart h)
    (hr : i ≠ .reset) (hp : i ≠ .powerOnReset) (he : exec i s = .next t) :
    (t.head h).scan.frame = (s.head h).scan.frame := by
  by_cases hi : setsAnew i = false
  · exact (carries_of_exec hi he).frame h hl
  · cases i with
    | powerOnReset => exact absurd rfl hp
    | reset => exact absurd rfl hr
    | causeEnableWrite value =>
      obtain rfl := Host.Outcome.next.inj he
      rfl
    | setupAddressWrite half value =>
      obtain rfl := Host.Outcome.next.inj he
      exact congrArg (fun heads : Two Head => (heads.get h).scan.frame) (s.addressWritten_heads half value)
    | registerWriteOther offset value => exact absurd ((Bool.not_eq_false' _).mpr hw) hi
    | _ => exact absurd rfl hi

/-- What a well-formed command other than power-on leaves of CAUSE_ENABLE and the Setup Table address. -/
theorem exec_hostSet {i : Instr} {s t : State} (hw : i.wellFormed = true) (hp : i ≠ .powerOnReset)
    (he : exec i s = .next t) :
    ((∀ v, i ≠ .causeEnableWrite v) → t.regs.causeEnable = s.regs.causeEnable)
      ∧ ((∀ v, i ≠ .setupAddressWrite .low v) → t.regs.setupLo = s.regs.setupLo)
      ∧ ((∀ v, i ≠ .setupAddressWrite .high v) → t.regs.setupHi = s.regs.setupHi) := by
  by_cases hi : setsAnew i = false
  · have hsame := (carries_of_exec hi he).hostSet
    simp only [Registers.hostSet, Prod.mk.injEq] at hsame
    obtain ⟨henable, hlow, hhigh⟩ := hsame
    exact ⟨fun _ => henable, fun _ => hlow, fun _ => hhigh⟩
  · cases i with
    | powerOnReset => exact absurd rfl hp
    | reset =>
      obtain rfl := Host.Outcome.next.inj he
      exact ⟨fun _ => rfl, fun _ => rfl, fun _ => rfl⟩
    | causeEnableWrite value =>
      obtain rfl := Host.Outcome.next.inj he
      exact ⟨fun h => absurd rfl (h value), fun _ => rfl, fun _ => rfl⟩
    | setupAddressWrite half value =>
      obtain rfl := Host.Outcome.next.inj he
      cases half with
      | low => exact ⟨fun _ => rfl, fun h => absurd rfl (h value), fun _ => rfl⟩
      | high => exact ⟨fun _ => rfl, fun _ => rfl, fun h => absurd rfl (h value)⟩
    | registerWriteOther offset value => exact absurd ((Bool.not_eq_false' _).mpr hw) hi
    | _ => exact absurd rfl hi

/-- Settles O12: what each command carries over, and the commands that set these anew one by one. -/
theorem countersAndEnablesHaveOneOwner : Obligations.CountersAndEnablesHaveOneOwner :=
  ⟨fun _ _ _ _ hw hl hr hp he => exec_frame hw hl hr hp he, fun _ _ _ hw hp he => exec_hostSet hw hp he⟩

end Sys2Proof.Machine
end
